-- ==== Sys2Proof/Word.lean ====
section
/-! DEFINITION. The value types of the block (spec R12, R14): binary64 patterns, signed 64-bit
registers, 7-bit codewords, complex pairs, and the fields of a binary64 pattern. All arithmetic is in
`Sys2Proof/Machine/Float.lean`. -/

namespace Sys2Proof

abbrev Byte := BitVec 8

/-- A signed two's-complement 64-bit register value (R14, D18). Read with `BitVec.toInt`. -/
abbrev I64 := BitVec 64

/-- A CCIR-476 codeword, 0..127 (R12 `code7`). -/
abbrev Code7 := BitVec 7

/-- An output record (R86). -/
abbrev Rec16 := BitVec 16

/-- Seven soft bits, `v[0]` the earliest received (R15). Each is an exact integer. -/
abbrev Soft7 := Vector Int 7

/-- An IEEE 754 binary64 number (R12 `f64`), as its bit pattern: bit 63 the sign, bits 62..52 the
biased exponent, bits 51..0 the fraction (R83). -/
structure F64 where
  bits : BitVec 64
deriving DecidableEq, Repr, Inhabited

/-- A complex sample, a pair of binary64 numbers (R25, R102). -/
structure Cplx where
  re : F64
  im : F64
deriving DecidableEq, Repr, Inhabited

/-- The two datapaths (R63, R102): the mark branch and the space branch. -/
inductive Branch where
  | mark
  | space
deriving DecidableEq, Repr, Inhabited

namespace F64

/-- The sign bit. -/
def sign (x : F64) : Bool := x.bits.msb

/-- The biased exponent field, 0..2047. -/
def expField (x : F64) : Nat := (x.bits.extractLsb' 52 11).toNat

/-- The fraction field. -/
def frac (x : F64) : Nat := (x.bits.extractLsb' 0 52).toNat

/-- The low 63 bits: the pattern of the absolute value. -/
def absBits (x : F64) : Nat := (x.bits.extractLsb' 0 63).toNat

def isFinite (x : F64) : Bool := x.expField != 2047
def isNaN (x : F64) : Bool := x.expField == 2047 && x.frac != 0
def isInf (x : F64) : Bool := x.expField == 2047 && x.frac == 0

end F64

/-- Both components are finite. -/
def Cplx.isFinite (z : Cplx) : Bool := z.re.isFinite && z.im.isFinite

/-- `n` fits a signed 64-bit register (R232). -/
def fitsI64 (n : Int) : Bool := decide (-(2 ^ 63 : Int) ≤ n) && decide (n < (2 ^ 63 : Int))

end Sys2Proof
end

