-- ==== Sys2Proof/Syntax.lean ====
section
/-! DEFINITION. The block's 30 operations (spec R2, R88: two host commands and 28 internal operations), the
transactions that carry them, and the transaction syntax of R90. -/

namespace Sys2Proof

/-- The internal operations of R88. The identifier is only a name: a fault record carries it (R230). -/
inductive StepId where
  | scale | mix | ncoAdv | lpfPush | lpfBlock
  | mag | envUpd | noiseUpd | nfloor | clip | atc | softbit | accum | cntInc
  | evtEarly | evtLate | evtPrompt | realign
  | bitIn | smSyncSetup | smSync | smReadData | findAlpha | bitsToCode | validChar
  | processBytes | flipSmallest | processChar
deriving DecidableEq, Repr, Inhabited

/-- One constructor per row of `spec/opcode_table.json`. The operands are those the operation's rule lists
under "Operands" and that are not registers. -/
inductive Instr where
  /-- RESET (R100, R82): `SAMPLE_RATE`, `REVERSE`, `ONLY_SITOR_B` and the reserved bits [63:34]. -/
  | reset (fs : BitVec 32) (reverse onlySitorB : Bool) (reserved : BitVec 30)
  /-- SAMPLE (R101, R83): the binary64 pattern of the input sample. -/
  | sample (x : F64)
  /-- SCALE (R103). -/
  | scale (x : F64)
  /-- MIX (R105): the branch names the phase register that is read. -/
  | mix (br : Branch) (z : Cplx)
  /-- NCO_ADV (R106). -/
  | ncoAdv
  /-- LPF_PUSH (R108): the filter and the complex sample. -/
  | lpfPush (br : Branch) (u : Cplx)
  /-- LPF_BLOCK (R110): the filter. -/
  | lpfBlock (br : Branch)
  /-- MAG (R131): a filtered pair. -/
  | mag (y : Cplx)
  /-- ENV_UPD (R132): the mark and space magnitudes. -/
  | envUpd (m sp : F64)
  /-- NOISE_UPD (R133): the mark and space magnitudes. -/
  | noiseUpd (m sp : F64)
  /-- NFLOOR (R134). -/
  | nfloor
  /-- CLIP (R135): the mark and space magnitudes and the noise floor. -/
  | clip (m sp nf : F64)
  /-- ATC (R136): the clipped magnitudes and the noise floor. -/
  | atc (mc sc nf : F64)
  /-- SOFTBIT (R137): the likelihood L. -/
  | softbit (l : F64)
  /-- ACCUM (R138): the soft bit, any integer; a sum that does not fit is the operation's own INT_RANGE. -/
  | accum (b : Int)
  /-- CNT_INC (R139). -/
  | cntInc
  /-- EVT_EARLY (R151): the time t. -/
  | evtEarly (t : F64)
  /-- EVT_LATE (R152): the time t. -/
  | evtLate (t : F64)
  /-- EVT_PROMPT (R153): the time t. -/
  | evtPrompt (t : F64)
  /-- REALIGN (R155): the time t. -/
  | realign (t : F64)
  /-- BIT_IN (R176): one soft bit, any integer; one that does not fit `BITBUF` is the operation's own INT_RANGE. -/
  | bitIn (v : Int)
  /-- SM_SYNC_SETUP (R177). -/
  | smSyncSetup
  /-- SM_SYNC (R178). -/
  | smSync
  /-- SM_READ_DATA (R179). -/
  | smReadData
  /-- FIND_ALPHA (R180). -/
  | findAlpha
  /-- BITS_TO_CODE (R170): seven soft bits. -/
  | bitsToCode (v : Soft7)
  /-- VALID_CHAR (R171): seven soft bits. -/
  | validChar (v : Soft7)
  /-- PROCESS_BYTES (R200): the buffer index c. -/
  | processBytes (c : BitVec 7)
  /-- FLIP_SMALLEST (R205): seven soft bits. -/
  | flipSmallest (v : Soft7)
  /-- PROCESS_CHAR (R210): the codeword and the 3-bit PATH value, any of either: R210 says that the codeword is
  always valid, and R87 that PATH 0 and 7 are never emitted, and neither says what this operation does with the others
  (DESIGN CHOICE, log entry 21). -/
  | processChar (code : Code7) (path : BitVec 3)
deriving DecidableEq, Repr, Inhabited

/-- One transaction. -/
inductive Tx where
  /-- A 66-bit host command word (R80). -/
  | command (w : BitVec 66)
  /-- A model-level stimulus (R90): one internal operation run alone, its step identifier (R88) and its operand
  bytes (log entry 1). -/
  | stimulus (id : Byte) (operands : List Byte)
deriving DecidableEq, Repr, Inhabited

/-- One thing the host does (R243). -/
inductive HostEvent where
  | issue (tx : Tx)
  /-- The host removes the oldest record of `OUT`. -/
  | drain
deriving DecidableEq, Repr, Inhabited

/-- One line of the transaction syntax of R90. -/
inductive Line where
  /-- `RESET fs=<decimal> reverse=<0|1> sitor=<0|1>` -/
  | reset (fs : BitVec 32) (reverse sitor : Bool)
  /-- `SAMPLE <binary64 literal>` -/
  | sample (x : F64)
  /-- `SAMPLE*<n> <literal>` -/
  | sampleTimes (n : Nat) (x : F64)
  /-- `SAMPLES [x0, x1, ...]` -/
  | samples (xs : List F64)
  /-- `BIT <int>` -/
  | bit (v : Int)
  /-- `BITS <slot list>` with its amplitude -/
  | bits (codes : List Code7) (amplitude : Int := 10)
deriving DecidableEq, Repr, Inhabited

end Sys2Proof
end

