-- ==== Sys2Proof/WellFormed.lean ====
section
/-! DEFINITION. Well-formed operands. Seven soft bits fit the signed 64-bit carrier of a buffer entry each (R14,
D18). No other operand has an ill-formed value: every payload of a host command is decodable (R84) and its checks
are the command's own; an integer that does not fit its register (R232) and a binary64 number that is not finite
(R234; log entry 13) raise the block's own fault when the operation runs. -/

namespace Sys2Proof

/-- Every soft bit fits a signed 64-bit entry. -/
def Soft7.fits (v : Soft7) : Bool := v.toList.all fitsI64

namespace Instr

def wellFormed : Instr → Bool
  | .reset _ _ _ _ => true
  | .sample _ => true
  | .scale _ => true
  | .mix _ _ => true
  | .ncoAdv => true
  | .lpfPush _ _ => true
  | .lpfBlock _ => true
  | .mag _ => true
  | .envUpd _ _ => true
  | .noiseUpd _ _ => true
  | .nfloor => true
  | .clip _ _ _ => true
  | .atc _ _ _ => true
  | .softbit _ => true
  | .accum _ => true
  | .cntInc => true
  | .evtEarly _ => true
  | .evtLate _ => true
  | .evtPrompt _ => true
  | .realign _ => true
  | .bitIn _ => true
  | .smSyncSetup => true
  | .smSync => true
  | .smReadData => true
  | .findAlpha => true
  | .bitsToCode v => Soft7.fits v
  | .validChar v => Soft7.fits v
  | .processBytes _ => true
  | .flipSmallest v => Soft7.fits v
  | .processChar _ _ => true

end Instr
end Sys2Proof
end

