-- ==== Sys2Proof/Decode.lean ====
section
/-! DEFINITION. The decoder, total on every transaction and refusing by name, and after it the encoder.
Host command words: spec R80 to R85. Stimuli: the step identifiers of R88 and, after the identifier, the
operation's operands, least significant byte first (R64; log entry 1). -/

namespace Sys2Proof

/-- Why a transaction is no instruction. -/
inductive DecodeError where
  /-- CMD = 0b00 or 0b11 (R84). -/
  | illegalCommand (cmd : BitVec 2)
  /-- An identifier that R88 does not list. -/
  | unknownStep (id : Byte)
  /-- Bytes that are no operand of the operation in the form of log entry 1: too few or too many, a set bit above an
  operand's width, an integer in more bytes than it takes. No value of an operand is refused: each has its bytes. -/
  | operandBytes (step : StepId)
deriving DecidableEq, Repr

/-! ## Step identifiers (R88) -/

def StepId.code : StepId → Byte
  | .scale => 0x01#8 | .mix => 0x02#8 | .ncoAdv => 0x03#8 | .lpfPush => 0x04#8 | .lpfBlock => 0x05#8
  | .mag => 0x10#8 | .envUpd => 0x11#8 | .noiseUpd => 0x12#8 | .nfloor => 0x13#8 | .clip => 0x14#8
  | .atc => 0x15#8 | .softbit => 0x16#8 | .accum => 0x17#8 | .cntInc => 0x18#8
  | .evtEarly => 0x20#8 | .evtLate => 0x21#8 | .evtPrompt => 0x22#8 | .realign => 0x23#8
  | .bitIn => 0x30#8 | .smSyncSetup => 0x31#8 | .smSync => 0x32#8 | .smReadData => 0x33#8
  | .findAlpha => 0x34#8 | .bitsToCode => 0x35#8 | .validChar => 0x36#8
  | .processBytes => 0x40#8 | .flipSmallest => 0x41#8 | .processChar => 0x42#8

def StepId.all : List StepId :=
  [.scale, .mix, .ncoAdv, .lpfPush, .lpfBlock] ++
  [.mag, .envUpd, .noiseUpd, .nfloor, .clip, .atc, .softbit, .accum, .cntInc] ++
  [.evtEarly, .evtLate, .evtPrompt, .realign] ++
  [.bitIn, .smSyncSetup, .smSync, .smReadData, .findAlpha, .bitsToCode, .validChar] ++
  [.processBytes, .flipSmallest, .processChar]

/-- The operation an identifier names; none for an identifier R88 does not list. -/
def StepId.ofCode (id : Byte) : Option StepId := StepId.all.find? fun k => k.code == id

/-! ## Operand bytes, least significant first -/

/-- The eight bytes of a 64-bit value. -/
def bytes64 (x : BitVec 64) : List Byte :=
  [x.extractLsb' 0 8, x.extractLsb' 8 8, x.extractLsb' 16 8, x.extractLsb' 24 8,
   x.extractLsb' 32 8, x.extractLsb' 40 8, x.extractLsb' 48 8, x.extractLsb' 56 8]

def read64 : List Byte → Option (BitVec 64 × List Byte)
  | b0 :: b1 :: b2 :: b3 :: b4 :: b5 :: b6 :: b7 :: rest =>
    some (b7 ++ b6 ++ b5 ++ b4 ++ b3 ++ b2 ++ b1 ++ b0, rest)
  | _ => none

def readF64 (bs : List Byte) : Option (F64 × List Byte) :=
  (read64 bs).map fun p => (⟨p.1⟩, p.2)

/-- A soft bit of a vector: eight bytes of two's complement. -/
def readI64 (bs : List Byte) : Option (Int × List Byte) :=
  (read64 bs).map fun p => (p.1.toInt, p.2)

/-- An integer of any size, in at most `fuel` groups: each is a byte and the eight bytes of a 64-bit value. After 0 the
value is the integer's most significant part, signed; after 1 it is its low 64 bits, and the part above follows. An
integer that fits 64 bits is one group, so an integer has one form. -/
def readIntFrom : Nat → List Byte → Option (Int × List Byte)
  | 0, _ => none
  | _ + 1, [] => none
  | fuel + 1, tag :: bs =>
    match read64 bs with
    | none => none
    | some (x, rest) =>
      if tag = 0#8 then some (x.toInt, rest)
      else if tag = 1#8 then
        match readIntFrom fuel rest with
        | none => none
        | some (high, rest) =>
          let n := (x.toNat : Int) + 2 ^ 64 * high
          if fitsI64 n then none else some (n, rest)
      else none

def readInt (bs : List Byte) : Option (Int × List Byte) := readIntFrom bs.length bs

def readCplx (bs : List Byte) : Option (Cplx × List Byte) := do
  let (re, bs) ← readF64 bs
  let (im, bs) ← readF64 bs
  pure ({ re := re, im := im }, bs)

def readSoft7 (bs : List Byte) : Option (Soft7 × List Byte) := do
  let (v0, bs) ← readI64 bs
  let (v1, bs) ← readI64 bs
  let (v2, bs) ← readI64 bs
  let (v3, bs) ← readI64 bs
  let (v4, bs) ← readI64 bs
  let (v5, bs) ← readI64 bs
  let (v6, bs) ← readI64 bs
  pure (#v[v0, v1, v2, v3, v4, v5, v6], bs)

/-- One byte that holds a value of `w` bits, the bits above zero. -/
def readBits (w : Nat) : List Byte → Option (BitVec w × List Byte)
  | b :: rest => if b.toNat < 2 ^ w then some (BitVec.ofNat w b.toNat, rest) else none
  | [] => none

/-- 0 is the mark branch, 1 the space branch. -/
def readBranch : List Byte → Option (Branch × List Byte)
  | b :: rest => if b = 0#8 then some (.mark, rest) else if b = 1#8 then some (.space, rest) else none
  | [] => none

/-- The operands of one operation, and the bytes after them. -/
def readOperands (k : StepId) (bs : List Byte) : Option (Instr × List Byte) :=
  match k with
  | .scale => do let (x, bs) ← readF64 bs; pure (.scale x, bs)
  | .mix => do let (br, bs) ← readBranch bs; let (z, bs) ← readCplx bs; pure (.mix br z, bs)
  | .ncoAdv => some (.ncoAdv, bs)
  | .lpfPush => do let (br, bs) ← readBranch bs; let (u, bs) ← readCplx bs; pure (.lpfPush br u, bs)
  | .lpfBlock => do let (br, bs) ← readBranch bs; pure (.lpfBlock br, bs)
  | .mag => do let (y, bs) ← readCplx bs; pure (.mag y, bs)
  | .envUpd => do let (m, bs) ← readF64 bs; let (sp, bs) ← readF64 bs; pure (.envUpd m sp, bs)
  | .noiseUpd => do let (m, bs) ← readF64 bs; let (sp, bs) ← readF64 bs; pure (.noiseUpd m sp, bs)
  | .nfloor => some (.nfloor, bs)
  | .clip => do
    let (m, bs) ← readF64 bs; let (sp, bs) ← readF64 bs; let (nf, bs) ← readF64 bs
    pure (.clip m sp nf, bs)
  | .atc => do
    let (mc, bs) ← readF64 bs; let (sc, bs) ← readF64 bs; let (nf, bs) ← readF64 bs
    pure (.atc mc sc nf, bs)
  | .softbit => do let (l, bs) ← readF64 bs; pure (.softbit l, bs)
  | .accum => do let (b, bs) ← readInt bs; pure (.accum b, bs)
  | .cntInc => some (.cntInc, bs)
  | .evtEarly => do let (t, bs) ← readF64 bs; pure (.evtEarly t, bs)
  | .evtLate => do let (t, bs) ← readF64 bs; pure (.evtLate t, bs)
  | .evtPrompt => do let (t, bs) ← readF64 bs; pure (.evtPrompt t, bs)
  | .realign => do let (t, bs) ← readF64 bs; pure (.realign t, bs)
  | .bitIn => do let (v, bs) ← readInt bs; pure (.bitIn v, bs)
  | .smSyncSetup => some (.smSyncSetup, bs)
  | .smSync => some (.smSync, bs)
  | .smReadData => some (.smReadData, bs)
  | .findAlpha => some (.findAlpha, bs)
  | .bitsToCode => do let (v, bs) ← readSoft7 bs; pure (.bitsToCode v, bs)
  | .validChar => do let (v, bs) ← readSoft7 bs; pure (.validChar v, bs)
  | .processBytes => do let (c, bs) ← readBits 7 bs; pure (.processBytes c, bs)
  | .flipSmallest => do let (v, bs) ← readSoft7 bs; pure (.flipSmallest v, bs)
  | .processChar => do
    let (code, bs) ← readBits 7 bs; let (path, bs) ← readBits 3 bs
    pure (.processChar code path, bs)

/-- How many operand bytes follow the identifier (for an integer, the fewest: one group). -/
def StepId.operandLength : StepId → Nat
  | .scale | .softbit | .evtEarly | .evtLate | .evtPrompt | .realign => 8
  | .accum | .bitIn => 9
  | .mix | .lpfPush => 17
  | .mag | .envUpd | .noiseUpd => 16
  | .clip | .atc => 24
  | .bitsToCode | .validChar | .flipSmallest => 56
  | .lpfBlock | .processBytes => 1
  | .processChar => 2
  | .ncoAdv | .nfloor | .cntInc | .smSyncSetup | .smSync | .smReadData | .findAlpha => 0

/-! ## Decoding -/

/-- A command word (R80 to R84). -/
def decodeCommand (w : BitVec 66) : Except DecodeError Instr :=
  let cmd := w.extractLsb' 64 2
  if cmd = 1#2 then
    .ok (.reset (w.extractLsb' 0 32) (w.getLsbD 32) (w.getLsbD 33) (w.extractLsb' 34 30))
  else if cmd = 2#2 then .ok (.sample ⟨w.extractLsb' 0 64⟩)
  else .error (.illegalCommand cmd)

/-- A stimulus: exactly one operation. -/
def decodeStimulus (id : Byte) (bs : List Byte) : Except DecodeError Instr :=
  match StepId.ofCode id with
  | none => .error (.unknownStep id)
  | some k =>
    match readOperands k bs with
    | some (i, []) => .ok i
    | _ => .error (.operandBytes k)

def decode : Tx → Except DecodeError Instr
  | .command w => decodeCommand w
  | .stimulus id bs => decodeStimulus id bs

/-! ## Encoding -/

/-- The RESET payload (R82). -/
def resetPayload (fs : BitVec 32) (reverse onlySitorB : Bool) (reserved : BitVec 30) : BitVec 64 :=
  reserved ++ (BitVec.ofBool onlySitorB ++ (BitVec.ofBool reverse ++ fs))

/-- A command word from its two fields (R80). -/
def commandWord (cmd : BitVec 2) (payload : BitVec 64) : BitVec 66 := cmd ++ payload

/-- A soft bit of a vector. -/
def bytesI64 (n : Int) : List Byte := bytes64 (BitVec.ofInt 64 n)

/-- An integer in the groups of `readIntFrom`; `fuel` bounds the groups after the first. -/
def bytesIntFrom : Nat → Int → List Byte
  | 0, n => 0#8 :: bytesI64 n
  | fuel + 1, n =>
    if fitsI64 n then 0#8 :: bytesI64 n else 1#8 :: (bytesI64 n ++ bytesIntFrom fuel (n / 2 ^ 64))

def bytesInt (n : Int) : List Byte := bytesIntFrom n.natAbs n
def bytesF64 (x : F64) : List Byte := bytes64 x.bits
def bytesCplx (z : Cplx) : List Byte := bytesF64 z.re ++ bytesF64 z.im
def bytesSoft7 (v : Soft7) : List Byte := v.toList.flatMap bytesI64
def byteBranch : Branch → Byte
  | .mark => 0#8
  | .space => 1#8

def stimulusOf (k : StepId) (operands : List Byte) : Tx := .stimulus k.code operands

def encode : Instr → Tx
  | .reset fs rv so res => .command (commandWord 1#2 (resetPayload fs rv so res))
  | .sample x => .command (commandWord 2#2 x.bits)
  | .scale x => stimulusOf .scale (bytesF64 x)
  | .mix br z => stimulusOf .mix (byteBranch br :: bytesCplx z)
  | .ncoAdv => stimulusOf .ncoAdv []
  | .lpfPush br u => stimulusOf .lpfPush (byteBranch br :: bytesCplx u)
  | .lpfBlock br => stimulusOf .lpfBlock [byteBranch br]
  | .mag y => stimulusOf .mag (bytesCplx y)
  | .envUpd m sp => stimulusOf .envUpd (bytesF64 m ++ bytesF64 sp)
  | .noiseUpd m sp => stimulusOf .noiseUpd (bytesF64 m ++ bytesF64 sp)
  | .nfloor => stimulusOf .nfloor []
  | .clip m sp nf => stimulusOf .clip (bytesF64 m ++ bytesF64 sp ++ bytesF64 nf)
  | .atc mc sc nf => stimulusOf .atc (bytesF64 mc ++ bytesF64 sc ++ bytesF64 nf)
  | .softbit l => stimulusOf .softbit (bytesF64 l)
  | .accum b => stimulusOf .accum (bytesInt b)
  | .cntInc => stimulusOf .cntInc []
  | .evtEarly t => stimulusOf .evtEarly (bytesF64 t)
  | .evtLate t => stimulusOf .evtLate (bytesF64 t)
  | .evtPrompt t => stimulusOf .evtPrompt (bytesF64 t)
  | .realign t => stimulusOf .realign (bytesF64 t)
  | .bitIn v => stimulusOf .bitIn (bytesInt v)
  | .smSyncSetup => stimulusOf .smSyncSetup []
  | .smSync => stimulusOf .smSync []
  | .smReadData => stimulusOf .smReadData []
  | .findAlpha => stimulusOf .findAlpha []
  | .bitsToCode v => stimulusOf .bitsToCode (bytesSoft7 v)
  | .validChar v => stimulusOf .validChar (bytesSoft7 v)
  | .processBytes c => stimulusOf .processBytes [c.setWidth 8]
  | .flipSmallest v => stimulusOf .flipSmallest (bytesSoft7 v)
  | .processChar code path => stimulusOf .processChar [code.setWidth 8, path.setWidth 8]

/-! ## Serialisation (R85, R64) -/

/-- A command word as nine bytes, least significant first; the ninth holds CMD in bits 1..0. -/
def serialise (w : BitVec 66) : List Byte :=
  bytes64 (w.extractLsb' 0 64) ++ [(w.extractLsb' 64 2).setWidth 8]

/-- The command word that nine bytes carry; none unless they are nine and the ninth's bits 7..2 are zero. -/
def deserialise (bs : List Byte) : Option (BitVec 66) :=
  match read64 bs with
  | some (payload, [b]) => if b.toNat < 4 then some (commandWord (b.setWidth 2) payload) else none
  | _ => none

/-- An output record as two bytes, least significant first. -/
def serialiseRecord (r : Rec16) : List Byte := [r.extractLsb' 0 8, r.extractLsb' 8 8]

/-- The `n` bytes of a number, least significant first. -/
def bytesOfNat (n w : Nat) : List Byte := (List.range n).map fun i => BitVec.ofNat 8 (w >>> (8 * i))

/-- The transaction of an opcode-table word (bit 0 least significant): a row of at most 8 bits is a step
identifier, followed by zero operand bytes; a longer row is a host command word, in the nine bytes of R85.
None where the bits are more than the transfer holds. -/
def tableTx (nbits w : Nat) : Option Tx :=
  if nbits ≤ 8 then
    if w < 256 then
      let id := BitVec.ofNat 8 w
      let n := match StepId.ofCode id with
        | some k => k.operandLength
        | none => 0
      some (.stimulus id (List.replicate n 0#8))
    else none
  else if w < 2 ^ 72 then (deserialise (bytesOfNat 9 w)).map .command
  else none

def decodeTableWord (nbits w : Nat) : Option Instr :=
  match tableTx nbits w with
  | some tx => (decode tx).toOption
  | none => none

/-! ## Transaction syntax (R90) -/

/-- The seven BIT lines of a codeword: bit i is `+A` or `-A`, i = 0 first. -/
def bitsOfCode (amplitude : Int) (c : Code7) : List Int :=
  (List.range 7).map fun i => if c.getLsbD i then amplitude else -amplitude

/-- The transactions of a line, in order. -/
def Line.expand : Line → List Tx
  | .reset fs rv so => [encode (.reset fs rv so 0#30)]
  | .sample x => [encode (.sample x)]
  | .sampleTimes n x => List.replicate n (encode (.sample x))
  | .samples xs => xs.map fun x => encode (.sample x)
  | .bit v => [encode (.bitIn v)]
  | .bits codes a => (codes.flatMap (bitsOfCode a)).map fun v => encode (.bitIn v)

end Sys2Proof
end

