-- ==== Sys2Proof/Config.lean ====
section
/-! DEFINITION. What is fixed for the machine and not state: the integer constants of spec R9, the open
parameters of R11, and the free values. A constant declared `opaque` has no body: nothing in Lean can
evaluate it or prove a value of it. -/

namespace Sys2Proof

/-- R9 `BITBUF_LEN`. -/
abbrev bitbufLen : Nat := 100
/-- R9 `LPF_LEN`. -/
abbrev lpfLen : Nat := 512
/-- R9 `REP_DIST`, in bits. -/
abbrev repDist : Nat := 35
/-- R9 `CHAR_BITS`. -/
abbrev charBits : Nat := 7
/-- R9 `SYNC_OFF_LO`, `SYNC_OFF_HI`: the half-open range of offsets FIND_ALPHA tries. -/
abbrev syncOffLo : Nat := 35
abbrev syncOffHi : Nat := 49
/-- R9 `SYNC_MIN_REPS`. -/
abbrev syncMinReps : Nat := 3
/-- R9 `SYNC_MIN_TOTAL`: the best total must exceed it. -/
abbrev syncMinTotal : Nat := 8
/-- R9 `ERR_LIMIT`. -/
abbrev errLimit : Nat := 5
/-- R9 `REALIGN_BITS` and the other real constants are in `Sys2Proof/Machine/Constants.lean`. -/
abbrev realignBits : Nat := 8
/-- R82: the least legal `SAMPLE_RATE`. -/
abbrev minSampleRate : Nat := 1000

/-- The open parameters of R11, fixed before the first command (R253). -/
structure Config where
  /-- `COS_FN` (D7). -/
  cosFn : F64 → F64
  /-- `SIN_FN` (D7). -/
  sinFn : F64 → F64
  /-- `LOG_FN` (D7). -/
  logFn : F64 → F64
  /-- `LPF_TAPS`, h[0..511] (D14, R111). -/
  taps : Vector F64 512
  /-- `LPF_BLOCK` less one: `P = blockPred + 1`, so that P ≥ 1 by form (log entry 18). -/
  blockPred : Nat
  /-- `LPF_FN`: the taps, the window `u[m-P-511 .. m-1]` (oldest first, `P + 511` entries) and `j` give
  `y[j]` (R110, D14). `Config.contract` holds it to the convolution of R110 up to rounding. -/
  lpfFn : Vector F64 512 → List Cplx → Nat → Cplx
  /-- How large that rounding is, in units of 2^-52 of the largest output the window admits: R110 and I2 say "in the
  last bits" and give no number (log entry 5). -/
  lpfTol : Nat
  /-- Which of two equal operands with different patterns `min` and `max` give (log entry 12). -/
  zeroPick : F64 → F64 → Bool
deriving Inhabited

namespace Config

/-- `LPF_BLOCK`, P ≥ 1 (R11). -/
def block (c : Config) : Nat := c.blockPred + 1

/-- The implementation's parameters, uninterpreted (log entry 4). The machine uses them through
`Config.machine`, which holds them to what the rules say of them (log entry 5). -/
opaque raw : Config

/-- Free values for the state that R236 leaves unspecified after an imprecise fault: the number of the
draw, and the place in the state that the value fills (log entry 6). -/
opaque freeBits : Nat → Nat → BitVec 64
opaque freeNat : Nat → Nat → Nat
opaque freePairs : Nat → Nat → List Cplx
opaque freeRecords : Nat → List Rec16

end Config
end Sys2Proof
end

