-- ==== Sys2Proof/Machine/Float.lean ====
section
/-! DEFINITION. Binary64 arithmetic (spec R12, R13, D6): round to nearest, ties to even, each operation
rounded separately, no fused operation, subnormals kept (R234). Every operation computes the exact result
in the integers and rounds it once with `roundPack`. -/

namespace Sys2Proof
namespace F64

/-- The significand as an integer: the value of a finite number is `± mag * 2 ^ expo`. -/
def mag (x : F64) : Nat := if x.expField = 0 then x.frac else 2 ^ 52 + x.frac

/-- The power of two of the last significand bit. -/
def expo (x : F64) : Int := if x.expField = 0 then -1074 else (x.expField : Int) - 1075

/-- The signed significand. -/
def sval (x : F64) : Int := if x.sign then -(x.mag : Int) else (x.mag : Int)

/-- The real value of a finite number, as a rational. Used in statements only; no operation reads it. -/
def toRat (x : F64) : ℚ := (x.sval : ℚ) * (2 : ℚ) ^ x.expo

/-- An integer that orders the non-NaN numbers as their values are ordered; both zeros have key 0. -/
def key (x : F64) : Int := if x.sign then -(x.absBits : Int) else (x.absBits : Int)

/-- A sign and a 63-bit pattern put together. -/
def pack (neg : Bool) (m : Nat) : F64 := ⟨BitVec.ofNat 64 ((if neg then 2 ^ 63 else 0) + m)⟩

def infinity (neg : Bool) : F64 := pack neg (2047 * 2 ^ 52)

/-- The one NaN the arithmetic answers (log entry 11, PRESUMED: R234 says no NaN is ever propagated). -/
def nan : F64 := ⟨0x7FF8000000000000#64⟩

def signedZero (neg : Bool) : F64 := pack neg 0

/-- The integer significand of `(m + δ) * 2 ^ e` in units of `2 ^ q`, rounded to nearest, ties to even,
for `e < q`; `δ` lies strictly between 0 and 1 when `sticky`, and is 0 otherwise. -/
def roundShift (m : Nat) (shift : Nat) (sticky : Bool) : Nat :=
  let keep := m >>> shift
  let rest := m % 2 ^ shift
  let half := 2 ^ (shift - 1)
  if rest > half || (rest == half && (sticky || keep % 2 == 1)) then keep + 1 else keep

/-- The unit a positive `m * 2 ^ e` is rounded to: that of its 53 leading bits, not below `2 ^ (-1074)`. -/
def roundUnit (m : Nat) (e : Int) : Int := max (e + (Nat.log2 m : Int) - 52) (-1074)

/-- The 63-bit pattern of `(m + δ) * 2 ^ e` for `m` not 0, rounded once; from `2047 * 2 ^ 52` on it is out of
range. A carry out of the significand moves into the exponent field by itself. -/
def roundBits (m : Nat) (e : Int) (sticky : Bool) : Nat :=
  let q := roundUnit m e
  let k : Nat := if q ≤ e then m <<< (e - q).toNat else roundShift m (q - e).toNat sticky
  (q + 1074).toNat * 2 ^ 52 + k

/-- `± (m + δ) * 2 ^ e` rounded once to binary64 (R12). A caller that sets `sticky` gives `m` at least 55
bits, so that the rounding position lies inside `m`. -/
def roundPack (neg : Bool) (m : Nat) (e : Int) (sticky : Bool) : F64 :=
  if m = 0 then signedZero neg
  else if 2047 * 2 ^ 52 ≤ roundBits m e sticky then infinity neg
  else pack neg (roundBits m e sticky)

def neg (x : F64) : F64 := ⟨x.bits ^^^ 0x8000000000000000#64⟩

/-- `abs`: clears the sign bit (R13). -/
def abs (x : F64) : F64 := ⟨x.bits &&& 0x7FFFFFFFFFFFFFFF#64⟩

/-- The signed significands of two finite numbers, added exactly in units of the smaller exponent. -/
def addExact (x y : F64) : Int :=
  let e := min x.expo y.expo
  x.sval * 2 ^ (x.expo - e).toNat + y.sval * 2 ^ (y.expo - e).toNat

def add (x y : F64) : F64 :=
  if x.isNaN || y.isNaN then nan
  else if x.isInf then (if y.isInf && x.sign != y.sign then nan else x)
  else if y.isInf then y
  else
    let s := addExact x y
    if s = 0 then signedZero (x.sign && y.sign)
    else roundPack (decide (s < 0)) s.natAbs (min x.expo y.expo) false

def sub (x y : F64) : F64 := add x y.neg

def mul (x y : F64) : F64 :=
  let s := x.sign != y.sign
  if x.isNaN || y.isNaN then nan
  else if x.isInf || y.isInf then (if x.absBits = 0 || y.absBits = 0 then nan else infinity s)
  else roundPack s (x.mag * y.mag) (x.expo + y.expo) false

def div (x y : F64) : F64 :=
  let s := x.sign != y.sign
  if x.isNaN || y.isNaN then nan
  else if x.isInf then (if y.isInf then nan else infinity s)
  else if y.isInf then signedZero s
  else if y.absBits = 0 then (if x.absBits = 0 then nan else infinity s)
  else
    let n := x.mag * 2 ^ 110
    roundPack s (n / y.mag) (x.expo - y.expo - 110) (n % y.mag != 0)

/-- The largest `r ≥ acc` with `r * r ≤ n`, found bit by bit below `2 ^ k`. -/
def isqrtFrom (n : Nat) : Nat → Nat → Nat
  | 0, acc => acc
  | k + 1, acc =>
    let t := acc + 2 ^ k
    isqrtFrom n k (if t * t ≤ n then t else acc)

/-- The integer square root of `n < 2 ^ 256`. -/
def isqrt (n : Nat) : Nat := isqrtFrom n 128 0

/-- `SQRT` (R13): correctly rounded; NaN for a negative number other than -0.0. -/
def sqrt (x : F64) : F64 :=
  if x.isNaN then nan
  else if x.absBits = 0 then x
  else if x.sign then nan
  else if x.isInf then x
  else
    let odd : Nat := (x.expo % 2).toNat
    let n := x.mag * 2 ^ (120 + odd)
    let r := isqrt n
    roundPack false r ((x.expo - odd - 120) / 2) (r * r != n)

/-- `fmod` (R13): `a - n * b` with `n = trunc (a / b)`, exact, with the sign of `a`. -/
def fmod (x y : F64) : F64 :=
  if x.isNaN || y.isNaN || x.isInf || y.absBits = 0 then nan
  else if y.isInf then x
  else
    let e := min x.expo y.expo
    let a := x.mag * 2 ^ (x.expo - e).toNat
    let b := y.mag * 2 ^ (y.expo - e).toNat
    roundPack x.sign (a % b) e false

/-- `a < b`; false when either is NaN. -/
def lt (x y : F64) : Bool := !x.isNaN && !y.isNaN && decide (x.key < y.key)

/-- `a <= b`; false when either is NaN. -/
def le (x y : F64) : Bool := !x.isNaN && !y.isNaN && decide (x.key ≤ y.key)

/-- `a == b` as numbers (the two zeros are equal); false when either is NaN. -/
def feq (x y : F64) : Bool := !x.isNaN && !y.isNaN && decide (x.key = y.key)

/-- `f64(n)` (R12): an integer to binary64, rounded to nearest even. -/
def ofInt (n : Int) : F64 := roundPack (decide (n < 0)) n.natAbs 0 false

/-- `trunc(v)` (R13): a finite number rounded toward zero. -/
def trunc (x : F64) : Int :=
  let m : Nat := if 0 ≤ x.expo then x.mag * 2 ^ x.expo.toNat else x.mag / 2 ^ (-x.expo).toNat
  if x.sign then -(m : Int) else (m : Int)

/-- `min` and `max` of R13. Where the operands compare equal and are different patterns (+0.0 and -0.0),
the rule does not say which is given: `pick` decides (a free value, log entry 12). -/
def fmin (pick : F64 → F64 → Bool) (x y : F64) : F64 :=
  if lt x y then x else if lt y x then y else if x = y then x else if pick x y then x else y

def fmax (pick : F64 → F64 → Bool) (x y : F64) : F64 :=
  if lt x y then y else if lt y x then x else if x = y then x else if pick x y then x else y

end F64
end Sys2Proof
end

