-- ==== Sys2Proof/Machine/Constants.lean ====
section
/-! DEFINITION. The real constants of spec R9, R10 and R23 and the numeric literals of the rules, each the
nearest binary64 value (R12), and the control codewords of R89. -/

namespace Sys2Proof
namespace F64

def zero : F64 := ⟨0x0000000000000000#64⟩
/-- `ATC_HALF`, 0.5. -/
def half : F64 := ⟨0x3FE0000000000000#64⟩
def one : F64 := ⟨0x3FF0000000000000#64⟩
/-- `MIN_HYST`, 1.05. -/
def minHyst : F64 := ⟨0x3FF0CCCCCCCCCCCD#64⟩
def two : F64 := ⟨0x4000000000000000#64⟩
def negTwo : F64 := ⟨0xC000000000000000#64⟩
def four : F64 := ⟨0x4010000000000000#64⟩
def five : F64 := ⟨0x4014000000000000#64⟩
/-- `REALIGN_BITS`, 8.0. -/
def eight : F64 := ⟨0x4020000000000000#64⟩
def sixteen : F64 := ⟨0x4030000000000000#64⟩
def fortyEight : F64 := ⟨0x4048000000000000#64⟩
/-- `CORR_AVG_DIV`, 64.0. -/
def corrAvgDiv : F64 := ⟨0x4050000000000000#64⟩
/-- `BAUD`, 100.0. -/
def baud : F64 := ⟨0x4059000000000000#64⟩
/-- 1024.0: `SLOPE_SCALE` is 1/1024. -/
def slopeDiv : F64 := ⟨0x4090000000000000#64⟩
/-- 709.782712893384, the logarithm of the largest binary64 number (R137: |b| ≤ 709). -/
def logMax : F64 := ⟨0x40862E42FEFA39EF#64⟩
/-- `F_SPACE`, 915.0 Hz. -/
def fSpace : F64 := ⟨0x408C980000000000#64⟩
/-- `F_MARK`, 1085.0 Hz. -/
def fMark : F64 := ⟨0x4090F40000000000#64⟩
/-- `PCM_SCALE`, 32767.0. -/
def pcmScale : F64 := ⟨0x40DFFFC000000000#64⟩
/-- `TWO_PI`, the binary64 value nearest 2π: 0x1.921fb54442d18p+2 (R23). -/
def twoPi : F64 := ⟨0x401921FB54442D18#64⟩
/-- -TWO_PI. -/
def negTwoPi : F64 := ⟨0xC01921FB54442D18#64⟩

/-- `LPF_CUTOFF` = BAUD / fs (R9). No operation reads it: the taps are open (R111). -/
def lpfCutoff (fs : BitVec 32) : F64 := div baud (ofInt fs.toNat)

end F64

namespace Codeword

def ltrs : Code7 := 0x5A#7
def figs : Code7 := 0x36#7
def alpha : Code7 := 0x0F#7
def beta : Code7 := 0x33#7
def char32 : Code7 := 0x6A#7
def rep : Code7 := 0x66#7

/-- The six reserved control codewords (R89). -/
def controls : List Code7 := [ltrs, figs, alpha, beta, char32, rep]

/-- `popcount` (R13): the number of one bits. -/
def popcount (c : Code7) : Nat := (List.range 7).countP fun i => c.getLsbD i

/-- A valid codeword has exactly four ones (R89). -/
def valid (c : Code7) : Bool := popcount c == 4

end Codeword
end Sys2Proof
end

