-- ==== Sys2Proof/Machine/Reference.lean ====
section
/-! DEFINITION. The reference meaning of the open parameters (spec R11, R110, D7, D14) and the parameters
the machine runs with, `Config.machine`: the uninterpreted ones, held to what the rules say of them. -/

namespace Sys2Proof
namespace Config

/-- `a * b` for finite numbers, exactly, in units of `2 ^ (-2148)`. -/
def exactProd (a b : F64) : Int := a.sval * b.sval * 2 ^ (a.expo + b.expo + 2148).toNat

/-- An integer number of units of `2 ^ (-2148)`, rounded once. -/
def roundSum (s : Int) : F64 := F64.roundPack (decide (s < 0)) s.natAbs (-2148) false

/-- The exact sum of R110, `Σ_k h[k] * x[511 + j - k]`, over one component of the window. -/
def convSum (h : List F64) (x : List F64) : Int :=
  ((h.zip x.reverse).map fun p => exactProd p.1 p.2).sum

/-- The reference `LPF_FN` of R110: each component of `y[j]` is the exact real sum rounded once. The
window holds `u[m-P-511 .. m-1]`, oldest first, so `y[j]` reads its entries `j .. j + 511`. -/
def refLpf (h : Vector F64 512) (w : List Cplx) (j : Nat) : Cplx :=
  let x := (w.drop j).take 512
  { re := roundSum (convSum h.toList (x.map (·.re))),
    im := roundSum (convSum h.toList (x.map (·.im))) }

/-- `g` gives, at every finite number, the binary64 number nearest to `f` there (D7 "correctly rounded"). -/
def IsCorrectlyRounded (f : ℝ → ℝ) (g : F64 → F64) (dom : F64 → Prop) : Prop :=
  ∀ x : F64, x.isFinite = true → dom x → (g x).isFinite = true ∧
    ∀ y : F64, y.isFinite = true →
      |((g x).toRat : ℝ) - f (x.toRat : ℝ)| ≤ |(y.toRat : ℝ) - f (x.toRat : ℝ)|

/-- The reference parameters of R11: correctly rounded cosine, sine and logarithm, and the reference
filter. The taps and the block size stay open. No meaning reads this predicate. -/
def IsReference (c : Config) : Prop :=
  IsCorrectlyRounded Real.cos c.cosFn (fun _ => True) ∧
  IsCorrectlyRounded Real.sin c.sinFn (fun _ => True) ∧
  IsCorrectlyRounded Real.log c.logFn (fun x => 0 < x.key) ∧
  ∀ w j, c.lpfFn c.taps w j = refLpf c.taps w j

/-! ## What the rules say of the parameters (R105, R110, R137, R142, R234; log entry 5)

Where the rules state a value it stands, and a finite answer that a rule excludes becomes the nearest one it admits. A NaN
or an infinity stays, and the step that computed it raises NUMERIC (R234, D36). -/

/-- A finite `x` held to the interval from `lo` to `hi`; a NaN or an infinity stays. -/
def held (lo hi x : F64) : F64 :=
  if !x.isFinite then x else if F64.lt x lo then lo else if F64.lt hi x then hi else x

/-- `x` with +0.0 for -0.0: a linear function of the inputs cannot tell the two zeros apart (R83, R110). -/
def plainZero (x : F64) : F64 := if x.absBits = 0 then F64.zero else x

def plainPair (z : Cplx) : Cplx := { re := plainZero z.re, im := plainZero z.im }

/-- A pair of zeros, of either sign. -/
def isZeroPair (z : Cplx) : Bool := z.re.absBits == 0 && z.im.absBits == 0

/-- A finite number, exactly, in units of `2 ^ (-2148)`. -/
def exactVal (x : F64) : Int := x.sval * 2 ^ (x.expo + 2148).toNat

/-- The larger of two numbers that are not negative. -/
def larger (x y : F64) : F64 := if F64.lt x y then y else x

/-- The largest magnitude of a component in the window. -/
def peak (w : List Cplx) : F64 := w.foldl (fun p z => larger (larger p z.re.abs) z.im.abs) F64.zero

/-- `Σ_k |h[k]| · peak`, the largest sum of R110 that inputs of the window's size can give, in units of
`2 ^ (-2148)`. -/
def convScale (h : List F64) (w : List Cplx) : Int := (h.map fun a => exactProd a.abs (peak w)).sum

/-- R110: `y` where it is the exact sum up to rounding, within `tol` units of `2 ^ (-52)` of the scale; where it is not,
the reference, the exact sum rounded once. A `y` that is not finite stays, for LPF_BLOCK to raise NUMERIC. -/
def upToRounding (tol : Nat) (scale exact : Int) (y : F64) : F64 :=
  if y.isFinite && decide (tol * scale < (exactVal y - exact).natAbs * 2 ^ 52) then roundSum exact else y

/-- R110 for one output: linear in the window, the same at every index, and the reference, each up to rounding. Of taps
or inputs that are not finite the rules say nothing (R234), and the parameter's answer stands. -/
def heldLpf (c : Config) (h : Vector F64 512) (w : List Cplx) (j : Nat) : Cplx :=
  let y := c.lpfFn h w j
  if h.toList.all F64.isFinite && w.all Cplx.isFinite then
    let x := (w.drop j).take 512
    let scale := convScale h.toList w
    { re := upToRounding c.lpfTol scale (convSum h.toList (x.map (·.re))) y.re,
      im := upToRounding c.lpfTol scale (convSum h.toList (x.map (·.im))) y.im }
  else y

/-- The parameters as the machine uses them. COS and SIN of 0.0 are 1.0 and 0.0 (R105 "φ = 0.0 returns z unchanged
(c = 1, s = 0)"); a finite cosine or sine is at most 2.0 in magnitude, far above any rounding of one, so that legal inputs
do not fault (R105 "Faults: none for legal inputs"). LOG of 1.0 is 0.0 (R137 "0 < |L| < e − 1 gives b = 0", where
1.0 + |L| is rounded to 1.0); a finite logarithm of what SOFTBIT asks for, at least 1.0, lies between 0.0 and that of the
largest number (R137 "|b| ≤ 709 for every finite L"). The filter answers zeros to a window of zeros (R142 "every filtered
pair is (0.0, 0.0) under any taps"), and to any other what R110 allows. -/
def contract (c : Config) : Config :=
  { c with
    cosFn := fun x => if x.absBits = 0 then F64.one else held F64.negTwo F64.two (c.cosFn x)
    sinFn := fun x => if x.absBits = 0 then F64.zero else held F64.negTwo F64.two (c.sinFn x)
    logFn := fun x => if x = F64.one then F64.zero else held F64.zero F64.logMax (c.logFn x)
    lpfFn := fun h w j =>
      if w.all isZeroPair then { re := F64.zero, im := F64.zero } else heldLpf c h (w.map plainPair) j }

/-- The parameters the machine runs with. -/
def machine : Config := contract raw

end Config
end Sys2Proof
end

