-- ==== Sys2Proof/Machine/State.lean ====
section
/-! DEFINITION. The state of the block as plain data (spec 10_state.md R20 to R49), the fault record (R230),
the model's own stops, and the state at power-on (R250). -/

namespace Sys2Proof
namespace Machine

/-- A fault as `FAULT` records it (R230): one constructor per code, with the recorded information. -/
inductive FaultRec where
  /-- 1, command decode: CMD is 0b00 or 0b11. -/
  | illegalCommand (cmd : BitVec 2)
  /-- 2, RESET: `PAYLOAD[63:34]` is not zero. Records the payload. -/
  | reservedField (payload : BitVec 64)
  /-- 3, RESET: `SAMPLE_RATE` < 1000. -/
  | configInvalid (fs : BitVec 32)
  /-- 4, SAMPLE: no RESET has completed since power-on. -/
  | notConfigured
  /-- 5, SAMPLE: x is NaN, infinite, or above 1.0 in magnitude. Records the payload. -/
  | inputDomain (payload : BitVec 64)
  /-- 6: a computed binary64 value is NaN or infinite (R234). -/
  | numeric (step : StepId)
  /-- 7: an integer outside its register, an index out of bounds, a reserved enumeration value (R232). -/
  | intRange (step : StepId)
  /-- 8, CNT_INC: `SAMPLE_COUNT` would reach 2^53 (R233). -/
  | counterRange (count : BitVec 64)
deriving DecidableEq, Repr, Inhabited

/-- Why the MODEL stops with a fault. The block's own faults are no stops: they are taken, as next states
with `FAULT` written (R236). -/
inductive Fault where
  /-- Raised by NCO_ADV and SAMPLE in a state where the wrap loop of R106 never ends, because adding TWO_PI
  leaves the phase unchanged. SAFE: the rules give such a state no next state, and no run of host commands
  reaches one (log entry 14). -/
  | phaseWrapDiverges
deriving DecidableEq, Repr

/-- Why the MODEL gives a transaction no meaning. -/
inductive Refusal where
  /-- Raised by `exec` for an instruction without a meaning. SAFE. -/
  | notModelled (mnemonic : String)
  /-- Raised by `step` for a stimulus whose identifier R88 does not list ("Identifiers not in this table spell no
  operation"). SAFE: it is no instruction, and no host command is a stimulus. -/
  | noSuchOperation (id : Byte)
  /-- Raised by `step` for bytes that are not the form the MODEL gives a stimulus of the operation (too few, too many,
  a bit above an operand's width; log entry 1). SAFE: they carry no instruction, every value of every operand has a
  form, and no host command is a stimulus. -/
  | malformedStimulus (step : StepId)
deriving DecidableEq, Repr

/-- The value a value-returning operation gives when it runs alone (the model's own, log entry 2). -/
inductive Ret where
  | none
  | real (x : F64)
  | pair (x y : F64)
  | burst (y : List Cplx)
  | int (n : Int)
  | code (c : Code7)
  | truth (b : Bool)
  | soft (v : Soft7)
deriving DecidableEq, Repr, Inhabited

/-- Configuration registers and derived constants (R22, R23). -/
structure ConfigRegs where
  /-- `CFG_SAMPLE_RATE` -/
  sampleRate : BitVec 32
  /-- `CFG_REVERSE` -/
  reverse : Bool
  /-- `CFG_ONLY_SITOR_B` -/
  onlySitorB : Bool
  /-- `CONFIGURED` -/
  configured : Bool
  /-- `B` -/
  b : F64
  /-- `DPHI_M` -/
  dphiM : F64
  /-- `DPHI_S` -/
  dphiS : F64
deriving DecidableEq, Repr, Inhabited

/-- Mixer phase registers (R24). -/
structure NcoRegs where
  /-- `PHASE_M` -/
  phaseM : F64
  /-- `PHASE_S` -/
  phaseS : F64
deriving DecidableEq, Repr, Inhabited

/-- One low-pass filter (R25). -/
structure Filter where
  /-- `HIST`: every input since RESET, the oldest first. -/
  hist : List Cplx
  /-- `FILL`: inputs since the last output burst. -/
  fill : Nat
deriving DecidableEq, Repr, Inhabited

/-- Envelope and noise registers (R26). -/
structure TrackRegs where
  /-- `ENV_M` -/
  envM : F64
  /-- `ENV_S` -/
  envS : F64
  /-- `NOISE_M` -/
  noiseM : F64
  /-- `NOISE_S` -/
  noiseS : F64
deriving DecidableEq, Repr, Inhabited

/-- Bit synchroniser and time base (R28 to R31, R36). -/
structure SyncRegs where
  /-- `ACC_E` -/
  accE : I64
  /-- `ACC_P` -/
  accP : I64
  /-- `ACC_L` -/
  accL : I64
  /-- `NEXT_E` -/
  nextE : F64
  /-- `NEXT_P` -/
  nextP : F64
  /-- `NEXT_L` -/
  nextL : F64
  /-- `AVG_E` -/
  avgE : F64
  /-- `AVG_P` -/
  avgP : F64
  /-- `AVG_L` -/
  avgL : F64
  /-- `MARK_STATE` -/
  markState : I64
  /-- `SAMPLE_COUNT`, unsigned -/
  sampleCount : BitVec 64
deriving DecidableEq, Repr, Inhabited

/-- `BITBUF` (R40, R61): exactly 100 signed 64-bit entries, index 0 the oldest. -/
abbrev BitBuf := Vector I64 100

/-- Bit-level machine (R40 to R45). -/
structure RxRegs where
  /-- `BITBUF[0..99]` -/
  bitbuf : BitBuf
  /-- `RX_STATE`: SYNC_SETUP = 0, SYNC = 1, READ_DATA = 2, 3 reserved (R41) -/
  rxState : BitVec 2
  /-- `BIT_CURSOR`, unsigned -/
  bitCursor : BitVec 7
  /-- `ERROR_COUNT`, unsigned -/
  errorCount : BitVec 8
  /-- `ALPHA_PHASE` -/
  alphaPhase : Bool
  /-- `SHIFT`: false letters, true figures -/
  shift : Bool
  /-- `LAST_CODE` -/
  lastCode : Code7
deriving DecidableEq, Repr, Inhabited

/-- The whole state. -/
structure State where
  cfg : ConfigRegs
  nco : NcoRegs
  /-- `LPF_M` -/
  lpfM : Filter
  /-- `LPF_S` -/
  lpfS : Filter
  trk : TrackRegs
  sync : SyncRegs
  rx : RxRegs
  /-- `OUT` (R46), the oldest record first -/
  out : List Rec16
  /-- `FAULT` (R47) -/
  fault : Option FaultRec
  /-- The host's events not yet executed (R243; the model's own, log entry 8) -/
  input : List HostEvent
  /-- What the last value-returning stimulus gave (the model's own, log entry 2) -/
  ret : Ret
  /-- The number of the next draw of unspecified state (the model's own, log entry 6) -/
  draw : Nat
deriving DecidableEq, Repr, Inhabited

/-- 100 entries of 0 (R251). -/
def BitBuf.zeros : BitBuf := ⟨⟨List.replicate 100 0#64⟩, by simp⟩

/-- POWER-ON (R250): `CONFIGURED` is 0, `OUT` is empty, `FAULT` is none. The rule leaves every other register
unspecified; the zeros are the model's choice (DESIGN CHOICE, log entry 3). -/
def State.reset : State where
  cfg :=
    { sampleRate := 0#32, reverse := false, onlySitorB := false, configured := false,
      b := F64.zero, dphiM := F64.zero, dphiS := F64.zero }
  nco := { phaseM := F64.zero, phaseS := F64.zero }
  lpfM := { hist := [], fill := 0 }
  lpfS := { hist := [], fill := 0 }
  trk := { envM := F64.zero, envS := F64.zero, noiseM := F64.zero, noiseS := F64.zero }
  sync :=
    { accE := 0#64, accP := 0#64, accL := 0#64,
      nextE := F64.zero, nextP := F64.zero, nextL := F64.zero,
      avgE := F64.zero, avgP := F64.zero, avgL := F64.zero,
      markState := 0#64, sampleCount := 0#64 }
  rx :=
    { bitbuf := BitBuf.zeros, rxState := 0#2, bitCursor := 0#7, errorCount := 0#8,
      alphaPhase := false, shift := false, lastCode := 0x00#7 }
  out := []
  fault := none
  input := []
  ret := .none
  draw := 0

end Machine
end Sys2Proof
end

