-- ==== Sys2Proof/Machine/Ops.lean ====
section
/-! DEFINITION. The named operations over the state: register writes, the range and finiteness checks
(spec R232, R234), taking a fault (R230, R231, R236), and the end of a command. -/

namespace Sys2Proof
namespace Machine

/-! ## Register groups -/

namespace State

def setCfg (s : State) (r : ConfigRegs) : State := { s with cfg := r }
def setNco (s : State) (r : NcoRegs) : State := { s with nco := r }
def setTrk (s : State) (r : TrackRegs) : State := { s with trk := r }
def setSync (s : State) (r : SyncRegs) : State := { s with sync := r }
def setRx (s : State) (r : RxRegs) : State := { s with rx := r }
def setRet (s : State) (r : Ret) : State := { s with ret := r }
def setFault (s : State) (e : FaultRec) : State := { s with fault := some e }
def setInput (s : State) (l : List HostEvent) : State := { s with input := l }

/-- The filter of a branch (R63: the two share no storage). -/
def filter (s : State) : Branch → Filter
  | .mark => s.lpfM
  | .space => s.lpfS

def setFilter (s : State) (br : Branch) (f : Filter) : State :=
  match br with
  | .mark => { s with lpfM := f }
  | .space => { s with lpfS := f }

/-- `emit` (R13): appends one record to `OUT`; the block never drops one (R243). -/
def emit (s : State) (r : Rec16) : State := { s with out := s.out ++ [r] }

/-- The host removes the oldest record (R46, R243); nothing happens when there is none (log entry 9). -/
def drain (s : State) : State := { s with out := s.out.tail }

end State

/-! ## Checks -/

/-- A binary64 value computed by step `k` (R234): NUMERIC if it is NaN or infinite. -/
def chk (k : StepId) (x : F64) : Except FaultRec F64 :=
  if x.isFinite then .ok x else .error (.numeric k)

/-- An integer written to a signed 64-bit register (R232). -/
def toI64 (k : StepId) (n : Int) : Except FaultRec I64 :=
  if fitsI64 n then .ok (BitVec.ofInt 64 n) else .error (.intRange k)

/-- An integer written to an unsigned register of `w` bits (R232). -/
def toUnsigned (k : StepId) (w : Nat) (n : Int) : Except FaultRec (BitVec w) :=
  if 0 ≤ n ∧ n < 2 ^ w then .ok (BitVec.ofInt w n) else .error (.intRange k)

/-! ## Faults -/

namespace FaultRec

/-- The fault code of R230. -/
def code : FaultRec → Nat
  | .illegalCommand _ => 1
  | .reservedField _ => 2
  | .configInvalid _ => 3
  | .notConfigured => 4
  | .inputDomain _ => 5
  | .numeric _ => 6
  | .intRange _ => 7
  | .counterRange _ => 8

/-- The precise faults (R230, R231): those of the command checks. -/
def precise : FaultRec → Bool
  | .illegalCommand _ => true
  | .reservedField _ => true
  | .configInvalid _ => true
  | .notConfigured => true
  | .inputDomain _ => true
  | .numeric _ => false
  | .intRange _ => false
  | .counterRange _ => false

end FaultRec

/-- A free bit buffer. -/
def freeBitBuf (d : Nat) : BitBuf :=
  ⟨⟨(List.range 100).map fun i => Config.freeBits d (100 + i)⟩, by simp⟩

/-- R236, I5: the state after an imprecise fault is unspecified, records emitted earlier included. Every
register of the block takes a free value; the host's pending events and the model's own `ret` stay. -/
def State.unspecified (s : State) : State :=
  let d := s.draw
  let w (k : Nat) : BitVec 64 := Config.freeBits d k
  let f (k : Nat) : F64 := ⟨Config.freeBits d k⟩
  let bit (k : Nat) : Bool := (Config.freeBits d k).getLsbD 0
  { s with
    cfg :=
      { sampleRate := (w 0).setWidth 32, reverse := bit 1, onlySitorB := bit 2, configured := bit 3,
        b := f 4, dphiM := f 5, dphiS := f 6 }
    nco := { phaseM := f 7, phaseS := f 8 }
    lpfM := { hist := Config.freePairs d 0, fill := Config.freeNat d 0 }
    lpfS := { hist := Config.freePairs d 1, fill := Config.freeNat d 1 }
    trk := { envM := f 9, envS := f 10, noiseM := f 11, noiseS := f 12 }
    sync :=
      { accE := w 13, accP := w 14, accL := w 15, nextE := f 16, nextP := f 17, nextL := f 18,
        avgE := f 19, avgP := f 20, avgL := f 21, markState := w 22, sampleCount := w 23 }
    rx :=
      { bitbuf := freeBitBuf d, rxState := (w 24).setWidth 2, bitCursor := (w 25).setWidth 7,
        errorCount := (w 26).setWidth 8, alphaPhase := bit 27, shift := bit 28,
        lastCode := (w 29).setWidth 7 }
    out := Config.freeRecords d
    draw := d + 1 }

/-- TAKING A FAULT (R231, R236): `FAULT` is set to its code and information. A precise fault leaves all
other state as it was before the command; an imprecise one leaves it unspecified. There is no handler and
no return (R237). -/
def State.raise (s : State) (e : FaultRec) : State :=
  if e.precise then s.setFault e else s.unspecified.setFault e

/-- The end of a command or operation that started in `s` (R236): a block that holds a fault ignores it;
otherwise the state it computed, or the fault it raised. -/
def State.finish (s : State) (r : Except FaultRec State) : State :=
  if s.fault.isSome then s
  else
    match r with
    | .ok t => t
    | .error e => s.raise e

/-- What one operation answers. -/
abbrev Answer := Host.Outcome State Fault Refusal

end Machine
end Sys2Proof
end

