-- ==== Sys2Proof/Machine/Flags.lean ====
section
/-! DEFINITION. The block's flags (spec R17, R44): `ALPHA_PHASE` and `SHIFT`, and the control state
`RX_STATE` (R41). -/

namespace Sys2Proof
namespace Machine

/-- `RX_STATE` encodings (R41). -/
def rxSyncSetup : BitVec 2 := 0#2
def rxSync : BitVec 2 := 1#2
def rxReadData : BitVec 2 := 2#2

namespace State

def setAlphaPhase (s : State) (v : Bool) : State := s.setRx { s.rx with alphaPhase := v }

/-- `ALPHA_PHASE <- 1 - ALPHA_PHASE` (R179). -/
def toggleAlphaPhase (s : State) : State := s.setAlphaPhase (!s.rx.alphaPhase)

def setShift (s : State) (v : Bool) : State := s.setRx { s.rx with shift := v }

/-- The shift state after a decoded codeword (R210, R212): LTRS clears it, FIGS sets it. -/
def shiftAfter (shift : Bool) (code : Code7) : Bool :=
  if code = Codeword.ltrs then false else if code = Codeword.figs then true else shift

def setRxState (s : State) (v : BitVec 2) : State := s.setRx { s.rx with rxState := v }

end State
end Machine
end Sys2Proof
end

