-- ==== Sys2Proof/Machine/Operands.lean ====
section
/-! DEFINITION. The operand forms of the operations: a branch's phase register (spec R24, R105), the bit
buffer's reads and its one write (R61, R62), and integer operands read from registers (R12, R14). -/

namespace Sys2Proof
namespace Machine

/-- The phase register a branch's mixer reads (R105). -/
def State.phase (s : State) : Branch → F64
  | .mark => s.nco.phaseM
  | .space => s.nco.phaseS

/-- Seven soft bits from a function of their index. -/
def soft7 (f : Nat → Int) : Soft7 := ⟨#[f 0, f 1, f 2, f 3, f 4, f 5, f 6], rfl⟩

/-- Entry `i` of the buffer, as the signed integer it holds; 0 beyond its end, where no caller reads. -/
def BitBuf.entry (b : BitBuf) (i : Nat) : Int := (b.toList[i]?.getD 0#64).toInt

/-- `MemRead(c, 7)` (R61): legal only when 0 ≤ c and c + 7 ≤ 100, else INT_RANGE at step `k` (R232). -/
def memRead7 (k : StepId) (b : BitBuf) (c : Int) : Except FaultRec Soft7 :=
  if 0 ≤ c ∧ c + 7 ≤ 100 then .ok (soft7 fun i => b.entry (c.toNat + i)) else .error (.intRange k)

/-- The shift-in of R62, one atomic update: every entry moves one index toward the head, `v` is the new
tail. -/
def BitBuf.shiftIn (b : BitBuf) (v : I64) : BitBuf := ⟨⟨b.toList.drop 1 ++ [v]⟩, by simp⟩

/-- `f64(n)` of a register read as an unsigned integer (R36). -/
def f64OfCount (n : BitVec 64) : F64 := F64.ofInt (n.toNat : Int)

/-- `f64(abs(n))` of a signed register (R13: the exact absolute value, never wrapped). -/
def f64OfAbs (n : I64) : F64 := F64.ofInt (n.toInt.natAbs : Int)

end Machine
end Sys2Proof
end

