-- ==== Sys2Proof/Machine/Fec.lean ====
section
/-! DEFINITION. Codeword primitives (spec 43_charsync.md R170, R171) and the repetition-code soft-decision
decoder (44_fec.md R200 to R213): BITS_TO_CODE, VALID_CHAR, PROCESS_BYTES, FLIP_SMALLEST, PROCESS_CHAR. -/

namespace Sys2Proof
namespace Machine

/-! ## Codeword primitives -/

/-- The number whose bit k is `v[k] > 0`. -/
def codeOfList : List Int → Nat
  | [] => 0
  | x :: xs => (if 0 < x then 1 else 0) + 2 * codeOfList xs

/-- R170: bit k of the codeword is `v[k] > 0`; the earliest received bit is bit 0 (R15). -/
def bitsToCode (v : Soft7) : Code7 := BitVec.ofNat 7 (codeOfList v.toList)

/-- The number of positive soft bits, and of negative ones (R14: zero is neither). -/
def positives (v : Soft7) : Nat := v.toList.countP fun x => decide (0 < x)
def negatives (v : Soft7) : Nat := v.toList.countP fun x => decide (x < 0)

/-- R171: exactly four positive soft bits. -/
def validChar (v : Soft7) : Bool := positives v == 4

/-! ## FLIP_SMALLEST (R205) -/

/-- The negative soft bit closest to zero: the lowest index on a tie (D27). -/
def closestNegative (v : Soft7) : Option Nat :=
  (v.toList.filter fun x => decide (x < 0)).max?.map v.toList.idxOf

/-- The smallest positive soft bit: the lowest index on a tie (D27). -/
def smallestPositive (v : Soft7) : Option Nat :=
  (v.toList.filter fun x => decide (0 < x)).min?.map v.toList.idxOf

/-- A copy of `v` with soft bit `j` negated. INT_RANGE if the negation does not fit 64 bits. -/
def negateAt (v : Soft7) (j : Option Nat) : Except FaultRec Soft7 :=
  match j with
  | none => .ok v
  | some j =>
    let n := -(v.toList[j]?.getD 0)
    if fitsI64 n then .ok (v.setIfInBounds j n) else .error (.intRange .flipSmallest)

/-- R205, with the historical off-by-one of `c1` preserved (C1). The `c0` test comes first. -/
def flipSmallest (v : Soft7) : Except FaultRec Soft7 :=
  let c0 := negatives v
  let c1 := positives v + 1
  if c0 = 4 then negateAt v (closestNegative v)
  else if c1 = 5 then negateAt v (smallestPositive v)
  else .ok v

/-! ## PROCESS_CHAR (R210) -/

/-- `PATH` values (R87). -/
def pathAlpha : BitVec 3 := 1#3
def pathRepCopy : BitVec 3 := 2#3
def pathAvg : BitVec 3 := 3#3
def pathFlipAlpha : BitVec 3 := 4#3
def pathFlipRep : BitVec 3 := 5#3
def pathFlipAvg : BitVec 3 := 6#3

/-- The output record of R86: `{0b00000, path, SHIFT, code}`. -/
def recordOf (path : BitVec 3) (shift : Bool) (code : Code7) : Rec16 :=
  0#5 ++ (path ++ (BitVec.ofBool shift ++ code))

/-- The fields of a record (R86). -/
def recordCode (r : Rec16) : Code7 := r.extractLsb' 0 7
def recordShift (r : Rec16) : Bool := r.getLsbD 7
def recordPath (r : Rec16) : BitVec 3 := r.extractLsb' 8 3

/-- R210: REP after REP clears `ALPHA_PHASE` (R211); LTRS and FIGS write `SHIFT` (R212); `LAST_CODE` is
updated after the REP test (D28); the record carries `SHIFT` as it is after this codeword. PROCESS_BYTES hands over
valid codewords and the PATH values 1..6 alone; what happens with another codeword (R89, R210) or PATH (R87), which
only a stimulus can give, is the model's choice: the same, and the record is emitted (DESIGN CHOICE, log entry 21). -/
def processChar (s : State) (code : Code7) (path : BitVec 3) : State :=
  let repRep := code = Codeword.rep ∧ s.rx.lastCode = Codeword.rep
  let shift := State.shiftAfter s.rx.shift code
  (s.setRx { s.rx with
      alphaPhase := if repRep then false else s.rx.alphaPhase
      shift := shift
      lastCode := code }).emit (recordOf path shift code)

/-! ## PROCESS_BYTES (R200) -/

/-- Step 4: the sums `a[k] + r[k]`. INT_RANGE if one does not fit 64 bits. -/
def sumSoft (a r : Soft7) : Except FaultRec Soft7 :=
  let v := soft7 fun k => a.toList[k]?.getD 0 + r.toList[k]?.getD 0
  if Soft7.fits v then .ok v else .error (.intRange .processBytes)

/-- R200, steps 5 to 8, in order: the flipped alpha copy, the flipped rep copy, the flipped sum. Each flip
works on a copy (D27). -/
def processFlips (s : State) (a r v : Soft7) : Except FaultRec (State × Int) := do
  let fa ← flipSmallest a
  if validChar fa then pure (processChar s (bitsToCode fa) pathFlipAlpha, -1)
  else
    let fr ← flipSmallest r
    if validChar fr then pure (processChar s (bitsToCode fr) pathFlipRep, -1)
    else
      let fv ← flipSmallest v
      if validChar fv then pure (processChar s (bitsToCode fv) pathFlipAvg, -1)
      else pure (s, -2)

/-- R200, steps 3 to 8, once the rep copy is in the buffer. -/
def processRep (s : State) (a r : Soft7) : Except FaultRec (State × Int) :=
  if validChar r then
    if bitsToCode r = Codeword.rep then .ok (s, 0)
    else .ok (processChar s (bitsToCode r) pathRepCopy, 0)
  else do
    let v ← sumSoft a r
    if validChar v then pure (processChar s (bitsToCode v) pathAvg, -1)
    else processFlips s a r v

/-- R200: decode the character whose alpha copy starts at index `c`; the first rule that applies wins. -/
def processBytes (s : State) (c : Int) : Except FaultRec (State × Int) := do
  let a ← memRead7 .processBytes s.rx.bitbuf c
  if validChar a then pure (processChar s (bitsToCode a) pathAlpha, 1)
  else if c - repDist < 0 then pure (s, -1)
  else
    let r ← memRead7 .processBytes s.rx.bitbuf (c - repDist)
    processRep s a r

/-! ## Meanings -/

/-- BITS_TO_CODE (R170). -/
def execBitsToCode (v : Soft7) (s : State) : Answer :=
  .next (s.finish (.ok (s.setRet (.code (bitsToCode v)))))

/-- VALID_CHAR (R171). -/
def execValidChar (v : Soft7) (s : State) : Answer :=
  .next (s.finish (.ok (s.setRet (.truth (validChar v)))))

/-- PROCESS_BYTES (R200). -/
def execProcessBytes (c : BitVec 7) (s : State) : Answer :=
  .next (s.finish ((processBytes s (c.toNat : Int)).map fun r => r.1.setRet (.int r.2)))

/-- FLIP_SMALLEST (R205). -/
def execFlipSmallest (v : Soft7) (s : State) : Answer :=
  .next (s.finish ((flipSmallest v).map fun w => s.setRet (.soft w)))

/-- PROCESS_CHAR (R210); with an invalid codeword, or PATH 0 or 7, the same effect (DESIGN CHOICE, log entry 21). -/
def execProcessChar (code : Code7) (path : BitVec 3) (s : State) : Answer :=
  .next (s.finish (.ok (processChar s code path)))

end Machine
end Sys2Proof
end

