-- ==== Sys2Proof/Machine/CharSync.lean ====
section
/-! DEFINITION. Bit handler, receiver state machine and character synchroniser (spec 43_charsync.md R175 to
R184): BIT_IN, SM_SYNC_SETUP, SM_SYNC, SM_READ_DATA, FIND_ALPHA. -/

namespace Sys2Proof
namespace Machine

/-! ## FIND_ALPHA (R180) -/

/-- The running score and reps of one offset's walk. -/
structure Score where
  score : Nat
  reps : Nat
deriving DecidableEq, Repr

/-- One window of the walk. A valid window counts first; equality with the window 35 bits earlier then
discards the score (ALPHA or REP) or counts a rep; ALPHA right after REP counts a rep (D25). -/
def scoreWindow (b : BitBuf) (a : Score) (i : Nat) : Except FaultRec Score := do
  let w ← memRead7 .findAlpha b i
  if validChar w then
    let code := bitsToCode w
    let earlier ← memRead7 .findAlpha b ((i : Int) - repDist)
    if code = bitsToCode earlier then
      if code = Codeword.alpha ∨ code = Codeword.rep then pure { a with score := 0 }
      else pure { score := a.score + 1, reps := a.reps + 1 }
    else if code = Codeword.alpha then
      let before ← memRead7 .findAlpha b ((i : Int) - charBits)
      if bitsToCode before = Codeword.rep then pure { score := a.score + 1, reps := a.reps + 1 }
      else pure { a with score := a.score + 1 }
    else pure { a with score := a.score + 1 }
  else pure a

/-- The windows of an offset's walk: `off, off + 7, …` below 93 (R180 "len - 7, strict"). -/
def walkWindows (off : Nat) : List Nat :=
  ((List.range 14).map fun k => off + charBits * k).filter fun i => i < bitbufLen - charBits

def scoreOffset (b : BitBuf) (off : Nat) : Except FaultRec Score :=
  (walkWindows off).foldlM (scoreWindow b) { score := 0, reps := 0 }

/-- The best offset so far and its total (R180 starts with -1 and 0). -/
structure Best where
  off : Int
  total : Nat
deriving DecidableEq, Repr

/-- One offset tried: strictly greater than the best total, so the lowest offset wins a tie (D26). -/
def tryOffset (b : BitBuf) (best : Best) (off : Nat) : Except FaultRec Best := do
  let a ← scoreOffset b off
  if syncMinReps ≤ a.reps ∧ best.total < a.score + a.reps then
    pure { off := off, total := a.score + a.reps }
  else pure best

/-- The offsets 35 .. 48. -/
def syncOffsets : List Nat := (List.range (syncOffHi - syncOffLo)).map fun k => syncOffLo + k

/-- R180: the best offset if its total exceeds 8, else -1. Reads only. -/
def findAlpha (b : BitBuf) : Except FaultRec Int := do
  let best ← syncOffsets.foldlM (tryOffset b) { off := -1, total := 0 }
  pure (if syncMinTotal < best.total then best.off else -1)

/-! ## State actions (R177 to R179) -/

/-- R177. -/
def smSyncSetup (s : State) : State :=
  s.setRx { s.rx with errorCount := 0#8, shift := false, rxState := rxSync }

/-- R178. -/
def smSync (s : State) : Except FaultRec State := do
  let off ← findAlpha s.rx.bitbuf
  if 0 ≤ off then
    let cursor ← toUnsigned .smSync 7 off
    pure (s.setRx { s.rx with bitCursor := cursor, alphaPhase := true, rxState := rxReadData })
  else pure (s.setRxState rxSyncSetup)

/-- R179, the alpha slot: the error charge, with a floor at 0, and the return to SYNC_SETUP above 5. -/
def alphaSlot (s : State) : Except FaultRec State := do
  let (t, r) ← processBytes s (s.rx.bitCursor.toNat : Int)
  let e ← toUnsigned .smReadData 8 (max ((t.rx.errorCount.toNat : Int) - r) 0)
  pure (t.setRx { t.rx with
    errorCount := e
    rxState := if errLimit < e.toNat then rxSyncSetup else t.rx.rxState })

/-- R179: at most one slot per bit; a rep slot is passed over (D24). The toggle reads the value that
PROCESS_BYTES may have written (C7). -/
def smReadData (s : State) : Except FaultRec State :=
  if s.rx.bitCursor.toNat < bitbufLen - charBits then do
    let t ← if s.rx.alphaPhase then alphaSlot s else pure s
    let cursor ← toUnsigned .smReadData 7 ((t.rx.bitCursor.toNat : Int) + charBits)
    let u := t.toggleAlphaPhase
    pure (u.setRx { u.rx with bitCursor := cursor })
  else .ok s

/-! ## BIT_IN (R176) -/

/-- R176: the shift-in and the cursor decrement, with a floor at 0. -/
def shiftBit (s : State) (v : Int) : Except FaultRec State := do
  let b ← toI64 .bitIn v
  let cursor ← toUnsigned .bitIn 7 (max ((s.rx.bitCursor.toNat : Int) - 1) 0)
  pure (s.setRx { s.rx with bitbuf := s.rx.bitbuf.shiftIn b, bitCursor := cursor })

/-- R175, R176: then exactly one state action, chosen by `RX_STATE` on entry. The reserved value raises
INT_RANGE (R232). -/
def bitIn (s : State) (v : Int) : Except FaultRec State := do
  let t ← shiftBit s v
  if s.rx.rxState = rxSyncSetup then pure (smSyncSetup t)
  else if s.rx.rxState = rxSync then smSync t
  else if s.rx.rxState = rxReadData then smReadData t
  else .error (.intRange .bitIn)

/-! ## Meanings -/

/-- BIT_IN (R176). -/
def execBitIn (v : Int) (s : State) : Answer := .next (s.finish (bitIn s v))

/-- SM_SYNC_SETUP (R177). -/
def execSmSyncSetup (s : State) : Answer := .next (s.finish (.ok (smSyncSetup s)))

/-- SM_SYNC (R178). -/
def execSmSync (s : State) : Answer := .next (s.finish (smSync s))

/-- SM_READ_DATA (R179). -/
def execSmReadData (s : State) : Answer := .next (s.finish (smReadData s))

/-- FIND_ALPHA (R180). -/
def execFindAlpha (s : State) : Answer :=
  .next (s.finish ((findAlpha s.rx.bitbuf).map fun off => s.setRet (.int off)))

end Machine
end Sys2Proof
end

