-- ==== Sys2Proof/Machine/BitSync.lean ====
section
/-! DEFINITION. The multicorrelator bit synchroniser (spec 42_bitsync.md R150 to R156): EVT_EARLY, EVT_LATE,
EVT_PROMPT, REALIGN. Each event fires at most once per call (R150, D21). -/

namespace Sys2Proof
namespace Machine

/-- `avg + (f64(abs(acc)) - avg) / 64.0` (R151). -/
def corrAverage (k : StepId) (avg : F64) (acc : I64) : Except FaultRec F64 :=
  chk k (F64.add avg (F64.div (F64.sub (f64OfAbs acc) avg) F64.corrAvgDiv))

/-- R150: an event fires when its index is at or before t. NUMERIC for a t that is not finite (R13, R234: a
comparison never sees one; log entry 13). -/
def fires (k : StepId) (next t : F64) : Except FaultRec Bool := (chk k t).map fun t => F64.le next t

/-- R151. -/
def evtEarly (s : State) (t : F64) : Except FaultRec State := do
  if (← fires .evtEarly s.sync.nextE t) then
    let avg ← corrAverage .evtEarly s.sync.avgE s.sync.accE
    let next ← chk .evtEarly (F64.add s.sync.nextE s.cfg.b)
    pure (s.setSync { s.sync with avgE := avg, nextE := next, accE := 0#64 })
  else pure s

/-- R152. -/
def evtLate (s : State) (t : F64) : Except FaultRec State := do
  if (← fires .evtLate s.sync.nextL t) then
    let avg ← corrAverage .evtLate s.sync.avgL s.sync.accL
    let next ← chk .evtLate (F64.add s.sync.nextL s.cfg.b)
    pure (s.setSync { s.sync with avgL := avg, nextL := next, accL := 0#64 })
  else pure s

/-- R153, before the bit handler: `MARK_STATE` takes the accumulator as it was before the clear, negated when
`CFG_REVERSE = 1` (R154). INT_RANGE if the negation does not fit 64 bits (R232). -/
def promptSample (s : State) : Except FaultRec State := do
  let v := s.sync.accP.toInt
  let m ← toI64 .evtPrompt (if s.cfg.reverse then -v else v)
  let avg ← corrAverage .evtPrompt s.sync.avgP s.sync.accP
  let next ← chk .evtPrompt (F64.add s.sync.nextP s.cfg.b)
  pure (s.setSync { s.sync with markState := m, avgP := avg, nextP := next, accP := 0#64 })

/-- R153: the bit decision; the bit handler runs inside the event. -/
def evtPrompt (s : State) (t : F64) : Except FaultRec State := do
  if (← fires .evtPrompt s.sync.nextP t) then
    let u ← promptSample s
    bitIn u u.sync.markState.toInt
  else pure s

/-- What a re-alignment adds to the schedule, and the three averages after it. -/
structure Alignment where
  slope : F64
  avgE : F64
  avgP : F64
  avgL : F64
deriving DecidableEq, Repr

/-- R155, R156: the slope, and the picker with its two rotations, exactly the two assignments listed (D41);
the late branch on a tie. -/
def alignment (s : State) : Except FaultRec Alignment := do
  let y := s.sync
  let slope ← chk .realign (F64.div (F64.sub y.avgL y.avgE) F64.slopeDiv)
  let bar ← chk .realign (F64.mul y.avgP F64.minHyst)
  if F64.lt bar y.avgE && F64.lt bar y.avgL then
    if F64.lt y.avgL y.avgE then
      let sl ← chk .realign (F64.fmod (F64.sub (F64.sub y.nextE y.nextP) s.cfg.b) s.cfg.b)
      pure { slope := sl, avgE := y.avgE, avgP := y.avgE, avgL := y.avgP }
    else
      let sl ← chk .realign (F64.fmod (F64.add (F64.sub y.nextL y.nextP) s.cfg.b) s.cfg.b)
      pure { slope := sl, avgE := y.avgP, avgP := y.avgL, avgL := y.avgL }
  else pure { slope := slope, avgE := y.avgE, avgP := y.avgP, avgL := y.avgL }

/-- R155: re-alignment where `fmod(t, 8.0 * B) == 0.0` (C2, D20). -/
def realign (s : State) (t : F64) : Except FaultRec State := do
  let period ← chk .realign (F64.mul F64.eight s.cfg.b)
  let r ← chk .realign (F64.fmod t period)
  if F64.feq r F64.zero then
    let a ← alignment s
    let ne ← chk .realign (F64.add s.sync.nextE a.slope)
    let np ← chk .realign (F64.add s.sync.nextP a.slope)
    let nl ← chk .realign (F64.add s.sync.nextL a.slope)
    pure (s.setSync { s.sync with
      nextE := ne, nextP := np, nextL := nl, avgE := a.avgE, avgP := a.avgP, avgL := a.avgL })
  else pure s

/-! ## Meanings -/

/-- EVT_EARLY (R151). -/
def execEvtEarly (t : F64) (s : State) : Answer := .next (s.finish (evtEarly s t))

/-- EVT_LATE (R152). -/
def execEvtLate (t : F64) (s : State) : Answer := .next (s.finish (evtLate s t))

/-- EVT_PROMPT (R153). -/
def execEvtPrompt (t : F64) (s : State) : Answer := .next (s.finish (evtPrompt s t))

/-- REALIGN (R155). -/
def execRealign (t : F64) (s : State) : Answer := .next (s.finish (realign s t))

end Machine
end Sys2Proof
end

