-- ==== Sys2Proof/Machine/Frontend.lean ====
section
/-! DEFINITION. The quadrature front end (spec 40_frontend.md R103 to R110): SCALE, MIX, NCO_ADV, LPF_PUSH,
LPF_BLOCK. A function that computes answers a value or the fault its step raises; the `exec…` definitions
are the meanings of the operations run alone. -/

namespace Sys2Proof
namespace Machine

/-- R103: `dv = 32767.0 * x; return (dv, dv)`. -/
def scale (x : F64) : Except FaultRec Cplx := do
  let dv ← chk .scale (F64.mul F64.pcmScale x)
  pure { re := dv, im := dv }

/-- R105: `z · exp(-j·φ)`, expanded in real arithmetic (D13). NUMERIC when `COS_FN`, `SIN_FN` or a result
is not finite. -/
def mix (c : Config) (z : Cplx) (phi : F64) : Except FaultRec Cplx := do
  let co ← chk .mix (c.cosFn phi)
  let si ← chk .mix (c.sinFn phi)
  let re ← chk .mix (F64.add (F64.mul z.re co) (F64.mul z.im si))
  let im ← chk .mix (F64.sub (F64.mul z.im co) (F64.mul z.re si))
  pure { re := re, im := im }

/-- Why an NCO_ADV does not answer: a fault of the block, or a wrap loop that never ends (log entry 14). -/
inductive NcoStop where
  | raised (e : FaultRec)
  | diverges
deriving DecidableEq, Repr

/-- R106: `while p <= -TWO_PI: p <- p + TWO_PI`. The loop never ends where an addition leaves `p`
unchanged. -/
def wrapPhase : Nat → F64 → Except NcoStop F64
  | 0, _ => .error .diverges
  | fuel + 1, p =>
    if F64.le p F64.negTwoPi then
      let p' := F64.add p F64.twoPi
      if p' = p then .error .diverges else wrapPhase fuel p'
    else .ok p

/-- More iterations than any wrap loop that ends can take: an addition that changes `p` raises it by at least
4.0, so the loop takes at most |p| / 4 of them. R106 states a bound for the phases the rules reach. -/
def wrapFuel (p : F64) : Nat := p.trunc.natAbs + 2

/-- One phase advanced (R106). NUMERIC when the difference is not finite (R234). -/
def advancePhase (p dphi : F64) : Except NcoStop F64 :=
  match chk .ncoAdv (F64.sub p dphi) with
  | .error e => .error (.raised e)
  | .ok q => wrapPhase (wrapFuel q) q

/-- R106: both phases, mark first. -/
def ncoAdv (s : State) : Except NcoStop State := do
  let pm ← advancePhase s.nco.phaseM s.cfg.dphiM
  let ps ← advancePhase s.nco.phaseS s.cfg.dphiS
  pure (s.setNco { phaseM := pm, phaseS := ps })

/-- `u[m-P-511 .. m-1]`, oldest first: the last `P + 511` inputs, (0.0, 0.0) before the first (R25, R110). -/
def lpfWindow (c : Config) (hist : List Cplx) : List Cplx :=
  let n := c.block + 511
  let recent := hist.drop (hist.length - n)
  List.replicate (n - recent.length) { re := F64.zero, im := F64.zero } ++ recent

/-- R110: one output burst of P pairs. NUMERIC when a component is not finite. -/
def lpfBlock (c : Config) (f : Filter) : Except FaultRec (List Cplx) :=
  let y := (List.range c.block).map (c.lpfFn c.taps (lpfWindow c f.hist))
  if y.all Cplx.isFinite then .ok y else .error (.numeric .lpfBlock)

/-- R108: the filter after the push, and the burst (empty unless the push completes a block). NUMERIC for a pair
that is not finite (log entry 13). -/
def lpfPush (c : Config) (f : Filter) (u : Cplx) : Except FaultRec (Filter × List Cplx) :=
  let hist := f.hist ++ [u]
  if !u.isFinite then .error (.numeric .lpfPush)
  else if f.fill + 1 = c.block then do
    let y ← lpfBlock c { hist := hist, fill := 0 }
    pure ({ hist := hist, fill := 0 }, y)
  else .ok ({ hist := hist, fill := f.fill + 1 }, [])

/-! ## Meanings -/

/-- SCALE (R103). -/
def execScale (x : F64) (s : State) : Answer :=
  .next (s.finish ((scale x).map fun z => s.setRet (.pair z.re z.im)))

/-- MIX (R105): the phase is the branch's register, before its advance. -/
def execMix (br : Branch) (z : Cplx) (s : State) : Answer :=
  .next (s.finish ((mix Config.machine z (s.phase br)).map fun y => s.setRet (.pair y.re y.im)))

/-- NCO_ADV (R106). -/
def execNcoAdv (s : State) : Answer :=
  if s.fault.isSome then .next s
  else
    match ncoAdv s with
    | .ok t => .next t
    | .error (.raised e) => .next (s.raise e)
    | .error .diverges => .fault .phaseWrapDiverges

/-- LPF_PUSH (R108). -/
def execLpfPush (br : Branch) (u : Cplx) (s : State) : Answer :=
  .next (s.finish ((lpfPush Config.machine (s.filter br) u).map fun r =>
    (s.setFilter br r.1).setRet (.burst r.2)))

/-- LPF_BLOCK (R110): reads the filter and changes none of its state. -/
def execLpfBlock (br : Branch) (s : State) : Answer :=
  .next (s.finish ((lpfBlock Config.machine (s.filter br)).map fun y => s.setRet (.burst y)))

end Machine
end Sys2Proof
end

