-- ==== Sys2Proof/Machine/Tracker.lean ====
section
/-! DEFINITION. Envelope and noise trackers, discriminator, soft bit, accumulators and time base (spec
41_envelope_atc.md R131 to R139). -/

namespace Sys2Proof
namespace Machine

/-- R131: `SQRT(re*re + im*im)`, no scaling (D8). -/
def mag (y : Cplx) : Except FaultRec F64 :=
  chk .mag (F64.sqrt (F64.add (F64.mul y.re y.re) (F64.mul y.im y.im)))

/-- R132 DECAY: the divisor is `up` when `v > avg`, else `down`. -/
def decay (k : StepId) (avg v up down : F64) : Except FaultRec F64 :=
  chk k (F64.add avg (F64.div (F64.sub v avg) (if F64.lt avg v then up else down)))

/-- R132: ENV_UPD, with the divisors B / 4.0 (up) and B * 16.0 (down). -/
def envUpd (s : State) (m sp : F64) : Except FaultRec State := do
  let up ← chk .envUpd (F64.div s.cfg.b F64.four)
  let down ← chk .envUpd (F64.mul s.cfg.b F64.sixteen)
  let em ← decay .envUpd s.trk.envM m up down
  let es ← decay .envUpd s.trk.envS sp up down
  pure (s.setTrk { s.trk with envM := em, envS := es })

/-- R133: NOISE_UPD, with the divisors B * 48.0 (up) and B / 4.0 (down). -/
def noiseUpd (s : State) (m sp : F64) : Except FaultRec State := do
  let up ← chk .noiseUpd (F64.mul s.cfg.b F64.fortyEight)
  let down ← chk .noiseUpd (F64.div s.cfg.b F64.four)
  let nm ← decay .noiseUpd s.trk.noiseM m up down
  let ns ← decay .noiseUpd s.trk.noiseS sp up down
  pure (s.setTrk { s.trk with noiseM := nm, noiseS := ns })

/-- R134: `nf = (NOISE_M + NOISE_S) / 2.0`. -/
def nfloor (s : State) : Except FaultRec F64 :=
  chk .nfloor (F64.div (F64.add s.trk.noiseM s.trk.noiseS) F64.two)

/-- R135: `max(min(v, ENV), nf)`, the floor wins (D16). NUMERIC for an operand that is not finite: `min` and `max`
never see one (R13, R234; log entry 13). -/
def clipOne (c : Config) (v env nf : F64) : Except FaultRec F64 := do
  let v ← chk .clip v
  let nf ← chk .clip nf
  chk .clip (F64.fmax c.zeroPick (F64.fmin c.zeroPick v env) nf)

/-- R135: both branches share the floor. -/
def clip (c : Config) (s : State) (m sp nf : F64) : Except FaultRec (F64 × F64) := do
  let mc ← clipOne c m s.trk.envM nf
  let sc ← clipOne c sp s.trk.envS nf
  pure (mc, sc)

/-- R136: the likelihood, evaluated in the written order. -/
def atcValue (mc sc nf em es : F64) : F64 :=
  let mn := F64.sub mc nf
  let en := F64.sub em nf
  let sn := F64.sub sc nf
  let ef := F64.sub es nf
  F64.sub (F64.sub (F64.mul mn en) (F64.mul sn ef))
    (F64.mul F64.half (F64.sub (F64.mul en en) (F64.mul ef ef)))

def atc (s : State) (mc sc nf : F64) : Except FaultRec F64 :=
  chk .atc (atcValue mc sc nf s.trk.envM s.trk.envS)

/-- R137: `trunc(LOG(1.0 + a))` for a positive magnitude `a`. -/
def logTrunc (c : Config) (a : F64) : Except FaultRec Int := do
  let v ← chk .softbit (F64.add F64.one a)
  let l ← chk .softbit (c.logFn v)
  pure l.trunc

/-- R137: sign(L) · trunc(LOG(1 + |L|)), sign(0) = 0 (D17). NUMERIC for an L that is not finite (log entry 13). -/
def softbit (c : Config) (l : F64) : Except FaultRec Int :=
  if !l.isFinite then .error (.numeric .softbit)
  else if F64.lt F64.zero l then logTrunc c l
  else if F64.lt l F64.zero then (logTrunc c l.neg).map fun b => -b
  else .ok 0

/-- R138: the soft bit is added to all three accumulators. -/
def accum (s : State) (b : Int) : Except FaultRec State := do
  let e ← toI64 .accum (s.sync.accE.toInt + b)
  let p ← toI64 .accum (s.sync.accP.toInt + b)
  let l ← toI64 .accum (s.sync.accL.toInt + b)
  pure (s.setSync { s.sync with accE := e, accP := p, accL := l })

/-- R139: `SAMPLE_COUNT` never reaches 2^53 (R233). -/
def cntInc (s : State) : Except FaultRec State :=
  if s.sync.sampleCount.toNat + 1 = 2 ^ 53 then .error (.counterRange s.sync.sampleCount)
  else do
    let n ← toUnsigned .cntInc 64 ((s.sync.sampleCount.toNat : Int) + 1)
    pure (s.setSync { s.sync with sampleCount := n })

/-! ## Meanings -/

/-- MAG (R131). -/
def execMag (y : Cplx) (s : State) : Answer :=
  .next (s.finish ((mag y).map fun v => s.setRet (.real v)))

/-- ENV_UPD (R132). -/
def execEnvUpd (m sp : F64) (s : State) : Answer := .next (s.finish (envUpd s m sp))

/-- NOISE_UPD (R133). -/
def execNoiseUpd (m sp : F64) (s : State) : Answer := .next (s.finish (noiseUpd s m sp))

/-- NFLOOR (R134). -/
def execNfloor (s : State) : Answer :=
  .next (s.finish ((nfloor s).map fun nf => s.setRet (.real nf)))

/-- CLIP (R135). -/
def execClip (m sp nf : F64) (s : State) : Answer :=
  .next (s.finish ((clip Config.machine s m sp nf).map fun r => s.setRet (.pair r.1 r.2)))

/-- ATC (R136). -/
def execAtc (mc sc nf : F64) (s : State) : Answer :=
  .next (s.finish ((atc s mc sc nf).map fun l => s.setRet (.real l)))

/-- SOFTBIT (R137). -/
def execSoftbit (l : F64) (s : State) : Answer :=
  .next (s.finish ((softbit Config.machine l).map fun b => s.setRet (.int b)))

/-- ACCUM (R138). -/
def execAccum (b : Int) (s : State) : Answer := .next (s.finish (accum s b))

/-- CNT_INC (R139). -/
def execCntInc (s : State) : Answer := .next (s.finish (cntInc s))

end Machine
end Sys2Proof
end

