-- ==== Sys2Proof/Machine/Command.lean ====
section
/-! DEFINITION. The two host commands (spec 40_frontend.md R100 to R102, R109) and the per-filtered-sample
sequence FSAMPLE (41_envelope_atc.md R130). A command is one atomic step (R3, R66). -/

namespace Sys2Proof
namespace Machine

/-! ## RESET (R100) -/

/-- `B` (R10, R23). -/
def samplesPerBit (fs : BitVec 32) : F64 := F64.div (F64.ofInt (fs.toNat : Int)) F64.baud

/-- `DPHI` of a tone (R23, D12). -/
def phaseStep (tone : F64) (fs : BitVec 32) : F64 :=
  F64.div (F64.mul F64.twoPi tone) (F64.ofInt (fs.toNat : Int))

/-- The state after a RESET that does not fault (R100, R251): everything but `OUT` and `FAULT`. -/
def resetState (fs : BitVec 32) (reverse onlySitorB : Bool) (s : State) : State :=
  let b := samplesPerBit fs
  { s with
    cfg :=
      { sampleRate := fs, reverse := reverse, onlySitorB := onlySitorB, configured := true,
        b := b, dphiM := phaseStep F64.fMark fs, dphiS := phaseStep F64.fSpace fs }
    nco := { phaseM := F64.zero, phaseS := F64.zero }
    lpfM := { hist := [], fill := 0 }
    lpfS := { hist := [], fill := 0 }
    trk := { envM := F64.zero, envS := F64.zero, noiseM := F64.zero, noiseS := F64.zero }
    sync :=
      { accE := 0#64, accP := 0#64, accL := 0#64,
        nextE := F64.zero, nextP := F64.div b F64.five,
        nextL := F64.div (F64.mul F64.two b) F64.five,
        avgE := F64.zero, avgP := F64.zero, avgL := F64.zero,
        markState := 0#64, sampleCount := 0#64 }
    rx :=
      { bitbuf := BitBuf.zeros, rxState := rxSyncSetup, bitCursor := 0#7, errorCount := 0#8,
        alphaPhase := false, shift := false, lastCode := 0x00#7 } }

/-- R100: the reserved bits are checked first (R235). -/
def resetCommand (fs : BitVec 32) (reverse onlySitorB : Bool) (reserved : BitVec 30) (s : State) :
    Except FaultRec State :=
  if reserved ≠ 0#30 then .error (.reservedField (resetPayload fs reverse onlySitorB reserved))
  else if fs.toNat < minSampleRate then .error (.configInvalid fs)
  else .ok (resetState fs reverse onlySitorB s)

/-! ## SAMPLE (R101, R102) -/

/-- R101: a legal input sample is finite with `abs(x) ≤ 1.0`. -/
def legalSample (x : F64) : Bool := x.isFinite && F64.le x.abs F64.one

/-- R101: the checks before any state is written (R231, R235). -/
def sampleChecks (x : F64) (s : State) : Except FaultRec Unit :=
  if !s.cfg.configured then .error .notConfigured
  else if !legalSample x then .error (.inputDomain x.bits)
  else .ok ()

/-- R130 FSAMPLE: the whole sequence for one filtered pair. -/
def fsample (c : Config) (s : State) (ym ys : Cplx) : Except FaultRec State := do
  let m ← mag ym
  let sp ← mag ys
  let s ← envUpd s m sp
  let s ← noiseUpd s m sp
  let nf ← nfloor s
  let (mc, sc) ← clip c s m sp nf
  let l ← atc s mc sc nf
  let b ← softbit c l
  let s ← accum s b
  let t := f64OfCount s.sync.sampleCount
  let s ← evtEarly s t
  let s ← evtLate s t
  let s ← evtPrompt s t
  let s ← realign s t
  cntInc s

/-- R102: FSAMPLE for each i below the space burst's length (R109); each completes before the next. A mark
burst that is shorter has no `ym[i]` to read: INT_RANGE (R230 "an array index out of bounds", log entry 15). -/
def burstLoop (c : Config) (s : State) (ym ys : List Cplx) : Except FaultRec State :=
  if ym.length < ys.length then .error (.intRange .lpfPush)
  else (ym.zip ys).foldlM (fun s p => fsample c s p.1 p.2) s

/-- R102 before the wrap of NCO_ADV: SCALE, and MIX of both branches with the phases before the advance. -/
def mixBoth (c : Config) (s : State) (x : F64) : Except FaultRec (Cplx × Cplx) := do
  let z ← scale x
  let zm ← mix c z s.nco.phaseM
  let zs ← mix c z s.nco.phaseS
  pure (zm, zs)

/-- R102 after NCO_ADV: both filters pushed, mark first (D39), then the burst. -/
def pushBoth (c : Config) (s : State) (zm zs : Cplx) : Except FaultRec State := do
  let (fm, ym) ← lpfPush c s.lpfM zm
  let (fp, ys) ← lpfPush c s.lpfS zs
  burstLoop c ((s.setFilter .mark fm).setFilter .space fp) ym ys

/-- R101, R102 for any parameters `c`, of a block that holds no fault. -/
def sampleWith (c : Config) (x : F64) (s : State) : Answer :=
  match sampleChecks x s with
  | .error e => .next (s.raise e)
  | .ok () =>
    match mixBoth c s x with
    | .error e => .next (s.raise e)
    | .ok (zm, zs) =>
      match ncoAdv s with
      | .error .diverges => .fault .phaseWrapDiverges
      | .error (.raised e) => .next (s.raise e)
      | .ok t => .next (s.finish (pushBoth c t zm zs))

/-! ## Meanings -/

/-- RESET (R100). -/
def execReset (fs : BitVec 32) (reverse onlySitorB : Bool) (reserved : BitVec 30) (s : State) : Answer :=
  .next (s.finish (resetCommand fs reverse onlySitorB reserved s))

/-- SAMPLE (R101, R102). A block that holds a fault ignores it (R236). -/
def execSample (x : F64) (s : State) : Answer :=
  if s.fault.isSome then .next s else sampleWith Config.machine x s

end Machine
end Sys2Proof
end

