-- ==== Sys2Proof/Machine/Dispatch.lean ====
section
/-! DEFINITION. One arm per operation: its meaning. -/

namespace Sys2Proof
namespace Machine

def exec (i : Instr) (s : State) : Host.Outcome State Fault Refusal :=
  match i with
  | .reset fs reverse onlySitorB reserved => Sys2Proof.Machine.execReset fs reverse onlySitorB reserved s
  | .sample x => Sys2Proof.Machine.execSample x s
  | .scale x => Sys2Proof.Machine.execScale x s
  | .mix br z => Sys2Proof.Machine.execMix br z s
  | .ncoAdv => Sys2Proof.Machine.execNcoAdv s
  | .lpfPush br u => Sys2Proof.Machine.execLpfPush br u s
  | .lpfBlock br => Sys2Proof.Machine.execLpfBlock br s
  | .mag y => Sys2Proof.Machine.execMag y s
  | .envUpd m sp => Sys2Proof.Machine.execEnvUpd m sp s
  | .noiseUpd m sp => Sys2Proof.Machine.execNoiseUpd m sp s
  | .nfloor => Sys2Proof.Machine.execNfloor s
  | .clip m sp nf => Sys2Proof.Machine.execClip m sp nf s
  | .atc mc sc nf => Sys2Proof.Machine.execAtc mc sc nf s
  | .softbit l => Sys2Proof.Machine.execSoftbit l s
  | .accum b => Sys2Proof.Machine.execAccum b s
  | .cntInc => Sys2Proof.Machine.execCntInc s
  | .evtEarly t => Sys2Proof.Machine.execEvtEarly t s
  | .evtLate t => Sys2Proof.Machine.execEvtLate t s
  | .evtPrompt t => Sys2Proof.Machine.execEvtPrompt t s
  | .realign t => Sys2Proof.Machine.execRealign t s
  | .bitIn v => Sys2Proof.Machine.execBitIn v s
  | .smSyncSetup => Sys2Proof.Machine.execSmSyncSetup s
  | .smSync => Sys2Proof.Machine.execSmSync s
  | .smReadData => Sys2Proof.Machine.execSmReadData s
  | .findAlpha => Sys2Proof.Machine.execFindAlpha s
  | .bitsToCode v => Sys2Proof.Machine.execBitsToCode v s
  | .validChar v => Sys2Proof.Machine.execValidChar v s
  | .processBytes c => Sys2Proof.Machine.execProcessBytes c s
  | .flipSmallest v => Sys2Proof.Machine.execFlipSmallest v s
  | .processChar code path => Sys2Proof.Machine.execProcessChar code path s

end Machine
end Sys2Proof
end

