-- ==== Sys2Proof/Machine/Events.lean ====
section
/-! DEFINITION. What the host's events do (spec R243): a transaction is decoded and run, an illegal command
word raises its fault (R84, R231), a drain removes one record. `Step.lean` only calls this. -/

namespace Sys2Proof
namespace Machine

/-- A transaction that the decoder refuses. An illegal command raises ILLEGAL_COMMAND with the CMD value; an
identifier that spells no operation (R88), and bytes that are no stimulus of the operation (log entry 1), are no
instruction and have no meaning; a block that holds a fault ignores them (R236). -/
def refuseTx (e : DecodeError) (s : State) : Answer :=
  match e with
  | .illegalCommand cmd => .next (s.finish (.error (.illegalCommand cmd)))
  | .unknownStep id => if s.fault.isSome then .next s else .refused (.noSuchOperation id)
  | .operandBytes k => if s.fault.isSome then .next s else .refused (.malformedStimulus k)

def runTx (tx : Tx) (s : State) : Answer :=
  match decode tx with
  | .ok i => exec i s
  | .error e => refuseTx e s

def runEvent (e : HostEvent) (s : State) : Answer :=
  match e with
  | .issue tx => runTx tx s
  | .drain => .next s.drain

/-- One event of the host: the oldest pending one, taken off the queue. With none pending the block holds its
state (R245). -/
def runNext (s : State) : Answer :=
  match s.input with
  | [] => .next s
  | e :: rest => runEvent e (s.setInput rest)

/-- The transaction of a table word put at the head of the host's queue (log entry 10). A word that is no
transfer of R85 puts its low 66 bits there. -/
def placeTableWord (s : State) (nbits w : Nat) : State :=
  let tx := (tableTx nbits w).getD (.command (BitVec.ofNat 66 w))
  s.setInput (.issue tx :: s.input)

/-- The lines of a program of R90 as the host's events, in order. -/
def State.withProgram (s : State) (lines : List Line) : State :=
  s.setInput (s.input ++ (lines.flatMap Line.expand).map .issue)

end Machine
end Sys2Proof
end

