-- ==== Sys2Proof/Machine/Step.lean ====
section
/-! DEFINITION. One step of the model: one host event, run to completion (spec R3, R66, R69). -/

namespace Sys2Proof
namespace Machine

def step (s : State) : Host.Outcome State Fault Refusal := runNext s

/-- `s` with the instruction of an opcode-table word placed where `step` takes its next one. -/
def State.withFetchWord (s : State) (nbits w : Nat) : State := placeTableWord s nbits w

end Machine
end Sys2Proof
end

