-- ==== Sys2Proof/Safety.lean ====
section
/-! DEFINITION. What counts as a safe run (spec R236: every claim about a run takes "`FAULT` = none" as a
premise), and the invariants that claims use: the registers' legal ranges (R36, R41, R42, R24, R106, R25),
what a stream of host commands keeps (R43, R86, R109, R139), and silence (R142). -/

namespace Sys2Proof
namespace Machine

/-- A run ends normally (R236): the host has nothing pending and `FAULT` is none. -/
def NormalEnd (s : State) : Prop := s.input = [] ∧ s.fault = none

/-- A phase in (−TWO_PI, 0.0] (R24, R106). -/
def PhaseLegal (p : F64) : Prop :=
  p.isNaN = false ∧ F64.negTwoPi.key < p.key ∧ p.key ≤ 0

/-- `CFG_*` and the derived constants (R22, R23): as RESET computed them, or, before any RESET, as power-on
left them. -/
def ConfigLegal (c : ConfigRegs) : Prop :=
  if c.configured then
    minSampleRate ≤ c.sampleRate.toNat ∧ c.b = samplesPerBit c.sampleRate ∧
      c.dphiM = phaseStep F64.fMark c.sampleRate ∧ c.dphiS = phaseStep F64.fSpace c.sampleRate
  else c = State.reset.cfg

/-- The binary64 registers of the trackers and the synchroniser are finite (R234). -/
def RealsFinite (s : State) : Prop :=
  (s.trk.envM.isFinite ∧ s.trk.envS.isFinite ∧ s.trk.noiseM.isFinite ∧ s.trk.noiseS.isFinite) ∧
  (s.sync.nextE.isFinite ∧ s.sync.nextP.isFinite ∧ s.sync.nextL.isFinite) ∧
  (s.sync.avgE.isFinite ∧ s.sync.avgP.isFinite ∧ s.sync.avgL.isFinite)

/-- Every register of a block without a fault holds a legal value. -/
structure RegsLegal (s : State) : Prop where
  config : ConfigLegal s.cfg
  /-- R24, R106. -/
  phaseM : PhaseLegal s.nco.phaseM
  phaseS : PhaseLegal s.nco.phaseS
  /-- R25: `FILL` is in 0..P-1. -/
  fillM : s.lpfM.fill < Config.machine.block
  fillS : s.lpfS.fill < Config.machine.block
  /-- R234. -/
  histM : ∀ u ∈ s.lpfM.hist, u.isFinite = true
  histS : ∀ u ∈ s.lpfS.hist, u.isFinite = true
  reals : RealsFinite s
  /-- R36, R233. -/
  count : s.sync.sampleCount.toNat < 2 ^ 53
  /-- R41: value 3 is never written. -/
  rxState : s.rx.rxState ≠ 3#2
  /-- R42. -/
  cursor : s.rx.bitCursor.toNat ≤ 99

/-- The invariant of every step, stimuli included. It claims nothing of a block that holds a fault (R236). -/
def Inv (s : State) : Prop := s.fault = none → RegsLegal s

/-- A legal output record (R86, R87): a valid codeword, a PATH of 1..6, zeros above. -/
def RecordLegal (r : Rec16) : Prop :=
  Codeword.valid (recordCode r) = true ∧ 1 ≤ (recordPath r).toNat ∧ (recordPath r).toNat ≤ 6 ∧
    r.toNat < 2 ^ 11

/-- What a block keeps that only host commands, drains and BIT stimuli have driven. -/
structure StreamLegal (s : State) : Prop where
  /-- R43: the count never exceeds 7, and not 5 outside SYNC_SETUP. -/
  errors : s.rx.errorCount.toNat ≤ 7
  errorsRunning : s.rx.rxState ≠ rxSyncSetup → s.rx.errorCount.toNat ≤ errLimit
  /-- R86, R49. -/
  records : ∀ r ∈ s.out, RecordLegal r
  /-- R45. -/
  last : s.rx.lastCode = 0#7 ∨ Codeword.valid s.rx.lastCode = true
  /-- R109: both filters have received the same number of pushes. -/
  twinHist : s.lpfM.hist.length = s.lpfS.hist.length
  fillM : s.lpfM.fill = s.lpfM.hist.length % Config.machine.block
  fillS : s.lpfS.fill = s.lpfS.hist.length % Config.machine.block
  /-- R139: after k inputs `SAMPLE_COUNT` is P·floor(k/P). -/
  count : s.sync.sampleCount.toNat =
    Config.machine.block * (s.lpfM.hist.length / Config.machine.block)

def StreamInv (s : State) : Prop := s.fault = none → StreamLegal s

/-- An event a host causes, or the BIT stimulus of R90. -/
def OrdinaryEvent : HostEvent → Prop
  | .drain => True
  | .issue (.command _) => True
  | .issue (.stimulus id bs) => ∃ v, decodeStimulus id bs = .ok (.bitIn v)

/-- Every soft bit of the buffer is far inside its 64 bits (R232 "far smaller"). -/
def SoftSmall (b : BitBuf) : Prop := ∀ i, i < 100 → (b.entry i).natAbs < 2 ^ 62

/-- A schedule index that a run of fewer than 2^53 filtered samples can hold: not negative, at most 2^55. -/
def IndexLegal (x : F64) : Prop := x.isFinite = true ∧ x.sign = false ∧ x.key ≤ (F64.ofInt (2 ^ 55)).key

/-- A block that has heard nothing but silence since its RESET (R142). -/
structure Quiet (s : State) : Prop where
  live : s.fault = none
  configured : s.cfg.configured = true
  config : ConfigLegal s.cfg
  phaseM : PhaseLegal s.nco.phaseM
  phaseS : PhaseLegal s.nco.phaseS
  fillM : s.lpfM.fill < Config.machine.block
  twin : s.lpfM.fill = s.lpfS.fill
  histM : ∀ u ∈ s.lpfM.hist, Config.isZeroPair u = true
  histS : ∀ u ∈ s.lpfS.hist, Config.isZeroPair u = true
  trackers : s.trk = { envM := F64.zero, envS := F64.zero, noiseM := F64.zero, noiseS := F64.zero }
  accumulators : s.sync.accE = 0#64 ∧ s.sync.accP = 0#64 ∧ s.sync.accL = 0#64
  averages : s.sync.avgE = F64.zero ∧ s.sync.avgP = F64.zero ∧ s.sync.avgL = F64.zero
  schedule : IndexLegal s.sync.nextE ∧ IndexLegal s.sync.nextP ∧ IndexLegal s.sync.nextL
  markState : s.sync.markState = 0#64
  buffer : s.rx.bitbuf = BitBuf.zeros
  searching : s.rx.rxState = rxSyncSetup ∨ s.rx.rxState = rxSync

end Machine
end Sys2Proof
end

