-- ==== Sys2Proof/Certificates/Slice0/Obligations.lean ====
section
/-! DEFINITION. The statements for the provers. Each docstring names the rule it formalises. A statement
writes the formulas of its rule out with the binary64 operations of R12; where it says "live", `FAULT` is none
(R236: every claim about a run takes that as a premise). -/

open Sys2Proof Sys2Proof.Machine

namespace Sys2Proof
namespace Claims

/-! ## Vocabulary of the statements -/

/-- R132 DECAY, as the rule writes it. -/
def decayed (avg v up down : F64) : F64 :=
  F64.add avg (F64.div (F64.sub v avg) (if F64.lt avg v then up else down))

/-- `avg + (f64(abs(acc)) - avg) / 64.0` (R151). -/
def averaged (avg : F64) (acc : I64) : F64 :=
  F64.add avg (F64.div (F64.sub (F64.ofInt acc.toInt.natAbs) avg) F64.corrAvgDiv)

/-- R105, the two components. -/
def mixRe (z : Cplx) (co si : F64) : F64 := F64.add (F64.mul z.re co) (F64.mul z.im si)
def mixIm (z : Cplx) (co si : F64) : F64 := F64.sub (F64.mul z.im co) (F64.mul z.re si)

/-- The mixed sample of one branch (R103, R105) with the machine's cosine and sine. -/
def mixed (x phi : F64) : Cplx :=
  let dv := F64.mul F64.pcmScale x
  let z : Cplx := { re := dv, im := dv }
  { re := mixRe z (Config.machine.cosFn phi) (Config.machine.sinFn phi),
    im := mixIm z (Config.machine.cosFn phi) (Config.machine.sinFn phi) }

/-- The cosine and the sine the machine's parameters give at a phase are finite (R105, R234). -/
def MixerFinite (phi : F64) : Prop :=
  (Config.machine.cosFn phi).isFinite = true ∧ (Config.machine.sinFn phi).isFinite = true

/-- 7.0: above every phase increment of a legal sample rate (R106 corner case: at most 6.82). -/
def seven : F64 := ⟨0x401C000000000000#64⟩

/-- A phase increment that a legal RESET can leave (R23, R106). -/
def StepLegal (d : F64) : Prop := d.isFinite = true ∧ d.sign = false ∧ F64.le d seven = true

/-- R106, the wrap, for a difference that needs at most two additions. -/
def wrapped (q : F64) : F64 :=
  if F64.lt F64.negTwoPi q then q
  else if F64.lt F64.negTwoPi (F64.add q F64.twoPi) then F64.add q F64.twoPi
  else F64.add (F64.add q F64.twoPi) F64.twoPi

/-- `u[i]` of R110: entry `i` of the history, (0.0, 0.0) before the first. -/
def inputAt (hist : List Cplx) (i : Int) : Cplx :=
  if i < 0 then { re := F64.zero, im := F64.zero }
  else hist[i.toNat]?.getD { re := F64.zero, im := F64.zero }

/-- `u[m-P-511 .. m-1]` of R110. -/
def windowOf (hist : List Cplx) : List Cplx :=
  (List.range (Config.machine.block + 511)).map fun k =>
    inputAt hist ((hist.length : Int) - Config.machine.block - 511 + k)

/-- The burst of R110 from a history. -/
def burstOf (hist : List Cplx) : List Cplx :=
  (List.range Config.machine.block).map
    (Config.machine.lpfFn Config.machine.taps (windowOf hist))

/-- Σ_k h[k] · x[n−k] of R110, exactly, for one component `part` of the history, at the index of `y[j]`. -/
def convolution (part : Cplx → F64) (hist : List Cplx) (j : Nat) : ℚ :=
  ∑ k ∈ Finset.range 512, (Config.machine.taps[k]?.getD F64.zero).toRat *
    (part (inputAt hist ((hist.length : Int) - Config.machine.block + j - k))).toRat

/-- The rounding that the machine's filter may have (R110 "up to rounding", I2; its size is log entry 5): `lpfTol` units
of 2^-52 of Σ_k |h[k]| times `peak`. -/
def roundingBound (peak : ℚ) : ℚ :=
  (Config.machine.lpfTol : ℚ) / 2 ^ 52 *
    ∑ k ∈ Finset.range 512, |(Config.machine.taps[k]?.getD F64.zero).toRat| * peak

/-- Seven soft bits of the buffer from index `c` on. -/
def slot (b : BitBuf) (c : Nat) : Soft7 := soft7 fun k => b.entry (c + k)

/-- R180, the inner loop: `while i < 93`, at most `fuel` windows. -/
def walk (b : BitBuf) : Nat → Nat → Nat → Nat → Nat × Nat
  | 0, _, score, reps => (score, reps)
  | fuel + 1, i, score, reps =>
    if i < 93 then
      let w := slot b i
      let code := bitsToCode w
      let rep := bitsToCode (slot b (i - 35))
      let control := code = 0x0F#7 ∨ code = 0x66#7
      let alphaAfterRep := code = 0x0F#7 ∧ bitsToCode (slot b (i - 7)) = 0x66#7
      let score' := if validChar w then (if code = rep ∧ control then 0 else score + 1) else score
      let reps' :=
        if validChar w ∧ ((code = rep ∧ ¬control) ∨ (code ≠ rep ∧ alphaAfterRep)) then reps + 1 else reps
      walk b fuel (i + 7) score' reps'
    else (score, reps)

/-- R180, the outer loop over the offsets 35 .. 48, from `best_off = -1` and `best_total = 0`. -/
def search (b : BitBuf) : Int :=
  let best := (List.range 14).foldl (fun (best : Int × Nat) (k : Nat) =>
    let r := walk b 100 (35 + k) 0 0
    if 3 ≤ r.2 ∧ best.2 < r.1 + r.2 then (((35 + k : Nat) : Int), r.1 + r.2) else best) (-1, 0)
  if 8 < best.2 then best.1 else -1

/-- The sums of step 4 of R200. -/
def slotSum (b : BitBuf) (c : Nat) : Soft7 := soft7 fun k => b.entry (c + k) + b.entry (c - 35 + k)

/-- `s` after PROCESS_CHAR of the vector's codeword through `path`, with the return value `r` of PROCESS_BYTES. -/
def emitted (s : State) (v : Soft7) (path : BitVec 3) (r : Int) : State :=
  { processChar s (bitsToCode v) path with ret := .int r }

/-- `s` after the shift-in and the cursor decrement of R176. -/
def shifted (s : State) (v : Int) : State :=
  { s with rx := { s.rx with
      bitbuf := s.rx.bitbuf.shiftIn (BitVec.ofInt 64 v)
      bitCursor := BitVec.ofNat 7 (s.rx.bitCursor.toNat - 1) } }

/-- `s` with the prompt event's own writes (R153): the mark state `v`, the average, the schedule, the clear. -/
def prompted (s : State) (v : Int) : State :=
  { s with sync := { s.sync with
      markState := BitVec.ofInt 64 v
      avgP := averaged s.sync.avgP s.sync.accP
      nextP := F64.add s.sync.nextP s.cfg.b
      accP := 0#64 } }

/-- `s` with the schedule moved by `slope` and the three averages given (R155). -/
def realigned (s : State) (slope ae ap al : F64) : State :=
  { s with sync := { s.sync with
      nextE := F64.add s.sync.nextE slope
      nextP := F64.add s.sync.nextP slope
      nextL := F64.add s.sync.nextL slope
      avgE := ae, avgP := ap, avgL := al } }

/-- The two picker slopes and the default slope of R155. -/
def slopeEarly (s : State) : F64 :=
  F64.fmod (F64.sub (F64.sub s.sync.nextE s.sync.nextP) s.cfg.b) s.cfg.b
def slopeLate (s : State) : F64 :=
  F64.fmod (F64.add (F64.sub s.sync.nextL s.sync.nextP) s.cfg.b) s.cfg.b
def slopeDefault (s : State) : F64 := F64.div (F64.sub s.sync.avgL s.sync.avgE) F64.slopeDiv

/-- The value an operation run alone left in `ret`. -/
def realOf : Ret → F64
  | .real x => x
  | _ => F64.zero
def pairOf : Ret → Cplx
  | .pair x y => { re := x, im := y }
  | _ => { re := F64.zero, im := F64.zero }
def burstFrom : Ret → List Cplx
  | .burst y => y
  | _ => []
def intOf : Ret → Int
  | .int n => n
  | _ => 0

/-- `i` run alone on `s`, through `exec`, and then `k` on what it left. A fault `i` raises is the fault of the whole
command, which began in `s0` (R235 item 4: the first one is reported; R236). -/
def andThen (s0 s : State) (i : Instr) (k : State → Answer) : Answer :=
  match exec i s with
  | .next t =>
    match t.fault with
    | none => k t
    | some e => .next (s0.raise e)
  | .fault f => .fault f
  | .refused r => .refused r

/-- The sequence of R130, each operation run alone on the state the one before left, t the count before the increment;
then `k`. The command began in `s0`, whose `ret` the whole leaves. -/
def fsampleThrough (s0 : State) (ym ys : Cplx) (k : State → Answer) (s : State) : Answer :=
  andThen s0 s (.mag ym) fun s1 =>
  andThen s0 s1 (.mag ys) fun s2 =>
  let m := realOf s1.ret
  let sp := realOf s2.ret
  andThen s0 s2 (.envUpd m sp) fun s3 =>
  andThen s0 s3 (.noiseUpd m sp) fun s4 =>
  andThen s0 s4 .nfloor fun s5 =>
  let nf := realOf s5.ret
  andThen s0 s5 (.clip m sp nf) fun s6 =>
  let c := pairOf s6.ret
  andThen s0 s6 (.atc c.re c.im nf) fun s7 =>
  andThen s0 s7 (.softbit (realOf s7.ret)) fun s8 =>
  andThen s0 s8 (.accum (intOf s8.ret)) fun s9 =>
  let t := F64.ofInt (s9.sync.sampleCount.toNat : Int)
  andThen s0 s9 (.evtEarly t) fun s10 =>
  andThen s0 s10 (.evtLate t) fun s11 =>
  andThen s0 s11 (.evtPrompt t) fun s12 =>
  andThen s0 s12 (.realign t) fun s13 =>
  andThen s0 s13 .cntInc fun s14 => k { s14 with ret := s0.ret }

/-- FSAMPLE of each pair, in burst order, each complete before the next (R102). -/
def burstThrough (s0 : State) : List (Cplx × Cplx) → State → Answer
  | [], s => .next s
  | p :: ps, s => fsampleThrough s0 p.1 p.2 (burstThrough s0 ps) s

/-- The sequence of R102, each operation run alone on the state the one before left. -/
def sampleThrough (x : F64) (s : State) : Answer :=
  andThen s s (.scale x) fun s1 =>
  andThen s s1 (.mix .mark (pairOf s1.ret)) fun s2 =>
  andThen s s2 (.mix .space (pairOf s1.ret)) fun s3 =>
  andThen s s3 .ncoAdv fun s4 =>
  andThen s s4 (.lpfPush .mark (pairOf s2.ret)) fun s5 =>
  andThen s s5 (.lpfPush .space (pairOf s3.ret)) fun s6 =>
  burstThrough s ((burstFrom s5.ret).zip (burstFrom s6.ret)) { s6 with ret := s.ret }

/-- Two blocks that differ in nothing but the signs of zeros in the filter histories. -/
def ZeroTwin (s s' : State) : Prop :=
  s' = { s with lpfM := s'.lpfM, lpfS := s'.lpfS } ∧
  s'.lpfM.fill = s.lpfM.fill ∧ s'.lpfS.fill = s.lpfS.fill ∧
  s'.lpfM.hist.map Config.plainPair = s.lpfM.hist.map Config.plainPair ∧
  s'.lpfS.hist.map Config.plainPair = s.lpfS.hist.map Config.plainPair

/-- One operation twice, or SAMPLE of two zeros. -/
def SameButZeroSign (i i' : Instr) : Prop :=
  i' = i ∨ ∃ x x' : F64, i = .sample x ∧ i' = .sample x' ∧ x.absBits = 0 ∧ x'.absBits = 0

/-- `i` reads a binary64 operand that is a NaN or an infinity; `k` is its step. -/
def NonFiniteOperand : Instr → StepId → Prop
  | .scale x, k => k = .scale ∧ x.isFinite = false
  | .mix _ z, k => k = .mix ∧ z.isFinite = false
  | .lpfPush _ u, k => k = .lpfPush ∧ u.isFinite = false
  | .mag y, k => k = .mag ∧ y.isFinite = false
  | .envUpd m sp, k => k = .envUpd ∧ (m.isFinite && sp.isFinite) = false
  | .noiseUpd m sp, k => k = .noiseUpd ∧ (m.isFinite && sp.isFinite) = false
  | .clip m sp nf, k => k = .clip ∧ (m.isFinite && sp.isFinite && nf.isFinite) = false
  | .atc mc sc nf, k => k = .atc ∧ (mc.isFinite && sc.isFinite && nf.isFinite) = false
  | .softbit l, k => k = .softbit ∧ l.isFinite = false
  | .evtEarly t, k => k = .evtEarly ∧ t.isFinite = false
  | .evtLate t, k => k = .evtLate ∧ t.isFinite = false
  | .evtPrompt t, k => k = .evtPrompt ∧ t.isFinite = false
  | .realign t, k => k = .realign ∧ t.isFinite = false
  | _, _ => False

/-- `CFG_ONLY_SITOR_B` set to `f`. -/
def withSitor (f : Bool) (s : State) : State := { s with cfg := { s.cfg with onlySitorB := f } }

/-- `x` is the binary64 number nearest to `q`; where another is equally near, `x` has an even last bit (R12). -/
def NearestEven (q : ℚ) (x : F64) : Prop :=
  ∀ y : F64, y.isFinite = true → |x.toRat - q| ≤ |y.toRat - q| ∧
    (|x.toRat - q| = |y.toRat - q| → y.toRat ≠ x.toRat → x.absBits % 2 = 0)

end Claims
end Sys2Proof

open Sys2Proof.Claims

/-! ## Commands, steps and faults -/

/-- R100, R235: RESET checks the reserved bits, then the rate; a legal payload leaves every register at the
value of R100 and changes neither `OUT` nor `FAULT`. For every payload p. -/
def Obligations.ResetConstructsOrRejects : Prop :=
  ∀ (p : BitVec 64) (s : State), s.fault = none →
    let fs := p.extractLsb' 0 32
    let i := Instr.reset fs (p.getLsbD 32) (p.getLsbD 33) (p.extractLsb' 34 30)
    let b := F64.div (F64.ofInt (fs.toNat : Int)) F64.baud
    (p.extractLsb' 34 30 ≠ 0#30 → exec i s = .next { s with fault := some (.reservedField p) }) ∧
    (p.extractLsb' 34 30 = 0#30 → fs.toNat < 1000 →
      exec i s = .next { s with fault := some (.configInvalid fs) }) ∧
    (p.extractLsb' 34 30 = 0#30 → 1000 ≤ fs.toNat →
      exec i s = .next
        { s with
          cfg :=
            { sampleRate := fs, reverse := p.getLsbD 32, onlySitorB := p.getLsbD 33, configured := true,
              b := b
              dphiM := F64.div (F64.mul F64.twoPi F64.fMark) (F64.ofInt (fs.toNat : Int))
              dphiS := F64.div (F64.mul F64.twoPi F64.fSpace) (F64.ofInt (fs.toNat : Int)) }
          nco := { phaseM := F64.zero, phaseS := F64.zero }
          lpfM := { hist := [], fill := 0 }
          lpfS := { hist := [], fill := 0 }
          trk := { envM := F64.zero, envS := F64.zero, noiseM := F64.zero, noiseS := F64.zero }
          sync :=
            { accE := 0#64, accP := 0#64, accL := 0#64, nextE := F64.zero
              nextP := F64.div b F64.five, nextL := F64.div (F64.mul F64.two b) F64.five
              avgE := F64.zero, avgP := F64.zero, avgL := F64.zero
              markState := 0#64, sampleCount := 0#64 }
          rx :=
            { bitbuf := BitBuf.zeros, rxState := 0#2, bitCursor := 0#7, errorCount := 0#8
              alphaPhase := false, shift := false, lastCode := 0#7 } })

/-- R252: a RESET that does not fault is the construction of a new receiver that writes to the same sink: what
it leaves is what it leaves on a block fresh from power-on that has the same `OUT` (and the same host). -/
def Obligations.ResetForgetsTheRun : Prop :=
  ∀ (fs : BitVec 32) (rv so : Bool) (s : State), s.fault = none → 1000 ≤ fs.toNat →
    ∃ t, exec (.reset fs rv so 0#30) s = .next t ∧ t.fault = none ∧
      exec (.reset fs rv so 0#30)
        { State.reset with out := s.out, input := s.input, ret := s.ret, draw := s.draw } = .next t

/-- R231: the command-level faults of SAMPLE and of command decode are precise: only `FAULT` is set. Those of
RESET are in `ResetConstructsOrRejects`. -/
def Obligations.CommandFaultsArePrecise : Prop :=
  ∀ (s : State), s.fault = none →
    (∀ x, s.cfg.configured = false → exec (.sample x) s = .next { s with fault := some .notConfigured }) ∧
    (∀ x, s.cfg.configured = true → (x.isNaN = true ∨ x.isInf = true ∨ F64.lt F64.one x.abs = true) →
      exec (.sample x) s = .next { s with fault := some (.inputDomain x.bits) }) ∧
    (∀ w rest, s.input = .issue (.command w) :: rest →
      (w.extractLsb' 64 2 = 0#2 ∨ w.extractLsb' 64 2 = 3#2) →
      step s = .next { s with input := rest, fault := some (.illegalCommand (w.extractLsb' 64 2)) })

/-- R236: `FAULT` takes the code and information; a precise fault (codes 1 to 5) leaves all other state
unchanged; with a fault recorded every later command is ignored and `FAULT` is never cleared; a run ends
normally when nothing is pending and `FAULT` is none. Of the state after an imprecise fault nothing is
claimed. -/
def Obligations.FaultEndsTheRun : Prop :=
  (∀ (e : FaultRec) (s : State), s.fault = some e →
    (∀ i, exec i s = .next s) ∧
    (∀ tx rest, s.input = .issue tx :: rest → step s = .next { s with input := rest }) ∧
    ¬ NormalEnd s) ∧
  (∀ (e : FaultRec) (s : State), (s.raise e).fault = some e ∧
    (e.code ≤ 5 → s.raise e = { s with fault := some e }))

/-- A step runs the decoded instruction: with a transaction at the head of the host's queue that decodes to
`i`, the step is `exec i` on the state with that transaction taken off the queue. -/
def Obligations.StepRunsTheDecodedOperation : Prop :=
  ∀ (s : State) (tx : Tx) (rest : List HostEvent) (i : Instr),
    s.input = .issue tx :: rest → decode tx = .ok i → step s = exec i { s with input := rest }

/-- R245, R46, R243: between commands the block holds its state; a drain removes the oldest record of `OUT` and
changes nothing else of the block. On an empty `OUT` a drain removes nothing, and a drain works on a block that holds a
fault too: both are the model's choice (log entry 9). -/
def Obligations.BetweenCommands : Prop :=
  ∀ s : State, (s.input = [] → step s = .next s) ∧
    ∀ rest : List HostEvent, s.input = .drain :: rest →
      (∀ r out, s.out = r :: out → step s = .next { s with input := rest, out := out }) ∧
      (s.out = [] → step s = .next { s with input := rest })

/-- R250: power-on sets `CONFIGURED` to 0, empties `OUT` and sets `FAULT` to none. The registers R250 leaves
unspecified are not mentioned. -/
def Obligations.PowerOnState : Prop :=
  State.reset.cfg.configured = false ∧ State.reset.out = [] ∧ State.reset.fault = none

/-! ## Encoding -/

/-- Decoding an encoded well-formed instruction gives it back, for every operation and operand. -/
def Obligations.DecodeEncodeRoundTrip : Prop :=
  ∀ i : Instr, i.wellFormed = true → decode (encode i) = .ok i

/-- A transaction has at most one meaning and an instruction one transaction: whatever decodes is the encoding
of what it decodes to, and that is well-formed. -/
def Obligations.DecodeIsInjective : Prop :=
  ∀ (tx : Tx) (i : Instr), decode tx = .ok i → encode i = tx ∧ i.wellFormed = true

/-- R85: a command word is nine bytes, least significant first, the ninth holding CMD in bits 1..0 and zeros above,
and they carry exactly it; a record is two bytes, least significant first. -/
def Obligations.SerialisationRoundTrip : Prop :=
  (∀ w : BitVec 66, (serialise w).length = 9 ∧ deserialise (serialise w) = some w ∧
    (∀ k, k < 8 → (serialise w)[k]? = some (w.extractLsb' (8 * k) 8)) ∧
    ∃ b : Byte, (serialise w)[8]? = some b ∧ b.extractLsb' 0 2 = w.extractLsb' 64 2 ∧
      b.extractLsb' 2 6 = 0#6) ∧
  (∀ bs w, deserialise bs = some w → serialise w = bs) ∧
  (∀ r : Rec16, serialiseRecord r = [r.extractLsb' 0 8, r.extractLsb' 8 8])

/-- A few words written out from R80 to R88: T-FE-1, T-FE-2 and step identifiers of every family. -/
def Obligations.KnownWordsDecode : Prop :=
  decode (.command 0x10000000000002B11#66) = .ok (.reset 11025#32 false false 0#30) ∧
  decode (.command 0x10000000100001F40#66) = .ok (.reset 8000#32 true false 0#30) ∧
  decode (.command 0x10000000200002B11#66) = .ok (.reset 11025#32 false true 0#30) ∧
  decode (.command 0x23FE0000000000000#66) = .ok (.sample ⟨0x3FE0000000000000#64⟩) ∧
  decode (.command 0x00000000000000000#66) = .error (.illegalCommand 0#2) ∧
  decode (.command 0x30000000000000000#66) = .error (.illegalCommand 3#2) ∧
  decode (.stimulus 0x03#8 []) = .ok .ncoAdv ∧
  decode (.stimulus 0x13#8 []) = .ok .nfloor ∧
  decode (.stimulus 0x34#8 []) = .ok .findAlpha ∧
  decode (.stimulus 0x40#8 [0x3C#8]) = .ok (.processBytes 60#7) ∧
  decode (.stimulus 0x42#8 [0x66#8, 0x01#8]) = .ok (.processChar 0x66#7 1#3)

/-- R88: identifiers not in the table spell no operation: the step has no meaning for such a stimulus. -/
def Obligations.UnknownIdentifiersSpellNoOperation : Prop :=
  ∀ (id : Byte) (bs : List Byte) (s : State) (rest : List HostEvent),
    s.fault = none → s.input = .issue (.stimulus id bs) :: rest →
    id ∉ [0x01#8, 0x02#8, 0x03#8, 0x04#8, 0x05#8, 0x10#8, 0x11#8, 0x12#8, 0x13#8, 0x14#8, 0x15#8, 0x16#8,
      0x17#8, 0x18#8, 0x20#8, 0x21#8, 0x22#8, 0x23#8, 0x30#8, 0x31#8, 0x32#8, 0x33#8, 0x34#8, 0x35#8, 0x36#8,
      0x40#8, 0x41#8, 0x42#8] →
    step s = .refused (.noSuchOperation id)

/-! ## Front end -/

/-- R103: SCALE gives (dv, dv) with dv = 32767.0·x; for a legal sample |dv| ≤ 32767.0 and there is no fault. A
non-finite product, which no legal sample has, is NUMERIC (R234). -/
def Obligations.ScaleResult : Prop :=
  ∀ (x : F64) (s : State), s.fault = none →
    let dv := F64.mul F64.pcmScale x
    (dv.isFinite = true → exec (.scale x) s = .next { s with ret := .pair dv dv }) ∧
    (dv.isFinite = false → exec (.scale x) s = .next (s.raise (.numeric .scale))) ∧
    (x.isFinite = true → F64.le x.abs F64.one = true →
      dv.isFinite = true ∧ F64.le dv.abs F64.pcmScale = true ∧
      exec (.scale x) s = .next { s with ret := .pair dv dv })

/-- R105: MIX gives (zr·c + zi·s, zi·c − zr·s) with c and s the cosine and sine of the branch's phase register,
and changes no register of the block; NUMERIC when c, s or a result is not finite. For |zr|, |zi| ≤ 32767.0 and
finite c and s it completes (R105 "Faults: none for legal inputs"; log entry 5). At phase 0.0 z comes back unchanged as
numbers (R105 "φ = 0.0 returns z unchanged"). -/
def Obligations.MixResult : Prop :=
  ∀ (br : Branch) (z : Cplx) (s : State), s.fault = none →
    let phi := match br with
      | .mark => s.nco.phaseM
      | .space => s.nco.phaseS
    let co := Config.machine.cosFn phi
    let si := Config.machine.sinFn phi
    let re := mixRe z co si
    let im := mixIm z co si
    let ok := co.isFinite && si.isFinite && re.isFinite && im.isFinite
    exec (.mix br z) s = .next (if ok then { s with ret := .pair re im } else s.raise (.numeric .mix)) ∧
    (MixerFinite phi → z.isFinite = true → F64.le z.re.abs F64.pcmScale = true →
      F64.le z.im.abs F64.pcmScale = true → exec (.mix br z) s = .next { s with ret := .pair re im }) ∧
    (phi.absBits = 0 → z.isFinite = true → ∃ a b, exec (.mix br z) s = .next { s with ret := .pair a b } ∧
      a.key = z.re.key ∧ b.key = z.im.key)

/-- R106: NCO_ADV subtracts each increment from its phase and adds TWO_PI while the result is at or below
−TWO_PI; the result lies in (−TWO_PI, 0.0]. For phases in that interval and increments a legal RESET can
leave (`DerivedConstantsLegal`), which need at most two additions. -/
def Obligations.NcoAdvWraps : Prop :=
  ∀ s : State, s.fault = none → PhaseLegal s.nco.phaseM → PhaseLegal s.nco.phaseS →
    StepLegal s.cfg.dphiM → StepLegal s.cfg.dphiS →
    let pm := wrapped (F64.sub s.nco.phaseM s.cfg.dphiM)
    let ps := wrapped (F64.sub s.nco.phaseS s.cfg.dphiS)
    exec .ncoAdv s = .next { s with nco := { phaseM := pm, phaseS := ps } } ∧ PhaseLegal pm ∧ PhaseLegal ps

/-- R23, R10: the constants a legal RESET derives are finite, B is between 10.0 and 2^26, and the phase
increments are positive and at most 7.0. -/
def Obligations.DerivedConstantsLegal : Prop :=
  ∀ (fs : BitVec 32) (rv so : Bool) (s : State), s.fault = none → 1000 ≤ fs.toNat →
    ∃ t, exec (.reset fs rv so 0#30) s = .next t ∧
      t.cfg.b.isFinite = true ∧ F64.le (F64.ofInt 10) t.cfg.b = true ∧
      F64.le t.cfg.b (F64.ofInt (2 ^ 26)) = true ∧
      StepLegal t.cfg.dphiM ∧ 0 < t.cfg.dphiM.key ∧ StepLegal t.cfg.dphiS ∧ 0 < t.cfg.dphiS.key

/-- R108: LPF_PUSH appends the input; a push that does not complete a block gives an empty burst and raises
`FILL`; a push that does clears `FILL` and gives the burst of R110, NUMERIC if a component is not finite. The
other filter is untouched (R63). A history of zeros gives zeros (R142). For a finite input; another is in
`NonFiniteOperandsRaiseNumeric`. -/
def Obligations.LpfPushResult : Prop :=
  ∀ (br : Branch) (u : Cplx) (s : State), s.fault = none → u.isFinite = true →
    let f := s.filter br
    let hist := f.hist ++ [u]
    (f.fill + 1 ≠ Config.machine.block →
      exec (.lpfPush br u) s =
        .next ((s.setFilter br { hist := hist, fill := f.fill + 1 }).setRet (.burst []))) ∧
    (f.fill + 1 = Config.machine.block →
      exec (.lpfPush br u) s =
        .next (if (burstOf hist).all Cplx.isFinite then
            (s.setFilter br { hist := hist, fill := 0 }).setRet (.burst (burstOf hist))
          else s.raise (.numeric .lpfBlock))) ∧
    (f.fill + 1 = Config.machine.block → (∀ y ∈ hist, Config.isZeroPair y = true) →
      exec (.lpfPush br u) s =
        .next ((s.setFilter br { hist := hist, fill := 0 }).setRet
          (.burst (List.replicate Config.machine.block { re := F64.zero, im := F64.zero }))))

/-- R110: LPF_BLOCK gives the P pairs the filter function computes from the last P + 511 inputs, with zeros
before the first, and changes no register; NUMERIC if a component is not finite. A history of zeros gives zeros (R142).
For finite taps and inputs, each finite component of y[j] is the exact convolution at index n = m − P + j, rounded to
nearest or within the filter's own rounding (`roundingBound`, with any bound `peak` on the inputs' components), so the
filter is linear and time-invariant up to rounding. -/
def Obligations.LpfBlockResult : Prop :=
  ∀ (br : Branch) (s : State), s.fault = none →
    let hist := (s.filter br).hist
    exec (.lpfBlock br) s =
      .next (if (burstOf hist).all Cplx.isFinite then { s with ret := .burst (burstOf hist) }
        else s.raise (.numeric .lpfBlock)) ∧
    ((∀ y ∈ hist, Config.isZeroPair y = true) →
      exec (.lpfBlock br) s = .next (s.setRet
        (.burst (List.replicate Config.machine.block { re := F64.zero, im := F64.zero })))) ∧
    ((∀ u ∈ hist, u.isFinite = true) → ∀ peak : ℚ,
      0 ≤ peak → (∀ u ∈ hist, |u.re.toRat| ≤ peak ∧ |u.im.toRat| ≤ peak) →
      (∃ h ∈ Config.machine.taps.toList, h.isFinite = false) ∨
      ∀ j, j < Config.machine.block → ∀ y : Cplx, (burstOf hist)[j]? = some y →
        ∀ part : Cplx → F64, part = Cplx.re ∨ part = Cplx.im → (part y).isFinite = true →
          NearestEven (convolution part hist j) (part y) ∨
          |(part y).toRat - convolution part hist j| ≤ roundingBound peak)

/-- R234, D36: a NaN or an infinity raises NUMERIC at the step that computes it. The model's own clause (log entry 13): an
operation run alone on an operand that is a NaN or an infinity, which in a run the step before would have stopped at,
raises NUMERIC at its own step. -/
def Obligations.NonFiniteOperandsRaiseNumeric : Prop :=
  ∀ (i : Instr) (k : StepId) (s : State), s.fault = none → NonFiniteOperand i k →
    exec i s = .next (s.raise (.numeric k))

/-! ## Trackers and discriminator -/

/-- R131: MAG gives SQRT(re·re + im·im), not negative, +0.0 for a zero pair; NUMERIC if it is not finite. -/
def Obligations.MagResult : Prop :=
  ∀ (y : Cplx) (s : State), s.fault = none →
    let v := F64.sqrt (F64.add (F64.mul y.re y.re) (F64.mul y.im y.im))
    (v.isFinite = true → exec (.mag y) s = .next { s with ret := .real v } ∧ 0 ≤ v.key) ∧
    (v.isFinite = false → exec (.mag y) s = .next (s.raise (.numeric .mag))) ∧
    (y.re.absBits = 0 → y.im.absBits = 0 → exec (.mag y) s = .next { s with ret := .real F64.zero })

/-- R132, R133: ENV_UPD moves both envelopes with the divisors B/4.0 (up) and B·16.0 (down), NOISE_UPD both noise
floors with B·48.0 (up) and B/4.0 (down); neither changes anything else; NUMERIC if a divisor or a result is not
finite (R234). -/
def Obligations.TrackerUpdates : Prop :=
  ∀ (m sp : F64) (s : State), s.fault = none →
    let quarter := F64.div s.cfg.b F64.four
    let slowEnv := F64.mul s.cfg.b F64.sixteen
    let slowNoise := F64.mul s.cfg.b F64.fortyEight
    let em := decayed s.trk.envM m quarter slowEnv
    let es := decayed s.trk.envS sp quarter slowEnv
    let nm := decayed s.trk.noiseM m slowNoise quarter
    let ns := decayed s.trk.noiseS sp slowNoise quarter
    let envOk := quarter.isFinite && slowEnv.isFinite && em.isFinite && es.isFinite
    let noiseOk := quarter.isFinite && slowNoise.isFinite && nm.isFinite && ns.isFinite
    (envOk = true →
      exec (.envUpd m sp) s = .next { s with trk := { s.trk with envM := em, envS := es } }) ∧
    (envOk = false → exec (.envUpd m sp) s = .next (s.raise (.numeric .envUpd))) ∧
    (noiseOk = true →
      exec (.noiseUpd m sp) s = .next { s with trk := { s.trk with noiseM := nm, noiseS := ns } }) ∧
    (noiseOk = false → exec (.noiseUpd m sp) s = .next (s.raise (.numeric .noiseUpd)))

/-- R134: NFLOOR gives (NOISE_M + NOISE_S) / 2.0 and changes no register; NUMERIC if it is not finite (R234). -/
def Obligations.NfloorResult : Prop :=
  ∀ s : State, s.fault = none →
    let nf := F64.div (F64.add s.trk.noiseM s.trk.noiseS) F64.two
    (nf.isFinite = true → exec .nfloor s = .next { s with ret := .real nf }) ∧
    (nf.isFinite = false → exec .nfloor s = .next (s.raise (.numeric .nfloor)))

/-- R135: CLIP gives max(min(v, ENV), nf) for both branches (as numbers: which zero is given is open, log entry
12) and changes no register; so nf ≤ Mc, and Mc ≤ ENV_M when nf ≤ ENV_M, and the floor wins otherwise. -/
def Obligations.ClipResult : Prop :=
  ∀ (m sp nf : F64) (s : State), s.fault = none →
    m.isFinite = true → sp.isFinite = true → nf.isFinite = true →
    s.trk.envM.isFinite = true → s.trk.envS.isFinite = true →
    ∃ mc sc, exec (.clip m sp nf) s = .next { s with ret := .pair mc sc } ∧
      mc.isFinite = true ∧ sc.isFinite = true ∧
      mc.key = max (min m.key s.trk.envM.key) nf.key ∧ sc.key = max (min sp.key s.trk.envS.key) nf.key ∧
      F64.le nf mc = true ∧ (F64.le nf s.trk.envM = true → F64.le mc s.trk.envM = true) ∧
      (F64.lt s.trk.envM nf = true → F64.feq mc nf = true)

/-- R136: ATC gives L in the written order and changes no register; NUMERIC if L is not finite; equal branches
give exactly zero. -/
def Obligations.AtcResult : Prop :=
  ∀ (mc sc nf : F64) (s : State), s.fault = none →
    let mn := F64.sub mc nf
    let en := F64.sub s.trk.envM nf
    let sn := F64.sub sc nf
    let es := F64.sub s.trk.envS nf
    let l := F64.sub (F64.sub (F64.mul mn en) (F64.mul sn es))
      (F64.mul F64.half (F64.sub (F64.mul en en) (F64.mul es es)))
    (l.isFinite = true → exec (.atc mc sc nf) s = .next { s with ret := .real l }) ∧
    (l.isFinite = false → exec (.atc mc sc nf) s = .next (s.raise (.numeric .atc))) ∧
    (l.isFinite = true → mc = sc → s.trk.envM = s.trk.envS → l.key = 0)

/-- R137: SOFTBIT gives sign(L)·trunc(LOG(1.0 + |L|)) for every finite L, 0 for a zero, and never more than 709
in magnitude, and changes no register; NUMERIC where LOG returns a value that is not finite. (What LOG_FN is held to is
log entry 5.) -/
def Obligations.SoftbitResult : Prop :=
  ∀ (l : F64) (s : State), s.fault = none → l.isFinite = true →
    let lg := Config.machine.logFn (F64.add F64.one l.abs)
    let b := if l.key < 0 then -lg.trunc else lg.trunc
    (l.key = 0 → exec (.softbit l) s = .next { s with ret := .int 0 }) ∧
    (l.key ≠ 0 →
      exec (.softbit l) s =
        .next (if lg.isFinite then { s with ret := .int b } else s.raise (.numeric .softbit)) ∧
      (lg.isFinite = true → b.natAbs ≤ 709))

/-- R138: ACCUM adds the soft bit to all three accumulators and changes nothing else; INT_RANGE if a sum
leaves the signed 64-bit range. -/
def Obligations.AccumResult : Prop :=
  ∀ (b : Int) (s : State), s.fault = none →
    let e := s.sync.accE.toInt + b
    let p := s.sync.accP.toInt + b
    let l := s.sync.accL.toInt + b
    let fits := fun n : Int => -(2 ^ 63) ≤ n ∧ n < 2 ^ 63
    (fits e ∧ fits p ∧ fits l → ∃ t, exec (.accum b) s = .next t ∧
      t.sync.accE.toInt = e ∧ t.sync.accP.toInt = p ∧ t.sync.accL.toInt = l ∧
      t = { s with sync := { s.sync with accE := t.sync.accE, accP := t.sync.accP, accL := t.sync.accL } }) ∧
    (¬(fits e ∧ fits p ∧ fits l) → exec (.accum b) s = .next (s.raise (.intRange .accum)))

/-- R139: CNT_INC raises `SAMPLE_COUNT` by one and changes nothing else; COUNTER_RANGE, with the count, where
it would reach 2^53. On a count above that, which no run holds, it counts on, and raises INT_RANGE where it would leave
64 bits (R232): both are the model's reading (log entry 17). -/
def Obligations.CntIncResult : Prop :=
  ∀ s : State, s.fault = none →
    let n := s.sync.sampleCount.toNat
    (n + 1 = 2 ^ 53 → exec .cntInc s = .next (s.raise (.counterRange s.sync.sampleCount))) ∧
    (n + 1 ≠ 2 ^ 53 → n + 1 < 2 ^ 64 →
      ∃ t, exec .cntInc s = .next t ∧ t.sync.sampleCount.toNat = n + 1 ∧
        t = { s with sync := { s.sync with sampleCount := t.sync.sampleCount } }) ∧
    (n + 1 = 2 ^ 64 → exec .cntInc s = .next (s.raise (.intRange .cntInc)))

/-! ## Bit synchroniser -/

/-- R151, R152: the early and the late event fire when t has reached their index; each averages the magnitude of
its accumulator with divisor 64.0, adds B to its index and clears its accumulator, and changes nothing else.
NUMERIC if the average or the index is not finite (R234). For a finite t; another is in
`NonFiniteOperandsRaiseNumeric`. -/
def Obligations.EarlyAndLateEvents : Prop :=
  ∀ (t : F64) (s : State), s.fault = none → t.isFinite = true →
    let avgE := averaged s.sync.avgE s.sync.accE
    let nextE := F64.add s.sync.nextE s.cfg.b
    let avgL := averaged s.sync.avgL s.sync.accL
    let nextL := F64.add s.sync.nextL s.cfg.b
    (F64.le s.sync.nextE t = false → exec (.evtEarly t) s = .next s) ∧
    (F64.le s.sync.nextE t = true → avgE.isFinite = true → nextE.isFinite = true →
      exec (.evtEarly t) s =
        .next { s with sync := { s.sync with avgE := avgE, nextE := nextE, accE := 0#64 } }) ∧
    (F64.le s.sync.nextE t = true → ¬(avgE.isFinite = true ∧ nextE.isFinite = true) →
      exec (.evtEarly t) s = .next (s.raise (.numeric .evtEarly))) ∧
    (F64.le s.sync.nextL t = false → exec (.evtLate t) s = .next s) ∧
    (F64.le s.sync.nextL t = true → avgL.isFinite = true → nextL.isFinite = true →
      exec (.evtLate t) s =
        .next { s with sync := { s.sync with avgL := avgL, nextL := nextL, accL := 0#64 } }) ∧
    (F64.le s.sync.nextL t = true → ¬(avgL.isFinite = true ∧ nextL.isFinite = true) →
      exec (.evtLate t) s = .next (s.raise (.numeric .evtLate)))

/-- R153: the prompt event takes the accumulator as it was before the clear, negated under `CFG_REVERSE` (R154),
writes its own registers, and is then BIT_IN on that soft bit. With soft bits far inside 64 bits it completes, and
of the state outside its own registers only the bit-level registers and `OUT` may change. INT_RANGE if the
negation does not fit (R232), which the model records for EVT_PROMPT (log entry 17); NUMERIC if the average or the index
is not finite (R234). For a finite t; another is in `NonFiniteOperandsRaiseNumeric`. -/
def Obligations.EvtPromptResult : Prop :=
  ∀ (t : F64) (s : State), s.fault = none → t.isFinite = true →
    let v := if s.cfg.reverse then -s.sync.accP.toInt else s.sync.accP.toInt
    let u := prompted s v
    let finite := u.sync.avgP.isFinite && u.sync.nextP.isFinite
    (F64.le s.sync.nextP t = false → exec (.evtPrompt t) s = .next s) ∧
    (F64.le s.sync.nextP t = true → v = 2 ^ 63 →
      exec (.evtPrompt t) s = .next (s.raise (.intRange .evtPrompt))) ∧
    (F64.le s.sync.nextP t = true → v ≠ 2 ^ 63 → finite = false →
      exec (.evtPrompt t) s = .next (s.raise (.numeric .evtPrompt))) ∧
    (F64.le s.sync.nextP t = true → v ≠ 2 ^ 63 → finite = true →
      exec (.evtPrompt t) s = exec (.bitIn v) u ∧
      (s.rx.rxState ≠ 3#2 → s.rx.errorCount.toNat ≤ 253 → SoftSmall s.rx.bitbuf → v.natAbs < 2 ^ 62 →
        ∃ r, exec (.evtPrompt t) s = .next r ∧ r.fault = none ∧ r = { u with rx := r.rx, out := r.out }))

/-- R154: `CFG_REVERSE` negates the soft bit of a prompt event and nothing else: the newest entry of `BITBUF` is
negated and every older one is equal, and the rest of the synchroniser, the configuration, the phases, the filters and
the trackers are equal. What the state machine then makes of the negated bit is BIT_IN's. -/
def Obligations.ReverseOnlyNegatesTheDecision : Prop :=
  ∀ (t : F64) (s a b : State), s.fault = none → s.cfg.reverse = false → F64.le s.sync.nextP t = true →
    exec (.evtPrompt t) s = .next a → a.fault = none →
    exec (.evtPrompt t) { s with cfg := { s.cfg with reverse := true } } = .next b → b.fault = none →
    b.sync.markState.toInt = -a.sync.markState.toInt ∧
    b.rx.bitbuf.entry 99 = -(a.rx.bitbuf.entry 99) ∧
    (∀ i, i < 99 → b.rx.bitbuf.entry i = a.rx.bitbuf.entry i) ∧
    b.cfg = { a.cfg with reverse := true } ∧
    b.sync = { a.sync with markState := b.sync.markState } ∧
    b.nco = a.nco ∧ b.lpfM = a.lpfM ∧ b.lpfS = a.lpfS ∧ b.trk = a.trk

/-- R155, R156: REALIGN acts only where fmod(t, 8.0·B) is 0.0; it adds one slope to all three indices: by
default (AVG_L − AVG_E)/1024.0, with the averages kept; under the picker condition the early or the late
fmod slope (late on a tie), with exactly the two listed assignments; it changes nothing else. NUMERIC if a value
it computes is not finite (R234). -/
def Obligations.RealignResult : Prop :=
  ∀ (t : F64) (s : State), s.fault = none →
    let period := F64.mul F64.eight s.cfg.b
    let phase := F64.fmod t period
    let bar := F64.mul s.sync.avgP F64.minHyst
    let picker := F64.lt bar s.sync.avgE && F64.lt bar s.sync.avgL
    let early := F64.lt s.sync.avgL s.sync.avgE
    let y := s.sync
    let slope := if picker then (if early then slopeEarly s else slopeLate s) else slopeDefault s
    let r :=
      if picker then
        (if early then realigned s slope y.avgE y.avgE y.avgP else realigned s slope y.avgP y.avgL y.avgL)
      else realigned s slope y.avgE y.avgP y.avgL
    let timed := period.isFinite && phase.isFinite
    let finite := (slopeDefault s).isFinite && bar.isFinite && slope.isFinite && r.sync.nextE.isFinite &&
      r.sync.nextP.isFinite && r.sync.nextL.isFinite
    (timed = false → exec (.realign t) s = .next (s.raise (.numeric .realign))) ∧
    (timed = true → F64.feq phase F64.zero = false → exec (.realign t) s = .next s) ∧
    (timed = true → F64.feq phase F64.zero = true → finite = true → exec (.realign t) s = .next r) ∧
    (timed = true → F64.feq phase F64.zero = true → finite = false →
      exec (.realign t) s = .next (s.raise (.numeric .realign)))

/-! ## Bit handler, state machine, character synchroniser -/

/-- R176, R175: BIT_IN shifts the soft bit in, decrements the cursor with a floor at 0, and then runs exactly one
state action, chosen by the `RX_STATE` on entry; the reserved value raises INT_RANGE, and so does a soft bit
that does not fit its entry (R232). For soft bits far inside 64 bits it completes: the buffer has moved by one,
and only the bit-level registers and `OUT` may change. -/
def Obligations.BitInResult : Prop :=
  ∀ (v : Int) (s : State), s.fault = none →
    let fits := -(2 ^ 63) ≤ v ∧ v < 2 ^ 63
    (fits → s.rx.rxState = 0#2 → exec (.bitIn v) s = exec .smSyncSetup (shifted s v)) ∧
    (fits → s.rx.rxState = 1#2 → exec (.bitIn v) s = exec .smSync (shifted s v)) ∧
    (fits → s.rx.rxState = 2#2 → exec (.bitIn v) s = exec .smReadData (shifted s v)) ∧
    (s.rx.rxState = 3#2 → exec (.bitIn v) s = .next (s.raise (.intRange .bitIn))) ∧
    (¬fits → exec (.bitIn v) s = .next (s.raise (.intRange .bitIn))) ∧
    (s.rx.rxState ≠ 3#2 → s.rx.errorCount.toNat ≤ 253 → SoftSmall s.rx.bitbuf → v.natAbs < 2 ^ 62 →
      ∃ t, exec (.bitIn v) s = .next t ∧ t.fault = none ∧ t = { s with rx := t.rx, out := t.out } ∧
        (∀ i, i < 99 → t.rx.bitbuf.entry i = s.rx.bitbuf.entry (i + 1)) ∧ t.rx.bitbuf.entry 99 = v)

/-- R62: after shift-ins, the soft bit shifted in j bit periods ago is at index 99 − j; what was there before
has moved toward the head. -/
def Obligations.BufferHoldsTheLastBits : Prop :=
  ∀ (b : BitBuf) (vs : List I64) (j : Nat), j < 100 →
    (∀ v, vs.reverse[j]? = some v → (vs.foldl BitBuf.shiftIn b).entry (99 - j) = v.toInt) ∧
    (vs.length ≤ j → (vs.foldl BitBuf.shiftIn b).entry (99 - j) = b.entry (99 - j + vs.length))

/-- R177: SM_SYNC_SETUP clears `ERROR_COUNT` and `SHIFT`, goes to SYNC, and changes nothing else. -/
def Obligations.SmSyncSetupResult : Prop :=
  ∀ s : State, s.fault = none →
    exec .smSyncSetup s =
      .next { s with rx := { s.rx with errorCount := 0#8, shift := false, rxState := 1#2 } }

/-- R178: SM_SYNC asks FIND_ALPHA: an offset becomes the cursor, with `ALPHA_PHASE` set and READ_DATA next; a
failed search goes back to SYNC_SETUP; nothing else changes. -/
def Obligations.SmSyncResult : Prop :=
  ∀ s : State, s.fault = none →
    ∃ off : Int, exec .findAlpha s = .next { s with ret := .int off } ∧
      (0 ≤ off → exec .smSync s =
        .next { s with rx := { s.rx with
          bitCursor := BitVec.ofInt 7 off, alphaPhase := true, rxState := 2#2 } } ∧ 35 ≤ off ∧ off ≤ 48) ∧
      (off < 0 → exec .smSync s = .next { s with rx := { s.rx with rxState := 0#2 } })

/-- R179: SM_READ_DATA waits at cursor 93 and above; passes over a rep slot; at an alpha slot runs
PROCESS_BYTES, charges its return with a floor at 0, returns to SYNC_SETUP above 5, and then toggles the
phase PROCESS_BYTES left and advances the cursor by 7. A fault of PROCESS_BYTES is its fault; INT_RANGE if the count
leaves 8 bits (R232), which the model records for SM_READ_DATA (log entry 17). For soft bits far inside 64 bits it completes, and only the bit-level registers other than the
buffer, and `OUT`, may change. -/
def Obligations.SmReadDataResult : Prop :=
  ∀ s : State, s.fault = none →
    (93 ≤ s.rx.bitCursor.toNat → exec .smReadData s = .next s) ∧
    (s.rx.bitCursor.toNat < 93 → s.rx.alphaPhase = false →
      exec .smReadData s =
        .next { s with rx := { s.rx with alphaPhase := true, bitCursor := s.rx.bitCursor + 7#7 } }) ∧
    (s.rx.bitCursor.toNat < 93 → s.rx.alphaPhase = true → ∀ (t : State) (r : Int),
      exec (.processBytes s.rx.bitCursor) s = .next t → t.fault = none → t.ret = .int r →
      let e := max ((s.rx.errorCount.toNat : Int) - r) 0
      (255 < e → exec .smReadData s = .next (s.raise (.intRange .smReadData))) ∧
      (e ≤ 255 → exec .smReadData s =
        .next { t with
          ret := s.ret
          rx := { t.rx with
            errorCount := BitVec.ofInt 8 e
            rxState := if 5 < e then 0#2 else s.rx.rxState
            alphaPhase := !t.rx.alphaPhase
            bitCursor := s.rx.bitCursor + 7#7 } })) ∧
    (s.rx.bitCursor.toNat < 93 → s.rx.alphaPhase = true → ∀ t : State,
      exec (.processBytes s.rx.bitCursor) s = .next t → t.fault ≠ none → exec .smReadData s = .next t) ∧
    (s.rx.errorCount.toNat ≤ 253 → SoftSmall s.rx.bitbuf →
      ∃ t, exec .smReadData s = .next t ∧ t.fault = none ∧ t = { s with rx := t.rx, out := t.out } ∧
        t.rx.bitbuf = s.rx.bitbuf)

/-- R180: FIND_ALPHA gives what the rule's two loops compute (written out in `Claims.search`): −1 or an offset of
35 .. 48. It only reads, and it raises no fault: every read is in bounds. -/
def Obligations.FindAlphaIsTheSearch : Prop :=
  ∀ s : State, s.fault = none →
    exec .findAlpha s = .next { s with ret := .int (search s.rx.bitbuf) } ∧
    (search s.rx.bitbuf = -1 ∨ (35 ≤ search s.rx.bitbuf ∧ search s.rx.bitbuf ≤ 48))

/-- R170, R171: bit k of the codeword of BITS_TO_CODE is v[k] > 0, so it depends only on the signs; VALID_CHAR is
exactly four positive soft bits, which is popcount(BITS_TO_CODE(v)) = 4. Neither changes a register. -/
def Obligations.CodewordPrimitives : Prop :=
  ∀ (v : Soft7) (s : State), s.fault = none →
    ∃ c : Code7, exec (.bitsToCode v) s = .next { s with ret := .code c } ∧
      (∀ k : Fin 7, c.getLsbD k = decide (0 < v[k])) ∧
      exec (.validChar v) s = .next { s with ret := .truth ((v.toList.countP fun x => decide (0 < x)) == 4) } ∧
      ((v.toList.countP fun x => decide (0 < x)) = 4 ↔ Codeword.popcount c = 4)

/-! ## FEC -/

/-- R200: PROCESS_BYTES follows the eight steps, and the first that applies wins. An index whose seven entries are
not all in the buffer raises INT_RANGE (R61), and so does a sum of step 4 that leaves 64 bits. For soft bits far inside
64 bits it completes. -/
def Obligations.ProcessBytesResult : Prop :=
  ∀ (i : BitVec 7) (s : State), s.fault = none →
    let c := i.toNat
    let a := slot s.rx.bitbuf c
    let r := slot s.rx.bitbuf (c - 35)
    let v := slotSum s.rx.bitbuf c
    let answer := exec (.processBytes i) s
    let bothFail := validChar a = false ∧ 35 ≤ c ∧ validChar r = false
    (93 < c → answer = .next (s.raise (.intRange .processBytes))) ∧
    (c ≤ 93 →
      (validChar a = true → answer = .next (emitted s a 1#3 1)) ∧
      (validChar a = false → c < 35 → answer = .next { s with ret := .int (-1) }) ∧
      (validChar a = false → 35 ≤ c → validChar r = true →
        answer = .next (if bitsToCode r = 0x66#7 then { s with ret := .int 0 } else emitted s r 2#3 0)) ∧
      (bothFail → Soft7.fits v = false → answer = .next (s.raise (.intRange .processBytes))) ∧
      (bothFail → Soft7.fits v = true → validChar v = true → answer = .next (emitted s v 3#3 (-1))) ∧
      (bothFail → Soft7.fits v = true → validChar v = false →
        ∀ fa, flipSmallest a = .ok fa →
          (validChar fa = true → answer = .next (emitted s fa 4#3 (-1))) ∧
          (validChar fa = false → ∀ fr, flipSmallest r = .ok fr →
            (validChar fr = true → answer = .next (emitted s fr 5#3 (-1))) ∧
            (validChar fr = false → ∀ fv, flipSmallest v = .ok fv →
              (validChar fv = true → answer = .next (emitted s fv 6#3 (-1))) ∧
              (validChar fv = false → answer = .next { s with ret := .int (-2) })))) ∧
      (SoftSmall s.rx.bitbuf → ∃ t, answer = .next t ∧ t.fault = none))

/-- PROCESS_BYTES, its frame (R200, R201): the charge is 1, 0, −1 or −2; the buffer, the cursor, the count and the
state are unchanged, because the flips work on copies (D27); `OUT` grows by at most one record, which is
legal; nothing outside the bit-level machine changes. -/
def Obligations.ProcessBytesFrame : Prop :=
  ∀ (c : BitVec 7) (s t : State), s.fault = none → exec (.processBytes c) s = .next t → t.fault = none →
    (∃ r : Int, t.ret = .int r ∧ (r = 1 ∨ r = 0 ∨ r = -1 ∨ r = -2)) ∧
    (t.out = s.out ∨ ∃ rec, t.out = s.out ++ [rec] ∧ RecordLegal rec) ∧
    t = { s with
      ret := t.ret, out := t.out
      rx := { s.rx with
        alphaPhase := t.rx.alphaPhase, shift := t.rx.shift, lastCode := t.rx.lastCode } }

/-- R205: FLIP_SMALLEST negates the negative soft bit closest to zero when there are exactly four negative ones,
else the smallest positive one when there are exactly four positive ones, the lowest index on a tie; else it
gives the copy unchanged. INT_RANGE if the negation does not fit 64 bits. No register changes. -/
def Obligations.FlipSmallestResult : Prop :=
  ∀ (v : Soft7) (s : State), s.fault = none →
    let c0 := v.toList.countP fun x => decide (x < 0)
    let c1 := (v.toList.countP fun x => decide (0 < x)) + 1
    let flips := fun j : Fin 7 =>
      (fitsI64 (-v[j]) = true → exec (.flipSmallest v) s = .next { s with ret := .soft (v.set j (-v[j])) }) ∧
      (fitsI64 (-v[j]) = false → exec (.flipSmallest v) s = .next (s.raise (.intRange .flipSmallest)))
    (c0 = 4 → ∃ j : Fin 7, v[j] < 0 ∧
      (∀ k : Fin 7, v[k] < 0 → v[k] ≤ v[j] ∧ (v[k] = v[j] → j ≤ k)) ∧ flips j) ∧
    (c0 ≠ 4 → c1 = 5 → ∃ j : Fin 7, 0 < v[j] ∧
      (∀ k : Fin 7, 0 < v[k] → v[j] ≤ v[k] ∧ (v[k] = v[j] → j ≤ k)) ∧ flips j) ∧
    (c0 ≠ 4 → c1 ≠ 5 → exec (.flipSmallest v) s = .next { s with ret := .soft v })

/-- R206: of a vector that has just failed VALID_CHAR, the only flip that succeeds has four negative and three
positive soft bits; a vector with five positive ones is never corrected. -/
def Obligations.FlipRepairsOnlyPopcountThree : Prop :=
  ∀ v w : Soft7, flipSmallest v = .ok w →
    (validChar v = false → validChar w = true →
      (v.toList.countP fun x => decide (x < 0)) = 4 ∧ (v.toList.countP fun x => decide (0 < x)) = 3) ∧
    ((v.toList.countP fun x => decide (0 < x)) = 5 → w = v)

/-- R210: PROCESS_CHAR: REP after REP clears `ALPHA_PHASE`; LTRS and FIGS write `SHIFT`; `LAST_CODE` takes the
codeword; one record is emitted, with the fields of R86; nothing else changes. An invalid codeword and PATH 0 and 7, which
no rule hands over, have the same effect: the model's choice (log entry 21). -/
def Obligations.ProcessCharResult : Prop :=
  ∀ (code : Code7) (path : BitVec 3) (s : State), s.fault = none →
    let sh := if code = 0x5A#7 then false else if code = 0x36#7 then true else s.rx.shift
    ∃ r : Rec16,
      exec (.processChar code path) s =
        .next { s with
          out := s.out ++ [r]
          rx := { s.rx with
            alphaPhase :=
              if code = 0x66#7 ∧ s.rx.lastCode = 0x66#7 then false else s.rx.alphaPhase
            shift := sh
            lastCode := code } } ∧
      r.extractLsb' 0 7 = code ∧ r.getLsbD 7 = sh ∧ r.extractLsb' 8 3 = path ∧ r.extractLsb' 11 5 = 0#5

/-- R211: when SM_READ_DATA decodes a REP right after a REP, PROCESS_CHAR clears `ALPHA_PHASE` and the toggle
sets it back: the next slot is handled as an alpha slot too. -/
def Obligations.RepAfterRepSlipsOneSlot : Prop :=
  ∀ s : State, s.fault = none → s.rx.bitCursor.toNat < 93 → s.rx.alphaPhase = true →
    validChar (slot s.rx.bitbuf s.rx.bitCursor.toNat) = true →
    bitsToCode (slot s.rx.bitbuf s.rx.bitCursor.toNat) = 0x66#7 → s.rx.lastCode = 0x66#7 →
    ∃ t, exec .smReadData s = .next t ∧ t.fault = none ∧ t.rx.alphaPhase = true ∧
      t.rx.lastCode = 0x66#7 ∧ t.rx.bitCursor.toNat = s.rx.bitCursor.toNat + 7 ∧
      t.out.length = s.out.length + 1 ∧ t.rx.bitbuf = s.rx.bitbuf

/-- R89: exactly 35 of the 128 codewords are valid, and the six control codewords are among them. -/
def Obligations.CodewordSpace : Prop :=
  ((List.range 128).filter fun c => Codeword.valid (BitVec.ofNat 7 c)).length = 35 ∧
  (∀ c ∈ [0x5A#7, 0x36#7, 0x0F#7, 0x33#7, 0x6A#7, 0x66#7], Codeword.valid c = true) ∧
  Codeword.controls = [0x5A#7, 0x36#7, 0x0F#7, 0x33#7, 0x6A#7, 0x66#7]

/-! ## SAMPLE -/

/-- R101, R102: a legal SAMPLE whose pushes complete no block scales, mixes both branches with the phases before
the advance, advances both phases and appends to both filters; nothing else changes and no record is
emitted. Where COS_FN and SIN_FN answer finite values (R105). -/
def Obligations.SampleWithoutBurst : Prop :=
  ∀ (x : F64) (s : State), s.fault = none → s.cfg.configured = true →
    x.isFinite = true → F64.le x.abs F64.one = true →
    PhaseLegal s.nco.phaseM → PhaseLegal s.nco.phaseS → StepLegal s.cfg.dphiM → StepLegal s.cfg.dphiS →
    MixerFinite s.nco.phaseM → MixerFinite s.nco.phaseS →
    s.lpfM.fill + 1 ≠ Config.machine.block → s.lpfS.fill + 1 ≠ Config.machine.block →
    exec (.sample x) s =
      .next { s with
        nco :=
          { phaseM := wrapped (F64.sub s.nco.phaseM s.cfg.dphiM)
            phaseS := wrapped (F64.sub s.nco.phaseS s.cfg.dphiS) }
        lpfM := { hist := s.lpfM.hist ++ [mixed x s.nco.phaseM], fill := s.lpfM.fill + 1 }
        lpfS := { hist := s.lpfS.hist ++ [mixed x s.nco.phaseS], fill := s.lpfS.fill + 1 } }

/-- R102, R101, R235 item 4: a legal SAMPLE is the operations of its sequence, in order, each on the state the one before
left: SCALE, MIX mark, MIX space, NCO_ADV, LPF_PUSH mark, LPF_PUSH space, and then FSAMPLE for each pair of the bursts, each
of them its own sequence (R130). The first operation that raises a fault ends the command, and its fault is the
command's. Each operation is run alone here, through `exec`, and hands its result on in `ret`. On a block whose two filters
have received the same number of pushes (R109; `OrdinaryStepsKeepTheStreamLegal`). -/
def Obligations.SampleIsItsSequence : Prop :=
  ∀ (x : F64) (s : State), s.fault = none → s.cfg.configured = true → x.isFinite = true →
    F64.le x.abs F64.one = true → s.lpfM.fill = s.lpfS.fill → exec (.sample x) s = sampleThrough x s

/-- R130, R235 item 4: FSAMPLE, which SAMPLE runs for each pair, is its fourteen operations, in the rule's order, each on
the state the one before left, with t the count before the increment: it computes the state they leave, and the fault it
raises is that of the first operation that raises one. Each operation is run alone here, through `exec`, and hands its
result on in `ret`. -/
def Obligations.FsampleIsItsSequence : Prop :=
  ∀ (ym ys : Cplx) (s0 s : State) (k : State → Answer), s.fault = none → s.ret = s0.ret →
    fsampleThrough s0 ym ys k s =
      match fsample Config.machine s ym ys with
      | .ok t => k t
      | .error e => .next (s0.raise e)

/-- R83: −0.0 behaves as +0.0: blocks that differ only in the signs of zeros in their histories do so after any operation,
with the same result, and also after SAMPLE of the one zero and of the other. -/
def Obligations.ZeroSignHasNoEffect : Prop :=
  ∀ (i i' : Instr) (s s' t : State), SameButZeroSign i i' → ZeroTwin s s' → exec i s = .next t →
    ∃ t', exec i' s' = .next t' ∧ ZeroTwin t t'

/-- R142: silence. A block that has heard only silence since its RESET, given another zero sample, completes,
stays so, emits no record, and has counted the filtered samples of a burst, if one was due. While the count that
a burst leaves stays below 2^53 (R233), and where COS_FN and SIN_FN answer finite values (R105). -/
def Obligations.SilenceStaysQuiet : Prop :=
  ∀ (x : F64) (s : State), Quiet s → x.absBits = 0 → MixerFinite s.nco.phaseM → MixerFinite s.nco.phaseS →
    (s.lpfS.fill + 1 = Config.machine.block → s.sync.sampleCount.toNat + Config.machine.block < 2 ^ 53) →
    ∃ t, exec (.sample x) s = .next t ∧ Quiet t ∧ t.out = s.out ∧
      t.sync.sampleCount.toNat = s.sync.sampleCount.toNat +
        (if s.lpfS.fill + 1 = Config.machine.block then Config.machine.block else 0)

/-- R142: a RESET that does not fault leaves the block as one that has heard nothing. -/
def Obligations.ResetLeavesAQuietBlock : Prop :=
  ∀ (fs : BitVec 32) (rv so : Bool) (s : State), s.fault = none → 1000 ≤ fs.toNat →
    ∃ t, exec (.reset fs rv so 0#30) s = .next t ∧ Quiet t ∧ t.out = s.out

/-! ## Whole-machine rules -/

/-- R22, R62, R46, R69: of all operations, only RESET writes the configuration registers and derived constants; the
only write to `BITBUF` is the shift-in of BIT_IN, which EVT_PROMPT and SAMPLE run, and RESET clears it; no operation
removes or reorders a record of `OUT`. -/
def Obligations.WhatEveryOperationKeeps : Prop :=
  ∀ (i : Instr) (s t : State), exec i s = .next t → t.fault = none →
    s.out <+: t.out ∧
    ((∀ fs rv so res, i ≠ .reset fs rv so res) →
      t.cfg = s.cfg ∧
      ((∀ x, i ≠ .sample x) → (∀ u, i ≠ .evtPrompt u) → (∀ v, i ≠ .bitIn v) → t.rx.bitbuf = s.rx.bitbuf))

/-- R22, D34: `CFG_ONLY_SITOR_B` has no effect inside the block: two blocks that differ in it alone differ in it
alone after any operation but RESET. -/
def Obligations.OnlySitorBHasNoEffect : Prop :=
  ∀ (i : Instr) (f : Bool) (s t : State), s.fault = none → exec i s = .next t → t.fault = none →
    (∀ fs rv so res, i ≠ .reset fs rv so res) → exec i (withSitor f s) = .next (withSitor f t)

/-! ## Invariants -/

/-- Both invariants below hold at power-on (with the values log entry 3 names). -/
def Obligations.InvariantsHoldAtPowerOn : Prop := Inv State.reset ∧ StreamInv State.reset

/-- Every step, of any event, keeps the registers of a live block legal: phases in (−TWO_PI, 0.0], `FILL` below P,
`BIT_CURSOR` at most 99, `RX_STATE` never 3, `SAMPLE_COUNT` below 2^53, tracker and schedule values and filter
histories finite, derived constants as RESET computed them (R23, R24, R25, R36, R41, R42, R234). -/
def Obligations.EveryStepKeepsRegistersLegal : Prop :=
  ∀ s t : State, Inv s → step s = .next t → Inv t

/-- Under host commands, drains and BIT stimuli, a live block keeps: `ERROR_COUNT` at most 7, and at most 5 outside
SYNC_SETUP (R43); every record of `OUT` a valid codeword with a PATH of 1..6 (R86, R87, R49); `LAST_CODE` 0 or
valid (R45); both filters in step (R109); `SAMPLE_COUNT` = P·floor(k/P) after k inputs (R139). -/
def Obligations.OrdinaryStepsKeepTheStreamLegal : Prop :=
  ∀ s t : State, (∀ e ∈ s.input, OrdinaryEvent e) → Inv s → StreamInv s → step s = .next t →
    StreamInv t ∧ ∀ e ∈ t.input, OrdinaryEvent e

/-! ## Arithmetic -/

/-- R12: `f64(n)` is exact for |n| ≤ 2^53, and `trunc` reads the integer back. -/
def Obligations.IntegersConvertExactly : Prop :=
  ∀ n : Int, n.natAbs ≤ 2 ^ 53 →
    (F64.ofInt n).isFinite = true ∧ (F64.ofInt n).toRat = (n : ℚ) ∧ (F64.ofInt n).trunc = n

/-- R12: a finite sum, difference, product or quotient of finite numbers is the binary64 number nearest to the
exact one, and the one with an even last bit where two are equally near: each operation is rounded once. -/
def Obligations.ArithmeticRoundsToNearestEven : Prop :=
  ∀ x y : F64, x.isFinite = true → y.isFinite = true →
    ((F64.add x y).isFinite = true → NearestEven (x.toRat + y.toRat) (F64.add x y)) ∧
    ((F64.sub x y).isFinite = true → NearestEven (x.toRat - y.toRat) (F64.sub x y)) ∧
    ((F64.mul x y).isFinite = true → NearestEven (x.toRat * y.toRat) (F64.mul x y)) ∧
    (y.absBits ≠ 0 → (F64.div x y).isFinite = true → NearestEven (x.toRat / y.toRat) (F64.div x y))

/-- R13: `SQRT` of a finite number that is not negative is finite and is the binary64 number nearest to the real
square root. -/
def Obligations.SqrtRoundsToNearest : Prop :=
  ∀ x : F64, x.isFinite = true → 0 ≤ x.key →
    (F64.sqrt x).isFinite = true ∧
    ∀ y : F64, y.isFinite = true →
      |((F64.sqrt x).toRat : ℝ) - Real.sqrt (x.toRat : ℝ)| ≤ |(y.toRat : ℝ) - Real.sqrt (x.toRat : ℝ)|

/-- R13: `fmod` is exact: a − n·b with n = trunc(a/b), the sign of a, magnitude below |b|. -/
def Obligations.FmodIsExact : Prop :=
  ∀ x y : F64, x.isFinite = true → y.isFinite = true → y.absBits ≠ 0 →
    (F64.fmod x y).isFinite = true ∧ (F64.fmod x y).sign = x.sign ∧
    |(F64.fmod x y).toRat| < |y.toRat| ∧
    ∃ n : Int, x.toRat = (F64.fmod x y).toRat + n * y.toRat ∧ 0 ≤ n * y.toRat * x.toRat
end

