-- ==== Sys2Proof/Laws/Bytes.lean ====
section
/-! SUPPORT. The byte codecs of the stimuli and of the serialisation (spec R64, R85): what was written is read
back, with the bytes after it. The decoder's round trip is assembled from these. -/

namespace Sys2Proof

theorem read64_bytes64 (x : BitVec 64) (rest : List Byte) :
    read64 (bytes64 x ++ rest) = some (x, rest) := by
  simp only [bytes64, List.cons_append, List.nil_append, read64, Option.some.injEq, Prod.mk.injEq, and_true]
  apply BitVec.eq_of_getLsbD_eq
  intro i hi
  simp only [BitVec.getLsbD_append, BitVec.getLsbD_extractLsb']
  have hc : i < 8 ∨ (8 ≤ i ∧ i < 16) ∨ (16 ≤ i ∧ i < 24) ∨ (24 ≤ i ∧ i < 32) ∨ (32 ≤ i ∧ i < 40) ∨
      (40 ≤ i ∧ i < 48) ∨ (48 ≤ i ∧ i < 56) ∨ (56 ≤ i ∧ i < 64) := by omega
  rcases hc with h | h | h | h | h | h | h | h <;> interval_cases i <;> simp

theorem bytes64_length (x : BitVec 64) : (bytes64 x).length = 8 := rfl

theorem readF64_bytesF64 (x : F64) (rest : List Byte) :
    readF64 (bytesF64 x ++ rest) = some (x, rest) := by
  simp [readF64, bytesF64, read64_bytes64]

theorem toInt_ofInt_fits {n : Int} (h : fitsI64 n = true) : (BitVec.ofInt 64 n).toInt = n := by
  simp only [fitsI64, Bool.and_eq_true, decide_eq_true_eq] at h
  exact BitVec.toInt_ofInt_eq_self (by norm_num) (by norm_num; omega) (by norm_num; omega)

theorem readI64_bytesI64 {n : Int} (h : fitsI64 n = true) (rest : List Byte) :
    readI64 (bytesI64 n ++ rest) = some (n, rest) := by
  simp [readI64, bytesI64, read64_bytes64, toInt_ofInt_fits h]

/-- An integer that does not fit is its low 64 bits and a part above that is smaller. -/
theorem int_split {n : Int} (h : fitsI64 n = false) :
    ((BitVec.ofInt 64 n).toNat : Int) + 2 ^ 64 * (n / 2 ^ 64) = n ∧ (n / 2 ^ 64).natAbs < n.natAbs := by
  have hl : ((BitVec.ofInt 64 n).toNat : Int) = n % 2 ^ 64 := by
    rw [BitVec.toNat_ofInt]
    exact Int.toNat_of_nonneg (Int.emod_nonneg _ (by norm_num))
  have hn : ¬(-(2 ^ 63 : Int) ≤ n ∧ n < (2 ^ 63 : Int)) := by
    intro hc
    simp [fitsI64] at h
    omega
  refine ⟨?_, by omega⟩
  rw [hl]; omega

theorem readIntFrom_bytesIntFrom (g : Nat) (n : Int) (hg : n.natAbs ≤ g) (fuel : Nat) (rest : List Byte)
    (hf : (bytesIntFrom g n).length ≤ fuel) :
    readIntFrom fuel (bytesIntFrom g n ++ rest) = some (n, rest) := by
  induction g generalizing n fuel with
  | zero =>
    have : n = 0 := by omega
    subst this
    cases fuel with
    | zero => simp [bytesIntFrom] at hf
    | succ fuel => simp [bytesIntFrom, readIntFrom, bytesI64, read64_bytes64]
  | succ g ih =>
    cases fuel with
    | zero => unfold bytesIntFrom at hf; split at hf <;> simp at hf
    | succ fuel =>
      cases h : fitsI64 n with
      | true => simp [bytesIntFrom, h, readIntFrom, bytesI64, read64_bytes64, toInt_ofInt_fits h]
      | false =>
        obtain ⟨hs, hlt⟩ := int_split h
        have hf' : (bytesIntFrom g (n / 2 ^ 64)).length ≤ fuel := by
          simp only [bytesIntFrom, h, Bool.false_eq_true, if_false, List.length_cons, List.length_append] at hf
          omega
        have hr := ih (n / 2 ^ 64) (by omega) fuel hf'
        simp only [bytesIntFrom, h, Bool.false_eq_true, if_false, List.cons_append, List.append_assoc, bytesI64,
          readIntFrom, read64_bytes64, if_true, show ¬(1#8 : Byte) = 0#8 by decide, hr, hs]

/-- Every integer has its bytes (log entry 1). -/
theorem readInt_bytesInt (n : Int) (rest : List Byte) : readInt (bytesInt n ++ rest) = some (n, rest) := by
  unfold readInt bytesInt
  exact readIntFrom_bytesIntFrom _ n (le_refl _) _ rest (by simp)

theorem readCplx_bytesCplx (z : Cplx) (rest : List Byte) :
    readCplx (bytesCplx z ++ rest) = some (z, rest) := by
  simp [readCplx, bytesCplx, List.append_assoc, readF64_bytesF64]

theorem readBranch_byteBranch (br : Branch) (rest : List Byte) :
    readBranch (byteBranch br :: rest) = some (br, rest) := by
  cases br <;> simp [readBranch, byteBranch]

/-- An identifier names its operation (R88: no two share one). -/
theorem ofCode_code (k : StepId) : StepId.ofCode k.code = some k := by
  cases k <;> decide

/-- The two fields of a command word (R80). -/
theorem commandWord_cmd (cmd : BitVec 2) (p : BitVec 64) :
    (commandWord cmd p).extractLsb' 64 2 = cmd := by
  apply BitVec.eq_of_getLsbD_eq
  intro i hi
  rw [BitVec.getLsbD_extractLsb']
  unfold commandWord
  rw [BitVec.getLsbD_append]
  simp [hi]

theorem commandWord_payload (cmd : BitVec 2) (p : BitVec 64) :
    (commandWord cmd p).extractLsb' 0 64 = p := by
  apply BitVec.eq_of_getLsbD_eq
  intro i hi
  rw [BitVec.getLsbD_extractLsb']
  unfold commandWord
  rw [BitVec.getLsbD_append]
  simp [hi]

end Sys2Proof
end

