-- ==== Sys2Proof/Laws/Float.lean ====
section
/-! SUPPORT. Small facts of the binary64 arithmetic: the fields of a packed pattern, rounding never answers
a NaN, and the exact special cases the rules rest on. -/

namespace Sys2Proof
namespace F64

theorem pack_sign (neg : Bool) {m : Nat} (h : m < 2 ^ 63) : (pack neg m).sign = neg := by
  unfold pack sign
  rw [BitVec.msb_eq_decide, BitVec.toNat_ofNat, Nat.mod_eq_of_lt (by split <;> omega)]
  cases neg <;> simp <;> omega

theorem pack_absBits (neg : Bool) {m : Nat} (h : m < 2 ^ 63) : (pack neg m).absBits = m := by
  unfold pack absBits
  rw [BitVec.extractLsb'_toNat, BitVec.toNat_ofNat]
  cases neg <;> simp <;> omega

theorem pack_key (neg : Bool) {m : Nat} (h : m < 2 ^ 63) :
    (pack neg m).key = if neg then -(m : Int) else (m : Int) := by
  simp [key, pack_sign neg h, pack_absBits neg h]

/-- The fields of a pattern read from its low 63 bits. -/
theorem expField_eq (x : F64) : x.expField = x.absBits / 2 ^ 52 := by
  unfold expField absBits
  simp only [BitVec.extractLsb'_toNat, Nat.shiftRight_eq_div_pow, Nat.pow_zero, Nat.div_one]
  have := x.bits.isLt
  omega

theorem frac_eq (x : F64) : x.frac = x.absBits % 2 ^ 52 := by
  unfold frac absBits
  simp only [BitVec.extractLsb'_toNat, Nat.shiftRight_eq_div_pow, Nat.pow_zero, Nat.div_one]
  omega

theorem absBits_lt (x : F64) : x.absBits < 2 ^ 63 := by
  unfold absBits
  exact (BitVec.isLt _)

/-- A finite pattern is one below the infinity's. -/
theorem isFinite_iff (x : F64) : x.isFinite = true ↔ x.absBits < 2047 * 2 ^ 52 := by
  have := absBits_lt x
  simp only [isFinite, expField_eq, bne_iff_ne, ne_eq]
  omega

theorem isNaN_iff (x : F64) : x.isNaN = true ↔ 2047 * 2 ^ 52 < x.absBits := by
  have := absBits_lt x
  simp only [isNaN, expField_eq, frac_eq, Bool.and_eq_true, beq_iff_eq, bne_iff_ne, ne_eq]
  omega

theorem isNaN_of_isFinite {x : F64} (h : x.isFinite = true) : x.isNaN = false := by
  rw [← Bool.not_eq_true, isNaN_iff]
  have := (isFinite_iff x).mp h
  omega

theorem isInf_of_isFinite {x : F64} (h : x.isFinite = true) : x.isInf = false := by
  simp only [isFinite, bne_iff_ne, ne_eq] at h
  simp [isInf, h]

/-- Rounding answers a finite number or an infinity of the sign given, never a NaN. -/
theorem roundPack_eq_pack (neg : Bool) (m : Nat) (e : Int) (sticky : Bool) :
    ∃ p, p ≤ 2047 * 2 ^ 52 ∧ roundPack neg m e sticky = pack neg p := by
  unfold roundPack
  split
  · exact ⟨0, by positivity, rfl⟩
  · split
    · exact ⟨_, le_refl _, rfl⟩
    · exact ⟨_, by omega, rfl⟩

theorem roundPack_not_nan (neg : Bool) (m : Nat) (e : Int) (sticky : Bool) :
    (roundPack neg m e sticky).isNaN = false := by
  obtain ⟨p, hp, h⟩ := roundPack_eq_pack neg m e sticky
  rw [← Bool.not_eq_true, isNaN_iff, h, pack_absBits neg (by omega)]
  omega

theorem roundPack_sign (neg : Bool) (m : Nat) (e : Int) (sticky : Bool) :
    (roundPack neg m e sticky).sign = neg := by
  obtain ⟨p, hp, h⟩ := roundPack_eq_pack neg m e sticky
  rw [h, pack_sign neg (by omega)]

/-- A number whose sign is known has a key of that sign. -/
theorem key_nonneg_of_sign {x : F64} (h : x.sign = false) : 0 ≤ x.key := by simp [key, h]
theorem key_nonpos_of_sign {x : F64} (h : x.sign = true) : x.key ≤ 0 := by simp [key, h]

theorem le_iff {x y : F64} (hx : x.isNaN = false) (hy : y.isNaN = false) :
    le x y = true ↔ x.key ≤ y.key := by simp [le, hx, hy]

theorem lt_iff {x y : F64} (hx : x.isNaN = false) (hy : y.isNaN = false) :
    lt x y = true ↔ x.key < y.key := by simp [lt, hx, hy]

/-- A finite difference is computed from the exact one: it is no NaN. -/
theorem add_not_nan {x y : F64} (hx : x.isFinite = true) (hy : y.isFinite = true) :
    (add x y).isNaN = false := by
  unfold add
  simp only [isNaN_of_isFinite hx, isNaN_of_isFinite hy, isInf_of_isFinite hx, isInf_of_isFinite hy,
    Bool.or_self, Bool.false_eq_true, if_false]
  split
  · unfold signedZero
    rw [← Bool.not_eq_true, isNaN_iff, pack_absBits _ (by positivity)]
    omega
  · exact roundPack_not_nan _ _ _ _

/-- The order the minimum and the maximum keep, whatever `pick` is (R13). -/
theorem fmin_key (pick : F64 → F64 → Bool) {x y : F64} (hx : x.isNaN = false) (hy : y.isNaN = false) :
    (fmin pick x y).key = min x.key y.key := by
  unfold fmin
  simp only [lt_iff hx hy, lt_iff hy hx]
  split
  · omega
  · split
    · omega
    · split
      · subst_vars; simp
      · split <;> omega

theorem fmax_key (pick : F64 → F64 → Bool) {x y : F64} (hx : x.isNaN = false) (hy : y.isNaN = false) :
    (fmax pick x y).key = max x.key y.key := by
  unfold fmax
  simp only [lt_iff hx hy, lt_iff hy hx]
  split
  · omega
  · split
    · omega
    · split
      · subst_vars; simp
      · split <;> omega

end F64

namespace Config

/-! What the machine's parameters are held to (R105, R110, R137, R142; log entry 5). -/

/-- Everything a held value can be. -/
theorem held_cases {lo hi : F64} (hlo : lo.isFinite = true) (hhi : hi.isFinite = true) (hle : lo.key ≤ hi.key)
    (x : F64) :
    (x.isFinite = false ∧ held lo hi x = x) ∨
      ((held lo hi x).isFinite = true ∧ lo.key ≤ (held lo hi x).key ∧ (held lo hi x).key ≤ hi.key) := by
  unfold held
  cases hx : x.isFinite with
  | false => simp
  | true =>
    right
    have nx := F64.isNaN_of_isFinite hx
    have nl := F64.isNaN_of_isFinite hlo
    have nh := F64.isNaN_of_isFinite hhi
    simp only [Bool.not_true, Bool.false_eq_true, if_false, F64.lt, nx, nl, nh, Bool.not_false, Bool.true_and,
      decide_eq_true_eq]
    split
    · exact ⟨hlo, le_refl _, hle⟩
    · split
      · exact ⟨hhi, hle, le_refl _⟩
      · exact ⟨hx, by omega, by omega⟩

/-- A held value that is finite lies in its interval. -/
theorem held_spec {lo hi x : F64} (hlo : lo.isFinite = true) (hhi : hi.isFinite = true) (hle : lo.key ≤ hi.key)
    (h : (held lo hi x).isFinite = true) : lo.key ≤ (held lo hi x).key ∧ (held lo hi x).key ≤ hi.key := by
  rcases held_cases hlo hhi hle x with ⟨hf, he⟩ | ⟨_, h1⟩
  · rw [he, hf] at h; cases h
  · exact h1

/-- R105: a cosine that is finite is at most 2.0 in magnitude. -/
theorem machine_cos_spec {x : F64} (h : (machine.cosFn x).isFinite = true) :
    F64.negTwo.key ≤ (machine.cosFn x).key ∧ (machine.cosFn x).key ≤ F64.two.key := by
  have e : machine.cosFn x =
      if x.absBits = 0 then F64.one else held F64.negTwo F64.two (raw.cosFn x) := rfl
  rw [e] at h ⊢
  split
  · decide
  · rename_i h0
    rw [if_neg h0] at h
    exact held_spec (lo := F64.negTwo) (hi := F64.two) (by decide) (by decide) (by decide) h

theorem machine_sin_spec {x : F64} (h : (machine.sinFn x).isFinite = true) :
    F64.negTwo.key ≤ (machine.sinFn x).key ∧ (machine.sinFn x).key ≤ F64.two.key := by
  have e : machine.sinFn x =
      if x.absBits = 0 then F64.zero else held F64.negTwo F64.two (raw.sinFn x) := rfl
  rw [e] at h ⊢
  split
  · decide
  · rename_i h0
    rw [if_neg h0] at h
    exact held_spec (lo := F64.negTwo) (hi := F64.two) (by decide) (by decide) (by decide) h

/-- R137: a logarithm that is finite lies between 0.0 and that of the largest number. -/
theorem machine_log_spec {x : F64} (h : (machine.logFn x).isFinite = true) :
    F64.zero.key ≤ (machine.logFn x).key ∧ (machine.logFn x).key ≤ F64.logMax.key := by
  have e : machine.logFn x = if x = F64.one then F64.zero else held F64.zero F64.logMax (raw.logFn x) := rfl
  rw [e] at h ⊢
  split
  · decide
  · rename_i h0
    rw [if_neg h0] at h
    exact held_spec (lo := F64.zero) (hi := F64.logMax) (by decide) (by decide) (by decide) h

/-- R105: at phase 0.0, c = 1 and s = 0. -/
@[simp] theorem machine_cos_zero : machine.cosFn F64.zero = F64.one := rfl
@[simp] theorem machine_sin_zero : machine.sinFn F64.zero = F64.zero := rfl
@[simp] theorem machine_log_one : machine.logFn F64.one = F64.zero := rfl

theorem machine_lpf_zero {h : Vector F64 512} {w : List Cplx} (hw : w.all isZeroPair = true) (j : Nat) :
    machine.lpfFn h w j = { re := F64.zero, im := F64.zero } := by
  have : machine.lpfFn h w j =
      if w.all isZeroPair then { re := F64.zero, im := F64.zero } else heldLpf raw h (w.map plainPair) j := rfl
  rw [this, if_pos hw]

/-- R110: everything an output component can be. -/
theorem upToRounding_cases (tol : Nat) (scale exact : Int) (y : F64) :
    (y.isFinite = false ∧ upToRounding tol scale exact y = y) ∨ upToRounding tol scale exact y = roundSum exact ∨
      (upToRounding tol scale exact y = y ∧ ((exactVal y - exact).natAbs * 2 ^ 52 : Int) ≤ tol * scale) := by
  unfold upToRounding
  cases hy : y.isFinite with
  | false => simp
  | true =>
    by_cases h : (tol * scale < (exactVal y - exact).natAbs * 2 ^ 52)
    · exact .inr (.inl (by simp only [decide_eq_true h, Bool.and_self, if_true]))
    · exact .inr (.inr ⟨by simp only [decide_eq_false h, Bool.and_false, Bool.false_eq_true, if_false], not_lt.mp h⟩)

/-- The two zeros of an input are one to the filter (R83). -/
theorem isZeroPair_plainPair (z : Cplx) : isZeroPair (plainPair z) = isZeroPair z := by
  have h : ∀ x : F64, (plainZero x).absBits = x.absBits := by
    intro x
    unfold plainZero
    split
    · rename_i h0; rw [h0]; rfl
    · rfl
  simp [isZeroPair, plainPair, h]

end Config
end Sys2Proof
end

