-- ==== Sys2Proof/Laws/State.lean ====
section
/-! SUPPORT. One lemma per field of the state and per update, true by `rfl`: a proof reads a field of an
updated state by `simp` and never unfolds the update. -/

namespace Sys2Proof
namespace Machine
namespace State

@[simp] theorem setCfg_cfg (s : State) (r : ConfigRegs) : (s.setCfg r).cfg = r := rfl
@[simp] theorem setCfg_nco (s : State) (r : ConfigRegs) : (s.setCfg r).nco = s.nco := rfl
@[simp] theorem setCfg_lpfM (s : State) (r : ConfigRegs) : (s.setCfg r).lpfM = s.lpfM := rfl
@[simp] theorem setCfg_lpfS (s : State) (r : ConfigRegs) : (s.setCfg r).lpfS = s.lpfS := rfl
@[simp] theorem setCfg_trk (s : State) (r : ConfigRegs) : (s.setCfg r).trk = s.trk := rfl
@[simp] theorem setCfg_sync (s : State) (r : ConfigRegs) : (s.setCfg r).sync = s.sync := rfl
@[simp] theorem setCfg_rx (s : State) (r : ConfigRegs) : (s.setCfg r).rx = s.rx := rfl
@[simp] theorem setCfg_out (s : State) (r : ConfigRegs) : (s.setCfg r).out = s.out := rfl
@[simp] theorem setCfg_fault (s : State) (r : ConfigRegs) : (s.setCfg r).fault = s.fault := rfl
@[simp] theorem setCfg_input (s : State) (r : ConfigRegs) : (s.setCfg r).input = s.input := rfl
@[simp] theorem setCfg_ret (s : State) (r : ConfigRegs) : (s.setCfg r).ret = s.ret := rfl
@[simp] theorem setCfg_draw (s : State) (r : ConfigRegs) : (s.setCfg r).draw = s.draw := rfl

@[simp] theorem setNco_cfg (s : State) (r : NcoRegs) : (s.setNco r).cfg = s.cfg := rfl
@[simp] theorem setNco_nco (s : State) (r : NcoRegs) : (s.setNco r).nco = r := rfl
@[simp] theorem setNco_lpfM (s : State) (r : NcoRegs) : (s.setNco r).lpfM = s.lpfM := rfl
@[simp] theorem setNco_lpfS (s : State) (r : NcoRegs) : (s.setNco r).lpfS = s.lpfS := rfl
@[simp] theorem setNco_trk (s : State) (r : NcoRegs) : (s.setNco r).trk = s.trk := rfl
@[simp] theorem setNco_sync (s : State) (r : NcoRegs) : (s.setNco r).sync = s.sync := rfl
@[simp] theorem setNco_rx (s : State) (r : NcoRegs) : (s.setNco r).rx = s.rx := rfl
@[simp] theorem setNco_out (s : State) (r : NcoRegs) : (s.setNco r).out = s.out := rfl
@[simp] theorem setNco_fault (s : State) (r : NcoRegs) : (s.setNco r).fault = s.fault := rfl
@[simp] theorem setNco_input (s : State) (r : NcoRegs) : (s.setNco r).input = s.input := rfl
@[simp] theorem setNco_ret (s : State) (r : NcoRegs) : (s.setNco r).ret = s.ret := rfl
@[simp] theorem setNco_draw (s : State) (r : NcoRegs) : (s.setNco r).draw = s.draw := rfl

@[simp] theorem setTrk_cfg (s : State) (r : TrackRegs) : (s.setTrk r).cfg = s.cfg := rfl
@[simp] theorem setTrk_nco (s : State) (r : TrackRegs) : (s.setTrk r).nco = s.nco := rfl
@[simp] theorem setTrk_lpfM (s : State) (r : TrackRegs) : (s.setTrk r).lpfM = s.lpfM := rfl
@[simp] theorem setTrk_lpfS (s : State) (r : TrackRegs) : (s.setTrk r).lpfS = s.lpfS := rfl
@[simp] theorem setTrk_trk (s : State) (r : TrackRegs) : (s.setTrk r).trk = r := rfl
@[simp] theorem setTrk_sync (s : State) (r : TrackRegs) : (s.setTrk r).sync = s.sync := rfl
@[simp] theorem setTrk_rx (s : State) (r : TrackRegs) : (s.setTrk r).rx = s.rx := rfl
@[simp] theorem setTrk_out (s : State) (r : TrackRegs) : (s.setTrk r).out = s.out := rfl
@[simp] theorem setTrk_fault (s : State) (r : TrackRegs) : (s.setTrk r).fault = s.fault := rfl
@[simp] theorem setTrk_input (s : State) (r : TrackRegs) : (s.setTrk r).input = s.input := rfl
@[simp] theorem setTrk_ret (s : State) (r : TrackRegs) : (s.setTrk r).ret = s.ret := rfl
@[simp] theorem setTrk_draw (s : State) (r : TrackRegs) : (s.setTrk r).draw = s.draw := rfl

@[simp] theorem setSync_cfg (s : State) (r : SyncRegs) : (s.setSync r).cfg = s.cfg := rfl
@[simp] theorem setSync_nco (s : State) (r : SyncRegs) : (s.setSync r).nco = s.nco := rfl
@[simp] theorem setSync_lpfM (s : State) (r : SyncRegs) : (s.setSync r).lpfM = s.lpfM := rfl
@[simp] theorem setSync_lpfS (s : State) (r : SyncRegs) : (s.setSync r).lpfS = s.lpfS := rfl
@[simp] theorem setSync_trk (s : State) (r : SyncRegs) : (s.setSync r).trk = s.trk := rfl
@[simp] theorem setSync_sync (s : State) (r : SyncRegs) : (s.setSync r).sync = r := rfl
@[simp] theorem setSync_rx (s : State) (r : SyncRegs) : (s.setSync r).rx = s.rx := rfl
@[simp] theorem setSync_out (s : State) (r : SyncRegs) : (s.setSync r).out = s.out := rfl
@[simp] theorem setSync_fault (s : State) (r : SyncRegs) : (s.setSync r).fault = s.fault := rfl
@[simp] theorem setSync_input (s : State) (r : SyncRegs) : (s.setSync r).input = s.input := rfl
@[simp] theorem setSync_ret (s : State) (r : SyncRegs) : (s.setSync r).ret = s.ret := rfl
@[simp] theorem setSync_draw (s : State) (r : SyncRegs) : (s.setSync r).draw = s.draw := rfl

@[simp] theorem setRx_cfg (s : State) (r : RxRegs) : (s.setRx r).cfg = s.cfg := rfl
@[simp] theorem setRx_nco (s : State) (r : RxRegs) : (s.setRx r).nco = s.nco := rfl
@[simp] theorem setRx_lpfM (s : State) (r : RxRegs) : (s.setRx r).lpfM = s.lpfM := rfl
@[simp] theorem setRx_lpfS (s : State) (r : RxRegs) : (s.setRx r).lpfS = s.lpfS := rfl
@[simp] theorem setRx_trk (s : State) (r : RxRegs) : (s.setRx r).trk = s.trk := rfl
@[simp] theorem setRx_sync (s : State) (r : RxRegs) : (s.setRx r).sync = s.sync := rfl
@[simp] theorem setRx_rx (s : State) (r : RxRegs) : (s.setRx r).rx = r := rfl
@[simp] theorem setRx_out (s : State) (r : RxRegs) : (s.setRx r).out = s.out := rfl
@[simp] theorem setRx_fault (s : State) (r : RxRegs) : (s.setRx r).fault = s.fault := rfl
@[simp] theorem setRx_input (s : State) (r : RxRegs) : (s.setRx r).input = s.input := rfl
@[simp] theorem setRx_ret (s : State) (r : RxRegs) : (s.setRx r).ret = s.ret := rfl
@[simp] theorem setRx_draw (s : State) (r : RxRegs) : (s.setRx r).draw = s.draw := rfl

@[simp] theorem setRet_cfg (s : State) (r : Ret) : (s.setRet r).cfg = s.cfg := rfl
@[simp] theorem setRet_nco (s : State) (r : Ret) : (s.setRet r).nco = s.nco := rfl
@[simp] theorem setRet_lpfM (s : State) (r : Ret) : (s.setRet r).lpfM = s.lpfM := rfl
@[simp] theorem setRet_lpfS (s : State) (r : Ret) : (s.setRet r).lpfS = s.lpfS := rfl
@[simp] theorem setRet_trk (s : State) (r : Ret) : (s.setRet r).trk = s.trk := rfl
@[simp] theorem setRet_sync (s : State) (r : Ret) : (s.setRet r).sync = s.sync := rfl
@[simp] theorem setRet_rx (s : State) (r : Ret) : (s.setRet r).rx = s.rx := rfl
@[simp] theorem setRet_out (s : State) (r : Ret) : (s.setRet r).out = s.out := rfl
@[simp] theorem setRet_fault (s : State) (r : Ret) : (s.setRet r).fault = s.fault := rfl
@[simp] theorem setRet_input (s : State) (r : Ret) : (s.setRet r).input = s.input := rfl
@[simp] theorem setRet_ret (s : State) (r : Ret) : (s.setRet r).ret = r := rfl
@[simp] theorem setRet_draw (s : State) (r : Ret) : (s.setRet r).draw = s.draw := rfl

@[simp] theorem setFault_cfg (s : State) (e : FaultRec) : (s.setFault e).cfg = s.cfg := rfl
@[simp] theorem setFault_nco (s : State) (e : FaultRec) : (s.setFault e).nco = s.nco := rfl
@[simp] theorem setFault_lpfM (s : State) (e : FaultRec) : (s.setFault e).lpfM = s.lpfM := rfl
@[simp] theorem setFault_lpfS (s : State) (e : FaultRec) : (s.setFault e).lpfS = s.lpfS := rfl
@[simp] theorem setFault_trk (s : State) (e : FaultRec) : (s.setFault e).trk = s.trk := rfl
@[simp] theorem setFault_sync (s : State) (e : FaultRec) : (s.setFault e).sync = s.sync := rfl
@[simp] theorem setFault_rx (s : State) (e : FaultRec) : (s.setFault e).rx = s.rx := rfl
@[simp] theorem setFault_out (s : State) (e : FaultRec) : (s.setFault e).out = s.out := rfl
@[simp] theorem setFault_fault (s : State) (e : FaultRec) : (s.setFault e).fault = some e := rfl
@[simp] theorem setFault_input (s : State) (e : FaultRec) : (s.setFault e).input = s.input := rfl
@[simp] theorem setFault_ret (s : State) (e : FaultRec) : (s.setFault e).ret = s.ret := rfl
@[simp] theorem setFault_draw (s : State) (e : FaultRec) : (s.setFault e).draw = s.draw := rfl

@[simp] theorem setInput_cfg (s : State) (l : List HostEvent) : (s.setInput l).cfg = s.cfg := rfl
@[simp] theorem setInput_nco (s : State) (l : List HostEvent) : (s.setInput l).nco = s.nco := rfl
@[simp] theorem setInput_lpfM (s : State) (l : List HostEvent) : (s.setInput l).lpfM = s.lpfM := rfl
@[simp] theorem setInput_lpfS (s : State) (l : List HostEvent) : (s.setInput l).lpfS = s.lpfS := rfl
@[simp] theorem setInput_trk (s : State) (l : List HostEvent) : (s.setInput l).trk = s.trk := rfl
@[simp] theorem setInput_sync (s : State) (l : List HostEvent) : (s.setInput l).sync = s.sync := rfl
@[simp] theorem setInput_rx (s : State) (l : List HostEvent) : (s.setInput l).rx = s.rx := rfl
@[simp] theorem setInput_out (s : State) (l : List HostEvent) : (s.setInput l).out = s.out := rfl
@[simp] theorem setInput_fault (s : State) (l : List HostEvent) : (s.setInput l).fault = s.fault := rfl
@[simp] theorem setInput_input (s : State) (l : List HostEvent) : (s.setInput l).input = l := rfl
@[simp] theorem setInput_ret (s : State) (l : List HostEvent) : (s.setInput l).ret = s.ret := rfl
@[simp] theorem setInput_draw (s : State) (l : List HostEvent) : (s.setInput l).draw = s.draw := rfl

@[simp] theorem emit_cfg (s : State) (r : Rec16) : (s.emit r).cfg = s.cfg := rfl
@[simp] theorem emit_nco (s : State) (r : Rec16) : (s.emit r).nco = s.nco := rfl
@[simp] theorem emit_lpfM (s : State) (r : Rec16) : (s.emit r).lpfM = s.lpfM := rfl
@[simp] theorem emit_lpfS (s : State) (r : Rec16) : (s.emit r).lpfS = s.lpfS := rfl
@[simp] theorem emit_trk (s : State) (r : Rec16) : (s.emit r).trk = s.trk := rfl
@[simp] theorem emit_sync (s : State) (r : Rec16) : (s.emit r).sync = s.sync := rfl
@[simp] theorem emit_rx (s : State) (r : Rec16) : (s.emit r).rx = s.rx := rfl
@[simp] theorem emit_out (s : State) (r : Rec16) : (s.emit r).out = s.out ++ [r] := rfl
@[simp] theorem emit_fault (s : State) (r : Rec16) : (s.emit r).fault = s.fault := rfl
@[simp] theorem emit_input (s : State) (r : Rec16) : (s.emit r).input = s.input := rfl
@[simp] theorem emit_ret (s : State) (r : Rec16) : (s.emit r).ret = s.ret := rfl
@[simp] theorem emit_draw (s : State) (r : Rec16) : (s.emit r).draw = s.draw := rfl

@[simp] theorem drain_cfg (s : State) : s.drain.cfg = s.cfg := rfl
@[simp] theorem drain_nco (s : State) : s.drain.nco = s.nco := rfl
@[simp] theorem drain_lpfM (s : State) : s.drain.lpfM = s.lpfM := rfl
@[simp] theorem drain_lpfS (s : State) : s.drain.lpfS = s.lpfS := rfl
@[simp] theorem drain_trk (s : State) : s.drain.trk = s.trk := rfl
@[simp] theorem drain_sync (s : State) : s.drain.sync = s.sync := rfl
@[simp] theorem drain_rx (s : State) : s.drain.rx = s.rx := rfl
@[simp] theorem drain_out (s : State) : s.drain.out = s.out.tail := rfl
@[simp] theorem drain_fault (s : State) : s.drain.fault = s.fault := rfl
@[simp] theorem drain_input (s : State) : s.drain.input = s.input := rfl
@[simp] theorem drain_ret (s : State) : s.drain.ret = s.ret := rfl
@[simp] theorem drain_draw (s : State) : s.drain.draw = s.draw := rfl

@[simp] theorem setFilter_mark_cfg (s : State) (f : Filter) : (s.setFilter .mark f).cfg = s.cfg := rfl
@[simp] theorem setFilter_mark_nco (s : State) (f : Filter) : (s.setFilter .mark f).nco = s.nco := rfl
@[simp] theorem setFilter_mark_lpfM (s : State) (f : Filter) : (s.setFilter .mark f).lpfM = f := rfl
@[simp] theorem setFilter_mark_lpfS (s : State) (f : Filter) : (s.setFilter .mark f).lpfS = s.lpfS := rfl
@[simp] theorem setFilter_mark_trk (s : State) (f : Filter) : (s.setFilter .mark f).trk = s.trk := rfl
@[simp] theorem setFilter_mark_sync (s : State) (f : Filter) : (s.setFilter .mark f).sync = s.sync := rfl
@[simp] theorem setFilter_mark_rx (s : State) (f : Filter) : (s.setFilter .mark f).rx = s.rx := rfl
@[simp] theorem setFilter_mark_out (s : State) (f : Filter) : (s.setFilter .mark f).out = s.out := rfl
@[simp] theorem setFilter_mark_fault (s : State) (f : Filter) : (s.setFilter .mark f).fault = s.fault := rfl
@[simp] theorem setFilter_mark_input (s : State) (f : Filter) : (s.setFilter .mark f).input = s.input := rfl
@[simp] theorem setFilter_mark_ret (s : State) (f : Filter) : (s.setFilter .mark f).ret = s.ret := rfl
@[simp] theorem setFilter_mark_draw (s : State) (f : Filter) : (s.setFilter .mark f).draw = s.draw := rfl

@[simp] theorem setFilter_space_cfg (s : State) (f : Filter) : (s.setFilter .space f).cfg = s.cfg := rfl
@[simp] theorem setFilter_space_nco (s : State) (f : Filter) : (s.setFilter .space f).nco = s.nco := rfl
@[simp] theorem setFilter_space_lpfM (s : State) (f : Filter) : (s.setFilter .space f).lpfM = s.lpfM := rfl
@[simp] theorem setFilter_space_lpfS (s : State) (f : Filter) : (s.setFilter .space f).lpfS = f := rfl
@[simp] theorem setFilter_space_trk (s : State) (f : Filter) : (s.setFilter .space f).trk = s.trk := rfl
@[simp] theorem setFilter_space_sync (s : State) (f : Filter) : (s.setFilter .space f).sync = s.sync := rfl
@[simp] theorem setFilter_space_rx (s : State) (f : Filter) : (s.setFilter .space f).rx = s.rx := rfl
@[simp] theorem setFilter_space_out (s : State) (f : Filter) : (s.setFilter .space f).out = s.out := rfl
@[simp] theorem setFilter_space_fault (s : State) (f : Filter) : (s.setFilter .space f).fault = s.fault := rfl
@[simp] theorem setFilter_space_input (s : State) (f : Filter) : (s.setFilter .space f).input = s.input := rfl
@[simp] theorem setFilter_space_ret (s : State) (f : Filter) : (s.setFilter .space f).ret = s.ret := rfl
@[simp] theorem setFilter_space_draw (s : State) (f : Filter) : (s.setFilter .space f).draw = s.draw := rfl

@[simp] theorem filter_mark (s : State) : s.filter .mark = s.lpfM := rfl
@[simp] theorem filter_space (s : State) : s.filter .space = s.lpfS := rfl
@[simp] theorem phase_mark (s : State) : s.phase .mark = s.nco.phaseM := rfl
@[simp] theorem phase_space (s : State) : s.phase .space = s.nco.phaseS := rfl

/-- Writing one branch's filter leaves every other group alone. -/
theorem setFilter_frame (s : State) (br : Branch) (f : Filter) :
    (s.setFilter br f).cfg = s.cfg ∧ (s.setFilter br f).nco = s.nco ∧ (s.setFilter br f).trk = s.trk ∧
      (s.setFilter br f).sync = s.sync ∧ (s.setFilter br f).rx = s.rx ∧ (s.setFilter br f).out = s.out ∧
      (s.setFilter br f).fault = s.fault ∧ (s.setFilter br f).input = s.input ∧
      (s.setFilter br f).ret = s.ret ∧ (s.setFilter br f).draw = s.draw := by
  cases br <;> simp

@[simp] theorem setFilter_fault (s : State) (br : Branch) (f : Filter) :
    (s.setFilter br f).fault = s.fault := by cases br <;> rfl

@[simp] theorem setFilter_filter (s : State) (br : Branch) (f : Filter) :
    (s.setFilter br f).filter br = f := by cases br <;> rfl

@[simp] theorem setAlphaPhase_rx (s : State) (v : Bool) :
    (s.setAlphaPhase v).rx = { s.rx with alphaPhase := v } := rfl
@[simp] theorem toggleAlphaPhase_rx (s : State) :
    s.toggleAlphaPhase.rx = { s.rx with alphaPhase := !s.rx.alphaPhase } := rfl
@[simp] theorem setShift_rx (s : State) (v : Bool) : (s.setShift v).rx = { s.rx with shift := v } := rfl
@[simp] theorem setRxState_rx (s : State) (v : BitVec 2) :
    (s.setRxState v).rx = { s.rx with rxState := v } := rfl

@[simp] theorem setAlphaPhase_cfg (s : State) (v : Bool) : (s.setAlphaPhase v).cfg = s.cfg := rfl
@[simp] theorem setAlphaPhase_nco (s : State) (v : Bool) : (s.setAlphaPhase v).nco = s.nco := rfl
@[simp] theorem setAlphaPhase_lpfM (s : State) (v : Bool) : (s.setAlphaPhase v).lpfM = s.lpfM := rfl
@[simp] theorem setAlphaPhase_lpfS (s : State) (v : Bool) : (s.setAlphaPhase v).lpfS = s.lpfS := rfl
@[simp] theorem setAlphaPhase_trk (s : State) (v : Bool) : (s.setAlphaPhase v).trk = s.trk := rfl
@[simp] theorem setAlphaPhase_sync (s : State) (v : Bool) : (s.setAlphaPhase v).sync = s.sync := rfl
@[simp] theorem setAlphaPhase_out (s : State) (v : Bool) : (s.setAlphaPhase v).out = s.out := rfl
@[simp] theorem setAlphaPhase_fault (s : State) (v : Bool) : (s.setAlphaPhase v).fault = s.fault := rfl
@[simp] theorem setAlphaPhase_input (s : State) (v : Bool) : (s.setAlphaPhase v).input = s.input := rfl
@[simp] theorem setAlphaPhase_ret (s : State) (v : Bool) : (s.setAlphaPhase v).ret = s.ret := rfl
@[simp] theorem setAlphaPhase_draw (s : State) (v : Bool) : (s.setAlphaPhase v).draw = s.draw := rfl
@[simp] theorem setShift_cfg (s : State) (v : Bool) : (s.setShift v).cfg = s.cfg := rfl
@[simp] theorem setShift_nco (s : State) (v : Bool) : (s.setShift v).nco = s.nco := rfl
@[simp] theorem setShift_lpfM (s : State) (v : Bool) : (s.setShift v).lpfM = s.lpfM := rfl
@[simp] theorem setShift_lpfS (s : State) (v : Bool) : (s.setShift v).lpfS = s.lpfS := rfl
@[simp] theorem setShift_trk (s : State) (v : Bool) : (s.setShift v).trk = s.trk := rfl
@[simp] theorem setShift_sync (s : State) (v : Bool) : (s.setShift v).sync = s.sync := rfl
@[simp] theorem setShift_out (s : State) (v : Bool) : (s.setShift v).out = s.out := rfl
@[simp] theorem setShift_fault (s : State) (v : Bool) : (s.setShift v).fault = s.fault := rfl
@[simp] theorem setShift_input (s : State) (v : Bool) : (s.setShift v).input = s.input := rfl
@[simp] theorem setShift_ret (s : State) (v : Bool) : (s.setShift v).ret = s.ret := rfl
@[simp] theorem setShift_draw (s : State) (v : Bool) : (s.setShift v).draw = s.draw := rfl
@[simp] theorem setRxState_cfg (s : State) (v : BitVec 2) : (s.setRxState v).cfg = s.cfg := rfl
@[simp] theorem setRxState_nco (s : State) (v : BitVec 2) : (s.setRxState v).nco = s.nco := rfl
@[simp] theorem setRxState_lpfM (s : State) (v : BitVec 2) : (s.setRxState v).lpfM = s.lpfM := rfl
@[simp] theorem setRxState_lpfS (s : State) (v : BitVec 2) : (s.setRxState v).lpfS = s.lpfS := rfl
@[simp] theorem setRxState_trk (s : State) (v : BitVec 2) : (s.setRxState v).trk = s.trk := rfl
@[simp] theorem setRxState_sync (s : State) (v : BitVec 2) : (s.setRxState v).sync = s.sync := rfl
@[simp] theorem setRxState_out (s : State) (v : BitVec 2) : (s.setRxState v).out = s.out := rfl
@[simp] theorem setRxState_fault (s : State) (v : BitVec 2) : (s.setRxState v).fault = s.fault := rfl
@[simp] theorem setRxState_input (s : State) (v : BitVec 2) : (s.setRxState v).input = s.input := rfl
@[simp] theorem setRxState_ret (s : State) (v : BitVec 2) : (s.setRxState v).ret = s.ret := rfl
@[simp] theorem setRxState_draw (s : State) (v : BitVec 2) : (s.setRxState v).draw = s.draw := rfl
@[simp] theorem toggleAlphaPhase_cfg (s : State) : s.toggleAlphaPhase.cfg = s.cfg := rfl
@[simp] theorem toggleAlphaPhase_nco (s : State) : s.toggleAlphaPhase.nco = s.nco := rfl
@[simp] theorem toggleAlphaPhase_lpfM (s : State) : s.toggleAlphaPhase.lpfM = s.lpfM := rfl
@[simp] theorem toggleAlphaPhase_lpfS (s : State) : s.toggleAlphaPhase.lpfS = s.lpfS := rfl
@[simp] theorem toggleAlphaPhase_trk (s : State) : s.toggleAlphaPhase.trk = s.trk := rfl
@[simp] theorem toggleAlphaPhase_sync (s : State) : s.toggleAlphaPhase.sync = s.sync := rfl
@[simp] theorem toggleAlphaPhase_out (s : State) : s.toggleAlphaPhase.out = s.out := rfl
@[simp] theorem toggleAlphaPhase_fault (s : State) : s.toggleAlphaPhase.fault = s.fault := rfl
@[simp] theorem toggleAlphaPhase_input (s : State) : s.toggleAlphaPhase.input = s.input := rfl
@[simp] theorem toggleAlphaPhase_ret (s : State) : s.toggleAlphaPhase.ret = s.ret := rfl
@[simp] theorem toggleAlphaPhase_draw (s : State) : s.toggleAlphaPhase.draw = s.draw := rfl

end State
end Machine
end Sys2Proof
end

