-- ==== Sys2Proof/Laws/Ops.lean ====
section
/-! SUPPORT. What each shared operation can do, said once: the checks of R232 and R234, taking a fault
(R231, R236), the end of a command, the buffer's reads and its shift-in (R61, R62). -/

namespace Sys2Proof
namespace Machine

/-! ## Checks -/

theorem chk_eq_ok_iff {k : StepId} {x y : F64} : chk k x = .ok y ↔ x.isFinite = true ∧ y = x := by
  unfold chk; split <;> simp [*, @eq_comm _ x y]

theorem chk_eq_error_iff {k : StepId} {x : F64} {e : FaultRec} :
    chk k x = .error e ↔ x.isFinite = false ∧ e = .numeric k := by
  unfold chk; split <;> simp [*, @eq_comm _ (FaultRec.numeric k) e]

@[simp] theorem chk_finite {k : StepId} {x : F64} (h : x.isFinite = true) : chk k x = .ok x := by
  simp [chk, h]

theorem chk_not_finite {k : StepId} {x : F64} (h : x.isFinite = false) :
    chk k x = .error (.numeric k) := by simp [chk, h]

theorem fitsI64_iff {n : Int} : fitsI64 n = true ↔ -(2 ^ 63 : Int) ≤ n ∧ n < (2 ^ 63 : Int) := by
  simp [fitsI64]

theorem toI64_eq_ok_iff {k : StepId} {n : Int} {x : I64} :
    toI64 k n = .ok x ↔ fitsI64 n = true ∧ x = BitVec.ofInt 64 n := by
  unfold toI64; split <;> simp [*, @eq_comm _ (BitVec.ofInt 64 n) x]

/-- A checked write keeps the exact integer. -/
theorem toI64_toInt {k : StepId} {n : Int} {x : I64} (h : toI64 k n = .ok x) : x.toInt = n := by
  obtain ⟨hf, rfl⟩ := toI64_eq_ok_iff.mp h
  obtain ⟨h1, h2⟩ := fitsI64_iff.mp hf
  exact BitVec.toInt_ofInt_eq_self (by norm_num) (by norm_num; omega) (by norm_num; omega)

theorem toI64_error {k : StepId} {n : Int} (h : fitsI64 n = false) : toI64 k n = .error (.intRange k) := by
  simp [toI64, h]

theorem toUnsigned_eq_ok_iff {k : StepId} {w : Nat} {n : Int} {x : BitVec w} :
    toUnsigned k w n = .ok x ↔ (0 ≤ n ∧ n < 2 ^ w) ∧ x = BitVec.ofInt w n := by
  unfold toUnsigned; split <;> simp [*, @eq_comm _ (BitVec.ofInt w n) x]

/-- A checked write keeps the exact integer. -/
theorem toUnsigned_toNat {k : StepId} {w : Nat} {n : Int} {x : BitVec w}
    (h : toUnsigned k w n = .ok x) : (x.toNat : Int) = n := by
  obtain ⟨⟨h0, h1⟩, rfl⟩ := toUnsigned_eq_ok_iff.mp h
  obtain ⟨m, rfl⟩ := Int.eq_ofNat_of_zero_le h0
  simp [Int.emod_eq_of_lt, h0, h1]

/-! ## Faults and the end of a command -/

theorem raise_precise {s : State} {e : FaultRec} (h : e.precise = true) : s.raise e = s.setFault e := by
  simp [State.raise, h]

/-- A fault taken is recorded, whatever it is. -/
@[simp] theorem raise_fault (s : State) (e : FaultRec) : (s.raise e).fault = some e := by
  unfold State.raise; split <;> rfl

/-- Taking a fault leaves the host's pending events and the model's `ret` alone. -/
@[simp] theorem raise_input (s : State) (e : FaultRec) : (s.raise e).input = s.input := by
  unfold State.raise; split <;> rfl
@[simp] theorem raise_ret (s : State) (e : FaultRec) : (s.raise e).ret = s.ret := by
  unfold State.raise; split <;> rfl

theorem finish_faulted {s : State} {r : Except FaultRec State} {e : FaultRec} (h : s.fault = some e) :
    s.finish r = s := by simp [State.finish, h]

@[simp] theorem finish_ok {s t : State} (h : s.fault = none) : s.finish (.ok t) = t := by
  simp [State.finish, h]

@[simp] theorem finish_error {s : State} {e : FaultRec} (h : s.fault = none) :
    s.finish (.error e) = s.raise e := by simp [State.finish, h]

/-- Everything the end of a command can be. -/
theorem finish_cases {s t : State} {r : Except FaultRec State} (h : s.finish r = t) :
    (s.fault.isSome = true ∧ t = s) ∨ (s.fault = none ∧ r = .ok t) ∨
      (∃ e, s.fault = none ∧ r = .error e ∧ t = s.raise e) := by
  unfold State.finish at h
  split at h
  · exact .inl ⟨‹_›, h.symm⟩
  · have hn : s.fault = none := by cases hf : s.fault <;> simp_all
    split at h
    · exact .inr (.inl ⟨hn, by rw [h]⟩)
    · exact .inr (.inr ⟨_, hn, rfl, h.symm⟩)

/-- A command that ends without a fault had none and computed its state. -/
theorem finish_live {s t : State} {r : Except FaultRec State} (h : s.finish r = t) (ht : t.fault = none) :
    s.fault = none ∧ r = .ok t := by
  rcases finish_cases h with ⟨hs, rfl⟩ | h | ⟨e, _, _, rfl⟩
  · simp [ht] at hs
  · exact h
  · simp at ht

/-! ## When an event fires (R150) -/

@[simp] theorem fires_finite {k : StepId} {next t : F64} (h : t.isFinite = true) :
    fires k next t = .ok (F64.le next t) := by simp [fires, chk, h, Except.map]

theorem fires_not_finite {k : StepId} {next t : F64} (h : t.isFinite = false) :
    fires k next t = .error (.numeric k) := by simp [fires, chk, h, Except.map]

/-- LPF_PUSH of a pair that is not finite (R234, log entry 13). -/
theorem lpfPush_not_finite {c : Config} {f : Filter} {u : Cplx} (h : u.isFinite = false) :
    lpfPush c f u = .error (.numeric .lpfPush) := by simp [lpfPush, h]

/-! ## The bit buffer -/

theorem memRead7_eq_ok_iff {k : StepId} {b : BitBuf} {c : Int} {v : Soft7} :
    memRead7 k b c = .ok v ↔ (0 ≤ c ∧ c + 7 ≤ 100) ∧ v = soft7 fun i => b.entry (c.toNat + i) := by
  unfold memRead7; split <;> simp [*, @eq_comm _ _ v]

theorem memRead7_error {k : StepId} {b : BitBuf} {c : Int} (h : ¬(0 ≤ c ∧ c + 7 ≤ 100)) :
    memRead7 k b c = .error (.intRange k) := by simp [memRead7, h]

@[simp] theorem soft7_toList (f : Nat → Int) :
    (soft7 f).toList = [f 0, f 1, f 2, f 3, f 4, f 5, f 6] := rfl

/-- R62: every entry moves one index toward the head and the new soft bit is at the tail. -/
theorem shiftIn_entry (b : BitBuf) (v : I64) (i : Nat) (h : i < 100) :
    (b.shiftIn v).entry i = if i = 99 then v.toInt else b.entry (i + 1) := by
  have hl : b.toList.length = 100 := by simp
  unfold BitBuf.entry BitBuf.shiftIn
  have : (⟨⟨b.toList.drop 1 ++ [v]⟩, by simp⟩ : BitBuf).toList = b.toList.drop 1 ++ [v] := rfl
  rw [this, List.getElem?_append]
  split
  · rename_i h1
    simp only [List.length_drop, hl] at h1
    rw [if_neg (by omega), List.getElem?_drop, Nat.add_comm]
  · rename_i h1
    simp only [List.length_drop, hl] at h1
    have : i = 99 := by omega
    subst this
    simp

@[simp] theorem zeros_entry (i : Nat) : BitBuf.zeros.entry i = 0 := by
  unfold BitBuf.entry BitBuf.zeros
  show ((List.replicate 100 0#64)[i]?.getD 0#64).toInt = 0
  rw [List.getElem?_replicate]
  split <;> rfl

/-! ## Codewords -/

@[simp] theorem processChar_frame (s : State) (code : Code7) (path : BitVec 3) :
    (processChar s code path).cfg = s.cfg ∧ (processChar s code path).nco = s.nco ∧
    (processChar s code path).lpfM = s.lpfM ∧ (processChar s code path).lpfS = s.lpfS ∧
    (processChar s code path).trk = s.trk ∧ (processChar s code path).sync = s.sync ∧
    (processChar s code path).fault = s.fault ∧ (processChar s code path).input = s.input ∧
    (processChar s code path).ret = s.ret ∧ (processChar s code path).draw = s.draw := by
  simp [processChar]

/-- PROCESS_CHAR writes no entry of the buffer, no cursor and no count. -/
theorem processChar_rx (s : State) (code : Code7) (path : BitVec 3) :
    (processChar s code path).rx.bitbuf = s.rx.bitbuf ∧
    (processChar s code path).rx.bitCursor = s.rx.bitCursor ∧
    (processChar s code path).rx.errorCount = s.rx.errorCount ∧
    (processChar s code path).rx.rxState = s.rx.rxState := by
  simp [processChar]

theorem processChar_out (s : State) (code : Code7) (path : BitVec 3) :
    (processChar s code path).out =
      s.out ++ [recordOf path (State.shiftAfter s.rx.shift code) code] := by
  simp [processChar]

theorem codeOfList_lt (l : List Int) : codeOfList l < 2 ^ l.length := by
  induction l with
  | nil => simp [codeOfList]
  | cons x xs ih => simp only [codeOfList, List.length_cons, pow_succ]; split <;> omega

/-- Bit k of the number is the sign of soft bit k (R170). -/
theorem codeOfList_testBit (l : List Int) (k : Nat) :
    (codeOfList l).testBit k = decide (0 < l[k]?.getD 0) := by
  induction l generalizing k with
  | nil => simp [codeOfList]
  | cons x xs ih =>
    cases k with
    | zero => simp only [codeOfList, Nat.testBit_zero]; split <;> simp_all
    | succ k =>
      simp only [codeOfList, Nat.testBit_succ]
      have : ((if 0 < x then 1 else 0) + 2 * codeOfList xs) / 2 = codeOfList xs := by split <;> omega
      rw [this, ih]; simp

/-! ## The wrap loop (R106) -/

/-- A phase that the wrap loop answers is not at or below -TWO_PI. -/
theorem wrapPhase_exit {fuel : Nat} {p q : F64} (h : wrapPhase fuel p = .ok q) :
    F64.le q F64.negTwoPi = false := by
  induction fuel generalizing p with
  | zero => simp [wrapPhase] at h
  | succ n ih =>
    rw [wrapPhase] at h
    split at h
    · dsimp only at h
      split at h
      · simp at h
      · exact ih h
    · rename_i hp
      have : p = q := by simpa using h
      subst this; simpa using hp

end Machine
end Sys2Proof
end

