-- ==== Sys2Proof/Laws/PerInstr.lean ====
section
/-! SUPPORT. Per-instruction families. `EncodesItsRow`: an instruction's encoding carries the match bits of
its row of `spec/opcode_table.json` (spec R81, R88). -/

namespace Sys2Proof
namespace Laws
namespace EncodesItsRow

/-- The step identifier of an internal operation; none for the two host commands. -/
def stepOf : Instr → Option StepId
  | .reset _ _ _ _ => none
  | .sample _ => none
  | .scale _ => some .scale
  | .mix _ _ => some .mix
  | .ncoAdv => some .ncoAdv
  | .lpfPush _ _ => some .lpfPush
  | .lpfBlock _ => some .lpfBlock
  | .mag _ => some .mag
  | .envUpd _ _ => some .envUpd
  | .noiseUpd _ _ => some .noiseUpd
  | .nfloor => some .nfloor
  | .clip _ _ _ => some .clip
  | .atc _ _ _ => some .atc
  | .softbit _ => some .softbit
  | .accum _ => some .accum
  | .cntInc => some .cntInc
  | .evtEarly _ => some .evtEarly
  | .evtLate _ => some .evtLate
  | .evtPrompt _ => some .evtPrompt
  | .realign _ => some .realign
  | .bitIn _ => some .bitIn
  | .smSyncSetup => some .smSyncSetup
  | .smSync => some .smSync
  | .smReadData => some .smReadData
  | .findAlpha => some .findAlpha
  | .bitsToCode _ => some .bitsToCode
  | .validChar _ => some .validChar
  | .processBytes _ => some .processBytes
  | .flipSmallest _ => some .flipSmallest
  | .processChar _ _ => some .processChar

/-- The CMD field of a host command (R81). -/
def cmdOf : Instr → BitVec 2
  | .reset _ _ _ _ => 1#2
  | _ => 2#2

def Statement (i : Instr) : Prop :=
  match encode i with
  | .command w => stepOf i = none ∧ w.extractLsb' 64 2 = cmdOf i
  | .stimulus id _ => ∃ k, stepOf i = some k ∧ id = k.code

theorem reset (fs : BitVec 32) (rv : Bool) (so : Bool) (res : BitVec 30) : Statement (.reset fs rv so res) := ⟨rfl, commandWord_cmd _ _⟩
theorem sample (x : F64) : Statement (.sample x) := ⟨rfl, commandWord_cmd _ _⟩
theorem scale (x : F64) : Statement (.scale x) := ⟨_, rfl, rfl⟩
theorem mix (br : Branch) (z : Cplx) : Statement (.mix br z) := ⟨_, rfl, rfl⟩
theorem ncoAdv : Statement .ncoAdv := ⟨_, rfl, rfl⟩
theorem lpfPush (br : Branch) (u : Cplx) : Statement (.lpfPush br u) := ⟨_, rfl, rfl⟩
theorem lpfBlock (br : Branch) : Statement (.lpfBlock br) := ⟨_, rfl, rfl⟩
theorem mag (y : Cplx) : Statement (.mag y) := ⟨_, rfl, rfl⟩
theorem envUpd (m : F64) (sp : F64) : Statement (.envUpd m sp) := ⟨_, rfl, rfl⟩
theorem noiseUpd (m : F64) (sp : F64) : Statement (.noiseUpd m sp) := ⟨_, rfl, rfl⟩
theorem nfloor : Statement .nfloor := ⟨_, rfl, rfl⟩
theorem clip (m : F64) (sp : F64) (nf : F64) : Statement (.clip m sp nf) := ⟨_, rfl, rfl⟩
theorem atc (mc : F64) (sc : F64) (nf : F64) : Statement (.atc mc sc nf) := ⟨_, rfl, rfl⟩
theorem softbit (l : F64) : Statement (.softbit l) := ⟨_, rfl, rfl⟩
theorem accum (b : Int) : Statement (.accum b) := ⟨_, rfl, rfl⟩
theorem cntInc : Statement .cntInc := ⟨_, rfl, rfl⟩
theorem evtEarly (t : F64) : Statement (.evtEarly t) := ⟨_, rfl, rfl⟩
theorem evtLate (t : F64) : Statement (.evtLate t) := ⟨_, rfl, rfl⟩
theorem evtPrompt (t : F64) : Statement (.evtPrompt t) := ⟨_, rfl, rfl⟩
theorem realign (t : F64) : Statement (.realign t) := ⟨_, rfl, rfl⟩
theorem bitIn (v : Int) : Statement (.bitIn v) := ⟨_, rfl, rfl⟩
theorem smSyncSetup : Statement .smSyncSetup := ⟨_, rfl, rfl⟩
theorem smSync : Statement .smSync := ⟨_, rfl, rfl⟩
theorem smReadData : Statement .smReadData := ⟨_, rfl, rfl⟩
theorem findAlpha : Statement .findAlpha := ⟨_, rfl, rfl⟩
theorem bitsToCode (v : Soft7) : Statement (.bitsToCode v) := ⟨_, rfl, rfl⟩
theorem validChar (v : Soft7) : Statement (.validChar v) := ⟨_, rfl, rfl⟩
theorem processBytes (c : BitVec 7) : Statement (.processBytes c) := ⟨_, rfl, rfl⟩
theorem flipSmallest (v : Soft7) : Statement (.flipSmallest v) := ⟨_, rfl, rfl⟩
theorem processChar (code : Code7) (path : BitVec 3) : Statement (.processChar code path) := ⟨_, rfl, rfl⟩

end EncodesItsRow
end Laws
end Sys2Proof
end

