-- ==== Sys2Proof/Tests/Slice0.lean ====
section
/-! SUPPORT. Tests. Expected values are the spec's own: the words of 30_encoding.md R80 to R88 and the vectors of
95_test_vectors.md, named in each docstring. After them, a witness for the hypotheses of every statement. -/

open Sys2Proof Sys2Proof.Machine Sys2Proof.Claims

namespace Sys2Proof
namespace Tests

set_option Elab.async false

/-! ## Decoding: words and bytes written out from R80 to R88, one for each operation -/

/-- T-FE-1, row 1: bytes 11 2B 00 00 00 00 00 00 01. -/
theorem test_decode_reset :
    (deserialise [0x11#8, 0x2B#8, 0#8, 0#8, 0#8, 0#8, 0#8, 0#8, 0x01#8]).map decodeCommand =
      some (.ok (.reset 11025#32 false false 0#30)) := by decide +kernel

/-- T-FE-1, rows 2 and 4: `ONLY_SITOR_B` is bit 33 and `REVERSE` bit 32. -/
theorem test_decode_reset_flags :
    (deserialise [0x11#8, 0x2B#8, 0#8, 0#8, 2#8, 0#8, 0#8, 0#8, 0x01#8]).map decodeCommand =
      some (.ok (.reset 11025#32 false true 0#30)) ∧
    (deserialise [0x40#8, 0x1F#8, 0#8, 0#8, 1#8, 0#8, 0#8, 0#8, 0x01#8]).map decodeCommand =
      some (.ok (.reset 8000#32 true false 0#30)) := by decide +kernel

/-- T-FE-2: `SAMPLE -0.5` is E0 BF in the top bytes, CMD 0b10. -/
theorem test_decode_sample :
    (deserialise [0#8, 0#8, 0#8, 0#8, 0#8, 0#8, 0xE0#8, 0xBF#8, 0x02#8]).map decodeCommand =
      some (.ok (.sample ⟨0xBFE0000000000000#64⟩)) := by decide +kernel

/-- T-EXC-2, T-EXC-3: CMD 0b00 and 0b11 are illegal (R84). -/
theorem test_decode_illegal :
    decode (.command 0x00000000000000007#66) = .error (.illegalCommand 0#2) ∧
    decode (.command 0x30000000000000000#66) = .error (.illegalCommand 3#2) := by decide +kernel

theorem test_decode_scale : decode (.stimulus 0x01#8 [0x00#8, 0x00#8, 0x00#8, 0x00#8, 0x00#8, 0x00#8, 0xE0#8, 0x3F#8]) = .ok (.scale ⟨0x3FE0000000000000#64⟩) := by decide +kernel

theorem test_decode_mix :
    decode (.stimulus 0x02#8 [0x01#8, 0x00#8, 0x00#8, 0x00#8, 0x00#8, 0x00#8, 0x00#8, 0xF0#8, 0x3F#8, 0x00#8, 0x00#8, 0x00#8, 0x00#8, 0x00#8, 0x00#8, 0x00#8, 0xC0#8]) =
      .ok (.mix .space ⟨⟨0x3FF0000000000000#64⟩, ⟨0xC000000000000000#64⟩⟩) := by decide +kernel

theorem test_decode_ncoAdv : decode (.stimulus 0x03#8 []) = .ok .ncoAdv := by decide +kernel

theorem test_decode_lpfPush :
    decode (.stimulus 0x04#8 [0x00#8, 0x00#8, 0x00#8, 0x00#8, 0x00#8, 0x00#8, 0x00#8, 0xF0#8, 0x3F#8, 0x00#8, 0x00#8, 0x00#8, 0x00#8, 0x00#8, 0x00#8, 0x00#8, 0xC0#8]) =
      .ok (.lpfPush .mark ⟨⟨0x3FF0000000000000#64⟩, ⟨0xC000000000000000#64⟩⟩) := by decide +kernel

theorem test_decode_lpfBlock : decode (.stimulus 0x05#8 [0x01#8]) = .ok (.lpfBlock .space) := by
  decide +kernel

theorem test_decode_mag :
    decode (.stimulus 0x10#8 [0x00#8, 0x00#8, 0x00#8, 0x00#8, 0x00#8, 0x00#8, 0x08#8, 0x40#8, 0x00#8, 0x00#8, 0x00#8, 0x00#8, 0x00#8, 0x00#8, 0x10#8, 0x40#8]) = .ok (.mag ⟨⟨0x4008000000000000#64⟩, ⟨0x4010000000000000#64⟩⟩) := by decide +kernel

theorem test_decode_envUpd :
    decode (.stimulus 0x11#8 [0x00#8, 0x00#8, 0x00#8, 0x00#8, 0x00#8, 0x00#8, 0x59#8, 0x40#8, 0x00#8, 0x00#8, 0x00#8, 0x00#8, 0x00#8, 0x00#8, 0xE0#8, 0x3F#8]) = .ok (.envUpd ⟨0x4059000000000000#64⟩ ⟨0x3FE0000000000000#64⟩) := by decide +kernel

theorem test_decode_noiseUpd :
    decode (.stimulus 0x12#8 [0x00#8, 0x00#8, 0x00#8, 0x00#8, 0x00#8, 0x00#8, 0x59#8, 0x40#8, 0x00#8, 0x00#8, 0x00#8, 0x00#8, 0x00#8, 0x00#8, 0xE0#8, 0x3F#8]) = .ok (.noiseUpd ⟨0x4059000000000000#64⟩ ⟨0x3FE0000000000000#64⟩) := by
  decide +kernel

theorem test_decode_nfloor : decode (.stimulus 0x13#8 []) = .ok .nfloor := by decide +kernel

theorem test_decode_clip :
    decode (.stimulus 0x14#8 [0x00#8, 0x00#8, 0x00#8, 0x00#8, 0x00#8, 0xC0#8, 0x62#8, 0x40#8, 0x00#8, 0x00#8, 0x00#8, 0x00#8, 0x00#8, 0x80#8, 0x46#8, 0x40#8, 0x00#8, 0x00#8, 0x00#8, 0x00#8, 0x00#8, 0x00#8, 0x49#8, 0x40#8]) =
      .ok (.clip ⟨0x4062C00000000000#64⟩ ⟨0x4046800000000000#64⟩ ⟨0x4049000000000000#64⟩) := by decide +kernel

theorem test_decode_atc :
    decode (.stimulus 0x15#8 [0x00#8, 0x00#8, 0x00#8, 0x00#8, 0x00#8, 0x00#8, 0x59#8, 0x40#8, 0x00#8, 0x00#8, 0x00#8, 0x00#8, 0x00#8, 0x00#8, 0x34#8, 0x40#8, 0x00#8, 0x00#8, 0x00#8, 0x00#8, 0x00#8, 0x00#8, 0x24#8, 0x40#8]) =
      .ok (.atc ⟨0x4059000000000000#64⟩ ⟨0x4034000000000000#64⟩ ⟨0x4024000000000000#64⟩) := by decide +kernel

theorem test_decode_softbit : decode (.stimulus 0x16#8 [0x85#8, 0xEB#8, 0x51#8, 0xB8#8, 0x1E#8, 0x85#8, 0xFB#8, 0xBF#8]) = .ok (.softbit ⟨0xBFFB851EB851EB85#64⟩) := by
  decide +kernel

theorem test_decode_accum : decode (.stimulus 0x17#8 [0x00#8, 0xFE#8, 0xFF#8, 0xFF#8, 0xFF#8, 0xFF#8, 0xFF#8, 0xFF#8, 0xFF#8]) = .ok (.accum (-2)) := by decide +kernel

theorem test_decode_cntInc : decode (.stimulus 0x18#8 []) = .ok .cntInc := by decide +kernel

theorem test_decode_evtEarly : decode (.stimulus 0x20#8 [0x00#8, 0x00#8, 0x00#8, 0x00#8, 0x00#8, 0xC0#8, 0x5B#8, 0x40#8]) = .ok (.evtEarly ⟨0x405BC00000000000#64⟩) := by
  decide +kernel

theorem test_decode_evtLate : decode (.stimulus 0x21#8 [0x00#8, 0x00#8, 0x00#8, 0x00#8, 0x00#8, 0x80#8, 0x46#8, 0x40#8]) = .ok (.evtLate ⟨0x4046800000000000#64⟩) := by
  decide +kernel

theorem test_decode_evtPrompt : decode (.stimulus 0x22#8 [0x00#8, 0x00#8, 0x00#8, 0x00#8, 0x00#8, 0x00#8, 0x37#8, 0x40#8]) = .ok (.evtPrompt ⟨0x4037000000000000#64⟩) := by
  decide +kernel

theorem test_decode_realign : decode (.stimulus 0x23#8 [0x00#8, 0x00#8, 0x00#8, 0x00#8, 0x00#8, 0x90#8, 0x8B#8, 0x40#8]) = .ok (.realign ⟨0x408B900000000000#64⟩) := by
  decide +kernel

theorem test_decode_bitIn : decode (.stimulus 0x30#8 [0x00#8, 0xF9#8, 0xFF#8, 0xFF#8, 0xFF#8, 0xFF#8, 0xFF#8, 0xFF#8, 0xFF#8]) = .ok (.bitIn (-7)) := by decide +kernel

theorem test_decode_smSyncSetup : decode (.stimulus 0x31#8 []) = .ok .smSyncSetup := by decide +kernel
theorem test_decode_smSync : decode (.stimulus 0x32#8 []) = .ok .smSync := by decide +kernel
theorem test_decode_smReadData : decode (.stimulus 0x33#8 []) = .ok .smReadData := by decide +kernel
theorem test_decode_findAlpha : decode (.stimulus 0x34#8 []) = .ok .findAlpha := by decide +kernel

theorem test_decode_bitsToCode :
    decode (.stimulus 0x35#8 [0x0A#8, 0x00#8, 0x00#8, 0x00#8, 0x00#8, 0x00#8, 0x00#8, 0x00#8, 0xF6#8, 0xFF#8, 0xFF#8, 0xFF#8, 0xFF#8, 0xFF#8, 0xFF#8, 0xFF#8, 0x0A#8, 0x00#8, 0x00#8, 0x00#8, 0x00#8, 0x00#8, 0x00#8, 0x00#8, 0xF6#8, 0xFF#8, 0xFF#8, 0xFF#8, 0xFF#8, 0xFF#8, 0xFF#8, 0xFF#8, 0x0A#8, 0x00#8, 0x00#8, 0x00#8, 0x00#8, 0x00#8, 0x00#8, 0x00#8, 0x0A#8, 0x00#8, 0x00#8, 0x00#8, 0x00#8, 0x00#8, 0x00#8, 0x00#8, 0xF6#8, 0xFF#8, 0xFF#8, 0xFF#8, 0xFF#8, 0xFF#8, 0xFF#8, 0xFF#8]) =
      .ok (.bitsToCode #v[10, -10, 10, -10, 10, 10, -10]) := by decide +kernel

theorem test_decode_validChar :
    decode (.stimulus 0x36#8 [0x01#8, 0x00#8, 0x00#8, 0x00#8, 0x00#8, 0x00#8, 0x00#8, 0x00#8, 0x02#8, 0x00#8, 0x00#8, 0x00#8, 0x00#8, 0x00#8, 0x00#8, 0x00#8, 0x03#8, 0x00#8, 0x00#8, 0x00#8, 0x00#8, 0x00#8, 0x00#8, 0x00#8, 0x04#8, 0x00#8, 0x00#8, 0x00#8, 0x00#8, 0x00#8, 0x00#8, 0x00#8, 0x05#8, 0x00#8, 0x00#8, 0x00#8, 0x00#8, 0x00#8, 0x00#8, 0x00#8, 0x06#8, 0x00#8, 0x00#8, 0x00#8, 0x00#8, 0x00#8, 0x00#8, 0x00#8, 0xF9#8, 0xFF#8, 0xFF#8, 0xFF#8, 0xFF#8, 0xFF#8, 0xFF#8, 0xFF#8]) =
      .ok (.validChar #v[1, 2, 3, 4, 5, 6, -7]) := by decide +kernel

theorem test_decode_processBytes : decode (.stimulus 0x40#8 [0x3C#8]) = .ok (.processBytes 60#7) := by
  decide +kernel

theorem test_decode_flipSmallest :
    decode (.stimulus 0x41#8 [0xFF#8, 0xFF#8, 0xFF#8, 0xFF#8, 0xFF#8, 0xFF#8, 0xFF#8, 0xFF#8, 0xFE#8, 0xFF#8, 0xFF#8, 0xFF#8, 0xFF#8, 0xFF#8, 0xFF#8, 0xFF#8, 0xFD#8, 0xFF#8, 0xFF#8, 0xFF#8, 0xFF#8, 0xFF#8, 0xFF#8, 0xFF#8, 0xFC#8, 0xFF#8, 0xFF#8, 0xFF#8, 0xFF#8, 0xFF#8, 0xFF#8, 0xFF#8, 0x05#8, 0x00#8, 0x00#8, 0x00#8, 0x00#8, 0x00#8, 0x00#8, 0x00#8, 0x06#8, 0x00#8, 0x00#8, 0x00#8, 0x00#8, 0x00#8, 0x00#8, 0x00#8, 0x07#8, 0x00#8, 0x00#8, 0x00#8, 0x00#8, 0x00#8, 0x00#8, 0x00#8]) =
      .ok (.flipSmallest #v[-1, -2, -3, -4, 5, 6, 7]) := by decide +kernel

theorem test_decode_processChar :
    decode (.stimulus 0x42#8 [0x66#8, 0x02#8]) = .ok (.processChar 0x66#7 2#3) := by decide +kernel

/-! ## Decoding: what is refused -/

/-- R88: 0x06 is no identifier. -/
theorem test_decode_unknown_step : decode (.stimulus 0x06#8 []) = .error (.unknownStep 0x06#8) := by
  decide +kernel

/-- Too few operand bytes, too many, a set bit above the operand's width, an integer in more groups than it takes. -/
theorem test_decode_operand_bytes :
    decode (.stimulus 0x30#8 [0x01#8]) = .error (.operandBytes .bitIn) ∧
    decode (.stimulus 0x31#8 [0x01#8]) = .error (.operandBytes .smSyncSetup) ∧
    decode (.stimulus 0x40#8 [0x80#8]) = .error (.operandBytes .processBytes) ∧
    decode (.stimulus 0x42#8 [0x66#8, 0x08#8]) = .error (.operandBytes .processChar) ∧
    decode (.stimulus 0x05#8 [0x02#8]) = .error (.operandBytes .lpfBlock) ∧
    decode (.stimulus 0x30#8 [0x01#8, 0x05#8, 0x00#8, 0x00#8, 0x00#8, 0x00#8, 0x00#8, 0x00#8, 0x00#8, 0x00#8, 0x00#8, 0x00#8, 0x00#8, 0x00#8, 0x00#8, 0x00#8, 0x00#8, 0x00#8]) = .error (.operandBytes .bitIn) := by decide +kernel

/-- Integers beyond 64 bits have their bytes: 2^64 + 5 and -2^63 - 1 (R90 `BIT <int>`). -/
theorem test_decode_large_integers :
    decode (.stimulus 0x17#8 [0x01#8, 0x05#8, 0x00#8, 0x00#8, 0x00#8, 0x00#8, 0x00#8, 0x00#8, 0x00#8, 0x00#8, 0x01#8, 0x00#8, 0x00#8, 0x00#8, 0x00#8, 0x00#8, 0x00#8, 0x00#8]) = .ok (.accum 18446744073709551621) ∧
    decode (encode (.bitIn (-9223372036854775809))) = .ok (.bitIn (-9223372036854775809)) := by decide +kernel

/-! ## WellFormed: an ill-formed term for each check -/

def inf : F64 := ⟨0x7FF0000000000000#64⟩
def big : Int := 9223372036854775808

theorem test_wf_soft_bits : (Instr.bitsToCode #v[0, 0, 0, 0, 0, 0, big]).wellFormed = false ∧
    (Instr.validChar #v[big, 0, 0, 0, 0, 0, 0]).wellFormed = false ∧
    (Instr.flipSmallest #v[0, 0, 0, big, 0, 0, 0]).wellFormed = false ∧
    (Instr.flipSmallest #v[0, 0, 0, -big, 0, 0, 0]).wellFormed = true := by decide +kernel

/-! ## The table's words, and where the step takes its next instruction -/

theorem test_table_words :
    decodeTableWord 66 0x10000000000002B11 = some (.reset 11025#32 false false 0#30) ∧
    decodeTableWord 72 0x20000000000000000 = some (.sample F64.zero) ∧
    decodeTableWord 8 0x33 = some .smReadData ∧
    decodeTableWord 8 0x02 = some (.mix .mark ⟨F64.zero, F64.zero⟩) ∧
    decodeTableWord 8 0x06 = none ∧ decodeTableWord 66 0x30000000000000000 = none := by decide +kernel

/-- The placed word is the next instruction the step runs, at power-on. -/
theorem test_step_fetches :
    step (State.reset.withFetchWord 8 0x31) = exec .smSyncSetup State.reset ∧
    step (State.reset.withFetchWord 66 0x10000000000002B11) =
      exec (.reset 11025#32 false false 0#30) State.reset := ⟨rfl, rfl⟩

/-- What the step refuses (R88, log entry 1), and `BIT` of 2^63, which runs BIT_IN on that soft bit (R90, R232). -/
theorem test_step_stimuli :
    step { State.reset with input := [.issue (.stimulus 0x06#8 [])] } = .refused (.noSuchOperation 0x06#8) ∧
    step { State.reset with input := [.issue (.stimulus 0x31#8 [0x00#8])] } =
      .refused (.malformedStimulus .smSyncSetup) ∧
    step (State.reset.withProgram [.bit 9223372036854775808]) =
      .next (State.reset.raise (.intRange .bitIn)) := ⟨rfl, rfl, rfl⟩

/-- R90: `BITS [0x0F]` is seven BIT lines, bit 0 first, and `SAMPLE*2 0.5` two samples. -/
theorem test_line_expand :
    (Line.bits [0x0F#7] 10).expand = [10, 10, 10, 10, -10, -10, -10].map (fun v => encode (.bitIn v)) ∧
    (Line.sampleTimes 2 ⟨0x3FE0000000000000#64⟩).expand =
      [.command 0x23FE0000000000000#66, .command 0x23FE0000000000000#66] := by decide +kernel

/-! ## Helpers -/

/-- The state an answer goes to; the state given where it stops. -/
def run (i : Instr) (s : State) : State :=
  match exec i s with
  | .next t => t
  | .fault _ => s
  | .refused _ => s

/-- The block after `RESET fs=11025 reverse=0 sitor=0` from power-on. -/
def base : State := resetState 11025#32 false false State.reset
/-- The block after `RESET fs=8000`. -/
def base8000 (reverse : Bool) : State := resetState 8000#32 reverse false State.reset

def withBuf (b : BitBuf) (s : State) : State := { s with rx := { s.rx with bitbuf := b } }

/-- A buffer of 100 soft bits. -/
def bufOf (l : List Int) : BitBuf :=
  ⟨⟨(List.range 100).map fun i => BitVec.ofInt 64 (l[i]?.getD 0)⟩, by simp⟩

/-- "Slot c at p" of 95_test_vectors.md section 2.5, for consecutive slots from `start`. -/
def slots (start : Nat) (codes : List Code7) : BitBuf :=
  bufOf (List.replicate start 0 ++ codes.flatMap (bitsOfCode 10))

/-- `n` times ALPHA, REP. -/
def phasing (n : Nat) : List Code7 := (List.replicate n [0x0F#7, 0x66#7]).flatten

/-- Parameters for a test: constant functions, and the filter that an impulse as taps gives (R110 corner case). -/
def config (co si lg : F64) (blockPred : Nat) : Config :=
  { cosFn := fun _ => co, sinFn := fun _ => si, logFn := fun _ => lg, taps := Vector.replicate 512 F64.zero,
    blockPred := blockPred, lpfFn := fun _ w j => w[j + 511]?.getD ⟨F64.zero, F64.zero⟩, lpfTol := 0,
    zeroPick := fun _ _ => true }

/-! ## Host commands -/

/-- T-FE-1: B = 110.25, the two increments (R23), NEXT = (0.0, 22.05, 44.1). -/
theorem test_reset_constants :
    (run (.reset 11025#32 false true 0#30) State.reset).cfg =
      { sampleRate := 11025#32, reverse := false, onlySitorB := true, configured := true,
        b := ⟨0x405B900000000000#64⟩, dphiM := ⟨0x3FE3C97BEA9252A4#64⟩, dphiS := ⟨0x3FE0AFD051069AA1#64⟩ } ∧
    ((run (.reset 11025#32 false true 0#30) State.reset).sync.nextE = ⟨0x0000000000000000#64⟩ ∧
      (run (.reset 11025#32 false true 0#30) State.reset).sync.nextP = ⟨0x40360CCCCCCCCCCD#64⟩ ∧
      (run (.reset 11025#32 false true 0#30) State.reset).sync.nextL = ⟨0x40460CCCCCCCCCCD#64⟩) := by decide +kernel

/-- T-EXC-4, T-EXC-5, T-EXC-6: the reserved bits are checked before the rate. -/
theorem test_reset_faults :
    (run (.reset 11025#32 false false 1#30) State.reset).fault = some (.reservedField 0x0000000400002B11#64) ∧
    (run (.reset 999#32 false false 0#30) State.reset).fault = some (.configInvalid 999#32) ∧
    (run (.reset 999#32 false false 0x100#30) State.reset).fault =
      some (.reservedField 0x00000400000003E7#64) := by decide +kernel

/-- T-EXC-1: SAMPLE before any RESET. -/
theorem test_sample_not_configured :
    run (.sample F64.zero) State.reset = { State.reset with fault := some .notConfigured } := rfl

/-- T-EXC-7, T-EXC-8: out of range, NaN, infinite, just above 1.0. -/
theorem test_sample_domain :
    (run (.sample ⟨0xBFF0002000400080#64⟩) base).fault = some (.inputDomain 0xBFF0002000400080#64) ∧
    (run (.sample ⟨0x7FF8000000000000#64⟩) base).fault = some (.inputDomain 0x7FF8000000000000#64) ∧
    (run (.sample ⟨0x7FF0000000000000#64⟩) base).fault = some (.inputDomain 0x7FF0000000000000#64) ∧
    (run (.sample ⟨0x3FF0000000000001#64⟩) base).fault = some (.inputDomain 0x3FF0000000000001#64) := by
  decide +kernel

/-- T-EXC-2 and T-EXC-9: an illegal word faults; a block that holds a fault ignores a RESET. -/
theorem test_step_faults :
    step { State.reset with input := [.issue (.command 0#66)] } =
      .next { State.reset with fault := some (.illegalCommand 0#2) } ∧
    run (.reset 11025#32 false false 0#30) { State.reset with fault := some .notConfigured } =
      { State.reset with fault := some .notConfigured } := ⟨rfl, rfl⟩

/-! ## Front end -/

/-- T-FE-2. -/
theorem test_scale_half : (run (.scale ⟨0xBFE0000000000000#64⟩) base).ret = .pair ⟨0xC0CFFFC000000000#64⟩ ⟨0xC0CFFFC000000000#64⟩ := by
  decide +kernel

/-- T-FE-3, with the cosine and sine it states. -/
theorem test_mix_vector :
    mix (config ⟨0x3FEA1328E01B921A#64⟩ ⟨0xBFE28CCCF5D2C86B#64⟩ F64.zero 0)
        ⟨⟨0x40DFFFC000000000#64⟩, ⟨0x40DFFFC000000000#64⟩⟩ ⟨0xBFE3C97BEA9252A4#64⟩ =
      .ok ⟨⟨0x40BE19337643D478#64⟩, ⟨0x40E64FCE4B015754#64⟩⟩ := by decide +kernel

/-- R105: with c = 1 and s = 0, z unchanged. -/
theorem test_mix_phase_zero :
    mix (config F64.one F64.zero F64.zero 0) ⟨⟨0x40DFFFC000000000#64⟩, ⟨0xC008000000000000#64⟩⟩ F64.zero =
      .ok ⟨⟨0x40DFFFC000000000#64⟩, ⟨0xC008000000000000#64⟩⟩ := by decide +kernel

/-- T-FE-4: fs = 1000, one step, wrapped once. -/
theorem test_nco_wrap :
    (run .ncoAdv (resetState 1000#32 false false State.reset)).nco.phaseM = ⟨0xBFE1171B8B389990#64⟩ := by
  decide +kernel

/-- T-FE-4: fs = 11025, from the phase after 10 steps to the one after 11. -/
theorem test_nco_eleventh :
    (run .ncoAdv { base with nco := { phaseM := ⟨0xC018BBDAE536E74C#64⟩, phaseS := F64.zero } }).nco.phaseM =
      ⟨0xBFE0987872282440#64⟩ := by decide +kernel

/-- T-FE-5, push 2: h = [0.5, 0.5], the exact sum rounded once. -/
theorem test_lpf_convolution :
    Config.roundSum (Config.convSum [F64.half, F64.half] [⟨0x40CFFFC000000000#64⟩, ⟨0x40AE19337643D478#64⟩]) =
      ⟨0x40C3C3066EC87A8F#64⟩ ∧
    Config.roundSum (Config.convSum [F64.half, F64.half] [⟨0x40CFFFC000000000#64⟩, ⟨0x40D64FCE4B015754#64⟩]) =
      ⟨0x40D327D72580ABAA#64⟩ ∧
    Config.roundSum (Config.convSum [F64.one, F64.zero] [F64.two, F64.five]) = F64.five := by decide +kernel

/-- R110 "up to rounding": for the exact sum 1.0 and a scale of 1.0, one unit of 2^-52 stays, two count as the reference,
and a NaN stays; R83: the filter sees one zero (log entry 5). -/
theorem test_lpf_held :
    let held := Config.upToRounding 1 (Config.exactVal F64.one) (Config.exactVal F64.one)
    held ⟨0x3FF0000000000001#64⟩ = ⟨0x3FF0000000000001#64⟩ ∧ held ⟨0x3FF0000000000002#64⟩ = F64.one ∧
    held F64.nan = F64.nan ∧
    Config.plainPair ⟨⟨0x8000000000000000#64⟩, ⟨0xBFE0000000000000#64⟩⟩ = ⟨⟨0x0000000000000000#64⟩, ⟨0xBFE0000000000000#64⟩⟩ := by decide +kernel

/-- R108 example: P = 2, the first push gives an empty burst and FILL = 1, the second two pairs and FILL = 0. -/
theorem test_lpf_push :
    lpfPush (config F64.one F64.zero F64.zero 1) { hist := [], fill := 0 } ⟨F64.two, F64.four⟩ =
      .ok ({ hist := [⟨F64.two, F64.four⟩], fill := 1 }, []) ∧
    lpfPush (config F64.one F64.zero F64.zero 1) { hist := [⟨F64.two, F64.four⟩], fill := 1 } ⟨F64.five, F64.half⟩ =
      .ok ({ hist := [⟨F64.two, F64.four⟩, ⟨F64.five, F64.half⟩], fill := 0 },
        [⟨F64.two, F64.four⟩, ⟨F64.five, F64.half⟩]) := by decide +kernel

/-- R110: with P = 2, `y[j]` reads `u[m-2+j]` back to `u[m-2+j-511]`, zeros before the first input. -/
theorem test_lpf_window :
    let c := config F64.one F64.zero F64.zero 1
    let w := lpfWindow c [⟨F64.eight, F64.eight⟩, ⟨F64.two, F64.four⟩, ⟨F64.five, F64.half⟩]
    w.length = 513 ∧ w[512]? = some ⟨F64.five, F64.half⟩ ∧ w[511]? = some ⟨F64.two, F64.four⟩ ∧
      w[510]? = some ⟨F64.eight, F64.eight⟩ ∧ w[509]? = some ⟨F64.zero, F64.zero⟩ := by decide +kernel

/-! ## Trackers and discriminator -/

/-- T-ENV-1. -/
theorem test_mag :
    (run (.mag ⟨⟨0x4008000000000000#64⟩, ⟨0x4010000000000000#64⟩⟩) base).ret = .real ⟨0x4014000000000000#64⟩ ∧
    (run (.mag ⟨⟨0x40DFFFC000000000#64⟩, ⟨0x40DFFFC000000000#64⟩⟩) base).ret = .real ⟨0x40E6A07125426ECE#64⟩ := by decide +kernel

/-- T-ENV-2: a rise of the mark envelope and a fall of the space envelope. -/
theorem test_env_upd :
    (run (.envUpd ⟨0x4059000000000000#64⟩ ⟨0x0000000000000000#64⟩) { base with trk := { base.trk with envS := ⟨0x4059000000000000#64⟩ } }).trk =
      { envM := ⟨0x400D0662AF4F8742#64⟩, envS := ⟨0x4058FC5F33AA160F#64⟩, noiseM := F64.zero,
        noiseS := F64.zero } := by decide +kernel

/-- T-ENV-2: a rise and a fall of the noise floors. -/
theorem test_noise_upd :
    (run (.noiseUpd ⟨0x4059000000000000#64⟩ ⟨0x0000000000000000#64⟩) { base with trk := { base.trk with noiseS := ⟨0x4059000000000000#64⟩ } }).trk =
      { envM := F64.zero, envS := F64.zero, noiseM := ⟨0x3F9359971F8A5A2C#64⟩,
        noiseS := ⟨0x405817CCEA8583C6#64⟩ } := by decide +kernel

/-- T-ENV-3. -/
theorem test_nfloor :
    (run .nfloor { base with trk := { base.trk with noiseS := ⟨0x4008000000000000#64⟩ } }).ret = .real ⟨0x3FF8000000000000#64⟩ := by
  decide +kernel

/-- T-ENV-4, rows 1 and 2: the floor wins over an envelope below it. -/
theorem test_clip :
    clipOne (config F64.one F64.zero F64.zero 0) ⟨0x4062C00000000000#64⟩ ⟨0x4059000000000000#64⟩ ⟨0x0000000000000000#64⟩ = .ok ⟨0x4059000000000000#64⟩ ∧
    clipOne (config F64.one F64.zero F64.zero 0) ⟨0x4046800000000000#64⟩ ⟨0x4044000000000000#64⟩ ⟨0x4049000000000000#64⟩ = .ok ⟨0x4049000000000000#64⟩ := by
  decide +kernel

/-- T-ENV-4, rows 3 and 4, through the operation, one row in each branch. -/
theorem test_clip_both :
    (run (.clip ⟨0x4051800000000000#64⟩ ⟨0x4014000000000000#64⟩ ⟨0x4024000000000000#64⟩)
      { base with trk := { base.trk with envM := ⟨0x4059000000000000#64⟩, envS := ⟨0x4059000000000000#64⟩ } }).ret =
      .pair ⟨0x4051800000000000#64⟩ ⟨0x4024000000000000#64⟩ := by decide +kernel

/-- T-ATC-1, rows 2 and 4. -/
theorem test_atc :
    (run (.atc ⟨0x4059000000000000#64⟩ ⟨0x4034000000000000#64⟩ ⟨0x4024000000000000#64⟩)
      { base with trk := { base.trk with envM := ⟨0x4059000000000000#64⟩, envS := ⟨0x4049000000000000#64⟩ } }).ret = .real ⟨0x40B1620000000000#64⟩ ∧
    (run (.atc ⟨0x0000000000000000#64⟩ ⟨0x4059000000000000#64⟩ ⟨0x0000000000000000#64⟩)
      { base with trk := { base.trk with envM := ⟨0x4059000000000000#64⟩, envS := ⟨0x4059000000000000#64⟩ } }).ret =
        .real ⟨0xC0C3880000000000#64⟩ := by decide +kernel

/-- T-ATC-2, the rows of L = ±10000.0, with the logarithm it states. -/
theorem test_softbit :
    softbit (config F64.one F64.zero ⟨0x40226BBED6FBD842#64⟩ 0) ⟨0x40C3880000000000#64⟩ = .ok 9 ∧
    softbit (config F64.one F64.zero ⟨0x40226BBED6FBD842#64⟩ 0) ⟨0xC0C3880000000000#64⟩ = .ok (-9) := by decide +kernel

/-- T-ATC-2: L = 1.7 gives 0, and a zero gives 0 without a logarithm. -/
theorem test_softbit_small :
    softbit (config F64.one F64.zero ⟨0x3FEFC8B7F138BDEA#64⟩ 0) ⟨0x3FFB333333333333#64⟩ = .ok 0 ∧
    (run (.softbit ⟨0x8000000000000000#64⟩) base).ret = .int 0 := by decide +kernel

/-- R234, D36: a parameter that answers a NaN or an infinity (also through the contract of log entry 5). -/
theorem test_numeric_parameters :
    softbit (config F64.one F64.zero ⟨0x7FF0000000000000#64⟩ 0) F64.one = .error (.numeric .softbit) ∧
    softbit (Config.contract (config F64.one F64.zero ⟨0x7FF8000000000000#64⟩ 0)) F64.one = .error (.numeric .softbit) ∧
    mix (Config.contract (config ⟨0x7FF8000000000000#64⟩ F64.zero F64.zero 0)) ⟨F64.one, F64.one⟩ ⟨0xBFF0000000000000#64⟩ =
      .error (.numeric .mix) := by decide +kernel

/-- T-ATC-3. -/
theorem test_accum :
    let t := run (.accum (-2)) { base with sync := { base.sync with accE := -3#64, accP := 5#64 } }
    t.sync.accE.toInt = -5 ∧ t.sync.accP.toInt = 3 ∧ t.sync.accL.toInt = -2 := by decide +kernel

/-- R139. -/
theorem test_cnt_inc :
    (run .cntInc base).sync.sampleCount = 1#64 ∧
    (run .cntInc { base with sync := { base.sync with sampleCount := 9007199254740991#64 } }).fault =
      some (.counterRange 9007199254740991#64) := by decide +kernel

/-! ## Bit synchroniser -/

/-- T-BS-1: the early event fires at t = 0.0. -/
theorem test_evt_early :
    (run (.evtEarly F64.zero) base).sync.nextE = ⟨0x405B900000000000#64⟩ ∧
    run (.evtEarly F64.zero) { base with sync := { base.sync with nextE := ⟨0x405B900000000000#64⟩ } } =
      { base with sync := { base.sync with nextE := ⟨0x405B900000000000#64⟩ } } := ⟨by decide +kernel, rfl⟩

/-- P6, t = 32: ACC_L = -455 gives AVG_L = 7.109375 and NEXT_L = 112.0. -/
theorem test_evt_late :
    let t := run (.evtLate ⟨0x4040000000000000#64⟩) { base8000 false with
      sync := { (base8000 false).sync with accL := BitVec.ofInt 64 (-455) } }
    t.sync.avgL = ⟨0x401C700000000000#64⟩ ∧ t.sync.nextL = ⟨0x405C000000000000#64⟩ ∧ t.sync.accL = 0#64 := by decide +kernel

/-- T-BS-6, `CFG_REVERSE` = 0. -/
theorem test_evt_prompt :
    let t := run (.evtPrompt ⟨0x4030000000000000#64⟩) { base8000 false with
      sync := { (base8000 false).sync with accP := BitVec.ofInt 64 (-215) } }
    t.sync.markState.toInt = -215 ∧ t.sync.avgP = ⟨0x400AE00000000000#64⟩ ∧ t.sync.nextP = ⟨0x4058000000000000#64⟩ ∧
      t.sync.accP = 0#64 ∧ t.rx.bitbuf.entry 99 = -215 ∧ t.rx.rxState = 1#2 := by decide +kernel

/-- T-BS-6, `CFG_REVERSE` = 1. -/
theorem test_evt_prompt_reverse :
    let t := run (.evtPrompt ⟨0x4030000000000000#64⟩) { base8000 true with
      sync := { (base8000 true).sync with accP := BitVec.ofInt 64 (-215) } }
    t.sync.markState.toInt = 215 ∧ t.sync.avgP = ⟨0x400AE00000000000#64⟩ ∧ t.rx.bitbuf.entry 99 = 215 := by
  decide +kernel

/-- The start of T-BS-4, with the averages given. -/
def aligned (e p l : F64) : State :=
  { base with sync := { base.sync with
      nextE := ⟨0x408F400000000000#64⟩, nextP := ⟨0x408FF06666666666#64⟩, nextL := ⟨0x4090506666666666#64⟩, avgE := e, avgP := p, avgL := l } }

/-- T-BS-4, row 1: the early branch. -/
theorem test_realign_early :
    let t := run (.realign ⟨0x408B900000000000#64⟩) (aligned ⟨0x4024000000000000#64⟩ ⟨0x4014000000000000#64⟩ ⟨0x4020000000000000#64⟩)
    t.sync.nextE = ⟨0x408E8F999999999A#64⟩ ∧ t.sync.nextP = ⟨0x408F400000000000#64⟩ ∧ t.sync.nextL = ⟨0x408FF06666666666#64⟩ ∧
      t.sync.avgE = ⟨0x4024000000000000#64⟩ ∧ t.sync.avgP = ⟨0x4024000000000000#64⟩ ∧ t.sync.avgL = ⟨0x4014000000000000#64⟩ := by decide +kernel

/-- T-BS-4, row 5: the tie takes the late branch; R155 example, row 3: no picker. -/
theorem test_realign_late_and_none :
    let t := run (.realign F64.zero) (aligned ⟨0x4024000000000000#64⟩ ⟨0x4023000000000000#64⟩ ⟨0x4024000000000000#64⟩)
    let u := run (.realign F64.zero) (aligned ⟨0x4008000000000000#64⟩ ⟨0x4034000000000000#64⟩ ⟨0x4014000000000000#64⟩)
    (t.sync.nextE = ⟨0x408FF06666666666#64⟩ ∧ t.sync.nextP = ⟨0x4090506666666666#64⟩ ∧ t.sync.nextL = ⟨0x4090A89999999999#64⟩ ∧
      t.sync.avgE = ⟨0x4023000000000000#64⟩ ∧ t.sync.avgP = ⟨0x4024000000000000#64⟩ ∧ t.sync.avgL = ⟨0x4024000000000000#64⟩) ∧
    (u.sync.nextE = ⟨0x408F400400000000#64⟩ ∧ u.sync.nextP = ⟨0x408FF06A66666666#64⟩ ∧
      u.sync.nextL = ⟨0x4090506866666666#64⟩ ∧ u.sync.avgE = ⟨0x4008000000000000#64⟩) := by decide +kernel

/-! ## Bit handler, state machine, character synchroniser -/

/-- T-CS-2, row 1. -/
theorem test_bit_in :
    let t := run (.bitIn (-7)) (withBuf (bufOf (List.replicate 99 0 ++ [5])) base)
    t.rx.bitbuf.entry 98 = 5 ∧ t.rx.bitbuf.entry 99 = -7 ∧ t.rx.bitbuf.entry 97 = 0 ∧
      t.rx.bitCursor = 0#7 := by decide +kernel

/-- T-CS-2, row 2 (from SYNC_SETUP, whose action leaves the cursor alone). -/
theorem test_bit_in_cursor :
    (run (.bitIn 0) { base with rx := { base.rx with bitCursor := 50#7 } }).rx.bitCursor = 49#7 := by
  decide +kernel

/-- T-CS-3, row 1. -/
theorem test_sm_sync_setup :
    let t := run .smSyncSetup { base with rx := { base.rx with
      errorCount := 6#8, shift := true, alphaPhase := true, lastCode := 0x66#7 } }
    t.rx.errorCount = 0#8 ∧ t.rx.shift = false ∧ t.rx.rxState = 1#2 ∧ t.rx.alphaPhase = true ∧
      t.rx.lastCode = 0x66#7 := by decide +kernel

/-- T-CS-3, row 2. -/
theorem test_sm_sync_fails :
    (run .smSync { base with rx := { base.rx with rxState := 1#2 } }).rx.rxState = 0#2 := by decide +kernel

/-- T-CS-4: BIT_CURSOR = 36, ALPHA_PHASE = 1, READ_DATA. -/
theorem test_sm_sync_locks :
    let t := run .smSync (withBuf (slots 8 (phasing 7)) base)
    t.rx.bitCursor = 36#7 ∧ t.rx.alphaPhase = true ∧ t.rx.rxState = 2#2 := by decide +kernel

/-- T-CS-3, rows 3 and 4: cursor 95 waits; cursor 92 at a rep slot passes over. -/
theorem test_sm_read_pass_over :
    let s : Nat → State := fun c => { base with rx := { base.rx with
      rxState := 2#2, bitCursor := BitVec.ofNat 7 c } }
    (run .smReadData (s 95)).rx.bitCursor = 95#7 ∧ (run .smReadData (s 95)).rx.alphaPhase = false ∧
    (run .smReadData (s 92)).rx.bitCursor = 99#7 ∧ (run .smReadData (s 92)).rx.alphaPhase = true := by
  decide +kernel

/-- T-CS-3, row 5: a hard failure at error count 4. -/
theorem test_sm_read_hard_failure :
    let t := run .smReadData { base with rx := { base.rx with
      rxState := 2#2, bitCursor := 92#7, alphaPhase := true, errorCount := 4#8 } }
    t.rx.errorCount = 6#8 ∧ t.rx.rxState = 0#2 ∧ t.rx.alphaPhase = false ∧ t.rx.bitCursor = 99#7 := by
  decide +kernel

/-- T-CS-5 (a rep slot wins) and T-CS-11 (a misaligned constant ALPHA stream). -/
theorem test_find_alpha :
    findAlpha (slots 1 (phasing 7)) = .ok 36 ∧
    findAlpha (slots 2 (List.replicate 14 0x0F#7)) = .ok 35 := by decide +kernel

/-- T-CS-6 (a discard) and T-CS-7 (too few reps) give -1. -/
theorem test_find_alpha_fails :
    findAlpha (slots 36 [0x0F#7, 0x47#7, 0x1D#7, 0x2B#7, 0x35#7, 0x0F#7, 0x4B#7, 0x53#7, 0x59#7]) = .ok (-1) ∧
    findAlpha (slots 36 [0x66#7, 0x0F#7, 0x66#7, 0x0F#7, 0x47#7, 0x1D#7, 0x2B#7, 0x35#7, 0x4B#7]) =
      .ok (-1) := by decide +kernel

/-- T-CS-1, rows 1, 4 and 5. -/
theorem test_bits_to_code :
    (run (.bitsToCode #v[10, -10, 10, -10, 10, 10, -10]) base).ret = .code 0x35#7 ∧
    (run (.bitsToCode #v[3, -1, 7, -9, 2, 5, -6]) base).ret = .code 0x35#7 ∧
    (run (.bitsToCode #v[-1, -1, -1, -1, 2, 2, 2]) base).ret = .code 0x70#7 := by decide +kernel

/-- T-CS-1, rows 2 and 3. -/
theorem test_valid_char :
    (run (.validChar #v[10, -10, 10, 10, 10, 10, -10]) base).ret = .truth false ∧
    (run (.validChar #v[1, 1, 1, 1, 0, 0, 0]) base).ret = .truth true := by decide +kernel

/-! ## FEC -/

/-- The buffer of T-FEC-1: the rep copy at 25 and the alpha copy at 60. -/
def copies (alpha rep : List Int) : State :=
  withBuf (bufOf (List.replicate 25 0 ++ rep ++ List.replicate 28 0 ++ alpha)) base

/-- T-FEC-1, rows 2 and 7: the rep copy replaces; the flipped sum decodes 0x1B. -/
theorem test_process_bytes :
    (let t := run (.processBytes 60#7) (copies [10, -10, 10, 10, 10, 10, -10] [10, -10, 10, -10, 10, 10, -10])
     t.ret = .int 0 ∧ t.out = [0x0235#16]) ∧
    (let t := run (.processBytes 60#7) (copies [10, 10, 10, 10, 10, -30, -30] [10, -30, -30, 10, 10, 10, 10])
     t.ret = .int (-1) ∧ t.out = [0x061B#16]) := by decide +kernel

/-- T-FEC-1, row 8 (hard failure) and the added case c = 34. -/
theorem test_process_bytes_fails :
    (let t := run (.processBytes 60#7) (copies (List.replicate 7 10) (List.replicate 7 10))
     t.ret = .int (-2) ∧ t.out = []) ∧
    (run (.processBytes 34#7) base).ret = .int (-1) := by decide +kernel

/-- T-FEC-2: the tie at -1, and a valid vector made invalid by the `c1 == 5` branch. -/
theorem test_flip_smallest :
    (run (.flipSmallest #v[-3, -1, -1, 5, 6, 9, -4]) base).ret = .soft #v[-3, 1, -1, 5, 6, 9, -4] ∧
    (run (.flipSmallest #v[-3, -1, -7, 5, 6, 9, 4]) base).ret = .soft #v[-3, -1, -7, 5, 6, 9, -4] := by
  decide +kernel

/-- T-FEC-2: zeros are counted in neither; popcount 5 is unchanged. -/
theorem test_flip_smallest_zero :
    (run (.flipSmallest #v[0, -1, -2, -3, -4, 5, 6]) base).ret = .soft #v[0, 1, -2, -3, -4, 5, 6] ∧
    (run (.flipSmallest #v[5, 6, -2, 7, 8, -9, 1]) base).ret = .soft #v[5, 6, -2, 7, 8, -9, 1] := by
  decide +kernel

/-- T-FEC-3, row 2: REP after REP. -/
theorem test_process_char_rep :
    let t := run (.processChar 0x66#7 1#3) { base with rx := { base.rx with
      lastCode := 0x66#7, alphaPhase := true } }
    t.rx.alphaPhase = false ∧ t.rx.lastCode = 0x66#7 ∧ t.out = [0x0166#16] := by decide +kernel

/-- T-FEC-3, rows 4 and 6: FIGS sets the shift its own record carries; a data codeword keeps it. -/
theorem test_process_char_shift :
    (run (.processChar 0x36#7 1#3) base).out = [0x01B6#16] ∧
    (run (.processChar 0x35#7 2#3) { base with rx := { base.rx with shift := true } }).out = [0x02B5#16] := by
  decide +kernel

/-! ## Witnesses: for each statement with hypotheses, states and operands that meet them together -/

def maxFinite : F64 := ⟨0x7FEFFFFFFFFFFFFF#64⟩
def zeroPair : Cplx := { re := F64.zero, im := F64.zero }
/-- `base` with the host's events given. -/
def hosted (l : List HostEvent) : State := { base with input := l }
/-- `base` with both filters one push past a block: the next push completes none. -/
def waiting : State :=
  { base with
    lpfM := { hist := [], fill := Config.machine.block }
    lpfS := { hist := [], fill := Config.machine.block } }

theorem live_base : base.fault = none := rfl
theorem live_waiting : waiting.fault = none := rfl

/-- A legal rate at both ends, one too small, and a set reserved bit. -/
theorem witness_ResetConstructsOrRejects :
    base.fault = none ∧
    (0x0000000400002B11#64).extractLsb' 34 30 ≠ 0#30 ∧
    ((999#64).extractLsb' 34 30 = 0#30 ∧ ((999#64).extractLsb' 0 32).toNat < 1000) ∧
    ((1000#64).extractLsb' 34 30 = 0#30 ∧ 1000 ≤ ((1000#64).extractLsb' 0 32).toNat) ∧
    ((0x3FFFFFFFF#64).extractLsb' 34 30 = 0#30 ∧ 1000 ≤ ((0x3FFFFFFFF#64).extractLsb' 0 32).toNat) :=
  ⟨rfl, by decide, by decide, by decide, by decide⟩

theorem witness_ResetForgetsTheRun : base.fault = none ∧ 1000 ≤ (1000#32).toNat := ⟨rfl, by decide⟩

theorem witness_CommandFaultsArePrecise :
    (State.reset.fault = none ∧ State.reset.cfg.configured = false) ∧
    (base.fault = none ∧ base.cfg.configured = true ∧
      F64.nan.isNaN = true ∧ inf.isInf = true ∧ F64.lt F64.one (F64.abs ⟨0x3FF0000000000001#64⟩) = true) ∧
    ((hosted [.issue (.command 5#66)]).input = [.issue (.command 5#66)] ∧
      (5#66).extractLsb' 64 2 = 0#2 ∧ (0x30000000000000000#66).extractLsb' 64 2 = 3#2) :=
  ⟨⟨rfl, rfl⟩, ⟨rfl, rfl, by decide, by decide, by decide⟩, rfl, by decide, by decide⟩

theorem witness_FaultEndsTheRun :
    ({ hosted [.issue (.command 5#66)] with fault := some .notConfigured }).fault = some .notConfigured ∧
    ({ hosted [.issue (.command 5#66)] with fault := some .notConfigured }).input = [.issue (.command 5#66)] ∧
    (FaultRec.inputDomain 0#64).code ≤ 5 := ⟨rfl, rfl, by decide⟩

theorem witness_StepRunsTheDecodedOperation :
    (hosted [.issue (.stimulus 0x31#8 []), .drain]).input = [.issue (.stimulus 0x31#8 []), .drain] ∧
    decode (.stimulus 0x31#8 []) = .ok .smSyncSetup := ⟨rfl, by decide⟩

theorem witness_BetweenCommands :
    base.input = [] ∧ (hosted [.drain]).input = .drain :: [] ∧ (hosted [.drain]).out = [] ∧
    ({ hosted [.drain] with out := [0x0166#16] }).out = 0x0166#16 :: [] := ⟨rfl, rfl, rfl, rfl⟩

theorem witness_DecodeEncodeRoundTrip :
    (Instr.bitIn (-big - 1)).wellFormed = true ∧ (Instr.softbit F64.nan).wellFormed = true ∧ (Instr.sample F64.nan).wellFormed = true ∧
    (Instr.mix .space ⟨maxFinite, F64.zero⟩).wellFormed = true ∧
    (Instr.flipSmallest #v[big - 1, -big, 0, 0, 0, 0, 0]).wellFormed = true := by decide +kernel

theorem witness_DecodeIsInjective :
    decode (.stimulus 0x42#8 [0x7F#8, 0x07#8]) = .ok (.processChar 0x7F#7 7#3) := by decide +kernel

theorem witness_SerialisationRoundTrip :
    deserialise [0x11#8, 0x2B#8, 0#8, 0#8, 0#8, 0#8, 0#8, 0#8, 0x03#8] = some 0x30000000000002B11#66 := by
  decide +kernel

theorem witness_UnknownIdentifiersSpellNoOperation :
    (hosted [.issue (.stimulus 0x00#8 [])]).fault = none ∧
    (hosted [.issue (.stimulus 0x00#8 [])]).input = [.issue (.stimulus 0x00#8 [])] ∧
    StepId.ofCode 0x00#8 = none ∧ StepId.ofCode 0xFF#8 = none := ⟨rfl, rfl, by decide, by decide⟩

theorem witness_ScaleResult :
    base.fault = none ∧ (F64.mul F64.pcmScale F64.one).isFinite = true ∧
    (F64.mul F64.pcmScale maxFinite).isFinite = false ∧
    F64.one.isFinite = true ∧ F64.le F64.one.abs F64.one = true := by decide +kernel

/-- The mixer at phase 0.0 (R105: c = 1, s = 0). -/
theorem mixer_finite_zero : MixerFinite F64.zero := ⟨by decide +kernel, by decide +kernel⟩

/-- The second clause at the zero pair and at the largest legal component, the third at a zero phase of either sign. -/
theorem witness_MixResult :
    base.fault = none ∧
    (MixerFinite base.nco.phaseM ∧ zeroPair.isFinite = true ∧ F64.pcmScale.isFinite = true ∧
      F64.le zeroPair.re.abs F64.pcmScale = true ∧ F64.le F64.pcmScale.abs F64.pcmScale = true) ∧
    (base.nco.phaseM.absBits = 0 ∧ F64.zero.neg.absBits = 0) :=
  ⟨rfl, ⟨mixer_finite_zero, by decide, by decide, by decide, by decide⟩, by decide, by decide⟩

/-- A phase at each end of the interval, and the largest and the smallest increment. -/
theorem witness_NcoAdvWraps :
    base.fault = none ∧ PhaseLegal base.nco.phaseM ∧ PhaseLegal ⟨0xC01921FB54442D17#64⟩ ∧
    StepLegal base.cfg.dphiM ∧ StepLegal base.cfg.dphiS ∧ StepLegal seven ∧ StepLegal F64.zero := by
  unfold PhaseLegal StepLegal
  decide +kernel

theorem witness_DerivedConstantsLegal :
    base.fault = none ∧ 1000 ≤ (1000#32).toNat ∧ 1000 ≤ (0xFFFFFFFF#32).toNat := ⟨rfl, by decide, by decide⟩

/-- A filter that is not about to fill; one that is, fed with zeros. -/
theorem witness_LpfPushResult :
    (waiting.fault = none ∧ zeroPair.isFinite = true ∧
      (waiting.filter .mark).fill + 1 ≠ Config.machine.block) ∧
    (∃ s : State, s.fault = none ∧ (s.filter .space).fill + 1 = Config.machine.block ∧
      ∀ y ∈ (s.filter .space).hist ++ [zeroPair], Config.isZeroPair y = true) :=
  ⟨⟨rfl, by decide, Nat.succ_ne_self _⟩,
    { base with lpfS := { hist := [], fill := Config.machine.blockPred } }, rfl, rfl, by decide⟩

/-- The history after RESET, and one input at the bound 2.0. -/
theorem witness_LpfBlockResult :
    let s : State := { base with lpfM := { hist := [⟨F64.two, F64.zero⟩], fill := 0 } }
    (base.fault = none ∧ ∀ y ∈ (base.filter .mark).hist, Config.isZeroPair y = true) ∧
    (s.fault = none ∧ (∀ u ∈ (s.filter .mark).hist, u.isFinite = true) ∧ (0 : ℚ) ≤ 2 ∧
      ∀ u ∈ (s.filter .mark).hist, |u.re.toRat| ≤ 2 ∧ |u.im.toRat| ≤ 2) := by
  refine ⟨⟨rfl, ?_⟩, rfl, by decide, by norm_num, ?_⟩
  · intro y hy; simp [base, resetState] at hy
  · intro u hu
    obtain rfl : u = ⟨F64.two, F64.zero⟩ := by simpa using hu
    decide +kernel

theorem witness_NonFiniteOperandsRaiseNumeric :
    base.fault = none ∧ NonFiniteOperand (.scale F64.nan) .scale ∧ NonFiniteOperand (.mix .mark ⟨inf, F64.one⟩) .mix ∧
    NonFiniteOperand (.lpfPush .space ⟨F64.one, inf⟩) .lpfPush ∧ NonFiniteOperand (.mag ⟨inf.neg, inf⟩) .mag ∧
    NonFiniteOperand (.envUpd F64.one F64.nan) .envUpd ∧ NonFiniteOperand (.noiseUpd inf F64.one) .noiseUpd ∧
    NonFiniteOperand (.clip F64.one F64.one inf) .clip ∧ NonFiniteOperand (.atc F64.one inf F64.one) .atc ∧
    NonFiniteOperand (.softbit inf.neg) .softbit ∧ NonFiniteOperand (.evtEarly inf) .evtEarly ∧
    NonFiniteOperand (.evtLate F64.nan) .evtLate ∧ NonFiniteOperand (.evtPrompt inf) .evtPrompt ∧
    NonFiniteOperand (.realign inf.neg) .realign := by
  unfold NonFiniteOperand
  decide +kernel

theorem witness_MagResult :
    base.fault = none ∧
    (F64.sqrt (F64.add (F64.mul F64.one F64.one) (F64.mul F64.two F64.two))).isFinite = true ∧
    (F64.sqrt (F64.add (F64.mul maxFinite maxFinite) (F64.mul F64.two F64.two))).isFinite = false ∧
    F64.zero.absBits = 0 ∧ (F64.zero.neg).absBits = 0 := by decide +kernel

/-- Both updates in range on `base`; both out of range at power-on, where B is 0.0 (log entry 3). -/
theorem witness_TrackerUpdates :
    let ok := fun s : State =>
      let q := F64.div s.cfg.b F64.four
      let w := F64.mul s.cfg.b F64.sixteen
      let n := F64.mul s.cfg.b F64.fortyEight
      (q.isFinite && w.isFinite && (decayed s.trk.envM F64.one q w).isFinite &&
        (decayed s.trk.envS F64.zero q w).isFinite,
       q.isFinite && n.isFinite && (decayed s.trk.noiseM F64.one n q).isFinite &&
        (decayed s.trk.noiseS F64.zero n q).isFinite)
    base.fault = none ∧ State.reset.fault = none ∧ ok base = (true, true) ∧ ok State.reset = (false, false) := by
  decide +kernel

theorem witness_NfloorResult :
    let s : State := { base with trk := { base.trk with noiseM := maxFinite, noiseS := maxFinite } }
    base.fault = none ∧ s.fault = none ∧
    (F64.div (F64.add base.trk.noiseM base.trk.noiseS) F64.two).isFinite = true ∧
    (F64.div (F64.add s.trk.noiseM s.trk.noiseS) F64.two).isFinite = false := by decide +kernel

theorem witness_ClipResult :
    base.fault = none ∧ maxFinite.isFinite = true ∧ F64.one.isFinite = true ∧
    base.trk.envM.isFinite = true ∧ base.trk.envS.isFinite = true ∧
    F64.le F64.zero base.trk.envM = true ∧ F64.lt base.trk.envM F64.one = true := by decide +kernel

theorem witness_AtcResult :
    let s : State := { base with trk := { base.trk with envM := maxFinite } }
    let l := fun (s : State) (mc sc nf : F64) =>
      F64.sub (F64.sub (F64.mul (F64.sub mc nf) (F64.sub s.trk.envM nf)) (F64.mul (F64.sub sc nf) (F64.sub s.trk.envS nf)))
        (F64.mul F64.half (F64.sub (F64.mul (F64.sub s.trk.envM nf) (F64.sub s.trk.envM nf))
          (F64.mul (F64.sub s.trk.envS nf) (F64.sub s.trk.envS nf))))
    base.fault = none ∧ s.fault = none ∧ (l base F64.one F64.one F64.zero).isFinite = true ∧
    base.trk.envM = base.trk.envS ∧ (l s F64.two F64.one F64.zero).isFinite = false := by decide +kernel

/-- A zero of either sign; 2^-60 and its negative, where 1.0 + |L| is 1.0, whose logarithm is finite. -/
theorem witness_SoftbitResult :
    let l : F64 := ⟨0x3C30000000000000#64⟩
    base.fault = none ∧ (F64.zero.neg.isFinite = true ∧ F64.zero.neg.key = 0) ∧
    (l.isFinite = true ∧ 0 < l.key ∧ l.neg.isFinite = true ∧ l.neg.key < 0) ∧
    F64.add F64.one l.abs = F64.one ∧ F64.add F64.one l.neg.abs = F64.one ∧
    (Config.machine.logFn F64.one).isFinite = true := by
  refine ⟨rfl, by decide, by decide, by decide +kernel, by decide +kernel, ?_⟩
  rw [Config.machine_log_one]; decide

theorem witness_AccumResult :
    base.fault = none ∧
    (-(2 ^ 63) ≤ base.sync.accE.toInt + (2 ^ 63 - 1) ∧ base.sync.accE.toInt + (2 ^ 63 - 1) < (2 : Int) ^ 63) ∧
    ¬(base.sync.accE.toInt + 2 ^ 63 < (2 : Int) ^ 63) := by decide +kernel

theorem witness_CntIncResult :
    let s := fun n : BitVec 64 => { base with sync := { base.sync with sampleCount := n } }
    (s 9007199254740991#64).fault = none ∧ (s 9007199254740991#64).sync.sampleCount.toNat + 1 = 2 ^ 53 ∧
    ((s 9007199254740990#64).sync.sampleCount.toNat + 1 ≠ 2 ^ 53 ∧
      (s 9007199254740990#64).sync.sampleCount.toNat + 1 < 2 ^ 64) ∧
    (s (BitVec.allOnes 64)).sync.sampleCount.toNat + 1 = 2 ^ 64 := by decide +kernel

/-- Not due, due and finite, due and not finite, for each of the two events. -/
theorem witness_EarlyAndLateEvents :
    let s : State := { base with
      cfg := { base.cfg with b := maxFinite }
      sync := { base.sync with nextE := maxFinite, nextL := maxFinite } }
    let zero := F64.zero
    (zero.isFinite = true ∧ zero.neg.isFinite = true ∧ maxFinite.isFinite = true) ∧
    base.fault = none ∧ s.fault = none ∧
    F64.le base.sync.nextE zero.neg = true ∧ F64.le s.sync.nextE zero = false ∧
    ((averaged base.sync.avgE base.sync.accE).isFinite = true ∧
      (F64.add base.sync.nextE base.cfg.b).isFinite = true) ∧
    (F64.le s.sync.nextE maxFinite = true ∧ (F64.add s.sync.nextE s.cfg.b).isFinite = false) ∧
    F64.le base.sync.nextL zero = false ∧
    (F64.le base.sync.nextL ⟨0x4046800000000000#64⟩ = true ∧ (averaged base.sync.avgL base.sync.accL).isFinite = true ∧
      (F64.add base.sync.nextL base.cfg.b).isFinite = true) ∧
    (F64.le s.sync.nextL maxFinite = true ∧ (F64.add s.sync.nextL s.cfg.b).isFinite = false) := by decide +kernel

/-- The buffer after RESET is small. -/
theorem soft_small_zeros : SoftSmall BitBuf.zeros := by
  intro i _; simp

theorem soft_small_base : SoftSmall base.rx.bitbuf := soft_small_zeros

theorem witness_EvtPromptResult :
    (F64.zero.isFinite = true ∧ maxFinite.isFinite = true ∧ F64.isFinite ⟨0x4037000000000000#64⟩ = true) ∧
    let m : State := { base with
      cfg := { base.cfg with reverse := true }
      sync := { base.sync with accP := BitVec.ofInt 64 (-big) } }
    let s : State := { base with
      cfg := { base.cfg with b := maxFinite }, sync := { base.sync with nextP := maxFinite } }
    base.fault = none ∧ F64.le base.sync.nextP F64.zero = false ∧
    (m.fault = none ∧ F64.le m.sync.nextP ⟨0x4037000000000000#64⟩ = true ∧ -m.sync.accP.toInt = 2 ^ 63) ∧
    (s.fault = none ∧ F64.le s.sync.nextP maxFinite = true ∧ s.sync.accP.toInt ≠ 2 ^ 63 ∧
      (prompted s s.sync.accP.toInt).sync.nextP.isFinite = false) ∧
    (F64.le base.sync.nextP ⟨0x4037000000000000#64⟩ = true ∧
      ((prompted base base.sync.accP.toInt).sync.avgP.isFinite &&
        (prompted base base.sync.accP.toInt).sync.nextP.isFinite) = true ∧
      base.rx.rxState ≠ 3#2 ∧ base.rx.errorCount.toNat ≤ 253 ∧ SoftSmall base.rx.bitbuf ∧
      base.sync.accP.toInt.natAbs < 2 ^ 62) :=
  ⟨by decide, rfl, by decide +kernel, ⟨rfl, by decide +kernel, by decide +kernel⟩,
    ⟨rfl, by decide +kernel, by decide +kernel, by decide +kernel⟩,
    by decide +kernel, by decide +kernel, by decide, by decide, soft_small_base, by decide⟩

theorem witness_ReverseOnlyNegatesTheDecision :
    let s : State := { base with sync := { base.sync with accP := 5#64 } }
    let r : State := { s with cfg := { s.cfg with reverse := true } }
    s.fault = none ∧ s.cfg.reverse = false ∧ F64.le s.sync.nextP ⟨0x4037000000000000#64⟩ = true ∧
    exec (.evtPrompt ⟨0x4037000000000000#64⟩) s = .next (run (.evtPrompt ⟨0x4037000000000000#64⟩) s) ∧
    (run (.evtPrompt ⟨0x4037000000000000#64⟩) s).fault = none ∧
    exec (.evtPrompt ⟨0x4037000000000000#64⟩) r = .next (run (.evtPrompt ⟨0x4037000000000000#64⟩) r) ∧
    (run (.evtPrompt ⟨0x4037000000000000#64⟩) r).fault = none :=
  ⟨rfl, rfl, by decide +kernel, rfl, by decide +kernel, rfl, by decide +kernel⟩

/-- Each of the four clauses: B = 0.0 at power-on; not due; due and finite; due with a slope out of range. -/
theorem witness_RealignResult :
    let far : State := { base with sync := { base.sync with avgL := maxFinite, avgE := maxFinite.neg } }
    let timed := fun (s : State) (t : F64) =>
      ((F64.mul F64.eight s.cfg.b).isFinite && (F64.fmod t (F64.mul F64.eight s.cfg.b)).isFinite,
       F64.feq (F64.fmod t (F64.mul F64.eight s.cfg.b)) F64.zero)
    State.reset.fault = none ∧ (timed State.reset F64.one).1 = false ∧
    base.fault = none ∧ timed base F64.one = (true, false) ∧ timed base ⟨0x408B900000000000#64⟩ = (true, true) ∧
    (slopeDefault base).isFinite = true ∧ (realigned base (slopeDefault base) F64.zero F64.zero F64.zero).sync.nextL.isFinite = true ∧
    far.fault = none ∧ timed far F64.zero = (true, true) ∧ (slopeDefault far).isFinite = false := by
  decide +kernel

theorem witness_BitInResult :
    let s := fun x : BitVec 2 => { base with rx := { base.rx with rxState := x } }
    (∀ x, (s x).fault = none ∧ (s x).rx.rxState = x) ∧
    (-(2 ^ 63) ≤ (-(2 ^ 63) : Int) ∧ (2 ^ 63 - 1 : Int) < 2 ^ 63) ∧ ¬((2 ^ 63 : Int) < 2 ^ 63) ∧
    ((s 2#2).rx.rxState ≠ 3#2 ∧ (s 2#2).rx.errorCount.toNat ≤ 253 ∧ SoftSmall (s 2#2).rx.bitbuf ∧
      (2 ^ 62 - 1 : Int).natAbs < 2 ^ 62) :=
  ⟨fun _ => ⟨rfl, rfl⟩, by decide, by decide, by decide, by decide, soft_small_base, by decide⟩

theorem witness_BufferHoldsTheLastBits :
    ((List.replicate 100 7#64).reverse[99]? = some 7#64) ∧ [7#64].reverse[0]? = some 7#64 ∧
    ([] : List I64).length ≤ 0 ∧ [7#64].length ≤ 99 := by decide

/-- T-CS-4 locks; a buffer of zeros does not. -/
theorem witness_SmSyncResult :
    base.fault = none ∧ (withBuf (slots 8 (phasing 7)) base).fault = none ∧
    findAlpha (slots 8 (phasing 7)) = .ok 36 ∧ (0 : Int) ≤ 36 ∧
    findAlpha base.rx.bitbuf = .ok (-1) ∧ (-1 : Int) < 0 :=
  ⟨rfl, rfl, by decide +kernel, by decide, by decide +kernel, by decide⟩

/-- A block at an alpha slot, with a buffer and an error count given. -/
def atSlot (b : BitBuf) (cursor : BitVec 7) (errors : BitVec 8) : State :=
  { base with rx := { base.rx with
      bitbuf := b, rxState := 2#2, bitCursor := cursor, errorCount := errors, alphaPhase := true } }

/-- Cursor 93 and 92; a rep slot; an alpha slot that decodes; a count that leaves 8 bits; a sum that leaves 64. -/
theorem witness_SmReadDataResult :
    let tooBig : State := atSlot (bufOf (List.replicate 100 (big - 1))) 92#7 0#8
    let full : State := atSlot BitBuf.zeros 92#7 255#8
    (base.fault = none ∧ (atSlot BitBuf.zeros 93#7 0#8).rx.bitCursor.toNat = 93) ∧
    ({ base with rx := { base.rx with bitCursor := 92#7 } }).rx.alphaPhase = false ∧
    (full.fault = none ∧ full.rx.bitCursor.toNat < 93 ∧ full.rx.alphaPhase = true ∧
      exec (.processBytes full.rx.bitCursor) full = .next (run (.processBytes full.rx.bitCursor) full) ∧
      (run (.processBytes full.rx.bitCursor) full).fault = none ∧
      (run (.processBytes full.rx.bitCursor) full).ret = .int (-2) ∧
      255 < max ((full.rx.errorCount.toNat : Int) - (-2)) 0 ∧ max (((253 : Nat) : Int) - (-2)) 0 ≤ 255) ∧
    (tooBig.fault = none ∧
      exec (.processBytes tooBig.rx.bitCursor) tooBig = .next (run (.processBytes tooBig.rx.bitCursor) tooBig) ∧
      (run (.processBytes tooBig.rx.bitCursor) tooBig).fault ≠ none) ∧
    (base.rx.errorCount.toNat ≤ 253 ∧ SoftSmall base.rx.bitbuf) :=
  ⟨⟨rfl, rfl⟩, rfl,
    ⟨rfl, by decide, rfl, rfl, by decide +kernel, by decide +kernel, by decide +kernel, by decide⟩,
    ⟨rfl, rfl, by decide +kernel⟩, by decide, soft_small_base⟩

theorem witness_SmSyncSetupResult : base.fault = none := rfl
theorem witness_FindAlphaIsTheSearch : base.fault = none := rfl
theorem witness_CodewordPrimitives : base.fault = none := rfl
theorem witness_ProcessCharResult : base.fault = none := rfl

/-- The alpha copy, the rep copy and their sum at c = 60. -/
def a60 (alpha rep : List Int) : Soft7 := slot (copies alpha rep).rx.bitbuf 60
def r60 (alpha rep : List Int) : Soft7 := slot (copies alpha rep).rx.bitbuf 25
def v60 (alpha rep : List Int) : Soft7 := slotSum (copies alpha rep).rx.bitbuf 60
/-- Neither copy is valid and the sum fits. -/
def bothFail (alpha rep : List Int) : Bool :=
  !validChar (a60 alpha rep) && !validChar (r60 alpha rep) && Soft7.fits (v60 alpha rep)
/-- 0x35 as soft bits. -/
def good : List Int := [10, -10, 10, -10, 10, 10, -10]
def five : List Int := [10, -10, 10, 10, 10, 10, -10]

/-- A fault beside an index past the buffer, and the rows of T-FEC-1 for the eight steps, with the added case c = 34
and a sum out of range. -/
theorem witness_ProcessBytesResult :
    base.fault = none ∧ (copies good good).fault = none ∧ 93 < (94#7).toNat ∧ (93#7).toNat ≤ 93 ∧
    validChar (a60 good good) = true ∧
    (validChar (slot base.rx.bitbuf (34#7).toNat) = false ∧ (34#7).toNat < 35) ∧
    (validChar (a60 five good) = false ∧ 35 ≤ (60#7).toNat ∧ validChar (r60 five good) = true) ∧
    (validChar (a60 (List.replicate 7 (big - 1)) (List.replicate 7 1)) = false ∧
      validChar (r60 (List.replicate 7 (big - 1)) (List.replicate 7 1)) = false ∧
      Soft7.fits (v60 (List.replicate 7 (big - 1)) (List.replicate 7 1)) = false) ∧
    (bothFail [-2, -10, 10, -10, 10, 10, -10] [10, 2, 10, -10, 10, 10, -10] = true ∧
      validChar (v60 [-2, -10, 10, -10, 10, 10, -10] [10, 2, 10, -10, 10, 10, -10]) = true) ∧
    SoftSmall base.rx.bitbuf :=
  ⟨rfl, rfl, by decide, by decide, by decide +kernel, ⟨by decide +kernel, by decide⟩,
    ⟨by decide +kernel, by decide, by decide +kernel⟩,
    ⟨by decide +kernel, by decide +kernel, by decide +kernel⟩, ⟨by decide +kernel, by decide +kernel⟩,
    soft_small_base⟩

/-- Steps 5 to 8: rows 5 to 8 of T-FEC-1. -/
theorem witness_ProcessBytesResult_flips :
    (bothFail [-1, -10, 10, -10, 10, 10, -10] [-10, -10, 10, -10, 10, 10, -10] = true ∧
      validChar (v60 [-1, -10, 10, -10, 10, 10, -10] [-10, -10, 10, -10, 10, 10, -10]) = false ∧
      flipSmallest (a60 [-1, -10, 10, -10, 10, 10, -10] [-10, -10, 10, -10, 10, 10, -10]) =
        .ok #v[1, -10, 10, -10, 10, 10, -10] ∧ validChar #v[1, -10, 10, -10, 10, 10, -10] = true) ∧
    (bothFail [10, 20, 10, -10, 10, 10, -10] [10, -10, 10, -10, -1, 10, -10] = true ∧
      validChar (v60 [10, 20, 10, -10, 10, 10, -10] [10, -10, 10, -10, -1, 10, -10]) = false ∧
      flipSmallest (a60 [10, 20, 10, -10, 10, 10, -10] [10, -10, 10, -10, -1, 10, -10]) =
        .ok #v[10, 20, 10, -10, 10, 10, -10] ∧ validChar #v[10, 20, 10, -10, 10, 10, -10] = false ∧
      flipSmallest (r60 [10, 20, 10, -10, 10, 10, -10] [10, -10, 10, -10, -1, 10, -10]) =
        .ok #v[10, -10, 10, -10, 1, 10, -10] ∧ validChar #v[10, -10, 10, -10, 1, 10, -10] = true) ∧
    (bothFail [10, 10, 10, 10, 10, -30, -30] [10, -30, -30, 10, 10, 10, 10] = true ∧
      validChar (v60 [10, 10, 10, 10, 10, -30, -30] [10, -30, -30, 10, 10, 10, 10]) = false ∧
      flipSmallest (r60 [10, 10, 10, 10, 10, -30, -30] [10, -30, -30, 10, 10, 10, 10]) =
        .ok #v[10, -30, -30, 10, 10, 10, 10] ∧ validChar #v[10, -30, -30, 10, 10, 10, 10] = false ∧
      flipSmallest (v60 [10, 10, 10, 10, 10, -30, -30] [10, -30, -30, 10, 10, 10, 10]) =
        .ok #v[20, 20, -20, 20, 20, -20, -20] ∧ validChar #v[20, 20, -20, 20, 20, -20, -20] = true) ∧
    (bothFail (List.replicate 7 10) (List.replicate 7 10) = true ∧
      validChar (v60 (List.replicate 7 10) (List.replicate 7 10)) = false ∧
      flipSmallest (a60 (List.replicate 7 10) (List.replicate 7 10)) = .ok #v[10, 10, 10, 10, 10, 10, 10] ∧
      flipSmallest (v60 (List.replicate 7 10) (List.replicate 7 10)) = .ok #v[20, 20, 20, 20, 20, 20, 20]) := by
  decide +kernel

theorem witness_ProcessBytesFrame :
    base.fault = none ∧ exec (.processBytes 92#7) base = .next (run (.processBytes 92#7) base) ∧
    (run (.processBytes 92#7) base).fault = none := ⟨rfl, rfl, by decide +kernel⟩

/-- Four negative, one of them the least integer; four positive; neither. -/
theorem witness_FlipSmallestResult :
    let c0 := fun v : Soft7 => v.toList.countP fun x => decide (x < 0)
    let c1 := fun v : Soft7 => (v.toList.countP fun x => decide (0 < x)) + 1
    base.fault = none ∧ c0 #v[-1, -1, -1, -1, 2, 2, 2] = 4 ∧ c0 #v[-big, -big, -big, -big, 2, 2, 2] = 4 ∧
    (c0 #v[1, 2, 3, 4, -1, -2, -3] ≠ 4 ∧ c1 #v[1, 2, 3, 4, -1, -2, -3] = 5) ∧
    (c0 #v[5, 6, -2, 7, 8, -9, 1] ≠ 4 ∧ c1 #v[5, 6, -2, 7, 8, -9, 1] ≠ 5) := by decide +kernel

theorem witness_FlipRepairsOnlyPopcountThree :
    (flipSmallest #v[-1, -1, -1, -1, 2, 2, 2] = .ok #v[1, -1, -1, -1, 2, 2, 2] ∧
      validChar #v[-1, -1, -1, -1, 2, 2, 2] = false ∧ validChar #v[1, -1, -1, -1, 2, 2, 2] = true) ∧
    (flipSmallest #v[5, 6, -2, 7, 8, -9, 1] = .ok #v[5, 6, -2, 7, 8, -9, 1] ∧
      ((#v[5, 6, -2, 7, 8, -9, 1] : Soft7).toList.countP fun x => decide (0 < x)) = 5) := by decide +kernel

theorem witness_RepAfterRepSlipsOneSlot :
    let s : State := { atSlot (slots 85 [0x66#7]) 85#7 0#8 with
      rx := { (atSlot (slots 85 [0x66#7]) 85#7 0#8).rx with lastCode := 0x66#7 } }
    s.fault = none ∧ s.rx.bitCursor.toNat < 93 ∧ s.rx.alphaPhase = true ∧
    validChar (slot s.rx.bitbuf s.rx.bitCursor.toNat) = true ∧
    bitsToCode (slot s.rx.bitbuf s.rx.bitCursor.toNat) = 0x66#7 ∧ s.rx.lastCode = 0x66#7 :=
  ⟨rfl, by decide, rfl, by decide +kernel, by decide +kernel, rfl⟩

theorem witness_SampleWithoutBurst :
    waiting.fault = none ∧ waiting.cfg.configured = true ∧ F64.one.isFinite = true ∧
    F64.le F64.one.abs F64.one = true ∧ PhaseLegal waiting.nco.phaseM ∧ PhaseLegal waiting.nco.phaseS ∧
    StepLegal waiting.cfg.dphiM ∧ StepLegal waiting.cfg.dphiS ∧
    MixerFinite waiting.nco.phaseM ∧ MixerFinite waiting.nco.phaseS ∧
    waiting.lpfM.fill + 1 ≠ Config.machine.block ∧ waiting.lpfS.fill + 1 ≠ Config.machine.block := by
  have hp : PhaseLegal base.nco.phaseM := by unfold PhaseLegal; decide +kernel
  have hm : StepLegal base.cfg.dphiM := by unfold StepLegal; decide +kernel
  have hs : StepLegal base.cfg.dphiS := by unfold StepLegal; decide +kernel
  exact ⟨rfl, rfl, by decide, by decide, hp, hp, hm, hs, mixer_finite_zero, mixer_finite_zero,
    Nat.succ_ne_self _, Nat.succ_ne_self _⟩

theorem witness_SampleIsItsSequence :
    base.fault = none ∧ base.cfg.configured = true ∧ F64.one.isFinite = true ∧
    F64.le F64.one.abs F64.one = true ∧ base.lpfM.fill = base.lpfS.fill := ⟨rfl, rfl, by decide, by decide, rfl⟩

/-- A pair for which the sequence ends, and one whose magnitude is out of range, so that its first operation ends it. -/
theorem witness_FsampleIsItsSequence :
    base.fault = none ∧ base.ret = base.ret ∧
    (match fsample Config.machine base zeroPair zeroPair with | .ok _ => true | .error _ => false) = true ∧
    fsample Config.machine base ⟨maxFinite, F64.zero⟩ zeroPair = .error (.numeric .mag) := by
  refine ⟨rfl, rfl, by decide +kernel, by rfl⟩

/-- Histories that differ in the sign of a zero, and the two zero samples. -/
theorem witness_ZeroSignHasNoEffect :
    let s : State := { waiting with lpfM := { waiting.lpfM with hist := [zeroPair] } }
    let s' : State := { waiting with lpfM := { waiting.lpfM with hist := [⟨F64.zero.neg, F64.zero⟩] } }
    SameButZeroSign (.sample F64.zero) (.sample F64.zero.neg) ∧ ZeroTwin s s' ∧
    exec (.evtEarly F64.zero) s = .next (run (.evtEarly F64.zero) s) :=
  ⟨.inr ⟨F64.zero, F64.zero.neg, rfl, rfl, by decide, by decide⟩, ⟨rfl, rfl, rfl, by decide, rfl⟩, rfl⟩

theorem config_legal_reset (fs : BitVec 32) (rv so : Bool) (s : State) (h : 1000 ≤ fs.toNat) :
    ConfigLegal (resetState fs rv so s).cfg := by
  unfold ConfigLegal
  rw [if_pos (show (resetState fs rv so s).cfg.configured = true from rfl)]
  exact ⟨h, rfl, rfl, rfl⟩

/-- After RESET the block is quiet. With P = 1 the next push completes a block of one; else it completes none. -/
theorem witness_SilenceStaysQuiet :
    Quiet base ∧ F64.zero.neg.absBits = 0 ∧ MixerFinite base.nco.phaseM ∧ MixerFinite base.nco.phaseS ∧
    (base.lpfS.fill + 1 = Config.machine.block → base.sync.sampleCount.toNat + Config.machine.block < 2 ^ 53) := by
  refine ⟨?_, by decide, mixer_finite_zero, mixer_finite_zero, ?_⟩
  · exact
      { live := rfl
        configured := rfl
        config := config_legal_reset 11025#32 false false State.reset (by decide)
        phaseM := by unfold PhaseLegal; decide +kernel
        phaseS := by unfold PhaseLegal; decide +kernel
        fillM := Nat.succ_pos _
        twin := rfl
        histM := by intro u hu; simp [base, resetState] at hu
        histS := by intro u hu; simp [base, resetState] at hu
        trackers := rfl
        accumulators := ⟨rfl, rfl, rfl⟩
        averages := ⟨rfl, rfl, rfl⟩
        schedule := by unfold IndexLegal; decide +kernel
        markState := rfl
        buffer := rfl
        searching := .inl rfl }
  · intro h
    have : Config.machine.block = 1 := h.symm
    rw [this]
    decide

theorem witness_ResetLeavesAQuietBlock : base.fault = none ∧ 1000 ≤ (1000#32).toNat := ⟨rfl, by decide⟩

theorem witness_WhatEveryOperationKeeps :
    exec (.processBytes 92#7) base = .next (run (.processBytes 92#7) base) ∧
    (run (.processBytes 92#7) base).fault = none := ⟨rfl, by decide +kernel⟩

theorem witness_OnlySitorBHasNoEffect :
    base.fault = none ∧ exec (.evtEarly F64.zero) base = .next (run (.evtEarly F64.zero) base) ∧
    (run (.evtEarly F64.zero) base).fault = none := ⟨rfl, rfl, by decide +kernel⟩

/-- The registers at power-on are legal, and so is the stream. -/
theorem reset_inv : Inv State.reset := fun _ =>
  { config := rfl
    phaseM := by unfold PhaseLegal; decide +kernel
    phaseS := by unfold PhaseLegal; decide +kernel
    fillM := Nat.succ_pos _
    fillS := Nat.succ_pos _
    histM := by intro u hu; simp [State.reset] at hu
    histS := by intro u hu; simp [State.reset] at hu
    reals := by unfold RealsFinite; decide +kernel
    count := by decide
    rxState := by decide
    cursor := by decide }

theorem witness_EveryStepKeepsRegistersLegal :
    Inv State.reset ∧ step State.reset = .next State.reset := ⟨reset_inv, rfl⟩

theorem witness_OrdinaryStepsKeepTheStreamLegal :
    let s : State := { State.reset with input := [.issue (.command 0x10000000000002B11#66), .drain,
      .issue (encode (.bitIn (-7)))] }
    (∀ e ∈ s.input, OrdinaryEvent e) ∧ Inv s ∧ StreamInv s ∧
    step s = .next (resetState 11025#32 false false { s with input := s.input.tail }) := by
  refine ⟨?_, ?_, ?_, rfl⟩
  · intro e he
    have hb : OrdinaryEvent (.issue (encode (.bitIn (-7)))) := ⟨-7, by decide +kernel⟩
    simp only [List.mem_cons, List.not_mem_nil, or_false] at he
    rcases he with rfl | rfl | rfl
    · exact True.intro
    · exact True.intro
    · exact hb
  · intro h
    obtain ⟨h1, h2, h3, h4, h5, h6, h7, h8, h9, h10, h11⟩ := reset_inv rfl
    exact ⟨h1, h2, h3, h4, h5, h6, h7, h8, h9, h10, h11⟩
  · intro _
    exact
      { errors := by decide
        errorsRunning := by intro _; decide
        records := by intro r hr; simp [State.reset] at hr
        last := .inl rfl
        twinHist := rfl
        fillM := by simp [State.reset]
        fillS := by simp [State.reset]
        count := by simp [State.reset] }

theorem witness_IntegersConvertExactly :
    ((2 : Int) ^ 53).natAbs ≤ 2 ^ 53 ∧ (-(2 : Int) ^ 53).natAbs ≤ 2 ^ 53 := by decide

theorem witness_ArithmeticRoundsToNearestEven :
    maxFinite.isFinite = true ∧ F64.half.isFinite = true ∧ (F64.add maxFinite F64.half).isFinite = true ∧
    (F64.sub maxFinite F64.half).isFinite = true ∧ (F64.mul maxFinite F64.half).isFinite = true ∧
    F64.two.absBits ≠ 0 ∧ (F64.div maxFinite F64.two).isFinite = true := by decide +kernel

theorem witness_SqrtRoundsToNearest :
    maxFinite.isFinite = true ∧ 0 ≤ maxFinite.key ∧ F64.zero.neg.isFinite = true ∧ 0 ≤ F64.zero.neg.key := by
  decide +kernel

theorem witness_FmodIsExact :
    F64.one.neg.isFinite = true ∧ maxFinite.isFinite = true ∧ maxFinite.absBits ≠ 0 ∧
    (⟨0x0000000000000001#64⟩ : F64).isFinite = true ∧ (⟨0x0000000000000001#64⟩ : F64).absBits ≠ 0 := by
  decide +kernel

end Tests
end Sys2Proof
end

section
/-! SUPPORT. The values of the binary64 patterns (spec R12): a finite number is its sign and a natural number of units
of `2 ^ (-1074)`, the least subnormal, and that number grows with the pattern. -/

namespace Sys2Proof
namespace F64

/-- The value with the given sign and magnitude. -/
def signed {R : Type} [Neg R] (neg : Bool) (a : R) : R := if neg then -a else a

@[simp] theorem signed_true {R : Type} [Neg R] (a : R) : signed true a = -a := rfl
@[simp] theorem signed_false {R : Type} [Neg R] (a : R) : signed false a = a := rfl

theorem signed_mul_signed {R : Type} [CommRing R] (s t : Bool) (a b : R) :
    signed s a * signed t b = signed (s != t) (a * b) := by
  cases s <;> cases t <;> simp

theorem abs_signed {R : Type} [CommRing R] [LinearOrder R] [IsOrderedRing R] (s : Bool) (a : R) :
    |signed s a| = |a| := by
  cases s <;> simp

theorem signed_add {R : Type} [CommRing R] (s : Bool) (a b : R) : signed s (a + b) = signed s a + signed s b := by
  cases s
  · rfl
  · exact neg_add a b

theorem signed_mul {R : Type} [CommRing R] (s : Bool) (a b : R) : signed s a * b = signed s (a * b) := by
  cases s <;> simp

theorem signed_div_signed {K : Type} [Field K] (s t : Bool) (a b : K) :
    signed s a / signed t b = signed (s != t) (a / b) := by
  cases s <;> cases t <;> simp [neg_div, div_neg]

theorem signed_natAbs (n : ℤ) : signed (decide (n < 0)) (n.natAbs : ℚ) = n := by
  rw [Nat.cast_natAbs]
  rcases lt_or_ge n 0 with hneg | hpos
  · rw [decide_eq_true hneg, signed_true, abs_of_neg hneg, Int.cast_neg, neg_neg]
  · rw [decide_eq_false hpos.not_gt, signed_false, abs_of_nonneg hpos]

theorem intCast_signed (s : Bool) (a : ℤ) : ((signed s a : ℤ) : ℚ) = signed s (a : ℚ) := by
  cases s <;> simp

theorem cast_signed (s : Bool) (a : ℚ) : ((signed s a : ℚ) : ℝ) = signed s (a : ℝ) := by
  cases s <;> simp

/-- The value of a 63-bit pattern in units of `2 ^ (-1074)`; infinity's is the first power of two out of range. The last
factor is the unit of the significand. -/
@[irreducible] def grid (p : ℕ) : ℕ := (p - (p / 2 ^ 52 - 1) * 2 ^ 52) * 2 ^ (p / 2 ^ 52 - 1)

/-- A significand `k`, put on an exponent field as `roundBits` does. A carry to `2 ^ 53` keeps the value. -/
theorem grid_add {j k : ℕ} (hk : k ≤ 2 ^ 53) (h : j = 0 ∨ 2 ^ 52 ≤ k) : grid (j * 2 ^ 52 + k) = k * 2 ^ j := by
  have hfield : (j * 2 ^ 52 + k) / 2 ^ 52 = j + k / 2 ^ 52 := by omega
  have hlead : k < 2 ^ 52 ∨ k / 2 ^ 52 = 1 ∨ k = 2 ^ 53 := by omega
  unfold grid
  rw [hfield]
  rcases hlead with hlt | hone | rfl
  · have hj : j = 0 := by omega
    rw [hj, Nat.div_eq_of_lt hlt]
    simp
  · rw [hone, Nat.add_sub_cancel, Nat.add_sub_cancel_left]
  · rw [show j + 2 ^ 53 / 2 ^ 52 - 1 = j + 1 by omega, show j * 2 ^ 52 + 2 ^ 53 - (j + 1) * 2 ^ 52 = 2 ^ 52 by omega,
      pow_succ']
    ring

/-- Every pattern is an exponent field and a significand. -/
theorem exists_field_significand (p : ℕ) :
    ∃ j k, p = j * 2 ^ 52 + k ∧ k < 2 ^ 53 ∧ (j = 0 ∨ 2 ^ 52 ≤ k) :=
  ⟨p / 2 ^ 52 - 1, p - (p / 2 ^ 52 - 1) * 2 ^ 52, by omega, by omega, by omega⟩

theorem grid_strictMono : StrictMono grid := by
  refine strictMono_nat_of_lt_succ fun p => ?_
  obtain ⟨j, k, rfl, hk, hj⟩ := exists_field_significand p
  rw [add_assoc, grid_add hk.le hj, grid_add hk (by omega)]
  gcongr
  omega

/-- A number of at most 53 bits has a pattern at every exponent. -/
theorem exists_grid_eq {k : ℕ} (hk : k ≤ 2 ^ 53) (j : ℕ) : ∃ p, grid p = k * 2 ^ j := by
  induction j generalizing k with
  | zero => exact ⟨0 * 2 ^ 52 + k, grid_add hk (.inl rfl)⟩
  | succ j ih =>
    rcases le_or_gt (2 ^ 52) k with hnormal | hsmall
    · exact ⟨(j + 1) * 2 ^ 52 + k, grid_add hk (.inr hnormal)⟩
    · obtain ⟨p, hp⟩ := ih (k := k * 2) (by omega)
      exact ⟨p, by rw [hp, pow_succ', mul_assoc]⟩

/-- `2 ^ (-1074)`, the least positive value. -/
def ulp : ℚ := 2 ^ (-1074 : ℤ)

theorem ulp_pos : 0 < ulp := by unfold ulp; positivity

theorem cast_ulp_pos : (0 : ℝ) < ulp := by exact_mod_cast ulp_pos

/-- A magnitude whose exponent is not below the subnormals' is a natural number of units. -/
theorem mul_two_zpow_eq_mul_ulp (m : ℕ) {e : ℤ} (he : -1074 ≤ e) :
    (m : ℚ) * 2 ^ e = (m * 2 ^ (e + 1074).toNat : ℕ) * ulp := by
  have hexp : e = ((e + 1074).toNat : ℤ) + (-1074) := by omega
  rw [ulp, Nat.cast_mul, Nat.cast_pow, Nat.cast_ofNat, mul_assoc, ← zpow_natCast, ← zpow_add₀ two_ne_zero, ← hexp]

theorem cast_mul_two_zpow (m : ℕ) (e : ℤ) : (((m : ℚ) * 2 ^ e : ℚ) : ℝ) = m * 2 ^ e := by
  push_cast
  rfl

theorem mag_lt (x : F64) : x.mag < 2 ^ 53 := by
  unfold mag
  rw [expField_eq, frac_eq]
  split <;> omega

theorem expo_ge (x : F64) : -1074 ≤ x.expo := by
  unfold expo
  split <;> omega

theorem mag_eq_zero_iff (x : F64) : x.mag = 0 ↔ x.absBits = 0 := by
  unfold mag
  rw [expField_eq, frac_eq]
  split <;> omega

/-- The magnitude of a number is the value of its low 63 bits. -/
theorem mag_mul_expo (x : F64) : (x.mag : ℚ) * 2 ^ x.expo = grid x.absBits * ulp := by
  have hsplit : grid x.absBits = x.mag * 2 ^ (x.expo + 1074).toNat := by
    unfold mag expo grid
    rw [expField_eq, frac_eq]
    split <;> congr 2 <;> omega
  rw [hsplit, mul_two_zpow_eq_mul_ulp _ (expo_ge x)]

theorem toRat_eq_signed_mag (x : F64) : x.toRat = signed x.sign ((x.mag : ℚ) * 2 ^ x.expo) := by
  unfold toRat sval
  cases x.sign <;> simp

theorem toRat_eq_signed_grid (x : F64) : x.toRat = signed x.sign (grid x.absBits * ulp) := by
  rw [toRat_eq_signed_mag, mag_mul_expo]

theorem toRat_pack (neg : Bool) {p : ℕ} (h : p < 2 ^ 63) : (pack neg p).toRat = signed neg (grid p * ulp) := by
  rw [toRat_eq_signed_grid, pack_sign neg h, pack_absBits neg h]

theorem abs_toRat (x : F64) : |x.toRat| = x.mag * 2 ^ x.expo := by
  rw [toRat_eq_signed_mag, abs_signed, abs_of_nonneg (by positivity)]

@[simp] theorem grid_zero : grid 0 = 0 := by unfold grid; rfl

@[simp] theorem toRat_signedZero (neg : Bool) : (signedZero neg).toRat = 0 := by
  rw [signedZero, toRat_pack neg (by norm_num)]
  cases neg <;> simp

theorem toRat_eq_zero_iff (x : F64) : x.toRat = 0 ↔ x.absBits = 0 := by
  rw [← mag_eq_zero_iff, toRat_eq_signed_mag, ← abs_eq_zero, abs_signed, abs_eq_zero]
  simp [zpow_ne_zero]

@[simp] theorem sign_neg (x : F64) : x.neg.sign = !x.sign := by
  have hmask : (0x8000000000000000#64).msb = true := by decide
  simp [neg, sign, hmask]

@[simp] theorem absBits_neg (x : F64) : x.neg.absBits = x.absBits := by
  simp [neg, absBits, BitVec.extractLsb'_xor]

@[simp] theorem isFinite_neg (x : F64) : x.neg.isFinite = x.isFinite := by
  rw [Bool.eq_iff_iff, isFinite_iff, isFinite_iff, absBits_neg]

@[simp] theorem toRat_neg (x : F64) : x.neg.toRat = -x.toRat := by
  rw [toRat_eq_signed_grid, toRat_eq_signed_grid, sign_neg, absBits_neg]
  cases x.sign <;> simp

end F64
end Sys2Proof
end

section
/-! SUPPORT. Rounding to a pattern (spec R12): `roundBits` answers the pattern nearest to the exact value, and the even
one of two that are equally near. -/

namespace Sys2Proof
namespace F64

/-- `k` is an integer nearest to `t`, and the even one where two are equally near. -/
def RoundsTo (t : ℝ) (k : ℕ) : Prop := |k - t| ≤ 1 / 2 ∧ (|k - t| = 1 / 2 → k % 2 = 0)

theorem roundsTo_self (k : ℕ) : RoundsTo k k := by
  simp [RoundsTo]

/-- `p` is a pattern nearest to `w` units of `2 ^ (-1074)`, and the even one where two are equally near. Infinity's
pattern counts with its value in `grid`. -/
def GridNearest (w : ℝ) (p : ℕ) : Prop :=
  ∀ p' : ℕ, |grid p - w| ≤ |grid p' - w| ∧ (|grid p - w| = |grid p' - w| → p' ≠ p → p % 2 = 0)

/-- The next pattern is at least one unit of the significand further. -/
theorem grid_add_unit_le_grid_succ {j k : ℕ} (hk : k ≤ 2 ^ 53) (h : j = 0 ∨ 2 ^ 52 ≤ k) :
    grid (j * 2 ^ 52 + k) + 2 ^ j ≤ grid (j * 2 ^ 52 + k + 1) := by
  rcases hk.lt_or_eq with hlt | rfl
  · rw [add_assoc, grid_add hk h, grid_add hlt (by omega), Nat.succ_mul]
  · have hcarry : j * 2 ^ 52 + 2 ^ 53 + 1 = (j + 1) * 2 ^ 52 + (2 ^ 52 + 1) := by omega
    rw [hcarry, grid_add hk h, grid_add (by norm_num) (.inr (by norm_num)), pow_succ]
    have := Nat.two_pow_pos j
    omega

/-- A pattern at most half of `u` from `w`, and at half of it only if even, is the nearest one when every other pattern
is `u` away from it or strictly further from `w`. -/
theorem gridNearest_of_separated {w u : ℝ} {p : ℕ} (hnear : |grid p - w| ≤ u / 2)
    (htie : |grid p - w| = u / 2 → p % 2 = 0)
    (hsep : ∀ p' ≠ p, u ≤ |(grid p' : ℝ) - grid p| ∨ |grid p - w| < |grid p' - w|) : GridNearest w p := by
  intro p'
  rcases eq_or_ne p' p with rfl | hne
  · exact ⟨le_rfl, fun _ h => absurd rfl h⟩
  · rcases hsep p' hne with haway | hfurther
    · have htriangle := abs_sub_le (grid p' : ℝ) w (grid p)
      rw [abs_sub_comm w] at htriangle
      exact ⟨by linarith, fun heq _ => htie (by linarith)⟩
    · exact ⟨hfurther.le, fun heq _ => absurd heq hfurther.ne⟩

/-- The patterns above a significand `k` are at least one unit away. -/
theorem grid_add_unit_le_of_lt {j k p' : ℕ} (hk : k ≤ 2 ^ 53) (h : j = 0 ∨ 2 ^ 52 ≤ k) (habove : j * 2 ^ 52 + k < p') :
    (grid (j * 2 ^ 52 + k) : ℝ) + 2 ^ j ≤ grid p' := by
  have hle : grid (j * 2 ^ 52 + k + 1) ≤ grid p' := grid_strictMono.monotone (by omega)
  exact_mod_cast (grid_add_unit_le_grid_succ hk h).trans hle

/-- So are the patterns below it, unless `k` is the least of its exponent. -/
theorem grid_add_unit_le_of_gt {j k p' : ℕ} (hk : k ≤ 2 ^ 53) (h : j = 0 ∨ 2 ^ 52 < k) (hbelow : p' < j * 2 ^ 52 + k) :
    (grid p' : ℝ) + 2 ^ j ≤ grid (j * 2 ^ 52 + k) := by
  obtain ⟨k, rfl⟩ : ∃ i, k = i + 1 := ⟨k - 1, by omega⟩
  have hle : grid p' ≤ grid (j * 2 ^ 52 + k) := grid_strictMono.monotone (by omega)
  have hunit := grid_add_unit_le_grid_succ (j := j) (k := k) (by omega) (by omega)
  rw [add_assoc] at hunit
  exact_mod_cast (Nat.add_le_add_right hle _).trans hunit

/-- A number rounded to an integer in the unit of its 53 leading bits, or in that of the subnormals, is rounded to the
nearest pattern. -/
theorem gridNearest_of_roundsTo {t : ℝ} {j k : ℕ} (hlow : j = 0 ∨ 2 ^ 52 ≤ t) (hhigh : t < 2 ^ 53)
    (hround : RoundsTo t k) : GridNearest (t * 2 ^ j) (j * 2 ^ 52 + k) := by
  obtain ⟨hnear, htie⟩ := hround
  have hunit : (0 : ℝ) < 2 ^ j := by positivity
  obtain ⟨hlower, hupper⟩ := abs_le.mp hnear
  have hk53 : k ≤ 2 ^ 53 := by
    have : (k : ℝ) < (2 ^ 53 + 1 : ℕ) := by push_cast; linarith
    exact Nat.lt_succ_iff.mp (by exact_mod_cast this)
  have hk52 : j = 0 ∨ 2 ^ 52 ≤ k := hlow.imp_right fun h => by
    have : ((2 ^ 52 : ℕ) : ℝ) < (k + 1 : ℕ) := by push_cast; linarith
    exact Nat.lt_succ_iff.mp (by exact_mod_cast this)
  have hgrid : (grid (j * 2 ^ 52 + k) : ℝ) = k * 2 ^ j := by exact_mod_cast grid_add hk53 hk52
  have hdist : |(grid (j * 2 ^ 52 + k) : ℝ) - t * 2 ^ j| = |k - t| * 2 ^ j := by
    rw [hgrid, ← sub_mul, abs_mul, abs_of_pos hunit]
  refine gridNearest_of_separated (u := 2 ^ j) ?_ (fun heq => ?_) (fun p' hne => ?_)
  · rw [hdist]
    linarith [mul_le_mul_of_nonneg_right hnear hunit.le]
  · have hhalf : |(k : ℝ) - t| = 1 / 2 := mul_right_cancel₀ hunit.ne' (by rw [← hdist, heq]; ring)
    have := htie hhalf
    omega
  · rcases hne.lt_or_gt with hbelow | habove
    · by_cases hpower : j = 0 ∨ 2 ^ 52 < k
      · exact .inl (le_abs.mpr (.inr (by linarith [grid_add_unit_le_of_gt hk53 hpower hbelow])))
      · -- the significand is a power of two: `w` is not below it, and the patterns below it are further
        have hpow : (grid (j * 2 ^ 52 + k) : ℝ) ≤ t * 2 ^ j := by
          have hk : (k : ℝ) = 2 ^ 52 := by exact_mod_cast (by omega : k = 2 ^ 52)
          rw [hgrid, hk]
          exact mul_le_mul_of_nonneg_right (hlow.resolve_left (by omega)) hunit.le
        have hlt : (grid p' : ℝ) < grid (j * 2 ^ 52 + k) := by exact_mod_cast grid_strictMono hbelow
        exact .inr (by rw [abs_of_nonpos (by linarith), abs_of_nonpos (by linarith)]; linarith)
    · exact .inl (le_abs.mpr (.inl (by linarith [grid_add_unit_le_of_lt hk53 hk52 habove])))

/-- `δ` is the part of the exact value below the integer `m`, as `roundBits` is told of it: not 0 exactly where
`sticky`, and then `m` has at least 55 bits. -/
structure Tail (m : ℕ) (sticky : Bool) (δ : ℝ) : Prop where
  nonneg : 0 ≤ δ
  lt_one : δ < 1
  pos_iff : sticky = true ↔ 0 < δ
  wide : sticky = true → 2 ^ 54 ≤ m

theorem Tail.zero (m : ℕ) : Tail m false 0 := by
  constructor <;> simp

theorem Tail.eq_zero {m : ℕ} {δ : ℝ} (h : Tail m false δ) : δ = 0 :=
  le_antisymm (not_lt.mp fun hpos => Bool.false_ne_true (h.pos_iff.mpr hpos)) h.nonneg

theorem roundsTo_down {k : ℕ} {f : ℝ} (h0 : 0 ≤ f) (h : f ≤ 1 / 2) (htie : f = 1 / 2 → k % 2 = 0) :
    RoundsTo (k + f) k := by
  have hdist : |(k : ℝ) - (k + f)| = f := by rw [abs_of_nonpos (by linarith)]; ring
  rw [RoundsTo, hdist]
  exact ⟨h, htie⟩

theorem roundsTo_up {k : ℕ} {f : ℝ} (h1 : f ≤ 1) (h : 1 / 2 ≤ f) (htie : f = 1 / 2 → (k + 1) % 2 = 0) :
    RoundsTo (k + f) (k + 1) := by
  have hdist : |((k + 1 : ℕ) : ℝ) - (k + f)| = 1 - f := by
    rw [abs_of_nonneg (by push_cast; linarith)]; push_cast; ring
  rw [RoundsTo, hdist]
  exact ⟨by linarith, fun heq => htie (by linarith)⟩

/-- The bits that a shift by `s + 1` drops, and `δ` below them, are half of the unit only at the tie. -/
theorem dropped_eq_half {rest s : ℕ} {δ : ℝ} (h0 : 0 ≤ δ) (h1 : δ < 1) (h : (rest + δ) / (2 * 2 ^ s) = 1 / 2) :
    rest = 2 ^ s ∧ δ = 0 := by
  have hmid : rest + δ = 2 ^ s := by field_simp at h; linarith
  have hle : rest ≤ 2 ^ s := by exact_mod_cast (by linarith : (rest : ℝ) ≤ 2 ^ s)
  have hge : 2 ^ s < rest + 1 := by exact_mod_cast (by linarith : (2 : ℝ) ^ s < rest + 1)
  obtain rfl : rest = 2 ^ s := by omega
  push_cast at hmid
  exact ⟨rfl, by linarith⟩

/-- `roundShift` rounds the integer it keeps by the bits it drops. -/
theorem roundsTo_roundShift {m s : ℕ} {sticky : Bool} {δ : ℝ} (hs : 0 < s) (htail : Tail m sticky δ) :
    RoundsTo ((m + δ) / 2 ^ s) (roundShift m s sticky) := by
  obtain ⟨s, rfl⟩ : ∃ i, s = i + 1 := ⟨s - 1, by omega⟩
  have hunit : (2 : ℝ) ^ (s + 1) = 2 * 2 ^ s := pow_succ' ..
  have hrest : m % 2 ^ (s + 1) + 1 ≤ 2 ^ (s + 1) := Nat.mod_lt _ (by positivity)
  have hsplit : 2 ^ (s + 1) * (m / 2 ^ (s + 1)) + m % 2 ^ (s + 1) = m := Nat.div_add_mod ..
  have hd0 := htail.nonneg
  have hd1 := htail.lt_one
  have hsticky := htail.pos_iff
  unfold roundShift
  simp only [Nat.shiftRight_eq_div_pow, Nat.add_sub_cancel, Bool.or_eq_true, decide_eq_true_eq, Bool.and_eq_true,
    beq_iff_eq]
  generalize m / 2 ^ (s + 1) = keep at *
  generalize m % 2 ^ (s + 1) = rest at *
  have hrest' : (rest : ℝ) + 1 ≤ 2 * 2 ^ s := by rw [← hunit]; exact_mod_cast hrest
  have hvalue : (m + δ) / 2 ^ (s + 1) = keep + (rest + δ) / (2 * 2 ^ s) := by
    rw [← hsplit, hunit, Nat.cast_add, Nat.cast_mul, Nat.cast_pow, Nat.cast_ofNat, hunit]
    field_simp
    ring
  have hwidth : (0 : ℝ) < 2 * 2 ^ s := by positivity
  rw [hvalue]
  split
  next hup =>
    refine roundsTo_up ((div_le_one hwidth).mpr (by linarith)) ((le_div_iff₀ hwidth).mpr ?_) fun hmid => ?_
    · have : (2 : ℝ) ^ s ≤ rest := by exact_mod_cast (by omega : 2 ^ s ≤ rest)
      linarith
    · obtain ⟨hrest, hd⟩ := dropped_eq_half hd0 hd1 hmid
      have hexact : ¬sticky = true := by rw [hsticky, hd]; exact lt_irrefl 0
      rcases hup with habove | ⟨-, hst | hodd⟩
      · omega
      · exact absurd hst hexact
      · omega
  next hdown =>
    refine roundsTo_down (by positivity) ((div_le_iff₀ hwidth).mpr ?_) fun hmid => ?_
    · rcases (by omega : rest + 1 ≤ 2 ^ s ∨ rest = 2 ^ s) with hbelow | hrest
      · have : (rest : ℝ) + 1 ≤ 2 ^ s := by exact_mod_cast hbelow
        linarith
      · have hd : ¬0 < δ := by rw [← hsticky]; exact fun h => hdown (.inr ⟨hrest, .inl h⟩)
        have : (rest : ℝ) = 2 ^ s := by exact_mod_cast hrest
        linarith
    · have := (dropped_eq_half hd0 hd1 hmid).1
      omega

theorem roundUnit_ge (m : ℕ) (e : ℤ) : -1074 ≤ roundUnit m e := le_max_right ..

theorem le_roundUnit (m : ℕ) (e : ℤ) : e + (m.log2 : ℤ) - 52 ≤ roundUnit m e := le_max_left ..

/-- The exact value, in the unit it is rounded to, has at most 53 bits before the point. -/
theorem lt_two_pow_of_roundUnit {m : ℕ} {e : ℤ} {δ : ℝ} (hδ : δ < 1) :
    (m + δ) * 2 ^ (e - roundUnit m e) < (2 : ℝ) ^ 53 := by
  have hlog : m + 1 ≤ 2 ^ (m.log2 + 1) := Nat.lt_log2_self
  have hlog' : (m : ℝ) + 1 ≤ 2 ^ ((m.log2 : ℤ) + 1) := by exact_mod_cast hlog
  have hexp : e - roundUnit m e ≤ 52 - m.log2 := by have := le_roundUnit m e; omega
  calc (m + δ) * 2 ^ (e - roundUnit m e)
      < 2 ^ ((m.log2 : ℤ) + 1) * 2 ^ (e - roundUnit m e) := by gcongr; linarith
    _ ≤ 2 ^ ((m.log2 : ℤ) + 1) * 2 ^ (52 - (m.log2 : ℤ)) := by gcongr; norm_num
    _ = 2 ^ 53 := by rw [← zpow_add₀ two_ne_zero, ← zpow_natCast]; congr 1; push_cast; ring

/-- It has exactly 53, unless the unit is that of the subnormals. -/
theorem two_pow_le_of_roundUnit {m : ℕ} {e : ℤ} {δ : ℝ} (hm : m ≠ 0) (hδ : 0 ≤ δ) (hq : roundUnit m e ≠ -1074) :
    (2 : ℝ) ^ 52 ≤ (m + δ) * 2 ^ (e - roundUnit m e) := by
  have hlog : (2 : ℝ) ^ (m.log2 : ℤ) ≤ m := by exact_mod_cast Nat.log2_self_le hm
  have hexp : 52 - (m.log2 : ℤ) = e - roundUnit m e := by unfold roundUnit at *; omega
  calc (2 : ℝ) ^ 52 = 2 ^ (m.log2 : ℤ) * 2 ^ (52 - (m.log2 : ℤ)) := by
        rw [← zpow_add₀ two_ne_zero, ← zpow_natCast]; congr 1; push_cast; ring
    _ ≤ (m + δ) * 2 ^ (e - roundUnit m e) := by
        rw [hexp]
        gcongr
        linarith

/-- The significand that `roundBits` puts below the exponent. -/
theorem roundBits_roundsTo {m : ℕ} {e : ℤ} {sticky : Bool} {δ : ℝ} (htail : Tail m sticky δ) :
    ∃ k, roundBits m e sticky = (roundUnit m e + 1074).toNat * 2 ^ 52 + k ∧
      RoundsTo ((m + δ) * 2 ^ (e - roundUnit m e)) k := by
  refine ⟨_, rfl, ?_⟩
  split
  next hle =>
    obtain rfl : sticky = false := by
      by_contra hsticky
      have hwide := htail.wide (by simpa using hsticky)
      have hlog : 54 ≤ m.log2 := (Nat.le_log2 (by omega)).mpr hwide
      have := le_roundUnit m e
      omega
    have hexp : e - roundUnit m e = (e - roundUnit m e).toNat := by omega
    rw [htail.eq_zero, add_zero, hexp, zpow_natCast, Int.toNat_natCast, Nat.shiftLeft_eq]
    exact_mod_cast roundsTo_self (m * 2 ^ (e - roundUnit m e).toNat)
  next hgt =>
    have hexp : e - roundUnit m e = -((roundUnit m e - e).toNat : ℤ) := by omega
    rw [hexp, zpow_neg, zpow_natCast, ← div_eq_mul_inv]
    exact roundsTo_roundShift (by omega) htail

/-- R12: `roundBits` answers the pattern nearest to the exact value `(m + δ) * 2 ^ e`, ties to even. -/
theorem gridNearest_roundBits {m : ℕ} {e : ℤ} {sticky : Bool} {δ : ℝ} (hm : m ≠ 0) (htail : Tail m sticky δ) :
    GridNearest ((m + δ) * 2 ^ (e + 1074)) (roundBits m e sticky) := by
  obtain ⟨k, hbits, hround⟩ := roundBits_roundsTo (e := e) htail
  have hunit := roundUnit_ge m e
  have hscale : (m + δ) * (2 : ℝ) ^ (e + 1074) =
      (m + δ) * 2 ^ (e - roundUnit m e) * 2 ^ (roundUnit m e + 1074).toNat := by
    rw [← zpow_natCast, mul_assoc, ← zpow_add₀ two_ne_zero]
    congr 2
    omega
  rw [hbits, hscale]
  refine gridNearest_of_roundsTo ?_ (lt_two_pow_of_roundUnit htail.lt_one) hround
  rcases eq_or_ne (roundUnit m e) (-1074) with hsub | hnormal
  · exact .inl (by omega)
  · exact .inr (two_pow_le_of_roundUnit hm htail.nonneg hnormal)

end F64
end Sys2Proof
end

section
/-! SUPPORT. Rounding to a number (spec R12): `roundPack` answers the number nearest to the exact value, and what fits
53 bits exactly. -/

open Sys2Proof.Claims

namespace Sys2Proof
namespace F64

/-- `NearestEven` of a real number. -/
def NearestEvenReal (v : ℝ) (x : F64) : Prop :=
  ∀ y : F64, y.isFinite = true → |(x.toRat : ℝ) - v| ≤ |(y.toRat : ℝ) - v| ∧
    (|(x.toRat : ℝ) - v| = |(y.toRat : ℝ) - v| → y.toRat ≠ x.toRat → x.absBits % 2 = 0)

theorem nearestEven_iff (q : ℚ) (x : F64) : NearestEven q x ↔ NearestEvenReal q x := by
  unfold NearestEven NearestEvenReal
  norm_cast

theorem nearestEvenReal_of_eq {v : ℝ} {x : F64} (h : (x.toRat : ℝ) = v) : NearestEvenReal v x := by
  intro y _
  subst h
  rw [sub_self, abs_zero]
  refine ⟨abs_nonneg _, fun heq hne => absurd ?_ hne⟩
  exact_mod_cast sub_eq_zero.mp (abs_eq_zero.mp heq.symm)

theorem eq_of_nearestEvenReal {v : ℝ} {x y : F64} (h : NearestEvenReal v x) (hy : y.isFinite = true)
    (hv : (y.toRat : ℝ) = v) : (x.toRat : ℝ) = v := by
  have hdist := (h y hy).1
  rw [hv, sub_self, abs_zero] at hdist
  exact sub_eq_zero.mp (abs_nonpos_iff.mp hdist)

theorem abs_signed_sub_signed_same (s : Bool) (a b : ℝ) : |signed s a - signed s b| = |a - b| := by
  cases s
  · rfl
  · rw [signed_true, signed_true, neg_sub_neg, abs_sub_comm]

theorem abs_signed_sub_signed_ne {s t : Bool} (hne : s ≠ t) {a b : ℝ} (ha : 0 ≤ a) (hb : 0 ≤ b) :
    |signed s a - signed t b| = a + b := by
  obtain rfl : s = !t := Bool.eq_not_of_ne hne
  cases t
  · rw [Bool.not_false, signed_true, signed_false, abs_of_nonpos (by linarith)]
    ring
  · rw [Bool.not_true, signed_true, signed_false, sub_neg_eq_add, abs_of_nonneg (by linarith)]

theorem abs_toRat_sub_of_sign_eq {x : F64} {neg : Bool} (hsign : x.sign = neg) (w : ℝ) :
    |(x.toRat : ℝ) - signed neg (w * ulp)| = |grid x.absBits - w| * ulp := by
  rw [toRat_eq_signed_grid, hsign, cast_signed, abs_signed_sub_signed_same, Rat.cast_mul, Rat.cast_natCast, ← sub_mul,
    abs_mul, abs_of_pos cast_ulp_pos]

theorem abs_toRat_sub_of_sign_ne {x : F64} {neg : Bool} (hsign : x.sign ≠ neg) {w : ℝ} (hw : 0 ≤ w) :
    |(x.toRat : ℝ) - signed neg (w * ulp)| = (grid x.absBits + w) * ulp := by
  have hulp := cast_ulp_pos
  rw [toRat_eq_signed_grid, cast_signed, Rat.cast_mul, Rat.cast_natCast,
    abs_signed_sub_signed_ne hsign (by positivity) (by positivity), add_mul]

/-- The number of the same sign as `v` with the nearest pattern is nearest to `v`: a number of the other sign is not
nearer than zero. -/
theorem nearestEvenReal_pack (neg : Bool) {w : ℝ} {p : ℕ} (hp : p < 2 ^ 63) (hw : 0 ≤ w) (h : GridNearest w p) :
    NearestEvenReal (signed neg (w * ulp)) (pack neg p) := by
  intro y _
  have hulp := cast_ulp_pos
  rw [abs_toRat_sub_of_sign_eq (pack_sign neg hp), pack_absBits neg hp]
  rcases eq_or_ne y.sign neg with hsame | hother
  · rw [abs_toRat_sub_of_sign_eq hsame]
    refine ⟨mul_le_mul_of_nonneg_right (h _).1 hulp.le, fun heq hne => ?_⟩
    refine (h y.absBits).2 (mul_right_cancel₀ hulp.ne' heq) fun hbits => hne ?_
    rw [toRat_eq_signed_grid y, hbits, hsame, toRat_pack neg hp]
  · obtain ⟨hzero, htie⟩ := h 0
    rw [grid_zero, Nat.cast_zero, zero_sub, abs_neg, abs_of_nonneg hw] at hzero htie
    have hgrid : (0 : ℝ) ≤ grid y.absBits := Nat.cast_nonneg _
    rw [abs_toRat_sub_of_sign_ne hother hw]
    refine ⟨mul_le_mul_of_nonneg_right (by linarith) hulp.le, fun heq hne => ?_⟩
    have hsum := mul_right_cancel₀ hulp.ne' heq
    refine htie (by linarith) fun hp0 => hne ?_
    have hy0 : grid y.absBits = 0 := by exact_mod_cast (by linarith : (grid y.absBits : ℝ) = 0)
    rw [toRat_eq_signed_grid, hy0, toRat_pack neg hp, ← hp0, grid_zero]
    cases neg <;> cases y.sign <;> simp

/-- A value up to some pattern's is rounded to no greater one. -/
theorem le_of_gridNearest {w : ℝ} {p p₀ : ℕ} (h : GridNearest w p) (hle : w ≤ grid p₀) : p ≤ p₀ := by
  by_contra hlt
  have hgrid : (grid p₀ : ℝ) < grid p := by exact_mod_cast grid_strictMono (not_le.mp hlt)
  have hdist := (h p₀).1
  rw [abs_of_nonneg (by linarith), abs_of_nonneg (by linarith)] at hdist
  linarith

/-- A magnitude in units of `ulp`. -/
theorem mul_zpow_eq_mul_ulp (a : ℝ) (e : ℤ) : a * 2 ^ e = a * 2 ^ (e + 1074) * ulp := by
  have hulp : ((ulp : ℚ) : ℝ) = 2 ^ (-1074 : ℤ) := by rw [ulp, Rat.cast_zpow, Rat.cast_ofNat]
  rw [hulp, mul_assoc, ← zpow_add₀ two_ne_zero]
  congr 2
  omega

theorem roundPack_zero (neg : Bool) (e : ℤ) (sticky : Bool) : roundPack neg 0 e sticky = signedZero neg := rfl

theorem roundPack_of_lt {neg : Bool} {m : ℕ} {e : ℤ} {sticky : Bool} (hm : m ≠ 0)
    (hlt : roundBits m e sticky < 2047 * 2 ^ 52) : roundPack neg m e sticky = pack neg (roundBits m e sticky) := by
  rw [roundPack, if_neg hm, if_neg (by omega)]

theorem isFinite_pack (neg : Bool) {p : ℕ} (hp : p < 2 ^ 63) : (pack neg p).isFinite = true ↔ p < 2047 * 2 ^ 52 := by
  rw [isFinite_iff, pack_absBits neg hp]

@[simp] theorem isFinite_signedZero (neg : Bool) : (signedZero neg).isFinite = true :=
  (isFinite_pack neg (by norm_num)).mpr (by norm_num)

theorem isFinite_roundPack_iff {neg : Bool} {m : ℕ} {e : ℤ} {sticky : Bool} (hm : m ≠ 0) :
    (roundPack neg m e sticky).isFinite = true ↔ roundBits m e sticky < 2047 * 2 ^ 52 := by
  rcases lt_or_ge (roundBits m e sticky) (2047 * 2 ^ 52) with hlt | hge
  · rw [roundPack_of_lt hm hlt, isFinite_pack neg (by omega)]
  · rw [roundPack, if_neg hm, if_pos hge, infinity, isFinite_pack neg (by norm_num)]
    omega

theorem Tail.eq_zero_of_eq_zero {m : ℕ} {sticky : Bool} {δ : ℝ} (h : Tail m sticky δ) (hm : m = 0) : δ = 0 := by
  cases sticky with
  | false => exact h.eq_zero
  | true => exact absurd (h.wide rfl) (by omega)

/-- R12: a finite answer of `roundPack` is nearest to the exact value, ties to even. -/
theorem nearestEvenReal_roundPack {neg : Bool} {m : ℕ} {e : ℤ} {sticky : Bool} {δ : ℝ} (htail : Tail m sticky δ)
    (hfin : (roundPack neg m e sticky).isFinite = true) :
    NearestEvenReal (signed neg ((m + δ) * 2 ^ e)) (roundPack neg m e sticky) := by
  rcases eq_or_ne m 0 with rfl | hm
  · refine nearestEvenReal_of_eq ?_
    rw [roundPack_zero, toRat_signedZero, htail.eq_zero_of_eq_zero rfl]
    cases neg <;> simp
  · have hlt := (isFinite_roundPack_iff hm).mp hfin
    have hnonneg := htail.nonneg
    rw [roundPack_of_lt hm hlt, mul_zpow_eq_mul_ulp]
    exact nearestEvenReal_pack neg (by omega) (by positivity) (gridNearest_roundBits hm htail)

/-- The rounded value of a magnitude up to a finite number's is finite. -/
theorem isFinite_roundPack_of_le {neg : Bool} {m : ℕ} {e : ℤ} {sticky : Bool} {δ : ℝ} (htail : Tail m sticky δ)
    {z : F64} (hz : z.isFinite = true) (hle : (m + δ) * 2 ^ e ≤ |(z.toRat : ℝ)|) :
    (roundPack neg m e sticky).isFinite = true := by
  rcases eq_or_ne m 0 with rfl | hm
  · exact isFinite_signedZero neg
  · have hulp := cast_ulp_pos
    have hgrid : (m + δ) * 2 ^ (e + 1074) ≤ grid z.absBits := by
      rw [mul_zpow_eq_mul_ulp, toRat_eq_signed_grid, cast_signed, abs_signed, Rat.cast_mul, Rat.cast_natCast,
        abs_of_nonneg (by positivity)] at hle
      exact le_of_mul_le_mul_right hle hulp
    exact (isFinite_roundPack_iff hm).mpr
      ((le_of_gridNearest (gridNearest_roundBits hm htail) hgrid).trans_lt ((isFinite_iff z).mp hz))

/-- What fits 53 bits and is not above a finite number is not rounded at all. -/
theorem roundPack_exact (neg : Bool) {m : ℕ} {e : ℤ} (hm : m ≤ 2 ^ 53) (he : -1074 ≤ e) {z : F64}
    (hz : z.isFinite = true) (hle : (m : ℚ) * 2 ^ e ≤ |z.toRat|) :
    (roundPack neg m e false).isFinite = true ∧ (roundPack neg m e false).toRat = signed neg ((m : ℚ) * 2 ^ e) := by
  obtain ⟨p, hp⟩ := exists_grid_eq hm (e + 1074).toNat
  have hvalue := mul_two_zpow_eq_mul_ulp m he
  rw [← hp] at hvalue
  have hpz : p ≤ z.absBits := by
    rw [hvalue, toRat_eq_signed_grid, abs_signed, abs_of_nonneg (by have := ulp_pos; positivity)] at hle
    exact grid_strictMono.le_iff_le.mp (by exact_mod_cast le_of_mul_le_mul_right hle ulp_pos)
  have hpfin := hpz.trans_lt ((isFinite_iff z).mp hz)
  have hfin := isFinite_roundPack_of_le (neg := neg) (e := e) (Tail.zero m) hz
    (by rw [add_zero, ← cast_mul_two_zpow, ← Rat.cast_abs]; exact Rat.cast_le.mpr hle)
  refine ⟨hfin, ?_⟩
  have hnearest := nearestEvenReal_roundPack (Tail.zero m) hfin
  rw [add_zero, ← cast_mul_two_zpow, ← cast_signed] at hnearest
  exact_mod_cast eq_of_nearestEvenReal hnearest ((isFinite_pack neg (by omega)).mpr hpfin)
    (by rw [toRat_pack neg (by omega), ← hvalue])

end F64
end Sys2Proof
end

section
/-! SUPPORT. f64(n) and `trunc` (spec R12, R13). -/

namespace Sys2Proof
namespace F64

/-- The integer part that `trunc` takes of a magnitude, where that is an integer. -/
theorem integerPart_eq {m k : ℕ} {e : ℤ} (h : (m : ℚ) * 2 ^ e = k) :
    (if 0 ≤ e then m * 2 ^ e.toNat else m / 2 ^ (-e).toNat) = k := by
  split
  next hpos =>
    rw [← Int.toNat_of_nonneg hpos, zpow_natCast] at h
    exact_mod_cast h
  next hneg =>
    have hexp : e = -((-e).toNat : ℤ) := by omega
    rw [hexp, zpow_neg, zpow_natCast, ← div_eq_mul_inv, div_eq_iff (by positivity)] at h
    exact Nat.div_eq_of_eq_mul_left (by positivity) (by exact_mod_cast h)

/-- `trunc` reads back an integer value. -/
theorem trunc_of_toRat_eq {x : F64} {n : ℤ} (h : x.toRat = n) : x.trunc = n := by
  have hmag : (x.mag : ℚ) * 2 ^ x.expo = n.natAbs := by
    rw [Nat.cast_natAbs, Int.cast_abs, ← h, abs_toRat]
  rw [toRat_eq_signed_mag, hmag] at h
  have htrunc : x.trunc = signed x.sign (n.natAbs : ℤ) := by rw [← integerPart_eq hmag]; rfl
  refine Int.cast_injective (α := ℚ) ?_
  rw [htrunc, intCast_signed, Int.cast_natCast, h]

/-- Settles O55: an integer of at most 53 bits is not rounded. -/
theorem integersConvertExactly : Obligations.IntegersConvertExactly := by
  unfold Obligations.IntegersConvertExactly
  intro n hn
  have hlarge : (pack false (1074 * 2 ^ 52 + 2 ^ 53)).toRat = 2 ^ 53 := by
    rw [toRat_pack _ (by norm_num), grid_add le_rfl (.inr (by norm_num)), ulp, signed_false, Nat.cast_mul, Nat.cast_pow,
      Nat.cast_pow, Nat.cast_ofNat, mul_assoc, ← zpow_natCast 2 1074, ← zpow_add₀ two_ne_zero]
    norm_num
  obtain ⟨hfin, hval⟩ := roundPack_exact (decide (n < 0)) (e := 0) hn (by norm_num)
    ((isFinite_pack false (p := 1074 * 2 ^ 52 + 2 ^ 53) (by norm_num)).mpr (by norm_num)) (by
      rw [hlarge, abs_of_nonneg (by positivity), zpow_zero, mul_one]
      exact_mod_cast hn)
  rw [zpow_zero, mul_one, signed_natAbs] at hval
  exact ⟨hfin, hval, trunc_of_toRat_eq hval⟩

end F64
end Sys2Proof
end

section
/-! SUPPORT. The four operations (spec R12): each is its exact result, handed to `roundPack`. -/

open Sys2Proof.Claims

namespace Sys2Proof
namespace F64

theorem add_of_isFinite {x y : F64} (hx : x.isFinite = true) (hy : y.isFinite = true) :
    add x y = if addExact x y = 0 then signedZero (x.sign && y.sign)
      else roundPack (decide (addExact x y < 0)) (addExact x y).natAbs (min x.expo y.expo) false := by
  simp [add, isNaN_of_isFinite, isInf_of_isFinite, hx, hy]

theorem mul_of_isFinite {x y : F64} (hx : x.isFinite = true) (hy : y.isFinite = true) :
    mul x y = roundPack (x.sign != y.sign) (x.mag * y.mag) (x.expo + y.expo) false := by
  simp [mul, isNaN_of_isFinite, isInf_of_isFinite, hx, hy]

theorem div_of_isFinite {x y : F64} (hx : x.isFinite = true) (hy : y.isFinite = true) (hy0 : y.absBits ≠ 0) :
    div x y = roundPack (x.sign != y.sign) (x.mag * 2 ^ 110 / y.mag) (x.expo - y.expo - 110)
      (x.mag * 2 ^ 110 % y.mag != 0) := by
  simp only [div, isNaN_of_isFinite hx, isInf_of_isFinite hx, isNaN_of_isFinite hy, isInf_of_isFinite hy, hy0,
    Bool.or_self, Bool.false_eq_true, if_false]

/-- An integer at a higher exponent, in units of a lower one. -/
theorem shift_mul_two_zpow {K : Type} [Field K] [CharZero K] (a : K) {e₀ e : ℤ} (h : e₀ ≤ e) :
    a * 2 ^ (e - e₀).toNat * 2 ^ e₀ = a * 2 ^ e := by
  rw [← zpow_natCast, mul_assoc, ← zpow_add₀ two_ne_zero]
  congr 2
  omega

theorem toRat_add_toRat (x y : F64) : x.toRat + y.toRat = (addExact x y : ℚ) * 2 ^ min x.expo y.expo := by
  unfold addExact toRat
  push_cast
  rw [add_mul, shift_mul_two_zpow _ (min_le_left ..), shift_mul_two_zpow _ (min_le_right ..)]

theorem nearestEven_roundPack {neg : Bool} {m : ℕ} {e : ℤ} {q : ℚ} (hq : q = signed neg ((m : ℚ) * 2 ^ e))
    (hfin : (roundPack neg m e false).isFinite = true) : NearestEven q (roundPack neg m e false) := by
  have hnearest := nearestEvenReal_roundPack (Tail.zero m) hfin
  rwa [add_zero, ← cast_mul_two_zpow, ← cast_signed, ← nearestEven_iff, ← hq] at hnearest

theorem nearestEven_add {x y : F64} (hx : x.isFinite = true) (hy : y.isFinite = true)
    (hfin : (add x y).isFinite = true) : NearestEven (x.toRat + y.toRat) (add x y) := by
  rw [toRat_add_toRat]
  rw [add_of_isFinite hx hy] at hfin ⊢
  split
  next hzero =>
    rw [nearestEven_iff, hzero]
    exact nearestEvenReal_of_eq (by rw [toRat_signedZero]; simp)
  next hne =>
    rw [if_neg hne] at hfin
    exact nearestEven_roundPack (by rw [← signed_mul, signed_natAbs]) hfin

theorem nearestEven_sub {x y : F64} (hx : x.isFinite = true) (hy : y.isFinite = true)
    (hfin : (sub x y).isFinite = true) : NearestEven (x.toRat - y.toRat) (sub x y) := by
  rw [sub_eq_add_neg, ← toRat_neg]
  exact nearestEven_add hx (by rw [isFinite_neg, hy]) hfin

theorem nearestEven_mul {x y : F64} (hx : x.isFinite = true) (hy : y.isFinite = true)
    (hfin : (mul x y).isFinite = true) : NearestEven (x.toRat * y.toRat) (mul x y) := by
  rw [mul_of_isFinite hx hy] at hfin ⊢
  refine nearestEven_roundPack ?_ hfin
  rw [toRat_eq_signed_mag, toRat_eq_signed_mag, signed_mul_signed, zpow_add₀ two_ne_zero]
  congr 1
  push_cast
  ring

/-- The remainder of a division is the part that the quotient leaves. -/
theorem tail_div {n d : ℕ} (hd : d ≠ 0) (hwide : n ≠ 0 → 2 ^ 54 * d ≤ n) :
    Tail (n / d) (n % d != 0) ((n % d : ℕ) / d) := by
  have hpos : (0 : ℝ) < d := by exact_mod_cast hd.bot_lt
  refine ⟨by positivity, ?_, ?_, fun hsticky => ?_⟩
  · rw [div_lt_one hpos]
    exact_mod_cast Nat.mod_lt n hd.bot_lt
  · rw [bne_iff_ne, div_pos_iff_of_pos_right hpos, Nat.cast_pos, Nat.pos_iff_ne_zero]
  · have hn : n ≠ 0 := by
      rintro rfl
      simp at hsticky
    exact (Nat.le_div_iff_mul_le hd.bot_lt).mpr (hwide hn)

theorem div_add_mod_div (n : ℕ) {d : ℕ} (hd : d ≠ 0) : ((n / d : ℕ) : ℝ) + (n % d : ℕ) / d = n / d := by
  have hd' : (d : ℝ) ≠ 0 := by exact_mod_cast hd
  rw [eq_div_iff hd', add_mul, div_mul_cancel₀ _ hd']
  exact_mod_cast Nat.div_add_mod' n d

theorem nearestEven_div {x y : F64} (hx : x.isFinite = true) (hy : y.isFinite = true) (hy0 : y.absBits ≠ 0)
    (hfin : (div x y).isFinite = true) : NearestEven (x.toRat / y.toRat) (div x y) := by
  have hmag : y.mag ≠ 0 := by rwa [ne_eq, mag_eq_zero_iff]
  have htail : Tail (x.mag * 2 ^ 110 / y.mag) (x.mag * 2 ^ 110 % y.mag != 0) _ :=
    tail_div hmag fun hn => by have := mag_lt y; omega
  rw [div_of_isFinite hx hy hy0] at hfin ⊢
  have hnearest := nearestEvenReal_roundPack htail hfin
  rw [nearestEven_iff]
  convert hnearest using 1
  rw [div_add_mod_div _ hmag, toRat_eq_signed_mag, toRat_eq_signed_mag, signed_div_signed, cast_signed]
  congr 1
  rw [Nat.cast_mul, Nat.cast_pow, Nat.cast_ofNat, zpow_sub₀ two_ne_zero, zpow_sub₀ two_ne_zero]
  push_cast
  field_simp

/-- Settles O56: each operation computes the exact result and rounds it once. -/
theorem arithmeticRoundsToNearestEven : Obligations.ArithmeticRoundsToNearestEven := by
  unfold Obligations.ArithmeticRoundsToNearestEven
  exact fun x y hx hy =>
    ⟨nearestEven_add hx hy, nearestEven_sub hx hy, nearestEven_mul hx hy, nearestEven_div hx hy⟩

end F64
end Sys2Proof
end

section
/-! SUPPORT. `SQRT` (spec R13): the integer square root of a widened significand, and whether it leaves anything. -/

namespace Sys2Proof
namespace F64

/-- The widened significand that `sqrt` takes the integer root of, at an even exponent. -/
def sqrtOperand (x : F64) : ℕ := x.mag * 2 ^ (120 + (x.expo % 2).toNat)

/-- Half of that exponent. -/
def sqrtExpo (x : F64) : ℤ := (x.expo - (x.expo % 2).toNat - 120) / 2

theorem sqrt_of_isFinite {x : F64} (hx : x.isFinite = true) (hx0 : x.absBits ≠ 0) (hsign : x.sign = false) :
    sqrt x = roundPack false (isqrt (sqrtOperand x)) (sqrtExpo x)
      (isqrt (sqrtOperand x) * isqrt (sqrtOperand x) != sqrtOperand x) := by
  simp only [sqrt, isNaN_of_isFinite hx, isInf_of_isFinite hx, hx0, hsign, Bool.false_eq_true, if_false,
    sqrtOperand, sqrtExpo]

/-- It is wide enough for a root of 55 bits, and in the range of `isqrt`. -/
theorem sqrtOperand_bounds {x : F64} (hx0 : x.absBits ≠ 0) : 2 ^ 108 ≤ sqrtOperand x ∧ sqrtOperand x < 2 ^ 256 := by
  have hmag : 1 ≤ x.mag := Nat.one_le_iff_ne_zero.mpr (by rwa [ne_eq, mag_eq_zero_iff])
  have hmag53 := mag_lt x
  unfold sqrtOperand
  obtain hodd | hodd : (x.expo % 2).toNat = 0 ∨ (x.expo % 2).toNat = 1 := by omega
  all_goals rw [hodd]; omega

/-- The bit-by-bit search keeps the root between `acc` and `acc + 2 ^ k`. -/
theorem isqrtFrom_spec (n k acc : ℕ) (hlow : acc * acc ≤ n) (hhigh : n < (acc + 2 ^ k) * (acc + 2 ^ k)) :
    isqrtFrom n k acc * isqrtFrom n k acc ≤ n ∧ n < (isqrtFrom n k acc + 1) * (isqrtFrom n k acc + 1) := by
  induction k generalizing acc with
  | zero => exact ⟨hlow, by simpa [isqrtFrom] using hhigh⟩
  | succ k ih =>
    rw [isqrtFrom]
    split
    next hbit =>
      exact ih _ hbit (by rwa [add_assoc, ← two_mul, ← pow_succ'])
    next hbit =>
      exact ih _ hlow (not_le.mp hbit)

theorem isqrt_eq_sqrt {n : ℕ} (hn : n < 2 ^ 256) : isqrt n = Nat.sqrt n := by
  obtain ⟨hlow, hhigh⟩ := isqrtFrom_spec n 128 0 (by omega) (by rw [zero_add, ← pow_add]; exact hn)
  exact Nat.eq_sqrt.mpr ⟨hlow, hhigh⟩

/-- The fraction of the square root is the part above the integer square root. -/
theorem tail_sqrt {n : ℕ} (hn : 2 ^ 108 ≤ n) : Tail n.sqrt (n.sqrt * n.sqrt != n) (√n - n.sqrt) := by
  have hfloor : (n.sqrt : ℝ) ≤ √n := Real.nat_sqrt_le_real_sqrt
  refine ⟨sub_nonneg.mpr hfloor, sub_lt_iff_lt_add'.mpr Real.real_sqrt_lt_nat_sqrt_succ, ?_, fun _ => ?_⟩
  · have hexact : √(n : ℝ) = n.sqrt ↔ n.sqrt * n.sqrt = n := by
      rw [Real.sqrt_eq_iff_mul_self_eq n.cast_nonneg (Nat.cast_nonneg _), eq_comm]
      norm_cast
    rw [bne_iff_ne, ne_eq, ← hexact, sub_pos, eq_comm, hfloor.lt_iff_ne]
  · exact Nat.le_sqrt.mpr (by rwa [← pow_add])

theorem toRat_one : one.toRat = 1 := by
  rw [toRat, show one.sval = 2 ^ 52 by decide, show one.expo = -52 by decide]
  norm_num

/-- A square root is not above the number or not above 1. -/
theorem exists_isFinite_sqrt_le {x : F64} (hx : x.isFinite = true) :
    ∃ z : F64, z.isFinite = true ∧ √(x.toRat : ℝ) ≤ |(z.toRat : ℝ)| := by
  rcases le_total (x.toRat : ℝ) 1 with hsmall | hlarge
  · refine ⟨one, by decide, ?_⟩
    rw [toRat_one, Rat.cast_one, abs_one]
    exact Real.sqrt_le_one.mpr hsmall
  · exact ⟨x, hx, (Real.sqrt_le_self_iff.mpr (.inr hlarge)).trans (le_abs_self _)⟩

/-- The square root of a number whose exponent is even is that of its significand at half the exponent. -/
theorem sqrt_natCast_mul_zpow (n : ℕ) (h : ℤ) : √((n : ℝ) * 2 ^ (2 * h)) = √n * 2 ^ h := by
  rw [two_mul, zpow_add₀ two_ne_zero, Real.sqrt_mul n.cast_nonneg, Real.sqrt_mul_self (by positivity)]

theorem toRat_eq_sqrtOperand {x : F64} (hsign : x.sign = false) :
    (x.toRat : ℝ) = sqrtOperand x * 2 ^ (2 * sqrtExpo x) := by
  have hexp : x.expo = (120 + (x.expo % 2).toNat : ℕ) + 2 * sqrtExpo x := by unfold sqrtExpo; omega
  rw [toRat_eq_signed_mag, hsign, signed_false, cast_mul_two_zpow]
  conv_lhs => rw [hexp, zpow_add₀ two_ne_zero, zpow_natCast]
  rw [sqrtOperand, Nat.cast_mul, Nat.cast_pow, Nat.cast_ofNat, mul_assoc]

/-- R13: `sqrt` of a positive number is finite and nearest to the real square root. -/
theorem sqrt_spec {x : F64} (hx : x.isFinite = true) (hx0 : x.absBits ≠ 0) (hsign : x.sign = false) :
    (sqrt x).isFinite = true ∧ NearestEvenReal √(x.toRat : ℝ) (sqrt x) := by
  obtain ⟨hwide, hrange⟩ := sqrtOperand_bounds hx0
  have htail := tail_sqrt hwide
  obtain ⟨z, hz, hle⟩ := exists_isFinite_sqrt_le hx
  have hvalue : √(x.toRat : ℝ) =
      ((sqrtOperand x).sqrt + (√(sqrtOperand x) - (sqrtOperand x).sqrt)) * 2 ^ sqrtExpo x := by
    rw [toRat_eq_sqrtOperand hsign, sqrt_natCast_mul_zpow, add_sub_cancel]
  rw [hvalue] at hle ⊢
  rw [sqrt_of_isFinite hx hx0 hsign, isqrt_eq_sqrt hrange]
  have hfin := isFinite_roundPack_of_le (neg := false) htail hz hle
  exact ⟨hfin, nearestEvenReal_roundPack htail hfin⟩

/-- Settles O57: the integer square root and what it leaves, rounded once; a zero is its own square root. -/
theorem sqrtRoundsToNearest : Obligations.SqrtRoundsToNearest := by
  unfold Obligations.SqrtRoundsToNearest
  intro x hx hkey
  by_cases hx0 : x.absBits = 0
  · have hzero : x.sqrt = x := by simp [sqrt, isNaN_of_isFinite hx, hx0]
    rw [hzero, (toRat_eq_zero_iff x).mpr hx0]
    exact ⟨hx, fun y _ => by simp⟩
  · have hsign : x.sign = false := by
      by_contra hneg
      rw [key, if_pos (by simpa using hneg)] at hkey
      omega
    obtain ⟨hfin, hnearest⟩ := sqrt_spec hx hx0 hsign
    exact ⟨hfin, fun y hy => (hnearest y hy).1⟩

end F64
end Sys2Proof
end

section
/-! SUPPORT. `fmod` (spec R13): the remainder of the two significands at the smaller exponent. -/

namespace Sys2Proof
namespace F64

theorem fmod_of_isFinite {x y : F64} (hx : x.isFinite = true) (hy : y.isFinite = true) (hy0 : y.absBits ≠ 0) :
    fmod x y = roundPack x.sign
      (x.mag * 2 ^ (x.expo - min x.expo y.expo).toNat % (y.mag * 2 ^ (y.expo - min x.expo y.expo).toNat))
      (min x.expo y.expo) false := by
  simp [fmod, isNaN_of_isFinite, isInf_of_isFinite, hx, hy, hy0]

theorem shifted_mag_mul (x : F64) {e : ℤ} (h : e ≤ x.expo) :
    ((x.mag * 2 ^ (x.expo - e).toNat : ℕ) : ℚ) * 2 ^ e = x.mag * 2 ^ x.expo := by
  rw [Nat.cast_mul, Nat.cast_pow, Nat.cast_ofNat, shift_mul_two_zpow _ h]

/-- Either exponent is the smaller one, and that side's significand has 53 bits. -/
theorem shifted_mod_le (x y : F64) (hy : y.mag ≠ 0) :
    x.mag * 2 ^ (x.expo - min x.expo y.expo).toNat % (y.mag * 2 ^ (y.expo - min x.expo y.expo).toNat) ≤ 2 ^ 53 := by
  rcases min_choice x.expo y.expo with hmin | hmin
  · rw [hmin, sub_self, Int.toNat_zero, pow_zero, mul_one]
    exact (Nat.mod_le _ _).trans (mag_lt x).le
  · rw [hmin, sub_self, Int.toNat_zero, pow_zero, mul_one]
    exact (Nat.mod_lt _ hy.bot_lt).le.trans (mag_lt y).le

/-- Settles O58: the remainder of the two significands at the smaller exponent fits 53 bits and is not rounded. -/
theorem fmodIsExact : Obligations.FmodIsExact := by
  unfold Obligations.FmodIsExact
  intro x y hx hy hy0
  have hmag : y.mag ≠ 0 := by rwa [ne_eq, mag_eq_zero_iff]
  have hexp : -1074 ≤ min x.expo y.expo := le_min (expo_ge x) (expo_ge y)
  have hrem := shifted_mod_le x y hmag
  have ha := shifted_mag_mul x (min_le_left x.expo y.expo)
  have hb := shifted_mag_mul y (min_le_right x.expo y.expo)
  have hb0 : 0 < y.mag * 2 ^ (y.expo - min x.expo y.expo).toNat := by positivity
  rw [fmod_of_isFinite hx hy hy0]
  generalize min x.expo y.expo = e at *
  generalize x.mag * 2 ^ (x.expo - e).toNat = a at *
  generalize y.mag * 2 ^ (y.expo - e).toNat = b at *
  have hunit : (0 : ℚ) < 2 ^ e := by positivity
  have hlt : ((a % b : ℕ) : ℚ) * 2 ^ e < |y.toRat| := by
    rw [abs_toRat, ← hb]
    exact mul_lt_mul_of_pos_right (by exact_mod_cast Nat.mod_lt a hb0) hunit
  obtain ⟨hfin, hval⟩ := roundPack_exact x.sign hrem hexp hy hlt.le
  have hquotient : (signed (x.sign != y.sign) ((a / b : ℕ) : ℤ) : ℤ) * y.toRat =
      signed x.sign (((a / b * b : ℕ) : ℚ) * 2 ^ e) := by
    rw [toRat_eq_signed_mag y, ← hb, intCast_signed, signed_mul_signed, Int.cast_natCast, Nat.cast_mul, mul_assoc]
    cases x.sign <;> cases y.sign <;> rfl
  refine ⟨hfin, roundPack_sign .., ?_, signed (x.sign != y.sign) ((a / b : ℕ) : ℤ), ?_, ?_⟩
  · rwa [hval, abs_signed, abs_of_nonneg (by positivity)]
  · rw [hval, toRat_eq_signed_mag, ← ha, hquotient, ← signed_add, ← add_mul]
    exact_mod_cast congrArg (fun k : ℕ => signed x.sign ((k : ℚ) * 2 ^ e)) (Nat.mod_add_div' a b).symm
  · rw [hquotient, toRat_eq_signed_mag, signed_mul_signed, bne_self_eq_false, signed_false]
    positivity

end F64
end Sys2Proof
end

section
/-! SUPPORT. The order of the values (spec R12, R13): `key` orders the patterns as their values are ordered, rounding does not
pass a number, and an exact result not above a finite number is rounded to a finite one. -/

open Sys2Proof.Claims

namespace Sys2Proof
namespace F64

/-- The value that an order key stands for. -/
def keyValue (k : ℤ) : ℚ := k.sign * grid k.natAbs * ulp

theorem keyValue_neg (k : ℤ) : keyValue (-k) = -keyValue k := by
  simp [keyValue, Int.sign_neg]

theorem keyValue_natCast (n : ℕ) : keyValue n = grid n * ulp := by
  rcases n.eq_zero_or_pos with rfl | hpos
  · simp [keyValue]
  · simp [keyValue, Int.sign_natCast_of_ne_zero hpos.ne']

theorem keyValue_strictMono : StrictMono keyValue := by
  refine strictMono_of_odd_strictMonoOn_nonneg keyValue_neg fun a ha b hb hab => ?_
  lift a to ℕ using ha
  lift b to ℕ using hb
  have hgrid : (grid a : ℚ) < grid b := by exact_mod_cast grid_strictMono (by omega : a < b)
  rw [keyValue_natCast, keyValue_natCast]
  exact mul_lt_mul_of_pos_right hgrid ulp_pos

theorem toRat_eq_keyValue (x : F64) : x.toRat = keyValue x.key := by
  rw [toRat_eq_signed_grid, key]
  cases x.sign <;> simp [keyValue_neg, keyValue_natCast]

/-- `key` orders the patterns as their values are ordered. -/
theorem toRat_le_toRat_iff {x y : F64} : x.toRat ≤ y.toRat ↔ x.key ≤ y.key := by
  rw [toRat_eq_keyValue, toRat_eq_keyValue, keyValue_strictMono.le_iff_le]

theorem toRat_nonneg_iff {x : F64} : 0 ≤ x.toRat ↔ 0 ≤ x.key := by
  rw [toRat_eq_keyValue, ← keyValue_strictMono.le_iff_le (a := 0)]
  simp [keyValue]

theorem toRat_nonpos_iff {x : F64} : x.toRat ≤ 0 ↔ x.key ≤ 0 := by
  rw [toRat_eq_keyValue, ← keyValue_strictMono.le_iff_le (b := 0)]
  simp [keyValue]

/-- Rounding does not pass a number. -/
theorem toRat_le_of_nearestEven {q : ℚ} {x z : F64} (h : NearestEven q x) (hz : z.isFinite = true)
    (hle : q ≤ z.toRat) : x.toRat ≤ z.toRat := by
  by_contra! hlt
  have hdist := (h z hz).1
  rw [abs_of_nonneg (by linarith), abs_of_nonneg (by linarith)] at hdist
  linarith

theorem le_toRat_of_nearestEven {q : ℚ} {x z : F64} (h : NearestEven q x) (hz : z.isFinite = true)
    (hle : z.toRat ≤ q) : z.toRat ≤ x.toRat := by
  by_contra! hlt
  have hdist := (h z hz).1
  rw [abs_of_nonpos (by linarith), abs_of_nonpos (by linarith)] at hdist
  linarith

theorem key_between_of_nearestEven {q : ℚ} {x lo hi : F64} (h : NearestEven q x) (hlo : lo.isFinite = true)
    (hhi : hi.isFinite = true) (hge : lo.toRat ≤ q) (hle : q ≤ hi.toRat) : lo.key ≤ x.key ∧ x.key ≤ hi.key :=
  ⟨toRat_le_toRat_iff.mp (le_toRat_of_nearestEven h hlo hge), toRat_le_toRat_iff.mp (toRat_le_of_nearestEven h hhi hle)⟩

/-- The exact magnitude `m * 2 ^ e` not above a finite number's is rounded to a finite number. -/
theorem isFinite_roundPack_of_abs_le {neg : Bool} {m : ℕ} {e : ℤ} {q : ℚ} {z : F64} (hz : z.isFinite = true)
    (hq : |q| = (m : ℚ) * 2 ^ e) (hle : |q| ≤ |z.toRat|) : (roundPack neg m e false).isFinite = true := by
  refine isFinite_roundPack_of_le (Tail.zero m) hz ?_
  rw [add_zero, ← cast_mul_two_zpow, ← hq, ← Rat.cast_abs]
  exact Rat.cast_le.mpr hle

theorem isFinite_add_of_abs_le {x y z : F64} (hx : x.isFinite = true) (hy : y.isFinite = true)
    (hz : z.isFinite = true) (hle : |x.toRat + y.toRat| ≤ |z.toRat|) : (add x y).isFinite = true := by
  rw [add_of_isFinite hx hy]
  split
  · exact isFinite_signedZero _
  · refine isFinite_roundPack_of_abs_le hz ?_ hle
    rw [toRat_add_toRat, abs_mul, abs_of_pos (by positivity : (0 : ℚ) < 2 ^ min x.expo y.expo), Nat.cast_natAbs,
      Int.cast_abs]

theorem isFinite_mul_of_abs_le {x y z : F64} (hx : x.isFinite = true) (hy : y.isFinite = true)
    (hz : z.isFinite = true) (hle : |x.toRat * y.toRat| ≤ |z.toRat|) : (mul x y).isFinite = true := by
  rw [mul_of_isFinite hx hy]
  refine isFinite_roundPack_of_abs_le hz ?_ hle
  rw [abs_mul, abs_toRat, abs_toRat, zpow_add₀ two_ne_zero]
  push_cast
  ring

theorem isFinite_div_of_abs_le {x y z : F64} (hx : x.isFinite = true) (hy : y.isFinite = true)
    (hy0 : y.absBits ≠ 0) (hz : z.isFinite = true) (hle : |x.toRat / y.toRat| ≤ |z.toRat|) :
    (div x y).isFinite = true := by
  have hmag : y.mag ≠ 0 := by rwa [ne_eq, mag_eq_zero_iff]
  rw [div_of_isFinite hx hy hy0]
  refine isFinite_roundPack_of_le (tail_div hmag fun hn => by have := mag_lt y; omega) hz ?_
  rw [div_add_mod_div _ hmag, zpow_sub₀ two_ne_zero, zpow_sub₀ two_ne_zero, ← Rat.cast_abs]
  refine le_of_eq_of_le ?_ (Rat.cast_le.mpr hle)
  rw [abs_div, abs_toRat, abs_toRat]
  push_cast
  field_simp
  norm_num

/-- A quotient between two numbers is rounded to one between them. -/
theorem div_between {x y lo hi : F64} (hx : x.isFinite = true) (hy : y.isFinite = true) (hy0 : y.absBits ≠ 0)
    (hlo : lo.isFinite = true) (hhi : hi.isFinite = true) (h0 : 0 ≤ lo.toRat) (hge : lo.toRat ≤ x.toRat / y.toRat)
    (hle : x.toRat / y.toRat ≤ hi.toRat) :
    (div x y).isFinite = true ∧ lo.key ≤ (div x y).key ∧ (div x y).key ≤ hi.key := by
  have hfin := isFinite_div_of_abs_le hx hy hy0 hhi (abs_le_abs_of_nonneg (h0.trans hge) hle)
  exact ⟨hfin, key_between_of_nearestEven (nearestEven_div hx hy hy0 hfin) hlo hhi hge hle⟩

/-- A sum that is not positive is rounded to a number that is not positive. -/
theorem add_key_nonpos {x y : F64} (hx : x.isFinite = true) (hy : y.isFinite = true)
    (h : x.toRat + y.toRat ≤ 0) : (add x y).key ≤ 0 := by
  rw [toRat_add_toRat] at h
  have hsum : addExact x y ≤ 0 := by
    exact_mod_cast nonpos_of_mul_nonpos_left h (by positivity : (0 : ℚ) < 2 ^ min x.expo y.expo)
  rw [add_of_isFinite hx hy]
  split
  next hzero =>
    rw [signedZero, pack_key _ (by norm_num)]
    simp
  next hne =>
    refine key_nonpos_of_sign ?_
    rw [roundPack_sign, decide_eq_true_eq]
    omega

end F64
end Sys2Proof
end

section
/-! SUPPORT. The constants that a legal RESET derives (spec R10, R23, R100). -/

open Sys2Proof.Claims

namespace Sys2Proof
namespace F64

/-- The value of a pattern whose fields are known. -/
theorem toRat_of_fields {x : F64} {m : ℤ} {e : ℤ} (hm : x.sval = m) (he : x.expo = e) : x.toRat = m * 2 ^ e := by
  rw [toRat, hm, he]

theorem toRat_baud : baud.toRat = 100 := by
  rw [toRat_of_fields (show baud.sval = 25 * 2 ^ 48 by decide) (show baud.expo = -46 by decide)]; norm_num

theorem toRat_two : two.toRat = 2 := by
  rw [toRat_of_fields (show two.sval = 2 ^ 52 by decide) (show two.expo = -51 by decide)]; norm_num

theorem toRat_five : five.toRat = 5 := by
  rw [toRat_of_fields (show five.sval = 5 * 2 ^ 50 by decide) (show five.expo = -50 by decide)]; norm_num

theorem toRat_seven : seven.toRat = 7 := by
  rw [toRat_of_fields (show seven.sval = 7 * 2 ^ 50 by decide) (show seven.expo = -50 by decide)]; norm_num

theorem toRat_negTwoPi : negTwoPi.toRat = -twoPi.toRat := by
  rw [← toRat_neg]; rfl

/-- 2 ^ (-20), below every phase increment of a legal rate. -/
def leastStep : F64 := ⟨0x3EB0000000000000#64⟩

theorem toRat_leastStep : leastStep.toRat = 2 ^ (-20 : ℤ) := by
  rw [toRat_of_fields (show leastStep.sval = 2 ^ 52 by decide) (show leastStep.expo = -72 by decide)]; norm_num

end F64

namespace Machine

open F64

variable {fs : BitVec 32}

theorem ofInt_rate (fs : BitVec 32) :
    (F64.ofInt (fs.toNat : ℤ)).isFinite = true ∧ (F64.ofInt (fs.toNat : ℤ)).toRat = fs.toNat := by
  obtain ⟨hfin, hval, -⟩ := integersConvertExactly (fs.toNat : ℤ) (by have := fs.isLt; omega)
  exact ⟨hfin, by exact_mod_cast hval⟩

/-- R10, R23: `B` of a legal rate. -/
theorem samplesPerBit_between (h : 1000 ≤ fs.toNat) :
    (samplesPerBit fs).isFinite = true ∧ (F64.ofInt 10).key ≤ (samplesPerBit fs).key ∧
      (samplesPerBit fs).key ≤ (F64.ofInt (2 ^ 26)).key := by
  obtain ⟨hfin, hval⟩ := ofInt_rate fs
  obtain ⟨hlo, hlov, -⟩ := integersConvertExactly 10 (by norm_num)
  obtain ⟨hhi, hhiv, -⟩ := integersConvertExactly (2 ^ 26) (by norm_num)
  have hge : (1000 : ℚ) ≤ fs.toNat := by exact_mod_cast h
  have hlt : (fs.toNat : ℚ) < 2 ^ 32 := by exact_mod_cast fs.isLt
  refine div_between hfin (by decide) (by decide) hlo hhi ?_ ?_ ?_
  · rw [hlov]; norm_num
  · rw [hlov, hval, toRat_baud]; push_cast; linarith
  · rw [hhiv, hval, toRat_baud]; push_cast; linarith

/-- A tone's phase advance in one second, as RESET rounds it before it divides by the rate (R23). -/
structure ToneLegal (tone : F64) : Prop where
  finite : (F64.mul F64.twoPi tone).isFinite = true
  ge : 5000 ≤ (F64.mul F64.twoPi tone).toRat
  le : (F64.mul F64.twoPi tone).toRat ≤ 7000

theorem toneLegal_mark : ToneLegal F64.fMark := by
  have hval : F64.mul F64.twoPi F64.fMark = ⟨0x40BAA1418D093CC8#64⟩ := by decide
  have h := toRat_of_fields (x := ⟨0x40BAA1418D093CC8#64⟩) (m := 0x1AA1418D093CC8) (e := -40) (by decide) (by decide)
  constructor <;> rw [hval]
  · decide
  all_goals rw [h]; norm_num

theorem toneLegal_space : ToneLegal F64.fSpace := by
  have hval : F64.mul F64.twoPi F64.fSpace = ⟨0x40B6751D538BEB4B#64⟩ := by decide
  have h := toRat_of_fields (x := ⟨0x40B6751D538BEB4B#64⟩) (m := 0x16751D538BEB4B) (e := -40) (by decide) (by decide)
  constructor <;> rw [hval]
  · decide
  all_goals rw [h]; norm_num

/-- R23, R106: the phase increment of a legal rate. -/
theorem phaseStep_between {tone : F64} (ht : ToneLegal tone) (h : 1000 ≤ fs.toNat) :
    (phaseStep tone fs).isFinite = true ∧ leastStep.key ≤ (phaseStep tone fs).key ∧
      (phaseStep tone fs).key ≤ seven.key := by
  obtain ⟨hfin, hval⟩ := ofInt_rate fs
  obtain ⟨htf, htge, htle⟩ := ht
  have hge : (1000 : ℚ) ≤ fs.toNat := by exact_mod_cast h
  have hlt : (fs.toNat : ℚ) < 2 ^ 32 := by exact_mod_cast fs.isLt
  have hpos : (0 : ℚ) < fs.toNat := by linarith
  refine div_between htf hfin ?_ (by decide) (by decide) ?_ ?_ ?_
  · rw [ne_eq, ← toRat_eq_zero_iff, hval]
    exact hpos.ne'
  · rw [toRat_leastStep]; positivity
  · rw [toRat_leastStep, hval, le_div_iff₀ hpos]; norm_num; linarith
  · rw [toRat_seven, hval, div_le_iff₀ hpos]; linarith

/-- R100: the first prompt and late indices of a legal rate are finite. -/
theorem firstIndices_isFinite (h : 1000 ≤ fs.toNat) :
    (F64.div (samplesPerBit fs) F64.five).isFinite = true ∧
      (F64.div (F64.mul F64.two (samplesPerBit fs)) F64.five).isFinite = true := by
  obtain ⟨hb, hge, hle⟩ := samplesPerBit_between h
  obtain ⟨-, hlov, -⟩ := integersConvertExactly 10 (by norm_num)
  obtain ⟨-, hmidv, -⟩ := integersConvertExactly (2 ^ 26) (by norm_num)
  obtain ⟨hhi, hhiv, -⟩ := integersConvertExactly (2 ^ 27) (by norm_num)
  rw [← toRat_le_toRat_iff, hlov] at hge
  rw [← toRat_le_toRat_iff, hmidv] at hle
  push_cast at hge hle
  have hdouble : (F64.mul F64.two (samplesPerBit fs)).isFinite = true := by
    refine isFinite_mul_of_abs_le (by decide) hb hhi ?_
    rw [toRat_two, hhiv]
    push_cast
    exact abs_le_abs_of_nonneg (by linarith) (by linarith)
  have hfifth : ∀ x : F64, x.isFinite = true → (F64.div x F64.five).isFinite = true := fun x hx => by
    refine isFinite_div_of_abs_le hx (by decide) (by decide) hx ?_
    rw [toRat_five, abs_div, abs_of_pos (by norm_num : (0 : ℚ) < 5)]
    exact div_le_self (abs_nonneg _) (by norm_num)
  exact ⟨hfifth _ hb, hfifth _ hdouble⟩

theorem sign_eq_false_of_key_pos {x : F64} (h : 0 < x.key) : x.sign = false := by
  by_contra hneg
  exact absurd (key_nonpos_of_sign (by simpa using hneg)) (not_le.mpr h)

theorem phaseStep_legal {tone : F64} (ht : ToneLegal tone) (h : 1000 ≤ fs.toNat) :
    StepLegal (phaseStep tone fs) ∧ 0 < (phaseStep tone fs).key := by
  obtain ⟨hfin, hge, hle⟩ := phaseStep_between ht h
  have hpos : 0 < (phaseStep tone fs).key := lt_of_lt_of_le (by decide) hge
  exact ⟨⟨hfin, sign_eq_false_of_key_pos hpos, (le_iff (isNaN_of_isFinite hfin) (by decide)).mpr hle⟩, hpos⟩

theorem resetCommand_legal (rv so : Bool) (s : State) (h : 1000 ≤ fs.toNat) :
    resetCommand fs rv so 0#30 s = .ok (resetState fs rv so s) := by
  rw [resetCommand, if_neg (by simp), if_neg (not_lt.mpr h)]

/-- Settles O16: the quotients lie between numbers that binary64 holds, and rounding does not pass a number. -/
theorem derivedConstantsLegal : Obligations.DerivedConstantsLegal := by
  unfold Obligations.DerivedConstantsLegal
  intro fs rv so s hs h
  obtain ⟨hfin, hge, hle⟩ := samplesPerBit_between h
  have hb := isNaN_of_isFinite hfin
  obtain ⟨hm, hm0⟩ := phaseStep_legal toneLegal_mark h
  obtain ⟨hsp, hsp0⟩ := phaseStep_legal toneLegal_space h
  refine ⟨resetState fs rv so s, ?_, hfin, (le_iff (by decide) hb).mpr hge, (le_iff hb (by decide)).mpr hle, hm, hm0,
    hsp, hsp0⟩
  rw [exec, execReset, resetCommand_legal rv so s h, finish_ok hs]

end Machine
end Sys2Proof
end

section
/-! SUPPORT. What each computation of the rules answers, said once: from `f s = .ok t`, the checks that held and the fields that
changed (spec R100 to R108, R130 to R139, R151 to R156, R176 to R180, R200). -/

namespace Sys2Proof
namespace Machine

/-! ## Computations that answer a value -/

theorem bind_eq_ok_iff {ε α β : Type} {x : Except ε α} {f : α → Except ε β} {b : β} :
    x >>= f = .ok b ↔ ∃ a, x = .ok a ∧ f a = .ok b := by
  cases x <;> simp [bind, Except.bind]

theorem pure_eq_ok_iff {ε α : Type} {a b : α} : (pure a : Except ε α) = .ok b ↔ b = a := by
  simp [pure, Except.pure, eq_comm]

theorem map_eq_ok_iff {ε α β : Type} {x : Except ε α} {f : α → β} {b : β} :
    x.map f = .ok b ↔ ∃ a, x = .ok a ∧ b = f a := by
  cases x <;> simp [Except.map, eq_comm]

/-- A property of the accumulator and the number of elements read that every step of a fold keeps. -/
theorem foldlM_keeps {ε α σ : Type} {f : σ → α → Except ε σ} (P : ℕ → σ → Prop) {l : List α}
    (hstep : ∀ a ∈ l, ∀ n x y, P n x → f x a = .ok y → P (n + 1) y) {n : ℕ} {x y : σ} (hx : P n x)
    (h : l.foldlM f x = .ok y) : P (n + l.length) y := by
  induction l generalizing n x with
  | nil =>
    rw [List.foldlM_nil, pure_eq_ok_iff] at h
    exact h ▸ hx
  | cons a l ih =>
    rw [List.foldlM_cons, bind_eq_ok_iff] at h
    obtain ⟨z, hz, hy⟩ := h
    rw [List.length_cons, Nat.add_comm l.length, ← Nat.add_assoc]
    exact ih (fun b hb => hstep b (List.mem_cons_of_mem a hb)) (hstep a List.mem_cons_self n x z hx hz) hy

/-! ## Trackers, accumulators and time base (R132 to R139) -/

variable {s t : State}

theorem chk_isFinite {k : StepId} {x y : F64} (h : chk k x = .ok y) : y.isFinite = true := by
  obtain ⟨hfin, rfl⟩ := chk_eq_ok_iff.mp h
  exact hfin

theorem envUpd_ok {m sp : F64} (h : envUpd s m sp = .ok t) :
    ∃ em es, em.isFinite = true ∧ es.isFinite = true ∧ t = s.setTrk { s.trk with envM := em, envS := es } := by
  simp only [envUpd, bind_eq_ok_iff, pure_eq_ok_iff] at h
  obtain ⟨_, -, _, -, em, hem, es, hes, rfl⟩ := h
  exact ⟨em, es, chk_isFinite hem, chk_isFinite hes, rfl⟩

theorem noiseUpd_ok {m sp : F64} (h : noiseUpd s m sp = .ok t) :
    ∃ nm ns, nm.isFinite = true ∧ ns.isFinite = true ∧ t = s.setTrk { s.trk with noiseM := nm, noiseS := ns } := by
  simp only [noiseUpd, bind_eq_ok_iff, pure_eq_ok_iff] at h
  obtain ⟨_, -, _, -, nm, hnm, ns, hns, rfl⟩ := h
  exact ⟨nm, ns, chk_isFinite hnm, chk_isFinite hns, rfl⟩

theorem accum_ok {b : Int} (h : accum s b = .ok t) :
    ∃ e p l, t = s.setSync { s.sync with accE := e, accP := p, accL := l } := by
  simp only [accum, bind_eq_ok_iff, pure_eq_ok_iff] at h
  obtain ⟨e, -, p, -, l, -, rfl⟩ := h
  exact ⟨e, p, l, rfl⟩

theorem cntInc_ok (h : cntInc s = .ok t) :
    ∃ n : BitVec 64, s.sync.sampleCount.toNat + 1 ≠ 2 ^ 53 ∧ n.toNat = s.sync.sampleCount.toNat + 1 ∧
      t = s.setSync { s.sync with sampleCount := n } := by
  unfold cntInc at h
  split at h
  · cases h
  next hne =>
    simp only [bind_eq_ok_iff, pure_eq_ok_iff] at h
    obtain ⟨n, hn, rfl⟩ := h
    exact ⟨n, hne, by exact_mod_cast toUnsigned_toNat hn, rfl⟩

/-! ## Bit synchroniser (R151 to R156) -/

/-- R151, R152: an event that is not due answers the state, and one that is due a finite average and a finite index. -/
theorem event_ok {k : StepId} {next u avg b : F64} {acc : I64} {fired : F64 → F64 → State}
    (h : (do
      if (← fires k next u) then
        let avg ← corrAverage k avg acc
        let next ← chk k (F64.add next b)
        pure (fired avg next)
      else pure s) = Except.ok t) :
    t = s ∨ ∃ avg next, avg.isFinite = true ∧ next.isFinite = true ∧ t = fired avg next := by
  simp only [bind_eq_ok_iff] at h
  obtain ⟨_ | _, -, h⟩ := h
  · exact .inl (pure_eq_ok_iff.mp h)
  · simp only [if_true, bind_eq_ok_iff, pure_eq_ok_iff] at h
    obtain ⟨avg, havg, next, hnext, rfl⟩ := h
    exact .inr ⟨avg, next, chk_isFinite havg, chk_isFinite hnext, rfl⟩

theorem evtEarly_ok {u : F64} (h : evtEarly s u = .ok t) :
    t = s ∨ ∃ avg next, avg.isFinite = true ∧ next.isFinite = true ∧
      t = s.setSync { s.sync with avgE := avg, nextE := next, accE := 0#64 } :=
  event_ok h

theorem evtLate_ok {u : F64} (h : evtLate s u = .ok t) :
    t = s ∨ ∃ avg next, avg.isFinite = true ∧ next.isFinite = true ∧
      t = s.setSync { s.sync with avgL := avg, nextL := next, accL := 0#64 } :=
  event_ok h

theorem promptSample_ok (h : promptSample s = .ok t) :
    ∃ m avg next, avg.isFinite = true ∧ next.isFinite = true ∧
      t = s.setSync { s.sync with markState := m, avgP := avg, nextP := next, accP := 0#64 } := by
  simp only [promptSample, bind_eq_ok_iff, pure_eq_ok_iff] at h
  obtain ⟨m, -, avg, havg, next, hnext, rfl⟩ := h
  exact ⟨m, avg, next, chk_isFinite havg, chk_isFinite hnext, rfl⟩

theorem evtPrompt_ok {u : F64} (h : evtPrompt s u = .ok t) :
    t = s ∨ ∃ p, promptSample s = .ok p ∧ bitIn p p.sync.markState.toInt = .ok t := by
  simp only [evtPrompt, bind_eq_ok_iff] at h
  obtain ⟨_ | _, -, h⟩ := h
  · exact .inl (pure_eq_ok_iff.mp h)
  · exact .inr (bind_eq_ok_iff.mp h)

/-- R156: each average after a re-alignment is one of the three before it. -/
theorem alignment_ok {a : Alignment} (h : alignment s = .ok a) :
    (a.avgE = s.sync.avgE ∨ a.avgE = s.sync.avgP) ∧
      (a.avgP = s.sync.avgE ∨ a.avgP = s.sync.avgP ∨ a.avgP = s.sync.avgL) ∧
      (a.avgL = s.sync.avgP ∨ a.avgL = s.sync.avgL) := by
  simp only [alignment, bind_eq_ok_iff] at h
  obtain ⟨slope, -, bar, -, h⟩ := h
  split at h
  · split at h
    all_goals
      simp only [bind_eq_ok_iff, pure_eq_ok_iff] at h
      obtain ⟨_, -, rfl⟩ := h
      simp
  · rw [pure_eq_ok_iff] at h
    simp [h]

theorem realign_ok {u : F64} (h : realign s u = .ok t) :
    t = s ∨ ∃ a ne np nl, alignment s = .ok a ∧ ne.isFinite = true ∧ np.isFinite = true ∧ nl.isFinite = true ∧
      t = s.setSync { s.sync with
        nextE := ne, nextP := np, nextL := nl, avgE := a.avgE, avgP := a.avgP, avgL := a.avgL } := by
  simp only [realign, bind_eq_ok_iff] at h
  obtain ⟨_, -, _, -, h⟩ := h
  split at h
  · simp only [bind_eq_ok_iff, pure_eq_ok_iff] at h
    obtain ⟨a, ha, ne, hne, np, hnp, nl, hnl, rfl⟩ := h
    exact .inr ⟨a, ne, np, nl, ha, chk_isFinite hne, chk_isFinite hnp, chk_isFinite hnl, rfl⟩
  · exact .inl (pure_eq_ok_iff.mp h)

/-! ## Decoder (R200) -/

/-- What PROCESS_BYTES may do to a state: nothing, or PROCESS_CHAR of a valid codeword through a path of R87. -/
inductive Decoded (s : State) : State → Prop
  | kept : Decoded s s
  | emitted (v : Soft7) (path : BitVec 3) (hv : validChar v = true) (hlow : 1 ≤ path.toNat) (hhigh : path.toNat ≤ 6) :
      Decoded s (processChar s (bitsToCode v) path)

theorem processFlips_ok {a r v : Soft7} {n : Int} (h : processFlips s a r v = .ok (t, n)) : Decoded s t ∧ -2 ≤ n := by
  simp only [processFlips, bind_eq_ok_iff] at h
  obtain ⟨fa, -, h⟩ := h
  split at h
  next hfa =>
    cases h
    exact ⟨.emitted fa _ hfa (by decide) (by decide), by decide⟩
  simp only [bind_eq_ok_iff] at h
  obtain ⟨fr, -, h⟩ := h
  split at h
  next hfr =>
    cases h
    exact ⟨.emitted fr _ hfr (by decide) (by decide), by decide⟩
  simp only [bind_eq_ok_iff] at h
  obtain ⟨fv, -, h⟩ := h
  split at h
  next hfv =>
    cases h
    exact ⟨.emitted fv _ hfv (by decide) (by decide), by decide⟩
  · cases h
    exact ⟨.kept, le_rfl⟩

theorem processRep_ok {a r : Soft7} {n : Int} (h : processRep s a r = .ok (t, n)) : Decoded s t ∧ -2 ≤ n := by
  unfold processRep at h
  split at h
  next hr =>
    split at h <;> cases h
    · exact ⟨.kept, by decide⟩
    · exact ⟨.emitted r _ hr (by decide) (by decide), by decide⟩
  · rw [bind_eq_ok_iff] at h
    obtain ⟨v, -, h⟩ := h
    split at h
    next hv =>
      cases h
      exact ⟨.emitted v _ hv (by decide) (by decide), by decide⟩
    · exact processFlips_ok h

theorem processBytes_ok {c n : Int} (h : processBytes s c = .ok (t, n)) : Decoded s t ∧ -2 ≤ n := by
  rw [processBytes, bind_eq_ok_iff] at h
  obtain ⟨a, -, h⟩ := h
  split at h
  next ha =>
    cases h
    exact ⟨.emitted a _ ha (by decide) (by decide), by decide⟩
  · split at h
    · cases h
      exact ⟨.kept, by decide⟩
    · rw [bind_eq_ok_iff] at h
      obtain ⟨r, -, h⟩ := h
      exact processRep_ok h

/-! ## Bit handler and state machine (R176 to R180) -/

theorem mem_syncOffsets_le {off : ℕ} (h : off ∈ syncOffsets) : off ≤ 48 := by
  revert off
  decide

theorem tryOffset_ok {b : BitBuf} {best best' : Best} {off : ℕ} (h : tryOffset b best off = .ok best') :
    best'.off = off ∨ best' = best := by
  rw [tryOffset, bind_eq_ok_iff] at h
  obtain ⟨a, -, h⟩ := h
  split at h <;> cases h
  · exact .inl rfl
  · exact .inr rfl

theorem findAlpha_le {b : BitBuf} {off : Int} (h : findAlpha b = .ok off) : off ≤ 48 := by
  rw [findAlpha, bind_eq_ok_iff] at h
  obtain ⟨best, hbest, h⟩ := h
  have hle : best.off ≤ 48 := foldlM_keeps (fun _ best => best.off ≤ 48)
    (fun off hoff _ best best' hle h => by
      have := mem_syncOffsets_le hoff
      rcases tryOffset_ok h with hnew | rfl
      · omega
      · exact hle) (n := 0) (by decide) hbest
  rw [pure_eq_ok_iff] at h
  split at h <;> omega

theorem smSync_ok (h : smSync s = .ok t) :
    (∃ cursor : BitVec 7, cursor.toNat ≤ 48 ∧
      t = s.setRx { s.rx with bitCursor := cursor, alphaPhase := true, rxState := rxReadData }) ∨
    t = s.setRxState rxSyncSetup := by
  rw [smSync, bind_eq_ok_iff] at h
  obtain ⟨off, hoff, h⟩ := h
  split at h
  · simp only [bind_eq_ok_iff, pure_eq_ok_iff] at h
    obtain ⟨cursor, hcursor, rfl⟩ := h
    have := findAlpha_le hoff
    have := toUnsigned_toNat hcursor
    exact .inl ⟨cursor, by omega, rfl⟩
  · exact .inr (pure_eq_ok_iff.mp h)

/-- R179: the error charge, of at most 2, and the state it chooses. -/
theorem alphaSlot_ok (h : alphaSlot s = .ok t) :
    ∃ u, Decoded s u ∧ ∃ e : BitVec 8, e.toNat ≤ u.rx.errorCount.toNat + 2 ∧
      t = u.setRx { u.rx with
        errorCount := e
        rxState := if errLimit < e.toNat then rxSyncSetup else u.rx.rxState } := by
  rw [alphaSlot, bind_eq_ok_iff] at h
  obtain ⟨⟨u, r⟩, hu, h⟩ := h
  simp only [bind_eq_ok_iff, pure_eq_ok_iff] at h
  obtain ⟨e, he, rfl⟩ := h
  obtain ⟨hdec, hr⟩ := processBytes_ok hu
  have := toUnsigned_toNat he
  exact ⟨u, hdec, e, by omega, rfl⟩

theorem smReadData_ok (h : smReadData s = .ok t) :
    t = s ∨ s.rx.bitCursor.toNat < 93 ∧ ∃ u, (alphaSlot s = .ok u ∨ u = s) ∧
      ∃ cursor : BitVec 7, cursor.toNat = u.rx.bitCursor.toNat + 7 ∧
        t = u.setRx { u.rx with alphaPhase := !u.rx.alphaPhase, bitCursor := cursor } := by
  unfold smReadData at h
  split at h
  next hlt =>
    split at h <;> simp only [bind_eq_ok_iff, pure_eq_ok_iff] at h
    · obtain ⟨u, hu, cursor, hcursor, rfl⟩ := h
      exact .inr ⟨hlt, u, .inl hu, cursor, by exact_mod_cast toUnsigned_toNat hcursor, rfl⟩
    · obtain ⟨_, rfl, cursor, hcursor, rfl⟩ := h
      exact .inr ⟨hlt, _, .inr rfl, cursor, by exact_mod_cast toUnsigned_toNat hcursor, rfl⟩
  · cases h
    exact .inl rfl

theorem shiftBit_ok {v : Int} (h : shiftBit s v = .ok t) :
    ∃ (b : I64) (cursor : BitVec 7), cursor.toNat ≤ s.rx.bitCursor.toNat ∧
      t = s.setRx { s.rx with bitbuf := s.rx.bitbuf.shiftIn b, bitCursor := cursor } := by
  simp only [shiftBit, bind_eq_ok_iff, pure_eq_ok_iff] at h
  obtain ⟨b, -, cursor, hcursor, rfl⟩ := h
  have := toUnsigned_toNat hcursor
  exact ⟨b, cursor, by omega, rfl⟩

theorem bitIn_ok {v : Int} (h : bitIn s v = .ok t) :
    ∃ u, shiftBit s v = .ok u ∧
      (s.rx.rxState = rxSyncSetup ∧ t = smSyncSetup u ∨ s.rx.rxState = rxSync ∧ smSync u = .ok t ∨
        s.rx.rxState = rxReadData ∧ smReadData u = .ok t) := by
  rw [bitIn, bind_eq_ok_iff] at h
  obtain ⟨u, hu, h⟩ := h
  refine ⟨u, hu, ?_⟩
  split at h
  next hs => exact .inl ⟨hs, pure_eq_ok_iff.mp h⟩
  split at h
  next hs => exact .inr (.inl ⟨hs, h⟩)
  split at h
  next hs => exact .inr (.inr ⟨hs, h⟩)
  · cases h

/-! ## Front end and the two commands (R100 to R110) -/

theorem ncoAdv_ok (h : ncoAdv s = .ok t) :
    ∃ pm ps, advancePhase s.nco.phaseM s.cfg.dphiM = .ok pm ∧ advancePhase s.nco.phaseS s.cfg.dphiS = .ok ps ∧
      t = s.setNco { phaseM := pm, phaseS := ps } := by
  simpa only [ncoAdv, bind_eq_ok_iff, pure_eq_ok_iff, exists_and_left] using h

theorem lpfBlock_length {c : Config} {f : Filter} {y : List Cplx} (h : lpfBlock c f = .ok y) : y.length = c.block := by
  dsimp only [lpfBlock] at h
  split at h <;> cases h
  simp

/-- R108: the pair pushed is finite; a push that completes a block answers P pairs, and every other none. -/
theorem lpfPush_ok {c : Config} {f g : Filter} {u : Cplx} {y : List Cplx} (h : lpfPush c f u = .ok (g, y)) :
    u.isFinite = true ∧ g.hist = f.hist ++ [u] ∧
      (f.fill + 1 = c.block ∧ g.fill = 0 ∧ y.length = c.block ∨
        f.fill + 1 ≠ c.block ∧ g.fill = f.fill + 1 ∧ y = []) := by
  unfold lpfPush at h
  split at h
  · cases h
  next hfin =>
    have hu : u.isFinite = true := by simpa using hfin
    split at h
    next hfull =>
      simp only [bind_eq_ok_iff, pure_eq_ok_iff] at h
      obtain ⟨z, hz, heq⟩ := h
      obtain ⟨rfl, rfl⟩ := Prod.mk.inj heq
      exact ⟨hu, rfl, .inl ⟨hfull, rfl, lpfBlock_length hz⟩⟩
    next hmore =>
      cases h
      exact ⟨hu, rfl, .inr ⟨hmore, rfl, rfl⟩⟩

theorem resetCommand_ok {fs : BitVec 32} {rv so : Bool} {res : BitVec 30} (h : resetCommand fs rv so res s = .ok t) :
    1000 ≤ fs.toNat ∧ t = resetState fs rv so s := by
  unfold resetCommand at h
  split at h
  · cases h
  · split at h
    · cases h
    next hrate =>
      cases h
      exact ⟨not_lt.mp hrate, rfl⟩

/-- R130: the states that FSAMPLE goes through. -/
theorem fsample_ok {c : Config} {ym ys : Cplx} (h : fsample c s ym ys = .ok t) :
    ∃ m sp b u, ∃ s1 s2 s3 s4 s5 s6 s7, envUpd s m sp = .ok s1 ∧ noiseUpd s1 m sp = .ok s2 ∧ accum s2 b = .ok s3 ∧
      evtEarly s3 u = .ok s4 ∧ evtLate s4 u = .ok s5 ∧ evtPrompt s5 u = .ok s6 ∧ realign s6 u = .ok s7 ∧
      cntInc s7 = .ok t := by
  simp only [fsample, bind_eq_ok_iff] at h
  obtain ⟨m, -, sp, -, s1, h1, s2, h2, nf, -, ⟨mc, sc⟩, -, l, -, b, -, s3, h3, s4, h4, s5, h5, s6, h6, s7, h7, ht⟩ := h
  exact ⟨m, sp, b, _, s1, s2, s3, s4, s5, s6, s7, h1, h2, h3, h4, h5, h6, h7, ht⟩

theorem pushBoth_ok {c : Config} {zm zs : Cplx} (h : pushBoth c s zm zs = .ok t) :
    ∃ fm ym fs ys, lpfPush c s.lpfM zm = .ok (fm, ym) ∧ lpfPush c s.lpfS zs = .ok (fs, ys) ∧
      ys.length ≤ ym.length ∧
      (ym.zip ys).foldlM (fun s p => fsample c s p.1 p.2) ((s.setFilter .mark fm).setFilter .space fs) = .ok t := by
  simp only [pushBoth, bind_eq_ok_iff] at h
  obtain ⟨⟨fm, ym⟩, hm, ⟨fs, ys⟩, hs, h⟩ := h
  dsimp only at h
  unfold burstLoop at h
  split at h
  · cases h
  next hlen => exact ⟨fm, ym, fs, ys, hm, hs, not_lt.mp hlen, h⟩

end Machine
end Sys2Proof
end

section
/-! SUPPORT. What every operation but RESET keeps (spec R22, R46, R62, R234): the configuration, the records already in `OUT`, and
legal registers. -/

open Sys2Proof.Claims

namespace Sys2Proof
namespace Machine

open F64

variable {s t u : State}

/-! ## Writes that keep the registers legal -/

theorem RegsLegal.setRet (h : RegsLegal s) (r : Ret) : RegsLegal (s.setRet r) := { h with }

theorem RegsLegal.setInput (h : RegsLegal s) (l : List HostEvent) : RegsLegal (s.setInput l) := { h with }

theorem RegsLegal.drain (h : RegsLegal s) : RegsLegal s.drain := { h with }

theorem RegsLegal.setNco {r : NcoRegs} (h : RegsLegal s) (hm : PhaseLegal r.phaseM) (hs : PhaseLegal r.phaseS) :
    RegsLegal (s.setNco r) :=
  { h with phaseM := hm, phaseS := hs }

theorem RegsLegal.setTrk {r : TrackRegs} (h : RegsLegal s)
    (hr : r.envM.isFinite ∧ r.envS.isFinite ∧ r.noiseM.isFinite ∧ r.noiseS.isFinite) : RegsLegal (s.setTrk r) :=
  { h with reals := ⟨hr, h.reals.2⟩ }

theorem RegsLegal.setSync {r : SyncRegs} (h : RegsLegal s)
    (hnext : r.nextE.isFinite ∧ r.nextP.isFinite ∧ r.nextL.isFinite)
    (havg : r.avgE.isFinite ∧ r.avgP.isFinite ∧ r.avgL.isFinite) (hcount : r.sampleCount.toNat < 2 ^ 53) :
    RegsLegal (s.setSync r) :=
  { h with reals := ⟨h.reals.1, hnext, havg⟩, count := hcount }

theorem RegsLegal.setRx {r : RxRegs} (h : RegsLegal s) (hstate : r.rxState ≠ 3#2) (hcursor : r.bitCursor.toNat ≤ 99) :
    RegsLegal (s.setRx r) :=
  { h with rxState := hstate, cursor := hcursor }

theorem RegsLegal.setFilter {br : Branch} {f : Filter} (h : RegsLegal s) (hfill : f.fill < Config.machine.block)
    (hhist : ∀ u ∈ f.hist, u.isFinite = true) : RegsLegal (s.setFilter br f) := by
  cases br
  · exact { h with fillM := hfill, histM := hhist }
  · exact { h with fillS := hfill, histS := hhist }

theorem RegsLegal.fill_lt (h : RegsLegal s) (br : Branch) : (s.filter br).fill < Config.machine.block := by
  cases br
  · exact h.fillM
  · exact h.fillS

theorem RegsLegal.hist_isFinite (h : RegsLegal s) (br : Branch) : ∀ u ∈ (s.filter br).hist, u.isFinite = true := by
  cases br
  · exact h.histM
  · exact h.histS

theorem RegsLegal.processChar (h : RegsLegal s) (code : Code7) (path : BitVec 3) :
    RegsLegal (processChar s code path) := { h with }

/-! ## What every operation but RESET keeps (R22, R46, R69) -/

/-- What every operation but RESET keeps. -/
structure Keeps (s t : State) : Prop where
  cfg : t.cfg = s.cfg
  input : t.input = s.input
  out : s.out <+: t.out
  regs : RegsLegal s → RegsLegal t

/-- What every operation keeps that runs no BIT_IN either (R62). -/
structure KeepsBuffer (s t : State) : Prop extends Keeps s t where
  bitbuf : t.rx.bitbuf = s.rx.bitbuf

theorem Keeps.refl (s : State) : Keeps s s := ⟨rfl, rfl, List.prefix_rfl, id⟩

theorem KeepsBuffer.refl (s : State) : KeepsBuffer s s := ⟨.refl s, rfl⟩

theorem Keeps.trans (h : Keeps s t) (h' : Keeps t u) : Keeps s u :=
  ⟨h'.cfg.trans h.cfg, h'.input.trans h.input, h.out.trans h'.out, h'.regs ∘ h.regs⟩

theorem KeepsBuffer.trans (h : KeepsBuffer s t) (h' : KeepsBuffer t u) : KeepsBuffer s u :=
  ⟨h.toKeeps.trans h'.toKeeps, h'.bitbuf.trans h.bitbuf⟩

theorem keepsBuffer_setRet (s : State) (r : Ret) : KeepsBuffer s (s.setRet r) :=
  ⟨⟨rfl, rfl, List.prefix_rfl, (·.setRet r)⟩, rfl⟩

theorem keepsBuffer_setTrk {r : TrackRegs} (h : RegsLegal s → RegsLegal (s.setTrk r)) : KeepsBuffer s (s.setTrk r) :=
  ⟨⟨rfl, rfl, List.prefix_rfl, h⟩, rfl⟩

theorem keepsBuffer_setSync {r : SyncRegs} (h : RegsLegal s → RegsLegal (s.setSync r)) :
    KeepsBuffer s (s.setSync r) :=
  ⟨⟨rfl, rfl, List.prefix_rfl, h⟩, rfl⟩

theorem keeps_setRx {r : RxRegs} (hstate : s.rx.rxState ≠ 3#2 → r.rxState ≠ 3#2)
    (hcursor : s.rx.bitCursor.toNat ≤ 99 → r.bitCursor.toNat ≤ 99) : Keeps s (s.setRx r) :=
  ⟨rfl, rfl, List.prefix_rfl, fun h => h.setRx (hstate h.rxState) (hcursor h.cursor)⟩

theorem keepsBuffer_setFilter {br : Branch} {f : Filter} (h : RegsLegal s → RegsLegal (s.setFilter br f)) :
    KeepsBuffer s (s.setFilter br f) := by
  obtain ⟨hcfg, -, -, -, hrx, hout, -, hinput, -, -⟩ := State.setFilter_frame s br f
  exact ⟨⟨hcfg, hinput, hout ▸ List.prefix_rfl, h⟩, by rw [hrx]⟩

/-! ### Trackers, accumulators and time base -/

theorem envUpd_keeps {m sp : F64} (h : envUpd s m sp = .ok t) : KeepsBuffer s t := by
  obtain ⟨em, es, hem, hes, rfl⟩ := envUpd_ok h
  refine keepsBuffer_setTrk fun hs => ?_
  obtain ⟨⟨-, -, hnoise⟩, -⟩ := hs.reals
  exact hs.setTrk ⟨hem, hes, hnoise⟩

theorem noiseUpd_keeps {m sp : F64} (h : noiseUpd s m sp = .ok t) : KeepsBuffer s t := by
  obtain ⟨nm, ns, hnm, hns, rfl⟩ := noiseUpd_ok h
  refine keepsBuffer_setTrk fun hs => ?_
  obtain ⟨⟨hem, hes, -⟩, -⟩ := hs.reals
  exact hs.setTrk ⟨hem, hes, hnm, hns⟩

theorem accum_keeps {b : Int} (h : accum s b = .ok t) : KeepsBuffer s t := by
  obtain ⟨e, p, l, rfl⟩ := accum_ok h
  refine keepsBuffer_setSync fun hs => ?_
  obtain ⟨-, hnext, havg⟩ := hs.reals
  exact hs.setSync hnext havg hs.count

theorem cntInc_keeps (h : cntInc s = .ok t) : KeepsBuffer s t := by
  obtain ⟨n, hne, hn, rfl⟩ := cntInc_ok h
  refine keepsBuffer_setSync fun hs => ?_
  obtain ⟨-, hnext, havg⟩ := hs.reals
  have := hs.count
  exact hs.setSync hnext havg (by dsimp only; omega)

/-! ### Bit synchroniser -/

theorem evtEarly_keeps {x : F64} (h : evtEarly s x = .ok t) : KeepsBuffer s t := by
  obtain rfl | ⟨avg, next, havg, hnext, rfl⟩ := evtEarly_ok h
  · exact .refl _
  · refine keepsBuffer_setSync fun hs => ?_
    obtain ⟨-, ⟨-, hnextP, hnextL⟩, ⟨-, havgP, havgL⟩⟩ := hs.reals
    exact hs.setSync ⟨hnext, hnextP, hnextL⟩ ⟨havg, havgP, havgL⟩ hs.count

theorem evtLate_keeps {x : F64} (h : evtLate s x = .ok t) : KeepsBuffer s t := by
  obtain rfl | ⟨avg, next, havg, hnext, rfl⟩ := evtLate_ok h
  · exact .refl _
  · refine keepsBuffer_setSync fun hs => ?_
    obtain ⟨-, ⟨hnextE, hnextP, -⟩, ⟨havgE, havgP, -⟩⟩ := hs.reals
    exact hs.setSync ⟨hnextE, hnextP, hnext⟩ ⟨havgE, havgP, havg⟩ hs.count

theorem promptSample_keeps (h : promptSample s = .ok t) : KeepsBuffer s t := by
  obtain ⟨m, avg, next, havg, hnext, rfl⟩ := promptSample_ok h
  refine keepsBuffer_setSync fun hs => ?_
  obtain ⟨-, ⟨hnextE, -, hnextL⟩, ⟨havgE, -, havgL⟩⟩ := hs.reals
  exact hs.setSync ⟨hnextE, hnext, hnextL⟩ ⟨havgE, havg, havgL⟩ hs.count

theorem realign_keeps {x : F64} (h : realign s x = .ok t) : KeepsBuffer s t := by
  obtain rfl | ⟨a, ne, np, nl, ha, hne, hnp, hnl, rfl⟩ := realign_ok h
  · exact .refl _
  · refine keepsBuffer_setSync fun hs => ?_
    obtain ⟨-, -, havgE, havgP, havgL⟩ := hs.reals
    obtain ⟨hE, hP, hL⟩ := alignment_ok ha
    refine hs.setSync ⟨hne, hnp, hnl⟩ ⟨?_, ?_, ?_⟩ hs.count
    · rcases hE with h | h <;> simp only [h, havgE, havgP]
    · rcases hP with h | h | h <;> simp only [h, havgE, havgP, havgL]
    · rcases hL with h | h <;> simp only [h, havgP, havgL]

/-! ### Decoder, state machine and bit handler -/

theorem processChar_keeps (s : State) (code : Code7) (path : BitVec 3) : KeepsBuffer s (processChar s code path) :=
  ⟨⟨rfl, rfl, List.prefix_append _ _, fun h => h.processChar code path⟩, rfl⟩

theorem Decoded.keeps (h : Decoded s t) : KeepsBuffer s t := by
  cases h with
  | kept => exact .refl s
  | emitted v path => exact processChar_keeps s (bitsToCode v) path

theorem smSyncSetup_keeps (s : State) : KeepsBuffer s (smSyncSetup s) :=
  ⟨keeps_setRx (fun _ => show rxSync ≠ 3#2 by decide) id, rfl⟩

theorem smSync_keeps (h : smSync s = .ok t) : KeepsBuffer s t := by
  obtain ⟨cursor, hcursor, rfl⟩ | rfl := smSync_ok h
  · exact ⟨keeps_setRx (fun _ => show rxReadData ≠ 3#2 by decide) fun _ => by dsimp only; omega, rfl⟩
  · exact ⟨keeps_setRx (fun _ => show rxSyncSetup ≠ 3#2 by decide) id, rfl⟩

theorem alphaSlot_keeps (h : alphaSlot s = .ok t) : KeepsBuffer s t := by
  obtain ⟨u, hu, e, -, rfl⟩ := alphaSlot_ok h
  refine hu.keeps.trans ⟨keeps_setRx (fun hstate => ?_) id, rfl⟩
  dsimp only
  split
  · decide
  · exact hstate

theorem alphaSlot_cursor (h : alphaSlot s = .ok t) : t.rx.bitCursor = s.rx.bitCursor := by
  obtain ⟨u, hu, e, -, rfl⟩ := alphaSlot_ok h
  cases hu <;> rfl

theorem smReadData_keeps (h : smReadData s = .ok t) : KeepsBuffer s t := by
  obtain rfl | ⟨hlt, u, hu, cursor, hcursor, rfl⟩ := smReadData_ok h
  · exact .refl _
  · obtain ⟨hkeeps, hsame⟩ : KeepsBuffer s u ∧ u.rx.bitCursor = s.rx.bitCursor := by
      rcases hu with hu | rfl
      · exact ⟨alphaSlot_keeps hu, alphaSlot_cursor hu⟩
      · exact ⟨.refl _, rfl⟩
    rw [hsame] at hcursor
    exact hkeeps.trans ⟨keeps_setRx id fun _ => by dsimp only; omega, rfl⟩

theorem shiftBit_keeps {v : Int} (h : shiftBit s v = .ok t) : Keeps s t := by
  obtain ⟨b, cursor, hcursor, rfl⟩ := shiftBit_ok h
  exact keeps_setRx id hcursor.trans

theorem bitIn_keeps {v : Int} (h : bitIn s v = .ok t) : Keeps s t := by
  obtain ⟨u, hu, ⟨-, rfl⟩ | ⟨-, h⟩ | ⟨-, h⟩⟩ := bitIn_ok h
  · exact (shiftBit_keeps hu).trans (smSyncSetup_keeps u).toKeeps
  · exact (shiftBit_keeps hu).trans (smSync_keeps h).toKeeps
  · exact (shiftBit_keeps hu).trans (smReadData_keeps h).toKeeps

theorem evtPrompt_keeps {x : F64} (h : evtPrompt s x = .ok t) : Keeps s t := by
  obtain rfl | ⟨p, hp, hbit⟩ := evtPrompt_ok h
  · exact .refl _
  · exact (promptSample_keeps hp).toKeeps.trans (bitIn_keeps hbit)

theorem fsample_keeps {c : Config} {ym ys : Cplx} (h : fsample c s ym ys = .ok t) : Keeps s t := by
  obtain ⟨m, sp, b, x, s1, s2, s3, s4, s5, s6, s7, h1, h2, h3, h4, h5, h6, h7, h8⟩ := fsample_ok h
  have hbefore : KeepsBuffer s s5 :=
    ((((envUpd_keeps h1).trans (noiseUpd_keeps h2)).trans (accum_keeps h3)).trans (evtEarly_keeps h4)).trans
      (evtLate_keeps h5)
  have hafter : KeepsBuffer s6 t := (realign_keeps h7).trans (cntInc_keeps h8)
  exact hbefore.toKeeps.trans ((evtPrompt_keeps h6).trans hafter.toKeeps)

/-! ### Phases (R106) -/

theorem PhaseLegal.isFinite {p : F64} (h : PhaseLegal p) : p.isFinite = true := by
  obtain ⟨-, hlow, hhigh⟩ := h
  have hbound : F64.negTwoPi.key = -0x401921FB54442D18 := by decide
  rw [hbound] at hlow
  rw [isFinite_iff]
  unfold key at hlow hhigh
  split at hlow
  · omega
  next hsign =>
    rw [if_neg hsign] at hhigh
    omega

/-- R106: each addition of the wrap keeps the phase finite and not positive. -/
theorem add_twoPi_nonpos {p : F64} (hp : p.isFinite = true) (hle : p.key ≤ F64.negTwoPi.key) :
    (F64.add p F64.twoPi).isFinite = true ∧ (F64.add p F64.twoPi).key ≤ 0 := by
  have hpi : F64.twoPi.isFinite = true := by decide
  have hpos : 0 ≤ F64.twoPi.toRat := toRat_nonneg_iff.mpr (by decide)
  rw [← toRat_le_toRat_iff, toRat_negTwoPi] at hle
  refine ⟨isFinite_add_of_abs_le hp hpi hp ?_, add_key_nonpos hp hpi (by linarith)⟩
  rw [abs_of_nonpos (by linarith), abs_of_nonpos (by linarith)]
  linarith

theorem wrapPhase_legal {fuel : ℕ} {p q : F64} (h : wrapPhase fuel p = .ok q) (hp : p.isFinite = true)
    (hle : p.key ≤ 0) : PhaseLegal q := by
  have hbound := wrapPhase_exit h
  obtain ⟨hq, hq0⟩ : q.isFinite = true ∧ q.key ≤ 0 := by
    clear hbound
    induction fuel generalizing p with
    | zero => cases h
    | succ fuel ih =>
      rw [wrapPhase] at h
      split at h
      next hwrap =>
        dsimp only at h
        split at h
        · cases h
        · rw [le_iff (isNaN_of_isFinite hp) (by decide)] at hwrap
          obtain ⟨hfin, hnonpos⟩ := add_twoPi_nonpos hp hwrap
          exact ih h hfin hnonpos
      next =>
        cases h
        exact ⟨hp, hle⟩
  have hnan := isNaN_of_isFinite hq
  rw [← Bool.not_eq_true, le_iff hnan (by decide), not_le] at hbound
  exact ⟨hnan, hbound, hq0⟩

theorem advancePhase_legal {p d q : F64} (hp : PhaseLegal p) (hd : d.isFinite = true) (hd0 : 0 ≤ d.key)
    (h : advancePhase p d = .ok q) : PhaseLegal q := by
  unfold advancePhase at h
  split at h
  · cases h
  next r hr =>
    obtain ⟨hfin, rfl⟩ := chk_eq_ok_iff.mp hr
    refine wrapPhase_legal h hfin (add_key_nonpos hp.isFinite (by rw [isFinite_neg, hd]) ?_)
    obtain ⟨-, -, hp0⟩ := hp
    have := toRat_nonpos_iff.mpr hp0
    have := toRat_nonneg_iff.mpr hd0
    rw [toRat_neg]
    linarith

/-- R23: the increments are finite and not negative; before any RESET they are zero. -/
theorem ConfigLegal.increments {c : ConfigRegs} (h : ConfigLegal c) :
    (c.dphiM.isFinite = true ∧ 0 ≤ c.dphiM.key) ∧ (c.dphiS.isFinite = true ∧ 0 ≤ c.dphiS.key) := by
  unfold ConfigLegal at h
  split at h
  · obtain ⟨hrate, -, hm, hs⟩ := h
    obtain ⟨⟨hmfin, -⟩, hm0⟩ := phaseStep_legal toneLegal_mark hrate
    obtain ⟨⟨hsfin, -⟩, hs0⟩ := phaseStep_legal toneLegal_space hrate
    rw [hm, hs]
    exact ⟨⟨hmfin, hm0.le⟩, hsfin, hs0.le⟩
  · subst h
    decide

theorem ncoAdv_keeps (h : ncoAdv s = .ok t) : KeepsBuffer s t := by
  obtain ⟨pm, ps, hm, hs, rfl⟩ := ncoAdv_ok h
  refine ⟨⟨rfl, rfl, List.prefix_rfl, fun hl => ?_⟩, rfl⟩
  obtain ⟨⟨hmfin, hm0⟩, hsfin, hs0⟩ := hl.config.increments
  exact hl.setNco (advancePhase_legal hl.phaseM hmfin hm0 hm) (advancePhase_legal hl.phaseS hsfin hs0 hs)

/-! ### Filters and SAMPLE -/

theorem setFilter_keeps {br : Branch} {u : Cplx} {f : Filter} {y : List Cplx}
    (h : lpfPush Config.machine (s.filter br) u = .ok (f, y)) : KeepsBuffer s (s.setFilter br f) := by
  obtain ⟨hu, hhist, hfill⟩ := lpfPush_ok h
  refine keepsBuffer_setFilter fun hs => hs.setFilter ?_ ?_
  · have := hs.fill_lt br
    omega
  · rw [hhist, List.forall_mem_append, List.forall_mem_singleton]
    exact ⟨hs.hist_isFinite br, hu⟩

theorem pushBoth_keeps {zm zs : Cplx} (h : pushBoth Config.machine s zm zs = .ok t) : Keeps s t := by
  obtain ⟨fm, ym, fs, ys, hm, hs, -, hburst⟩ := pushBoth_ok h
  have hpush : KeepsBuffer s ((s.setFilter .mark fm).setFilter .space fs) :=
    (setFilter_keeps (br := .mark) hm).trans (setFilter_keeps (br := .space) hs)
  exact foldlM_keeps (fun _ t => Keeps s t) (fun _ _ _ _ _ hx hstep => hx.trans (fsample_keeps hstep)) (n := 0)
    hpush.toKeeps hburst

end Machine
end Sys2Proof
end

section
/-! SUPPORT. A whole operation and a whole step (spec R66, R236, R243). -/

open Sys2Proof.Claims

namespace Sys2Proof
namespace Machine

open F64

variable {s t u : State}

/-! ## A whole operation (R66, R236) -/

theorem next_inj {s t : State} (h : (.next s : Answer) = .next t) : s = t := by
  cases h
  rfl

/-- An operation that ends without a fault began without one and computed its state. -/
theorem live_of_next {r : Except FaultRec State} (h : (.next (s.finish r) : Answer) = .next t) (ht : t.fault = none) :
    s.fault = none ∧ r = .ok t :=
  finish_live (next_inj h) ht

theorem setRet_of_next {α : Type} {r : Except FaultRec α} {g : α → Ret}
    (h : (.next (s.finish (r.map fun a => s.setRet (g a))) : Answer) = .next t) (ht : t.fault = none) :
    ∃ x, t = s.setRet x := by
  obtain ⟨a, -, rfl⟩ := map_eq_ok_iff.mp (live_of_next h ht).2
  exact ⟨g a, rfl⟩

theorem execNcoAdv_live (h : execNcoAdv s = .next t) (ht : t.fault = none) : s.fault = none ∧ ncoAdv s = .ok t := by
  unfold execNcoAdv at h
  split at h
  next hfault =>
    obtain rfl := next_inj h
    simp [ht] at hfault
  next hlive =>
    refine ⟨by simpa using hlive, ?_⟩
    split at h <;> cases h
    · assumption
    · simp at ht

/-- Everything SAMPLE can answer. -/
theorem execSample_cases {x : F64} (h : execSample x s = .next t) :
    (s.fault.isSome = true ∧ t = s) ∨ (∃ e, t = s.raise e) ∨
      (s.fault = none ∧ ∃ zm zs u, sampleChecks x s = .ok () ∧ mixBoth Config.machine s x = .ok (zm, zs) ∧
        ncoAdv s = .ok u ∧ pushBoth Config.machine u zm zs = .ok t) := by
  unfold execSample at h
  split at h
  next hfault => exact .inl ⟨hfault, (next_inj h).symm⟩
  unfold sampleWith at h
  split at h
  next e _ => exact .inr (.inl ⟨e, (next_inj h).symm⟩)
  next hchecks =>
    split at h
    next e _ => exact .inr (.inl ⟨e, (next_inj h).symm⟩)
    next zm zs hmix =>
      split at h
      · cases h
      next e _ => exact .inr (.inl ⟨e, (next_inj h).symm⟩)
      next u hnco =>
        obtain hfault | ⟨hs, hpush⟩ | ⟨e, -, -, he⟩ := finish_cases (next_inj h)
        · exact .inl hfault
        · exact .inr (.inr ⟨hs, zm, zs, u, hchecks, hmix, hnco, hpush⟩)
        · exact .inr (.inl ⟨e, he⟩)

theorem execSample_live {x : F64} (h : execSample x s = .next t) (ht : t.fault = none) :
    s.fault = none ∧ ∃ zm zs u, sampleChecks x s = .ok () ∧ mixBoth Config.machine s x = .ok (zm, zs) ∧
      ncoAdv s = .ok u ∧ pushBoth Config.machine u zm zs = .ok t := by
  obtain ⟨hfault, rfl⟩ | ⟨e, rfl⟩ | hlive := execSample_cases h
  · simp [ht] at hfault
  · simp at ht
  · exact hlive

theorem execReset_live {fs : BitVec 32} {rv so : Bool} {res : BitVec 30} (h : execReset fs rv so res s = .next t)
    (ht : t.fault = none) : s.fault = none ∧ 1000 ≤ fs.toNat ∧ t = resetState fs rv so s := by
  obtain ⟨hs, hok⟩ := live_of_next h ht
  exact ⟨hs, resetCommand_ok hok⟩

theorem execSample_keeps {x : F64} (h : execSample x s = .next t) (ht : t.fault = none) : Keeps s t := by
  obtain ⟨-, zm, zs, u, -, -, hnco, hpush⟩ := execSample_live h ht
  exact (ncoAdv_keeps hnco).toKeeps.trans (pushBoth_keeps hpush)

/-- R22, R46, R62: every operation but RESET, SAMPLE, EVT_PROMPT and BIT_IN. -/
theorem exec_keepsBuffer {i : Instr} (hreset : ∀ fs rv so res, i ≠ .reset fs rv so res) (hsample : ∀ x, i ≠ .sample x)
    (hprompt : ∀ x, i ≠ .evtPrompt x) (hbit : ∀ v, i ≠ .bitIn v) (h : exec i s = .next t) (ht : t.fault = none) :
    KeepsBuffer s t := by
  cases i
  case reset fs rv so res => exact absurd rfl (hreset fs rv so res)
  case sample x => exact absurd rfl (hsample x)
  case evtPrompt x => exact absurd rfl (hprompt x)
  case bitIn v => exact absurd rfl (hbit v)
  case scale | mix | lpfBlock | mag | nfloor | clip | atc | softbit | findAlpha | flipSmallest =>
    obtain ⟨x, rfl⟩ := setRet_of_next h ht
    exact keepsBuffer_setRet s x
  case bitsToCode | validChar =>
    obtain ⟨-, hok⟩ := live_of_next h ht
    cases hok
    exact keepsBuffer_setRet s _
  case processBytes =>
    obtain ⟨⟨u, r⟩, hu, rfl⟩ := map_eq_ok_iff.mp (live_of_next h ht).2
    exact (processBytes_ok hu).1.keeps.trans (keepsBuffer_setRet u _)
  case processChar code path =>
    obtain ⟨-, hok⟩ := live_of_next h ht
    cases hok
    exact processChar_keeps s code path
  case smSyncSetup =>
    obtain ⟨-, hok⟩ := live_of_next h ht
    cases hok
    exact smSyncSetup_keeps s
  case lpfPush =>
    obtain ⟨⟨f, y⟩, hf, rfl⟩ := map_eq_ok_iff.mp (live_of_next h ht).2
    exact (setFilter_keeps hf).trans (keepsBuffer_setRet _ _)
  case ncoAdv => exact ncoAdv_keeps (execNcoAdv_live h ht).2
  case envUpd => exact envUpd_keeps (live_of_next h ht).2
  case noiseUpd => exact noiseUpd_keeps (live_of_next h ht).2
  case accum => exact accum_keeps (live_of_next h ht).2
  case cntInc => exact cntInc_keeps (live_of_next h ht).2
  case evtEarly => exact evtEarly_keeps (live_of_next h ht).2
  case evtLate => exact evtLate_keeps (live_of_next h ht).2
  case realign => exact realign_keeps (live_of_next h ht).2
  case smSync => exact smSync_keeps (live_of_next h ht).2
  case smReadData => exact smReadData_keeps (live_of_next h ht).2

/-- R22, R46: every operation but RESET. -/
theorem exec_keeps {i : Instr} (hi : ∀ fs rv so res, i ≠ .reset fs rv so res) (h : exec i s = .next t)
    (ht : t.fault = none) : Keeps s t := by
  cases i
  case reset fs rv so res => exact absurd rfl (hi fs rv so res)
  case sample => exact execSample_keeps h ht
  case evtPrompt => exact evtPrompt_keeps (live_of_next h ht).2
  case bitIn => exact bitIn_keeps (live_of_next h ht).2
  all_goals refine (exec_keepsBuffer ?_ ?_ ?_ ?_ h ht).toKeeps <;> nofun

/-- Settles O50: an operation but RESET keeps the configuration and only appends to `OUT`; RESET keeps `OUT`. -/
theorem whatEveryOperationKeeps : Obligations.WhatEveryOperationKeeps := by
  unfold Obligations.WhatEveryOperationKeeps
  intro i s t h ht
  refine ⟨?_, fun hreset => ⟨(exec_keeps hreset h ht).cfg, fun hsample hprompt hbit =>
    (exec_keepsBuffer hreset hsample hprompt hbit h ht).bitbuf⟩⟩
  by_cases hreset : ∃ fs rv so res, i = .reset fs rv so res
  · obtain ⟨fs, rv, so, res, rfl⟩ := hreset
    obtain ⟨-, -, rfl⟩ := execReset_live h ht
    exact List.prefix_rfl
  · push Not at hreset
    exact (exec_keeps hreset h ht).out

/-- R251: the registers RESET leaves. -/
theorem resetState_legal {fs : BitVec 32} (h : 1000 ≤ fs.toNat) (rv so : Bool) (s : State) :
    RegsLegal (resetState fs rv so s) := by
  have hzero : F64.zero.isFinite = true := by decide
  have hphase : PhaseLegal F64.zero := ⟨by decide, by decide, by decide⟩
  have hfill : 0 < Config.machine.block := Nat.succ_pos _
  obtain ⟨hprompt, hlate⟩ := firstIndices_isFinite h
  exact
    { config := ⟨h, rfl, rfl, rfl⟩
      phaseM := hphase
      phaseS := hphase
      fillM := hfill
      fillS := hfill
      histM := List.forall_mem_nil _
      histS := List.forall_mem_nil _
      reals := ⟨⟨hzero, hzero, hzero, hzero⟩, ⟨hzero, hprompt, hlate⟩, hzero, hzero, hzero⟩
      count := (by decide : (0#64).toNat < 2 ^ 53)
      rxState := (by decide : rxSyncSetup ≠ 3#2)
      cursor := (by decide : (0#7).toNat ≤ 99) }

theorem exec_regsLegal {i : Instr} (h : exec i s = .next t) (ht : t.fault = none) (hs : RegsLegal s) :
    RegsLegal t := by
  by_cases hreset : ∃ fs rv so res, i = .reset fs rv so res
  · obtain ⟨fs, rv, so, res, rfl⟩ := hreset
    obtain ⟨-, hrate, rfl⟩ := execReset_live h ht
    exact resetState_legal hrate rv so s
  · push Not at hreset
    exact (exec_keeps hreset h ht).regs hs

/-- An operation never answers a block without a fault from one that holds a fault (R236). -/
theorem exec_live {i : Instr} (h : exec i s = .next t) (ht : t.fault = none) : s.fault = none := by
  cases i
  case ncoAdv => exact (execNcoAdv_live h ht).1
  case sample => exact (execSample_live h ht).1
  all_goals exact (live_of_next h ht).1

/-- A transaction that carries no instruction answers no state without a fault. -/
theorem refuseTx_faulted {e : DecodeError} (h : refuseTx e s = .next t) : t.fault ≠ none := by
  intro ht
  unfold refuseTx at h
  split at h
  · cases (live_of_next h ht).2
  all_goals
    split at h <;> cases h
    next hfault => simp [ht] at hfault

/-- What a step runs (R243, R245): nothing, or the oldest event. -/
theorem step_cases (h : step s = .next t) :
    (s.input = [] ∧ t = s) ∨ ∃ e rest, s.input = e :: rest ∧ runEvent e (s.setInput rest) = .next t := by
  unfold step runNext at h
  split at h
  next hinput => exact .inl ⟨hinput, (next_inj h).symm⟩
  next e rest hinput => exact .inr ⟨e, rest, hinput, h⟩

/-- What an event that leaves no fault did: a drain, or one operation. -/
theorem runEvent_live {e : HostEvent} (h : runEvent e s = .next t) (ht : t.fault = none) :
    (e = .drain ∧ t = s.drain) ∨ ∃ tx i, e = .issue tx ∧ decode tx = .ok i ∧ exec i s = .next t := by
  cases e with
  | drain => exact .inl ⟨rfl, (next_inj h).symm⟩
  | issue tx =>
    simp only [runEvent, runTx] at h
    split at h
    next i hi => exact .inr ⟨tx, i, rfl, hi, h⟩
    · exact absurd ht (refuseTx_faulted h)

theorem runEvent_live_before {e : HostEvent} (h : runEvent e s = .next t) (ht : t.fault = none) : s.fault = none := by
  obtain ⟨-, rfl⟩ | ⟨tx, i, -, -, hexec⟩ := runEvent_live h ht
  · exact ht
  · exact exec_live hexec ht

/-- Settles O53: an operation keeps legal registers, and so do a drain and the queue. -/
theorem everyStepKeepsRegistersLegal : Obligations.EveryStepKeepsRegistersLegal := by
  unfold Obligations.EveryStepKeepsRegistersLegal
  intro s t hs h ht
  obtain ⟨-, rfl⟩ | ⟨e, rest, -, hevent⟩ := step_cases h
  · exact hs ht
  · have hlegal := (hs (runEvent_live_before (s := s.setInput rest) hevent ht)).setInput rest
    obtain ⟨-, rfl⟩ | ⟨tx, i, -, -, hexec⟩ := runEvent_live hevent ht
    · exact hlegal.drain
    · exact exec_regsLegal hexec ht hlegal

end Machine
end Sys2Proof
end

section
/-! SUPPORT. What ordinary events keep of the stream (spec R43, R45, R86, R109, R139). -/

open Sys2Proof.Claims

namespace Sys2Proof
namespace Machine

variable {s t u : State}

/-! ## Records (R86, R87, R89) -/

theorem countP_testBit_codeOfList (l : List Int) :
    (List.range l.length).countP (fun k => (codeOfList l).testBit k) = l.countP fun x => decide (0 < x) := by
  have hl : (List.range l.length).map (fun k => l[k]?.getD 0) = l := by
    refine List.ext_getElem (by simp) fun k hk hk' => ?_
    simp [List.getElem?_eq_getElem hk']
  simp only [codeOfList_testBit]
  conv_rhs => rw [← hl, List.countP_map]
  rfl

/-- A vector of four positive soft bits is a valid codeword (R170, R171). -/
theorem valid_bitsToCode {v : Soft7} (h : validChar v = true) : Codeword.valid (bitsToCode v) = true := by
  have hcount : Codeword.popcount (bitsToCode v) = positives v := by
    unfold Codeword.popcount positives
    rw [← countP_testBit_codeOfList, Vector.length_toList]
    refine List.countP_congr fun k hk => ?_
    have hlt := codeOfList_lt v.toList
    rw [Vector.length_toList] at hlt
    rw [bitsToCode, BitVec.getLsbD, BitVec.toNat_ofNat, Nat.mod_eq_of_lt hlt]
  rwa [Codeword.valid, hcount]

/-- A record as a number (R86). -/
theorem toNat_recordOf (path : BitVec 3) (shift : Bool) (code : Code7) :
    (recordOf path shift code).toNat = path.toNat * 2 ^ 8 + (shift.toNat * 2 ^ 7 + code.toNat) := by
  have hlow : (BitVec.ofBool shift ++ code).toNat = shift.toNat * 2 ^ 7 + code.toNat := by
    rw [BitVec.toNat_append, BitVec.toNat_ofBool, ← Nat.shiftLeft_add_eq_or_of_lt code.isLt, Nat.shiftLeft_eq]
  have hhigh : (0#5 ++ (path ++ (BitVec.ofBool shift ++ code)) : BitVec (5 + (3 + (1 + 7)))).toNat =
      path.toNat * 2 ^ 8 + (BitVec.ofBool shift ++ code).toNat := by
    rw [BitVec.toNat_append, BitVec.toNat_append, ← Nat.shiftLeft_add_eq_or_of_lt (BitVec.isLt _), Nat.shiftLeft_eq]
    simp [Nat.shiftLeft_eq]
  exact hhigh.trans (by rw [hlow])

theorem recordLegal_recordOf {path : BitVec 3} {code : Code7} (shift : Bool) (hcode : Codeword.valid code = true)
    (hlow : 1 ≤ path.toNat) (hhigh : path.toNat ≤ 6) : RecordLegal (recordOf path shift code) := by
  have hrec := toNat_recordOf path shift code
  have hshift : shift.toNat ≤ 1 := Bool.toNat_le shift
  have hc : recordCode (recordOf path shift code) = code := by
    refine BitVec.eq_of_toNat_eq ?_
    rw [recordCode, BitVec.extractLsb'_toNat, hrec]
    omega
  have hp : recordPath (recordOf path shift code) = path := by
    refine BitVec.eq_of_toNat_eq ?_
    rw [recordPath, BitVec.extractLsb'_toNat, hrec]
    omega
  exact ⟨by rw [hc, hcode], by rwa [hp], by rwa [hp], by omega⟩

/-! ## Bit handler and decoder -/

/-- The records and the codeword last emitted (R45, R49, R86). -/
structure TextLegal (out : List Rec16) (last : Code7) : Prop where
  records : ∀ r ∈ out, RecordLegal r
  last : last = 0#7 ∨ Codeword.valid last = true

/-- R43: the error count. -/
structure ErrorsLegal (rx : RxRegs) : Prop where
  errors : rx.errorCount.toNat ≤ 7
  errorsRunning : rx.rxState ≠ rxSyncSetup → rx.errorCount.toNat ≤ errLimit

theorem ErrorsLegal.of_le {rx : RxRegs} (h : rx.errorCount.toNat ≤ errLimit) : ErrorsLegal rx :=
  ⟨h.trans (by decide), fun _ => h⟩

/-- What an operation of the bit handler keeps of the stream. -/
structure TextKept (s t : State) : Prop where
  lpfM : t.lpfM = s.lpfM
  lpfS : t.lpfS = s.lpfS
  sync : t.sync = s.sync
  text : TextLegal s.out s.rx.lastCode → TextLegal t.out t.rx.lastCode

theorem TextKept.refl (s : State) : TextKept s s := ⟨rfl, rfl, rfl, id⟩

theorem TextKept.trans (h : TextKept s t) (h' : TextKept t u) : TextKept s u :=
  ⟨h'.lpfM.trans h.lpfM, h'.lpfS.trans h.lpfS, h'.sync.trans h.sync, h'.text ∘ h.text⟩

theorem textKept_setRx {r : RxRegs} (h : r.lastCode = s.rx.lastCode) : TextKept s (s.setRx r) :=
  ⟨rfl, rfl, rfl, fun ht => by rwa [State.setRx_out, State.setRx_rx, h]⟩

theorem Decoded.textKept (h : Decoded s t) : TextKept s t := by
  cases h with
  | kept => exact .refl s
  | emitted v path hv hlow hhigh =>
    refine ⟨rfl, rfl, rfl, fun ht => ⟨?_, .inr (valid_bitsToCode hv)⟩⟩
    rw [processChar_out, List.forall_mem_append, List.forall_mem_singleton]
    exact ⟨ht.records, recordLegal_recordOf _ (valid_bitsToCode hv) hlow hhigh⟩

theorem Decoded.errorCount (h : Decoded s t) : t.rx.errorCount = s.rx.errorCount := by
  cases h <;> rfl

theorem shiftBit_textKept {v : Int} (h : shiftBit s v = .ok t) : TextKept s t := by
  obtain ⟨b, cursor, -, rfl⟩ := shiftBit_ok h
  exact textKept_setRx rfl

theorem shiftBit_errors {v : Int} (h : shiftBit s v = .ok t) :
    t.rx.errorCount = s.rx.errorCount ∧ t.rx.rxState = s.rx.rxState := by
  obtain ⟨b, cursor, -, rfl⟩ := shiftBit_ok h
  exact ⟨rfl, rfl⟩

theorem smSync_textKept (h : smSync s = .ok t) : TextKept s t := by
  obtain ⟨cursor, -, rfl⟩ | rfl := smSync_ok h <;> exact textKept_setRx rfl

theorem smSync_errorCount (h : smSync s = .ok t) : t.rx.errorCount = s.rx.errorCount := by
  obtain ⟨cursor, -, rfl⟩ | rfl := smSync_ok h <;> rfl

theorem alphaSlot_textKept (h : alphaSlot s = .ok t) : TextKept s t := by
  obtain ⟨u, hu, e, -, rfl⟩ := alphaSlot_ok h
  exact hu.textKept.trans (textKept_setRx rfl)

/-- R43, R179: a slot charges at most 2 errors, and a count above 5 leaves READ_DATA. -/
theorem alphaSlot_errorsLegal (h : alphaSlot s = .ok t) (hs : s.rx.errorCount.toNat ≤ errLimit) :
    ErrorsLegal t.rx := by
  obtain ⟨u, hu, e, he, rfl⟩ := alphaSlot_ok h
  rw [hu.errorCount] at he
  have hlimit : errLimit = 5 := rfl
  refine ⟨by dsimp only [State.setRx_rx]; omega, fun hstate => not_lt.mp fun hlt => hstate ?_⟩
  exact if_pos hlt

theorem smReadData_textKept (h : smReadData s = .ok t) : TextKept s t := by
  obtain rfl | ⟨-, u, hu | rfl, cursor, -, rfl⟩ := smReadData_ok h
  · exact .refl _
  · exact (alphaSlot_textKept hu).trans (textKept_setRx rfl)
  · exact textKept_setRx rfl

theorem smReadData_errorsLegal (h : smReadData s = .ok t) (hs : s.rx.errorCount.toNat ≤ errLimit) :
    ErrorsLegal t.rx := by
  obtain rfl | ⟨-, u, hu | rfl, cursor, -, rfl⟩ := smReadData_ok h
  · exact .of_le hs
  · exact { alphaSlot_errorsLegal hu hs with }
  · exact .of_le hs

theorem bitIn_textKept {v : Int} (h : bitIn s v = .ok t) : TextKept s t := by
  obtain ⟨u, hu, ⟨-, rfl⟩ | ⟨-, h⟩ | ⟨-, h⟩⟩ := bitIn_ok h
  · exact (shiftBit_textKept hu).trans (textKept_setRx rfl)
  · exact (shiftBit_textKept hu).trans (smSync_textKept h)
  · exact (shiftBit_textKept hu).trans (smReadData_textKept h)

theorem bitIn_errorsLegal {v : Int} (h : bitIn s v = .ok t) (hs : ErrorsLegal s.rx) : ErrorsLegal t.rx := by
  obtain ⟨u, hu, haction⟩ := bitIn_ok h
  obtain ⟨hcount, -⟩ := shiftBit_errors hu
  have hrunning : s.rx.rxState ≠ rxSyncSetup → u.rx.errorCount.toNat ≤ errLimit := by
    rw [hcount]
    exact hs.errorsRunning
  obtain ⟨-, rfl⟩ | ⟨hstate, h⟩ | ⟨hstate, h⟩ := haction
  · exact .of_le (show (0#8).toNat ≤ errLimit by decide)
  · refine .of_le ?_
    rw [smSync_errorCount h]
    exact hrunning (by rw [hstate]; decide)
  · exact smReadData_errorsLegal h (hrunning (by rw [hstate]; decide))

/-! ## SAMPLE (R102, R109, R130, R139) -/

/-- What the steps of FSAMPLE keep of the stream; `n` is how far the count moves. -/
structure StreamKept (n : ℕ) (s t : State) : Prop where
  lpfM : t.lpfM = s.lpfM
  lpfS : t.lpfS = s.lpfS
  count : t.sync.sampleCount.toNat = s.sync.sampleCount.toNat + n
  text : TextLegal s.out s.rx.lastCode → TextLegal t.out t.rx.lastCode
  errors : ErrorsLegal s.rx → ErrorsLegal t.rx

theorem StreamKept.refl (s : State) : StreamKept 0 s s := ⟨rfl, rfl, rfl, id, id⟩

theorem StreamKept.trans {m n : ℕ} (h : StreamKept m s t) (h' : StreamKept n t u) : StreamKept (m + n) s u :=
  ⟨h'.lpfM.trans h.lpfM, h'.lpfS.trans h.lpfS, by rw [h'.count, h.count, Nat.add_assoc], h'.text ∘ h.text,
    h'.errors ∘ h.errors⟩

theorem streamKept_setTrk (s : State) (r : TrackRegs) : StreamKept 0 s (s.setTrk r) := ⟨rfl, rfl, rfl, id, id⟩

theorem streamKept_setSync {r : SyncRegs} (h : r.sampleCount = s.sync.sampleCount) : StreamKept 0 s (s.setSync r) :=
  ⟨rfl, rfl, congrArg BitVec.toNat h, id, id⟩

theorem envUpd_streamKept {m sp : F64} (h : envUpd s m sp = .ok t) : StreamKept 0 s t := by
  obtain ⟨em, es, -, -, rfl⟩ := envUpd_ok h
  exact streamKept_setTrk s _

theorem noiseUpd_streamKept {m sp : F64} (h : noiseUpd s m sp = .ok t) : StreamKept 0 s t := by
  obtain ⟨nm, ns, -, -, rfl⟩ := noiseUpd_ok h
  exact streamKept_setTrk s _

theorem accum_streamKept {b : Int} (h : accum s b = .ok t) : StreamKept 0 s t := by
  obtain ⟨e, p, l, rfl⟩ := accum_ok h
  exact streamKept_setSync rfl

theorem evtEarly_streamKept {x : F64} (h : evtEarly s x = .ok t) : StreamKept 0 s t := by
  obtain rfl | ⟨avg, next, -, -, rfl⟩ := evtEarly_ok h
  · exact .refl _
  · exact streamKept_setSync rfl

theorem evtLate_streamKept {x : F64} (h : evtLate s x = .ok t) : StreamKept 0 s t := by
  obtain rfl | ⟨avg, next, -, -, rfl⟩ := evtLate_ok h
  · exact .refl _
  · exact streamKept_setSync rfl

theorem bitIn_streamKept {v : Int} (h : bitIn s v = .ok t) : StreamKept 0 s t := by
  obtain ⟨hm, hs, hsync, htext⟩ := bitIn_textKept h
  exact ⟨hm, hs, by rw [hsync, Nat.add_zero], htext, bitIn_errorsLegal h⟩

theorem promptSample_streamKept (h : promptSample s = .ok t) : StreamKept 0 s t := by
  obtain ⟨m, avg, next, -, -, rfl⟩ := promptSample_ok h
  exact streamKept_setSync rfl

theorem evtPrompt_streamKept {x : F64} (h : evtPrompt s x = .ok t) : StreamKept 0 s t := by
  obtain rfl | ⟨p, hp, hbit⟩ := evtPrompt_ok h
  · exact .refl _
  · exact (promptSample_streamKept hp).trans (bitIn_streamKept hbit)

theorem realign_streamKept {x : F64} (h : realign s x = .ok t) : StreamKept 0 s t := by
  obtain rfl | ⟨a, ne, np, nl, -, -, -, -, rfl⟩ := realign_ok h
  · exact .refl _
  · exact streamKept_setSync rfl

theorem cntInc_streamKept (h : cntInc s = .ok t) : StreamKept 1 s t := by
  obtain ⟨n, -, hn, rfl⟩ := cntInc_ok h
  exact ⟨rfl, rfl, hn, id, id⟩

theorem fsample_streamKept {c : Config} {ym ys : Cplx} (h : fsample c s ym ys = .ok t) : StreamKept 1 s t := by
  obtain ⟨m, sp, b, x, s1, s2, s3, s4, s5, s6, s7, h1, h2, h3, h4, h5, h6, h7, h8⟩ := fsample_ok h
  exact ((envUpd_streamKept h1).trans (noiseUpd_streamKept h2)).trans <| (accum_streamKept h3).trans <|
    ((evtEarly_streamKept h4).trans (evtLate_streamKept h5)).trans <|
      ((evtPrompt_streamKept h6).trans (realign_streamKept h7)).trans (cntInc_streamKept h8)

/-- A push and the count of whole blocks (R108, R109). -/
theorem succ_div_mod {n p : ℕ} (hp : 0 < p) :
    (n % p + 1 = p → (n + 1) % p = 0 ∧ (n + 1) / p = n / p + 1) ∧
      (n % p + 1 ≠ p → (n + 1) % p = n % p + 1 ∧ (n + 1) / p = n / p) := by
  have hsplit := Nat.mod_add_div n p
  have hlt := Nat.mod_lt n hp
  refine ⟨fun hfull => ?_, fun hmore => ?_⟩
  · exact ((Nat.div_mod_unique hp).mpr ⟨by rw [Nat.mul_add]; omega, hp⟩).symm
  · exact ((Nat.div_mod_unique hp).mpr ⟨by omega, by omega⟩).symm

/-- `FILL` and `HIST` count the pushes. -/
theorem lpfPush_fill {c : Config} {f g : Filter} {u : Cplx} {y : List Cplx} (h : lpfPush c f u = .ok (g, y))
    (hf : f.fill = f.hist.length % c.block) :
    g.hist.length = f.hist.length + 1 ∧ g.fill = g.hist.length % c.block ∧
      y.length + c.block * (f.hist.length / c.block) = c.block * (g.hist.length / c.block) := by
  obtain ⟨-, hhist, hfill⟩ := lpfPush_ok h
  have hlen : g.hist.length = f.hist.length + 1 := by rw [hhist, List.length_append]; rfl
  obtain ⟨hfull, hmore⟩ := succ_div_mod (n := f.hist.length) (p := c.block) (Nat.succ_pos _)
  rw [hf] at hfill
  rw [hlen]
  obtain ⟨hdue, hg, hy⟩ | ⟨hdue, hg, rfl⟩ := hfill
  · obtain ⟨hmod, hdiv⟩ := hfull hdue
    exact ⟨rfl, by omega, by rw [hdiv, hy, Nat.mul_add]; omega⟩
  · obtain ⟨hmod, hdiv⟩ := hmore hdue
    exact ⟨rfl, by omega, by rw [hdiv, List.length_nil, Nat.zero_add]⟩

theorem StreamLegal.textLegal (h : StreamLegal s) : TextLegal s.out s.rx.lastCode := ⟨h.records, h.last⟩

theorem StreamLegal.errorsLegal (h : StreamLegal s) : ErrorsLegal s.rx := ⟨h.errors, h.errorsRunning⟩

/-- R102, R109: each block of inputs is counted once. -/
theorem pushBoth_streamLegal {zm zs : Cplx} (h : pushBoth Config.machine s zm zs = .ok t) (hs : StreamLegal s) :
    StreamLegal t := by
  obtain ⟨fm, ym, fs, ys, hm, hsp, hlen, hburst⟩ := pushBoth_ok h
  obtain ⟨hmlen, hmfill, hmcount⟩ := lpfPush_fill hm hs.fillM
  obtain ⟨hslen, hsfill, hscount⟩ := lpfPush_fill hsp hs.fillS
  have hkept := foldlM_keeps (fun n t => StreamKept n ((s.setFilter .mark fm).setFilter .space fs) t)
    (fun _ _ _ _ _ hx hstep => hx.trans (fsample_streamKept hstep)) (n := 0) (.refl _) hburst
  rw [Nat.zero_add, List.length_zip, Nat.min_eq_right hlen] at hkept
  obtain ⟨htm, hts, hcount, htext, herrors⟩ := hkept
  obtain ⟨hrecords, hlast⟩ := htext hs.textLegal
  obtain ⟨herr, hrunning⟩ := herrors hs.errorsLegal
  have htm : t.lpfM = fm := htm
  have hts : t.lpfS = fs := hts
  have htwin : fm.hist.length = fs.hist.length := by rw [hmlen, hslen, hs.twinHist]
  refine ⟨herr, hrunning, hrecords, hlast, ?_, ?_, ?_, ?_⟩
  · rw [htm, hts, htwin]
  · rw [htm, hmfill]
  · rw [hts, hsfill]
  · rw [htm, htwin, ← hscount, ← hs.twinHist, Nat.add_comm, ← hs.count, hcount]
    rfl

/-! ## Ordinary events -/

theorem resetState_streamLegal {fs : BitVec 32} (rv so : Bool) (hs : StreamLegal s) :
    StreamLegal (resetState fs rv so s) :=
  { errors := (by decide : (0#8).toNat ≤ 7)
    errorsRunning := fun h => absurd rfl h
    records := hs.records
    last := .inl rfl
    twinHist := rfl
    fillM := (Nat.zero_mod _).symm
    fillS := (Nat.zero_mod _).symm
    count := by rw [show (resetState fs rv so s).lpfM.hist = [] from rfl, List.length_nil, Nat.zero_div]; rfl }

theorem execSample_streamLegal {x : F64} (h : execSample x s = .next t) (ht : t.fault = none) (hs : StreamLegal s) :
    StreamLegal t := by
  obtain ⟨-, zm, zs, u, -, -, hnco, hpush⟩ := execSample_live h ht
  obtain ⟨pm, ps, -, -, rfl⟩ := ncoAdv_ok hnco
  exact pushBoth_streamLegal hpush { hs with }

theorem bitIn_streamLegal {v : Int} (h : bitIn s v = .ok t) (hs : StreamLegal s) : StreamLegal t := by
  obtain ⟨hm, hsp, hsync, htext⟩ := bitIn_textKept h
  obtain ⟨hrecords, hlast⟩ := htext hs.textLegal
  obtain ⟨herr, hrunning⟩ := bitIn_errorsLegal h hs.errorsLegal
  refine ⟨herr, hrunning, hrecords, hlast, ?_, ?_, ?_, ?_⟩
  · rw [hm, hsp, hs.twinHist]
  · rw [hm, hs.fillM]
  · rw [hsp, hs.fillS]
  · rw [hm, hsync, hs.count]

/-- An ordinary event that carries an operation carries RESET, SAMPLE or BIT_IN. -/
theorem ordinary_decode {tx : Tx} {i : Instr} (h : OrdinaryEvent (.issue tx)) (hi : decode tx = .ok i) :
    (∃ fs rv so res, i = .reset fs rv so res) ∨ (∃ x, i = .sample x) ∨ ∃ v, i = .bitIn v := by
  cases tx with
  | command w =>
    dsimp only [decode, decodeCommand] at hi
    split at hi
    · cases hi
      exact .inl ⟨_, _, _, _, rfl⟩
    · split at hi <;> cases hi
      exact .inr (.inl ⟨_, rfl⟩)
  | stimulus id bs =>
    obtain ⟨v, hv⟩ := h
    have hi : decodeStimulus id bs = .ok i := hi
    rw [hv, Except.ok.injEq] at hi
    exact .inr (.inr ⟨v, hi.symm⟩)

theorem finish_input {r : Except FaultRec State} (hr : ∀ t, r = .ok t → t.input = s.input) :
    (s.finish r).input = s.input := by
  obtain ⟨-, h⟩ | ⟨-, h⟩ | ⟨e, -, -, h⟩ := finish_cases (rfl : s.finish r = s.finish r)
  · rw [h]
  · exact hr _ h
  · rw [h, raise_input]

theorem execSample_input {x : F64} (h : execSample x s = .next t) : t.input = s.input := by
  obtain ⟨-, rfl⟩ | ⟨e, rfl⟩ | ⟨-, zm, zs, u, -, -, hnco, hpush⟩ := execSample_cases h
  · rfl
  · exact raise_input s e
  · exact ((ncoAdv_keeps hnco).toKeeps.trans (pushBoth_keeps hpush)).input

theorem refuseTx_input {e : DecodeError} (h : refuseTx e s = .next t) : t.input = s.input := by
  unfold refuseTx at h
  split at h
  · obtain rfl := next_inj h
    exact finish_input fun _ hok => by cases hok
  all_goals
    split at h <;> cases h
    rfl

/-- An ordinary event leaves the events behind it in the queue, whether it faults or not. -/
theorem runEvent_input {e : HostEvent} (he : OrdinaryEvent e) (h : runEvent e s = .next t) : t.input = s.input := by
  cases e with
  | drain =>
    obtain rfl := next_inj h
    rfl
  | issue tx =>
    simp only [runEvent, runTx] at h
    split at h
    next i hi =>
      obtain ⟨fs, rv, so, res, rfl⟩ | ⟨x, rfl⟩ | ⟨v, rfl⟩ := ordinary_decode he hi
      · obtain rfl := next_inj h
        refine finish_input fun t ht => ?_
        rw [(resetCommand_ok ht).2]
        rfl
      · exact execSample_input h
      · obtain rfl := next_inj h
        exact finish_input fun t ht => (bitIn_keeps ht).input
    · exact refuseTx_input h

theorem runEvent_streamLegal {e : HostEvent} (he : OrdinaryEvent e) (h : runEvent e s = .next t) (ht : t.fault = none)
    (hs : StreamLegal s) : StreamLegal t := by
  obtain ⟨-, rfl⟩ | ⟨tx, i, rfl, hi, hexec⟩ := runEvent_live h ht
  · exact { hs with records := fun r hr => hs.records r (List.mem_of_mem_tail hr) }
  · obtain ⟨fs, rv, so, res, rfl⟩ | ⟨x, rfl⟩ | ⟨v, rfl⟩ := ordinary_decode he hi
    · obtain ⟨-, -, rfl⟩ := execReset_live hexec ht
      exact resetState_streamLegal rv so hs
    · exact execSample_streamLegal hexec ht hs
    · exact bitIn_streamLegal (live_of_next hexec ht).2 hs

/-- Settles O54: RESET, SAMPLE, BIT_IN and a drain keep the stream legal, and leave the rest of the queue. -/
theorem ordinaryStepsKeepTheStreamLegal : Obligations.OrdinaryStepsKeepTheStreamLegal := by
  unfold Obligations.OrdinaryStepsKeepTheStreamLegal
  intro s t hordinary _ hs h
  obtain ⟨-, rfl⟩ | ⟨e, rest, hinput, hevent⟩ := step_cases h
  · exact ⟨hs, hordinary⟩
  · rw [hinput, List.forall_mem_cons] at hordinary
    obtain ⟨he, hrest⟩ := hordinary
    refine ⟨fun ht => ?_, by rwa [runEvent_input he hevent]⟩
    have hlive := hs (runEvent_live_before (s := s.setInput rest) hevent ht)
    exact runEvent_streamLegal he hevent ht { hlive with }

end Machine
end Sys2Proof
end

section
/-! SUPPORT. `CFG_ONLY_SITOR_B` is read by no operation (spec R22). -/

open Sys2Proof.Claims

namespace Sys2Proof
namespace Machine

variable {s t : State} (f : Bool)

/-! ## The computations read no `CFG_ONLY_SITOR_B`, and leave it as it is -/

theorem envUpd_withSitor (m sp : F64) : envUpd (withSitor f s) m sp = withSitor f <$> envUpd s m sp := by
  simp only [envUpd, map_bind, map_pure]
  rfl

theorem noiseUpd_withSitor (m sp : F64) : noiseUpd (withSitor f s) m sp = withSitor f <$> noiseUpd s m sp := by
  simp only [noiseUpd, map_bind, map_pure]
  rfl

theorem accum_withSitor (b : Int) : accum (withSitor f s) b = withSitor f <$> accum s b := by
  simp only [accum, map_bind, map_pure]
  rfl

theorem cntInc_withSitor : cntInc (withSitor f s) = withSitor f <$> cntInc s := by
  simp only [cntInc, map_bind, map_pure, apply_ite (withSitor f <$> ·)]
  rfl

theorem evtEarly_withSitor (x : F64) : evtEarly (withSitor f s) x = withSitor f <$> evtEarly s x := by
  simp only [evtEarly, map_bind, map_pure, apply_ite (withSitor f <$> ·)]
  rfl

theorem evtLate_withSitor (x : F64) : evtLate (withSitor f s) x = withSitor f <$> evtLate s x := by
  simp only [evtLate, map_bind, map_pure, apply_ite (withSitor f <$> ·)]
  rfl

theorem promptSample_withSitor : promptSample (withSitor f s) = withSitor f <$> promptSample s := by
  simp only [promptSample, map_bind, map_pure]
  rfl

theorem realign_withSitor (x : F64) : realign (withSitor f s) x = withSitor f <$> realign s x := by
  simp only [realign, map_bind, map_pure, apply_ite (withSitor f <$> ·)]
  rfl

theorem processFlips_withSitor (a r v : Soft7) :
    processFlips (withSitor f s) a r v = Prod.map (withSitor f) id <$> processFlips s a r v := by
  simp only [processFlips, map_bind, map_pure, apply_ite (Prod.map (withSitor f) id <$> ·)]
  rfl

theorem processRep_withSitor (a r : Soft7) :
    processRep (withSitor f s) a r = Prod.map (withSitor f) id <$> processRep s a r := by
  simp only [processRep, processFlips_withSitor, map_bind, map_pure, Except.map_ok,
    apply_ite (Prod.map (withSitor f) id <$> ·)]
  rfl

theorem processBytes_withSitor (c : Int) :
    processBytes (withSitor f s) c = Prod.map (withSitor f) id <$> processBytes s c := by
  simp only [processBytes, processRep_withSitor, map_bind, map_pure, apply_ite (Prod.map (withSitor f) id <$> ·)]
  rfl

theorem smSync_withSitor : smSync (withSitor f s) = withSitor f <$> smSync s := by
  simp only [smSync, map_bind, map_pure, apply_ite (withSitor f <$> ·)]
  rfl

theorem alphaSlot_withSitor : alphaSlot (withSitor f s) = withSitor f <$> alphaSlot s := by
  simp only [alphaSlot, processBytes_withSitor, bind_map_left, map_bind, map_pure]
  rfl

theorem smReadData_withSitor : smReadData (withSitor f s) = withSitor f <$> smReadData s := by
  simp only [smReadData, alphaSlot_withSitor, bind_map_left, map_bind, map_pure, pure_bind, Except.map_ok,
    apply_ite (withSitor f <$> ·)]
  rfl

theorem shiftBit_withSitor (v : Int) : shiftBit (withSitor f s) v = withSitor f <$> shiftBit s v := by
  simp only [shiftBit, map_bind, map_pure]
  rfl

theorem bitIn_withSitor (v : Int) : bitIn (withSitor f s) v = withSitor f <$> bitIn s v := by
  simp only [bitIn, shiftBit_withSitor, smSync_withSitor, smReadData_withSitor, bind_map_left, map_bind, map_pure,
    Except.map_error, apply_ite (withSitor f <$> ·)]
  rfl

theorem evtPrompt_withSitor (x : F64) : evtPrompt (withSitor f s) x = withSitor f <$> evtPrompt s x := by
  simp only [evtPrompt, promptSample_withSitor, bitIn_withSitor, bind_map_left, map_bind, map_pure,
    apply_ite (withSitor f <$> ·)]
  rfl

theorem fsample_withSitor (c : Config) (ym ys : Cplx) :
    fsample c (withSitor f s) ym ys = withSitor f <$> fsample c s ym ys := by
  simp only [fsample, envUpd_withSitor, noiseUpd_withSitor, accum_withSitor, evtEarly_withSitor, evtLate_withSitor,
    evtPrompt_withSitor, realign_withSitor, cntInc_withSitor, bind_map_left, map_bind]
  rfl

theorem ncoAdv_withSitor : ncoAdv (withSitor f s) = withSitor f <$> ncoAdv s := by
  simp only [ncoAdv, map_bind, map_pure]
  rfl

theorem burst_withSitor (c : Config) (l : List (Cplx × Cplx)) :
    l.foldlM (fun s p => fsample c s p.1 p.2) (withSitor f s) =
      withSitor f <$> l.foldlM (fun s p => fsample c s p.1 p.2) s := by
  induction l generalizing s with
  | nil => rfl
  | cons p l ih => simp only [List.foldlM_cons, fsample_withSitor, bind_map_left, map_bind, ih]

theorem pushBoth_withSitor (c : Config) (zm zs : Cplx) :
    pushBoth c (withSitor f s) zm zs = withSitor f <$> pushBoth c s zm zs := by
  have hsplit : ∀ fm fs ym ys,
      burstLoop c (((withSitor f s).setFilter .mark fm).setFilter .space fs) ym ys =
        withSitor f <$> burstLoop c ((s.setFilter .mark fm).setFilter .space fs) ym ys := by
    intro fm fs ym ys
    simp only [burstLoop, apply_ite (withSitor f <$> ·), Except.map_error, ← burst_withSitor]
    rfl
  simp only [pushBoth, hsplit, map_bind]
  rfl

/-! ## Whole operations -/

/-- An operation that commutes with the change of `CFG_ONLY_SITOR_B` ends in the changed state. -/
theorem next_withSitor {r r' : Except FaultRec State} (hr : r' = withSitor f <$> r)
    (h : (.next (s.finish r) : Answer) = .next t) (ht : t.fault = none) :
    (.next ((withSitor f s).finish r') : Answer) = .next (withSitor f t) := by
  obtain ⟨hs, rfl⟩ := live_of_next h ht
  rw [hr, Except.map_ok, finish_ok (show (withSitor f s).fault = none from hs)]

theorem map_withSitor {α : Type} (r : Except FaultRec α) {g g' : α → State} (hg : ∀ a, g' a = withSitor f (g a)) :
    r.map g' = withSitor f <$> r.map g := by
  cases r with
  | error e => rfl
  | ok a => exact congrArg Except.ok (hg a)

theorem execNcoAdv_withSitor (h : execNcoAdv s = .next t) (ht : t.fault = none) :
    execNcoAdv (withSitor f s) = .next (withSitor f t) := by
  obtain ⟨hs, hnco⟩ := execNcoAdv_live h ht
  have hs' : (withSitor f s).fault = none := hs
  simp [execNcoAdv, hs', ncoAdv_withSitor, hnco]

theorem execSample_withSitor {x : F64} (h : execSample x s = .next t) (ht : t.fault = none) :
    execSample x (withSitor f s) = .next (withSitor f t) := by
  obtain ⟨hs, zm, zs, u, hchecks, hmix, hnco, hpush⟩ := execSample_live h ht
  have hs' : (withSitor f s).fault = none := hs
  have hchecks' : sampleChecks x (withSitor f s) = .ok () := hchecks
  have hmix' : mixBoth Config.machine (withSitor f s) x = .ok (zm, zs) := hmix
  simp [execSample, sampleWith, hs', hchecks', hmix', ncoAdv_withSitor, hnco, pushBoth_withSitor, hpush]

/-- Settles O51: every operation but RESET commutes with the change of the register. -/
theorem onlySitorBHasNoEffect : Obligations.OnlySitorBHasNoEffect := by
  unfold Obligations.OnlySitorBHasNoEffect
  intro i f s t _ h ht hreset
  cases i
  case reset fs rv so res => exact absurd rfl (hreset fs rv so res)
  case sample => exact execSample_withSitor f h ht
  case ncoAdv => exact execNcoAdv_withSitor f h ht
  case scale | mix | lpfBlock | mag | nfloor | clip | atc | softbit | findAlpha | flipSmallest =>
    exact next_withSitor f (map_withSitor f _ fun _ => rfl) h ht
  case lpfPush br u => exact next_withSitor f (map_withSitor f _ fun _ => by cases br <;> rfl) h ht
  case processBytes c =>
    refine next_withSitor f ?_ h ht
    rw [processBytes_withSitor]
    cases processBytes s c.toNat <;> rfl
  case bitsToCode | validChar | processChar | smSyncSetup => exact next_withSitor f rfl h ht
  case envUpd m sp => exact next_withSitor f (envUpd_withSitor f m sp) h ht
  case noiseUpd m sp => exact next_withSitor f (noiseUpd_withSitor f m sp) h ht
  case accum b => exact next_withSitor f (accum_withSitor f b) h ht
  case cntInc => exact next_withSitor f (cntInc_withSitor f) h ht
  case evtEarly x => exact next_withSitor f (evtEarly_withSitor f x) h ht
  case evtLate x => exact next_withSitor f (evtLate_withSitor f x) h ht
  case evtPrompt x => exact next_withSitor f (evtPrompt_withSitor f x) h ht
  case realign x => exact next_withSitor f (realign_withSitor f x) h ht
  case bitIn v => exact next_withSitor f (bitIn_withSitor f v) h ht
  case smSync => exact next_withSitor f (smSync_withSitor f) h ht
  case smReadData => exact next_withSitor f (smReadData_withSitor f) h ht

end Machine
end Sys2Proof
end

section
/-! SUPPORT. The buffer after a list of shift-ins (spec R62), and what a step runs (R66, R243). -/

namespace Sys2Proof
namespace Machine

/-! ## The buffer's entries counted from its tail -/

theorem shiftIn_entry_tail (b : BitBuf) (v : I64) : (b.shiftIn v).entry 99 = v.toInt := by
  simp [shiftIn_entry]

theorem shiftIn_entry_before_tail (b : BitBuf) (v : I64) {j : ℕ} (hj : j + 1 < 100) :
    (b.shiftIn v).entry (99 - (j + 1)) = b.entry (99 - j) := by
  rw [shiftIn_entry _ _ _ (by omega), if_neg (by omega), show 99 - (j + 1) + 1 = 99 - j by omega]

/-- The last shift-in leaves its soft bit at the tail and moves every earlier one a place toward the head. -/
theorem foldl_shiftIn_entry_shifted (b : BitBuf) (vs : List I64) {j : ℕ} (hj : j < 100) {v : I64}
    (hv : vs.reverse[j]? = some v) : (vs.foldl BitBuf.shiftIn b).entry (99 - j) = v.toInt := by
  induction vs using List.reverseRecOn generalizing j with
  | nil => simp at hv
  | append_singleton vs w ih =>
    rw [List.reverse_concat] at hv
    rw [List.foldl_concat]
    cases j with
    | zero =>
      obtain rfl : w = v := by simpa using hv
      exact shiftIn_entry_tail _ w
    | succ j =>
      rw [shiftIn_entry_before_tail _ _ hj]
      exact ih (by omega) (by simpa using hv)

/-- An entry that was in the buffer before is as many places nearer the head as soft bits were shifted in. -/
theorem foldl_shiftIn_entry_older (b : BitBuf) (vs : List I64) {j : ℕ} (hj : j < 100) (hlen : vs.length ≤ j) :
    (vs.foldl BitBuf.shiftIn b).entry (99 - j) = b.entry (99 - j + vs.length) := by
  induction vs using List.reverseRecOn generalizing j with
  | nil => rfl
  | append_singleton vs w ih =>
    rw [List.length_append, List.length_singleton] at hlen ⊢
    rw [List.foldl_concat]
    cases j with
    | zero => omega
    | succ j =>
      rw [shiftIn_entry_before_tail _ _ hj, ih (by omega) (by omega)]
      congr 1
      omega

/-- Settles O32, by induction over the shift-ins, the latest one last. -/
theorem bufferHoldsTheLastBits : Obligations.BufferHoldsTheLastBits := by
  unfold Obligations.BufferHoldsTheLastBits
  intro b vs j hj
  exact ⟨fun _ => foldl_shiftIn_entry_shifted b vs hj, foldl_shiftIn_entry_older b vs hj⟩

/-! ## What a step runs -/

theorem step_of_input_cons {s : State} {e : HostEvent} {rest : List HostEvent} (h : s.input = e :: rest) :
    step s = runEvent e (s.setInput rest) := by
  simp [step, runNext, h]

theorem runEvent_issue_of_decode {tx : Tx} {i : Instr} (h : decode tx = .ok i) (s : State) :
    runEvent (.issue tx) s = exec i s := by
  simp [runEvent, runTx, h]

/-- Settles O5: the step takes the transaction off the queue, and an event that decodes runs its operation. -/
theorem stepRunsTheDecodedOperation : Obligations.StepRunsTheDecodedOperation := by
  unfold Obligations.StepRunsTheDecodedOperation
  intro s tx rest i hinput hdecode
  rw [step_of_input_cons hinput, runEvent_issue_of_decode hdecode]
  rfl

end Machine
end Sys2Proof
end

section
/-! SUPPORT. The byte codecs both ways (spec R64, R85; log entry 1): what a reader answers is the value whose bytes it
took. From them the decoder and the encoder are inverse to each other (R80 to R88). -/

namespace Sys2Proof

theorem bytes64_append (b0 b1 b2 b3 b4 b5 b6 b7 : Byte) :
    bytes64 (b7 ++ b6 ++ b5 ++ b4 ++ b3 ++ b2 ++ b1 ++ b0) = [b0, b1, b2, b3, b4, b5, b6, b7] := by
  simp (disch := omega) only [bytes64, BitVec.extractLsb'_append_eq_of_le, BitVec.extractLsb'_append_eq_of_add_le,
    BitVec.extractLsb'_eq_self, Nat.reduceSub]

theorem read64_eq_some_iff {bs rest : List Byte} {x : BitVec 64} :
    read64 bs = some (x, rest) ↔ bs = bytes64 x ++ rest := by
  constructor
  · intro h
    unfold read64 at h
    split at h
    next b0 b1 b2 b3 b4 b5 b6 b7 tail =>
      cases h
      rw [bytes64_append]
      rfl
    · cases h
  · rintro rfl
    exact read64_bytes64 x rest

theorem readF64_eq_some_iff {bs rest : List Byte} {x : F64} :
    readF64 bs = some (x, rest) ↔ bs = bytesF64 x ++ rest := by
  constructor
  · intro h
    obtain ⟨⟨y, tail⟩, hread, heq⟩ := Option.map_eq_some_iff.mp h
    cases heq
    exact read64_eq_some_iff.mp hread
  · rintro rfl
    exact readF64_bytesF64 x rest

theorem fitsI64_toInt (x : BitVec 64) : fitsI64 x.toInt = true := by
  have hlo := BitVec.le_toInt x
  have hhi := BitVec.toInt_lt (x := x)
  simp only [fitsI64, Bool.and_eq_true, decide_eq_true_eq]
  omega

theorem bytesI64_toInt (x : BitVec 64) : bytesI64 x.toInt = bytes64 x := by
  rw [bytesI64, BitVec.ofInt_toInt]

theorem readI64_eq_some_iff {bs rest : List Byte} {n : Int} :
    readI64 bs = some (n, rest) ↔ fitsI64 n = true ∧ bs = bytesI64 n ++ rest := by
  constructor
  · intro h
    obtain ⟨⟨x, tail⟩, hread, heq⟩ := Option.map_eq_some_iff.mp h
    cases heq
    exact ⟨fitsI64_toInt x, by rw [bytesI64_toInt]; exact read64_eq_some_iff.mp hread⟩
  · rintro ⟨hfits, rfl⟩
    exact readI64_bytesI64 hfits rest

/-! ## Integers of any size -/

theorem bytesIntFrom_of_fits {n : Int} (h : fitsI64 n = true) (g : ℕ) : bytesIntFrom g n = 0#8 :: bytesI64 n := by
  cases g <;> simp [bytesIntFrom, h]

/-- The low 64 bits and the part above, taken apart again. -/
theorem int_join (x : BitVec 64) (high : Int) :
    BitVec.ofInt 64 (x.toNat + 2 ^ 64 * high) = x ∧ ((x.toNat : Int) + 2 ^ 64 * high) / 2 ^ 64 = high := by
  have hx := x.isLt
  refine ⟨BitVec.eq_of_toNat_eq ?_, by omega⟩
  rw [BitVec.toNat_ofInt]
  omega

/-- What an integer was read from is its bytes, however many groups the writer may use. -/
theorem eq_bytesIntFrom_of_readIntFrom {fuel g : ℕ} {bs rest : List Byte} {n : Int}
    (h : readIntFrom fuel bs = some (n, rest)) (hg : n.natAbs ≤ g) : bs = bytesIntFrom g n ++ rest := by
  induction fuel generalizing g bs rest n with
  | zero => cases h
  | succ fuel ih =>
    cases bs with
    | nil => cases h
    | cons tag bs =>
      simp only [readIntFrom] at h
      split at h
      · cases h
      next x tail hread =>
        obtain rfl := read64_eq_some_iff.mp hread
        split at h
        next htag =>
          cases h
          rw [bytesIntFrom_of_fits (fitsI64_toInt x), bytesI64_toInt, htag]
          rfl
        · split at h
          next htag =>
            split at h
            · cases h
            next high tail' hhigh =>
              split at h
              · cases h
              next hfits =>
                cases h
                have hfits' : fitsI64 (x.toNat + 2 ^ 64 * high) = false := by simpa using hfits
                obtain ⟨hlow, hdiv⟩ := int_join x high
                have hlt := (int_split hfits').2
                rw [hdiv] at hlt
                cases g with
                | zero => omega
                | succ g =>
                  obtain rfl := ih (g := g) hhigh (by omega)
                  rw [bytesIntFrom, hfits', bytesI64, hlow, hdiv, htag]
                  simp
          · cases h

theorem readInt_eq_some_iff {bs rest : List Byte} {n : Int} :
    readInt bs = some (n, rest) ↔ bs = bytesInt n ++ rest := by
  constructor
  · exact fun h => eq_bytesIntFrom_of_readIntFrom h le_rfl
  · rintro rfl
    exact readInt_bytesInt n rest

/-! ## Pairs, vectors, small fields and branches -/

theorem readCplx_eq_some_iff {bs rest : List Byte} {z : Cplx} :
    readCplx bs = some (z, rest) ↔ bs = bytesCplx z ++ rest := by
  constructor
  · intro h
    simp only [readCplx, Option.bind_eq_bind, Option.bind_eq_some_iff, Prod.exists, readF64_eq_some_iff] at h
    obtain ⟨re, _, rfl, im, _, rfl, heq⟩ := h
    cases heq
    simp [bytesCplx]
  · rintro rfl
    exact readCplx_bytesCplx z rest

theorem soft7_eq_entries (v : Soft7) : v = #v[v[0], v[1], v[2], v[3], v[4], v[5], v[6]] := by
  ext i hi
  interval_cases i <;> rfl

theorem readSoft7_bytesSoft7 {v : Soft7} (h : v.fits = true) (rest : List Byte) :
    readSoft7 (bytesSoft7 v ++ rest) = some (v, rest) := by
  rw [soft7_eq_entries v] at h ⊢
  simp only [Soft7.fits, Vector.toList_mk, List.all_cons, List.all_nil, Bool.and_true, Bool.and_eq_true] at h
  obtain ⟨h0, h1, h2, h3, h4, h5, h6⟩ := h
  simp only [bytesSoft7, Vector.toList_mk, List.flatMap_cons, List.flatMap_nil, List.append_assoc, List.nil_append,
    readSoft7, Option.bind_eq_bind, readI64_bytesI64 h0, readI64_bytesI64 h1, readI64_bytesI64 h2, readI64_bytesI64 h3,
    readI64_bytesI64 h4, readI64_bytesI64 h5, readI64_bytesI64 h6, Option.bind_some]
  rfl

theorem readSoft7_eq_some_iff {bs rest : List Byte} {v : Soft7} :
    readSoft7 bs = some (v, rest) ↔ v.fits = true ∧ bs = bytesSoft7 v ++ rest := by
  constructor
  · intro h
    simp only [readSoft7, Option.bind_eq_bind, Option.bind_eq_some_iff, Prod.exists, readI64_eq_some_iff] at h
    obtain ⟨v0, _, ⟨h0, rfl⟩, v1, _, ⟨h1, rfl⟩, v2, _, ⟨h2, rfl⟩, v3, _, ⟨h3, rfl⟩, v4, _, ⟨h4, rfl⟩,
      v5, _, ⟨h5, rfl⟩, v6, _, ⟨h6, rfl⟩, heq⟩ := h
    cases heq
    simp [Soft7.fits, bytesSoft7, h0, h1, h2, h3, h4, h5, h6]
  · rintro ⟨hfits, rfl⟩
    exact readSoft7_bytesSoft7 hfits rest

theorem readBits_eq_some_iff {w : ℕ} (hw : w ≤ 8) {bs rest : List Byte} {x : BitVec w} :
    readBits w bs = some (x, rest) ↔ bs = x.setWidth 8 :: rest := by
  constructor
  · intro h
    unfold readBits at h
    split at h
    next b tail =>
      split at h
      next hlt =>
        cases h
        congr 1
        apply BitVec.eq_of_toNat_eq
        simp [Nat.mod_eq_of_lt hlt, Nat.mod_eq_of_lt b.isLt]
      · cases h
    · cases h
  · rintro rfl
    simp only [readBits, BitVec.toNat_setWidth_of_le hw, x.isLt, if_true, BitVec.ofNat_toNat, BitVec.setWidth_eq]

theorem readBits_setWidth {w : ℕ} (hw : w ≤ 8) (x : BitVec w) (rest : List Byte) :
    readBits w (x.setWidth 8 :: rest) = some (x, rest) :=
  (readBits_eq_some_iff hw).mpr rfl

theorem readBranch_eq_some_iff {bs rest : List Byte} {br : Branch} :
    readBranch bs = some (br, rest) ↔ bs = byteBranch br :: rest := by
  constructor
  · intro h
    unfold readBranch at h
    split at h
    next b tail =>
      split at h
      next hb => cases h; rw [hb]; rfl
      · split at h
        next hb => cases h; rw [hb]; rfl
        · cases h
    · cases h
  · rintro rfl
    exact readBranch_byteBranch br rest

/-! ## The fields of a command word (R80, R82) -/

theorem commandWord_fields (w : BitVec 66) : commandWord (w.extractLsb' 64 2) (w.extractLsb' 0 64) = w :=
  (BitVec.extractLsb'_append_extractLsb'_eq_extractLsb' (start₁ := 0) rfl).trans BitVec.extractLsb'_eq_self

theorem ofBool_getLsbD {n : ℕ} (w : BitVec n) (i : ℕ) : BitVec.ofBool (w.getLsbD i) = w.extractLsb' i 1 := by
  ext j hj
  obtain rfl : j = 0 := by omega
  simp

/-- The low 64 bits of a word are the RESET payload of its fields. -/
theorem resetPayload_fields {n : ℕ} (w : BitVec n) :
    resetPayload (w.extractLsb' 0 32) (w.getLsbD 32) (w.getLsbD 33) (w.extractLsb' 34 30) = w.extractLsb' 0 64 := by
  have join {start len len' : ℕ} :
      w.extractLsb' (start + len) len' ++ w.extractLsb' start len = w.extractLsb' start (len' + len) :=
    BitVec.extractLsb'_append_extractLsb'_eq_extractLsb' rfl
  rw [resetPayload, ofBool_getLsbD, ofBool_getLsbD, join (start := 0) (len := 32) (len' := 1),
    join (start := 0) (len := 33), join (start := 0) (len := 34)]

theorem decodeCommand_reset (fs : BitVec 32) (rv so : Bool) (res : BitVec 30) :
    decodeCommand (commandWord 1#2 (resetPayload fs rv so res)) = .ok (.reset fs rv so res) := by
  simp only [decodeCommand, commandWord, resetPayload, BitVec.getLsbD_append]
  simp (disch := omega) only [BitVec.extractLsb'_append_eq_of_le, BitVec.extractLsb'_append_eq_of_add_le,
    BitVec.extractLsb'_eq_self]
  simp

theorem decodeCommand_sample (x : F64) : decodeCommand (commandWord 2#2 x.bits) = .ok (.sample x) := by
  simp [decodeCommand, commandWord_cmd, commandWord_payload]

theorem encode_of_decodeCommand {w : BitVec 66} {i : Instr} (h : decodeCommand w = .ok i) :
    encode i = .command w ∧ i.wellFormed = true := by
  have hfields := commandWord_fields w
  unfold decodeCommand at h
  dsimp only at h
  split at h
  next hcmd =>
    cases h
    rw [hcmd, ← resetPayload_fields] at hfields
    exact ⟨congrArg Tx.command hfields, rfl⟩
  · split at h
    next hcmd =>
      cases h
      rw [hcmd] at hfields
      exact ⟨congrArg Tx.command hfields, rfl⟩
    · cases h

/-! ## Stimuli (R88, R90) -/

theorem code_of_ofCode {id : Byte} {k : StepId} (h : StepId.ofCode id = some k) : id = k.code := by
  have hcode := List.find?_some h
  exact (beq_iff_eq.mp hcode).symm

open Laws.EncodesItsRow (stepOf)

/-- The bytes after the identifier in an instruction's encoding. -/
def operandsOf (i : Instr) : List Byte :=
  match encode i with
  | .command _ => []
  | .stimulus _ bs => bs

theorem encode_eq_stimulusOf {i : Instr} {k : StepId} (h : stepOf i = some k) :
    encode i = stimulusOf k (operandsOf i) := by
  cases i <;> cases h <;> rfl

/-- Every operation's operands are read back from its encoding, with the bytes after them. -/
theorem readOperands_operandsOf {i : Instr} {k : StepId} (h : stepOf i = some k) (hwf : i.wellFormed = true)
    (rest : List Byte) : readOperands k (operandsOf i ++ rest) = some (i, rest) := by
  cases i <;> cases h
  case bitsToCode | validChar | flipSmallest =>
    simp [operandsOf, encode, stimulusOf, readOperands, readSoft7_bytesSoft7 hwf]
  case accum | bitIn => simp [operandsOf, encode, stimulusOf, readOperands, readInt_bytesInt]
  case processBytes | processChar =>
    simp [operandsOf, encode, stimulusOf, readOperands, readBits_setWidth]
  case mix | lpfPush | lpfBlock | mag =>
    simp [operandsOf, encode, stimulusOf, readOperands, readBranch_byteBranch, readCplx_bytesCplx]
  case scale | envUpd | noiseUpd | clip | atc | softbit | evtEarly | evtLate | evtPrompt | realign =>
    simp [operandsOf, encode, stimulusOf, readOperands, readF64_bytesF64]
  all_goals rfl

/-- Operands are read from nothing but the bytes that the operation's encoding has for them. -/
theorem operands_of_readOperands {i : Instr} {k : StepId} {bs rest : List Byte}
    (h : readOperands k bs = some (i, rest)) :
    stepOf i = some k ∧ i.wellFormed = true ∧ bs = operandsOf i ++ rest := by
  cases k <;>
    simp only [readOperands, Option.bind_eq_bind, Option.bind_eq_some_iff, Prod.exists, readF64_eq_some_iff,
      readInt_eq_some_iff, readCplx_eq_some_iff, readSoft7_eq_some_iff, readBranch_eq_some_iff,
      readBits_eq_some_iff (show 7 ≤ 8 by decide), readBits_eq_some_iff (show 3 ≤ 8 by decide)] at h
  case ncoAdv | nfloor | cntInc | smSyncSetup | smSync | smReadData | findAlpha =>
    cases h
    exact ⟨rfl, rfl, rfl⟩
  case bitsToCode | validChar | flipSmallest =>
    obtain ⟨v, _, ⟨hfits, rfl⟩, heq⟩ := h
    cases heq
    exact ⟨rfl, hfits, rfl⟩
  case scale | lpfBlock | mag | softbit | accum | evtEarly | evtLate | evtPrompt | realign | bitIn | processBytes =>
    obtain ⟨x, _, rfl, heq⟩ := h
    cases heq
    exact ⟨rfl, rfl, rfl⟩
  case mix | lpfPush | envUpd | noiseUpd | processChar =>
    obtain ⟨x, _, rfl, y, _, rfl, heq⟩ := h
    cases heq
    exact ⟨rfl, rfl, by simp [operandsOf, encode, stimulusOf]⟩
  case clip | atc =>
    obtain ⟨x, _, rfl, y, _, rfl, z, _, rfl, heq⟩ := h
    cases heq
    exact ⟨rfl, rfl, by simp [operandsOf, encode, stimulusOf]⟩

/-- A stimulus decodes to an operation exactly when it is the identifier of the operation with its operands. -/
theorem decodeStimulus_eq_ok_iff {id : Byte} {bs : List Byte} {i : Instr} :
    decodeStimulus id bs = .ok i ↔ ∃ k, id = k.code ∧ readOperands k bs = some (i, []) := by
  constructor
  · intro h
    unfold decodeStimulus at h
    split at h
    · cases h
    next k hk =>
      split at h
      next hread =>
        cases h
        exact ⟨k, code_of_ofCode hk, hread⟩
      · cases h
  · rintro ⟨k, rfl, hread⟩
    simp [decodeStimulus, ofCode_code, hread]

/-! ## The decoder and the encoder (R80 to R88) -/

/-- Settles O8: a command word from its fields, a stimulus from the readers of its operands. -/
theorem decodeEncodeRoundTrip : Obligations.DecodeEncodeRoundTrip := by
  unfold Obligations.DecodeEncodeRoundTrip
  intro i hwf
  cases hk : stepOf i with
  | none =>
    cases i <;> cases hk
    · exact decodeCommand_reset ..
    · exact decodeCommand_sample ..
  | some k =>
    rw [encode_eq_stimulusOf hk]
    have hread := readOperands_operandsOf hk hwf []
    rw [List.append_nil] at hread
    exact decodeStimulus_eq_ok_iff.mpr ⟨k, rfl, hread⟩

/-- Settles O9: what the readers answer is well-formed and has the bytes they took. -/
theorem decodeIsInjective : Obligations.DecodeIsInjective := by
  unfold Obligations.DecodeIsInjective
  intro tx i h
  cases tx with
  | command w => exact encode_of_decodeCommand h
  | stimulus id bs =>
    obtain ⟨k, rfl, hread⟩ := decodeStimulus_eq_ok_iff.mp h
    obtain ⟨hk, hwf, rfl⟩ := operands_of_readOperands hread
    rw [List.append_nil, encode_eq_stimulusOf hk]
    exact ⟨rfl, hwf⟩

/-! ## Serialisation (R85) -/

theorem extractLsb'_extractLsb' {n : ℕ} (w : BitVec n) {start len len' : ℕ} (h : start + len' ≤ len) :
    (w.extractLsb' 0 len).extractLsb' start len' = w.extractLsb' start len' := by
  ext i hi
  simp only [BitVec.getElem_extractLsb', BitVec.getLsbD_extractLsb', Nat.zero_add]
  simp [show start + i < len by omega]

/-- Byte `k` of a 64-bit value holds its bits 8k+7..8k. -/
theorem bytes64_getElem? (x : BitVec 64) {k : ℕ} (h : k < 8) : (bytes64 x)[k]? = some (x.extractLsb' (8 * k) 8) := by
  interval_cases k <;> rfl

theorem deserialise_serialise (w : BitVec 66) : deserialise (serialise w) = some w := by
  have hcmd := (w.extractLsb' 64 2).isLt
  simp only [deserialise, serialise, read64_bytes64, BitVec.toNat_setWidth_of_le (show 2 ≤ 8 by decide),
    BitVec.setWidth_setWidth_of_le _ (show 2 ≤ 8 by decide), BitVec.setWidth_eq, commandWord_fields]
  exact if_pos hcmd

theorem serialise_of_deserialise {bs : List Byte} {w : BitVec 66} (h : deserialise bs = some w) : serialise w = bs := by
  unfold deserialise at h
  split at h
  next payload b hread =>
    split at h
    next hb =>
      cases h
      have hninth : readBits 2 [b] = some (b.setWidth 2, []) := by simp [readBits, hb]
      rw [serialise, commandWord_cmd, commandWord_payload, read64_eq_some_iff.mp hread,
        (readBits_eq_some_iff (by decide)).mp hninth]
    · cases h
  · cases h

/-- Settles O10: the bytes are those of the payload and of CMD, and reading them is the inverse. -/
theorem serialisationRoundTrip : Obligations.SerialisationRoundTrip := by
  unfold Obligations.SerialisationRoundTrip
  refine ⟨fun w => ⟨rfl, deserialise_serialise w, fun k hk => ?_, _, rfl, ?_, ?_⟩,
    fun bs w => serialise_of_deserialise, fun r => rfl⟩
  · rw [serialise, List.getElem?_append_left (by rwa [bytes64_length]), bytes64_getElem? _ hk,
      extractLsb'_extractLsb' w (by omega)]
  · rw [← BitVec.setWidth_eq_extractLsb' (by decide), BitVec.setWidth_setWidth_of_le _ (by decide), BitVec.setWidth_eq]
  · ext i hi
    simp

theorem ofCode_eq_none_iff {id : Byte} : StepId.ofCode id = none ↔ id ∉ StepId.all.map StepId.code := by
  simp [StepId.ofCode]

namespace Machine

/-- Settles O12: the decoder finds no operation, and a live block refuses by the identifier. -/
theorem unknownIdentifiersSpellNoOperation : Obligations.UnknownIdentifiersSpellNoOperation := by
  unfold Obligations.UnknownIdentifiersSpellNoOperation
  intro id bs s rest hlive hinput hid
  have hnone : StepId.ofCode id = none := ofCode_eq_none_iff.mpr hid
  rw [step_of_input_cons hinput]
  simp [runEvent, runTx, decode, decodeStimulus, hnone, refuseTx, hlive]

/-- Settles O11, by evaluating the decoder on each transaction. -/
theorem knownWordsDecode : Obligations.KnownWordsDecode := by
  unfold Obligations.KnownWordsDecode
  decide

/-- Settles O44, by counting the codewords. -/
theorem codewordSpace : Obligations.CodewordSpace := by
  unfold Obligations.CodewordSpace
  decide

end Machine
end Sys2Proof
end

section
/-! SUPPORT. The sign of a zero in a filter history has no effect (spec R83, R103; log entry 5): no operation but the
filters' own reads a history, and the filters read it with one zero. -/

open Sys2Proof.Claims

namespace Sys2Proof
namespace Machine

open F64 Config

variable {s s' t : State}

/-! ## The computations read no filter, and leave both as they are -/

/-- `s` with the two filters given. -/
def withFilters (fm fs : Filter) (s : State) : State := { s with lpfM := fm, lpfS := fs }

theorem envUpd_withFilters (m sp : F64) (fm fs : Filter) :
    envUpd (withFilters fm fs s) m sp = withFilters fm fs <$> envUpd s m sp := by
  simp only [envUpd, map_bind, map_pure]
  rfl

theorem noiseUpd_withFilters (m sp : F64) (fm fs : Filter) :
    noiseUpd (withFilters fm fs s) m sp = withFilters fm fs <$> noiseUpd s m sp := by
  simp only [noiseUpd, map_bind, map_pure]
  rfl

theorem accum_withFilters (b : Int) (fm fs : Filter) :
    accum (withFilters fm fs s) b = withFilters fm fs <$> accum s b := by
  simp only [accum, map_bind, map_pure]
  rfl

theorem cntInc_withFilters (fm fs : Filter) : cntInc (withFilters fm fs s) = withFilters fm fs <$> cntInc s := by
  simp only [cntInc, map_bind, map_pure, apply_ite (withFilters fm fs <$> ·)]
  rfl

theorem evtEarly_withFilters (x : F64) (fm fs : Filter) :
    evtEarly (withFilters fm fs s) x = withFilters fm fs <$> evtEarly s x := by
  simp only [evtEarly, map_bind, map_pure, apply_ite (withFilters fm fs <$> ·)]
  rfl

theorem evtLate_withFilters (x : F64) (fm fs : Filter) :
    evtLate (withFilters fm fs s) x = withFilters fm fs <$> evtLate s x := by
  simp only [evtLate, map_bind, map_pure, apply_ite (withFilters fm fs <$> ·)]
  rfl

theorem realign_withFilters (x : F64) (fm fs : Filter) :
    realign (withFilters fm fs s) x = withFilters fm fs <$> realign s x := by
  simp only [realign, map_bind, map_pure, apply_ite (withFilters fm fs <$> ·)]
  rfl

theorem processBytes_withFilters (c : Int) (fm fs : Filter) :
    processBytes (withFilters fm fs s) c = Prod.map (withFilters fm fs) id <$> processBytes s c := by
  simp only [processBytes, processRep, processFlips, map_bind, map_pure, Except.map_ok,
    apply_ite (Prod.map (withFilters fm fs) id <$> ·)]
  rfl

theorem smSync_withFilters (fm fs : Filter) : smSync (withFilters fm fs s) = withFilters fm fs <$> smSync s := by
  simp only [smSync, map_bind, map_pure, apply_ite (withFilters fm fs <$> ·)]
  rfl

theorem alphaSlot_withFilters (fm fs : Filter) :
    alphaSlot (withFilters fm fs s) = withFilters fm fs <$> alphaSlot s := by
  simp only [alphaSlot, processBytes_withFilters, bind_map_left, map_bind, map_pure]
  rfl

theorem smReadData_withFilters (fm fs : Filter) :
    smReadData (withFilters fm fs s) = withFilters fm fs <$> smReadData s := by
  simp only [smReadData, alphaSlot_withFilters, bind_map_left, map_bind, map_pure, pure_bind, Except.map_ok,
    apply_ite (withFilters fm fs <$> ·)]
  rfl

theorem bitIn_withFilters (v : Int) (fm fs : Filter) :
    bitIn (withFilters fm fs s) v = withFilters fm fs <$> bitIn s v := by
  have hshift : shiftBit (withFilters fm fs s) v = withFilters fm fs <$> shiftBit s v := by
    simp only [shiftBit, map_bind, map_pure]
    rfl
  simp only [bitIn, hshift, smSync_withFilters, smReadData_withFilters, bind_map_left, map_bind, map_pure,
    Except.map_error, apply_ite (withFilters fm fs <$> ·)]
  rfl

theorem evtPrompt_withFilters (x : F64) (fm fs : Filter) :
    evtPrompt (withFilters fm fs s) x = withFilters fm fs <$> evtPrompt s x := by
  have hsample : promptSample (withFilters fm fs s) = withFilters fm fs <$> promptSample s := by
    simp only [promptSample, map_bind, map_pure]
    rfl
  simp only [evtPrompt, hsample, bitIn_withFilters, bind_map_left, map_bind, map_pure,
    apply_ite (withFilters fm fs <$> ·)]
  rfl

theorem fsample_withFilters (c : Config) (ym ys : Cplx) (fm fs : Filter) :
    fsample c (withFilters fm fs s) ym ys = withFilters fm fs <$> fsample c s ym ys := by
  simp only [fsample, envUpd_withFilters, noiseUpd_withFilters, accum_withFilters, evtEarly_withFilters,
    evtLate_withFilters, evtPrompt_withFilters, realign_withFilters, cntInc_withFilters, bind_map_left, map_bind]
  rfl

theorem ncoAdv_withFilters (fm fs : Filter) : ncoAdv (withFilters fm fs s) = withFilters fm fs <$> ncoAdv s := by
  simp only [ncoAdv, map_bind, map_pure]
  rfl

theorem burstLoop_withFilters (c : Config) (ym ys : List Cplx) (fm fs : Filter) :
    burstLoop c (withFilters fm fs s) ym ys = withFilters fm fs <$> burstLoop c s ym ys := by
  have hfold : ∀ (l : List (Cplx × Cplx)) (s : State),
      l.foldlM (fun s p => fsample c s p.1 p.2) (withFilters fm fs s) =
        withFilters fm fs <$> l.foldlM (fun s p => fsample c s p.1 p.2) s := by
    intro l
    induction l with
    | nil => exact fun s => rfl
    | cons p l ih =>
      intro s
      simp only [List.foldlM_cons, fsample_withFilters, bind_map_left, map_bind, ih]
  simp only [burstLoop, hfold, Except.map_error, apply_ite (withFilters fm fs <$> ·)]

/-! ## Twins: filters and states that differ in the signs of zeros -/

/-- Two filters that differ in nothing but the signs of zeros. -/
def FilterTwin (f f' : Filter) : Prop := f'.fill = f.fill ∧ f'.hist.map plainPair = f.hist.map plainPair

/-- Both computations raise the same fault, or answer values that `R` relates. -/
inductive Agree {ε α β : Type} (R : α → β → Prop) : Except ε α → Except ε β → Prop
  | error (e : ε) : Agree R (.error e) (.error e)
  | ok {a : α} {b : β} (h : R a b) : Agree R (.ok a) (.ok b)

theorem zeroTwin_iff :
    ZeroTwin s s' ↔ ∃ fm fs, s' = withFilters fm fs s ∧ FilterTwin s.lpfM fm ∧ FilterTwin s.lpfS fs := by
  constructor
  · rintro ⟨hs, hfm, hfs, hhm, hhs⟩
    exact ⟨s'.lpfM, s'.lpfS, hs, ⟨hfm, hhm⟩, hfs, hhs⟩
  · rintro ⟨fm, fs, rfl, ⟨hfm, hhm⟩, hfs, hhs⟩
    exact ⟨rfl, hfm, hfs, hhm, hhs⟩

theorem zeroTwin_refl (s : State) : ZeroTwin s s := ⟨rfl, rfl, rfl, rfl, rfl⟩

theorem zeroTwin_fault (h : ZeroTwin s s') : s'.fault = s.fault := by
  obtain ⟨fm, fs, rfl, -, -⟩ := zeroTwin_iff.mp h
  rfl

theorem zeroTwin_filter (h : ZeroTwin s s') (br : Branch) : FilterTwin (s.filter br) (s'.filter br) := by
  obtain ⟨-, hfm, hfs, hhm, hhs⟩ := h
  cases br
  · exact ⟨hfm, hhm⟩
  · exact ⟨hfs, hhs⟩

theorem zeroTwin_setRet (h : ZeroTwin s s') (r : Ret) : ZeroTwin (s.setRet r) (s'.setRet r) := by
  obtain ⟨fm, fs, rfl, hm, hs⟩ := zeroTwin_iff.mp h
  exact zeroTwin_iff.mpr ⟨fm, fs, rfl, hm, hs⟩

theorem zeroTwin_setFilter (h : ZeroTwin s s') (br : Branch) {f f' : Filter} (hf : FilterTwin f f') :
    ZeroTwin (s.setFilter br f) (s'.setFilter br f') := by
  obtain ⟨fm, fs, rfl, hm, hs⟩ := zeroTwin_iff.mp h
  cases br
  · exact zeroTwin_iff.mpr ⟨f', fs, rfl, hf, hs⟩
  · exact zeroTwin_iff.mpr ⟨fm, f', rfl, hm, hf⟩

/-- R231, R236: the same fault leaves a precise one's twins, and after an imprecise one the same free state. -/
theorem zeroTwin_raise (h : ZeroTwin s s') (e : FaultRec) : ZeroTwin (s.raise e) (s'.raise e) := by
  obtain ⟨fm, fs, rfl, hm, hs⟩ := zeroTwin_iff.mp h
  unfold State.raise
  split
  · exact zeroTwin_iff.mpr ⟨fm, fs, rfl, hm, hs⟩
  · exact zeroTwin_refl _

theorem zeroTwin_finish (h : ZeroTwin s s') {r r' : Except FaultRec State} (hr : Agree ZeroTwin r r') :
    ZeroTwin (s.finish r) (s'.finish r') := by
  have hfault' := zeroTwin_fault h
  cases hfault : s.fault with
  | some e => rwa [finish_faulted hfault, finish_faulted (hfault'.trans hfault)]
  | none =>
    cases hr with
    | error e => simpa [hfault, hfault'] using zeroTwin_raise h e
    | ok ht => simpa [hfault, hfault'] using ht

theorem Agree.bind {ε α α' β β' : Type} {R : α → α' → Prop} {S : β → β' → Prop} {x : Except ε α} {x' : Except ε α'}
    {f : α → Except ε β} {f' : α' → Except ε β'} (hx : Agree R x x') (hf : ∀ a a', R a a' → Agree S (f a) (f' a')) :
    Agree S (x >>= f) (x' >>= f') := by
  cases hx with
  | error e => exact .error e
  | ok h => exact hf _ _ h

theorem Agree.map {ε α α' β β' : Type} {R : α → α' → Prop} {S : β → β' → Prop} {x : Except ε α} {x' : Except ε α'}
    {f : α → β} {f' : α' → β'} (hx : Agree R x x') (hf : ∀ a a', R a a' → S (f a) (f' a')) :
    Agree S (x.map f) (x'.map f') := by
  cases hx with
  | error e => exact .error e
  | ok h => exact .ok (hf _ _ h)

theorem Agree.imp {ε α β : Type} {R S : α → β → Prop} {x : Except ε α} {y : Except ε β} (h : Agree R x y)
    (hRS : ∀ a b, R a b → S a b) : Agree S x y := by
  cases h with
  | error e => exact .error e
  | ok h => exact .ok (hRS _ _ h)

theorem Agree.of_eq {ε α : Type} (x : Except ε α) : Agree Eq x x := by
  cases x with
  | error e => exact .error e
  | ok a => exact .ok rfl

/-- A computation that reads no filter keeps both, and answers twins on twins. -/
theorem zeroTwin_agree {ε : Type} {f : State → Except ε State}
    (hf : ∀ {s : State} (fm fs : Filter), f (withFilters fm fs s) = withFilters fm fs <$> f s) (h : ZeroTwin s s') :
    Agree ZeroTwin (f s) (f s') := by
  obtain ⟨fm, fs, rfl, hm, hs⟩ := zeroTwin_iff.mp h
  rw [hf]
  cases ht : f s with
  | error e => exact .error e
  | ok t =>
    have hkeep : (.ok t : Except ε State) = .ok (withFilters s.lpfM s.lpfS t) := by
      rw [← ht, ← Except.map_ok, ← ht]
      exact hf s.lpfM s.lpfS
    have hkept : t = withFilters s.lpfM s.lpfS t := Except.ok.inj hkeep
    refine .ok (zeroTwin_iff.mpr ⟨fm, fs, rfl, ?_⟩)
    rw [hkept]
    exact ⟨hm, hs⟩

/-! ## The filters (R108, R110) -/

/-- Two pairs that differ in nothing but the signs of zeros. -/
def SamePair (z z' : Cplx) : Prop := plainPair z' = plainPair z

theorem isFinite_plainPair (z : Cplx) : (plainPair z).isFinite = z.isFinite := by
  have hplain : ∀ x : F64, (plainZero x).isFinite = x.isFinite := by
    intro x
    unfold plainZero
    split
    next hx => rw [(isFinite_iff x).mpr (by omega)]; rfl
    · rfl
  simp [Cplx.isFinite, plainPair, hplain]

theorem machine_lpfFn_plain (h : Vector F64 512) {w w' : List Cplx} (hw : w'.map plainPair = w.map plainPair) :
    machine.lpfFn h w' = machine.lpfFn h w := by
  have hall : ∀ w : List Cplx, w.all isZeroPair = (w.map plainPair).all isZeroPair := by
    intro w
    simp [List.all_map, Function.comp_def, isZeroPair_plainPair]
  have hfn : ∀ w : List Cplx, machine.lpfFn h w = fun j =>
      if w.all isZeroPair then { re := F64.zero, im := F64.zero } else heldLpf raw h (w.map plainPair) j := fun _ => rfl
  rw [hfn, hfn, hall w', hall w, hw]

theorem lpfBlock_twin {f f' : Filter} (h : FilterTwin f f') : lpfBlock machine f' = lpfBlock machine f := by
  obtain ⟨-, hhist⟩ := h
  have hlength : f'.hist.length = f.hist.length := by simpa using congrArg List.length hhist
  have hwindow : (lpfWindow machine f'.hist).map plainPair = (lpfWindow machine f.hist).map plainPair := by
    simp only [lpfWindow, List.map_append, List.map_replicate, List.map_drop, List.length_drop, hlength, hhist]
  simp only [lpfBlock, machine_lpfFn_plain _ hwindow]

theorem lpfPush_twin {f f' : Filter} {u u' : Cplx} (h : FilterTwin f f') (hu : SamePair u u') :
    Agree (fun r r' => FilterTwin r.1 r'.1 ∧ r.2 = r'.2) (lpfPush machine f u) (lpfPush machine f' u') := by
  obtain ⟨hfill, hhist⟩ := h
  have hfinite : u'.isFinite = u.isFinite := by rw [← isFinite_plainPair, hu, isFinite_plainPair]
  have hpushed : (f'.hist ++ [u']).map plainPair = (f.hist ++ [u]).map plainPair := by
    simp only [List.map_append, hhist, List.map_cons, List.map_nil, show plainPair u' = plainPair u from hu]
  simp only [lpfPush, hfinite, hfill]
  split
  · exact .error _
  · split
    · have hburst := lpfBlock_twin (f := ⟨f.hist ++ [u], 0⟩) (f' := ⟨f'.hist ++ [u'], 0⟩) ⟨rfl, hpushed⟩
      rw [hburst]
      exact (Agree.of_eq _).bind fun y y' hy => .ok ⟨⟨rfl, hpushed⟩, hy⟩
    · exact .ok ⟨⟨rfl, hpushed⟩, rfl⟩

theorem pushBoth_twin (h : ZeroTwin s s') {zm zm' zs zs' : Cplx} (hm : SamePair zm zm') (hs : SamePair zs zs') :
    Agree ZeroTwin (pushBoth machine s zm zs) (pushBoth machine s' zm' zs') := by
  refine (lpfPush_twin (zeroTwin_filter h .mark) hm).bind ?_
  rintro ⟨gm, ym⟩ ⟨gm', ym'⟩ ⟨hgm, rfl⟩
  refine (lpfPush_twin (zeroTwin_filter h .space) hs).bind ?_
  rintro ⟨gs, ys⟩ ⟨gs', ys'⟩ ⟨hgs, rfl⟩
  exact zeroTwin_agree (f := fun s => burstLoop machine s ym ys)
    (burstLoop_withFilters machine ym ys) (zeroTwin_setFilter (zeroTwin_setFilter h .mark hgm) .space hgs)

/-! ## A zero sample (R83, R103, R105) -/

theorem eq_zero_or_neg_zero {x : F64} (h : x.absBits = 0) : x = F64.zero ∨ x = F64.zero.neg := by
  obtain ⟨b⟩ := x
  have hlt := b.isLt
  have hb : b.toNat = 0 ∨ b.toNat = 2 ^ 63 := by
    simp only [absBits, BitVec.extractLsb'_toNat, Nat.shiftRight_zero] at h
    omega
  obtain hb | hb := hb
  · exact .inl (congrArg F64.mk (BitVec.eq_of_toNat_eq hb))
  · exact .inr (congrArg F64.mk (BitVec.eq_of_toNat_eq hb))

theorem absBits_signedZero (neg : Bool) : (signedZero neg).absBits = 0 := pack_absBits neg (by norm_num)

theorem isFinite_of_absBits_eq_zero {x : F64} (h : x.absBits = 0) : x.isFinite = true := by
  rw [isFinite_iff]
  omega

theorem absBits_mul_eq_zero {x y : F64} (hx : x.isFinite = true) (hy : y.isFinite = true)
    (h : x.absBits = 0 ∨ y.absBits = 0) : (mul x y).absBits = 0 := by
  have hmag : x.mag * y.mag = 0 := by simpa [mag_eq_zero_iff] using h
  simp [mul, isNaN_of_isFinite hx, isNaN_of_isFinite hy, isInf_of_isFinite hx, isInf_of_isFinite hy, hmag,
    roundPack_zero, absBits_signedZero]

theorem absBits_add_eq_zero {x y : F64} (hx : x.absBits = 0) (hy : y.absBits = 0) : (add x y).absBits = 0 := by
  obtain rfl | rfl := eq_zero_or_neg_zero hx <;> obtain rfl | rfl := eq_zero_or_neg_zero hy <;> decide

theorem isZeroPair_iff {z : Cplx} : isZeroPair z = true ↔ z.re.absBits = 0 ∧ z.im.absBits = 0 := by
  simp [isZeroPair]

theorem plainPair_of_isZeroPair {z : Cplx} (h : isZeroPair z = true) :
    plainPair z = { re := F64.zero, im := F64.zero } := by
  simp [plainPair, plainZero, isZeroPair_iff.mp h]

theorem samePair_of_isZeroPair {z z' : Cplx} (h : isZeroPair z = true) (h' : isZeroPair z' = true) : SamePair z z' :=
  (plainPair_of_isZeroPair h').trans (plainPair_of_isZeroPair h).symm

/-- R103: a zero sample, of either sign, scales to a pair of zeros. -/
theorem scale_zero {x : F64} (h : x.absBits = 0) : ∃ z, scale x = .ok z ∧ isZeroPair z = true := by
  have hdv : (mul pcmScale x).absBits = 0 :=
    absBits_mul_eq_zero (by decide) (isFinite_of_absBits_eq_zero h) (.inr h)
  refine ⟨⟨mul pcmScale x, mul pcmScale x⟩, ?_, isZeroPair_iff.mpr ⟨hdv, hdv⟩⟩
  simp only [scale, chk_finite (isFinite_of_absBits_eq_zero hdv)]
  rfl

/-- R105: with a cosine and a sine that are finite, a pair of zeros mixes to a pair of zeros. -/
theorem mix_zeroPair {c : Config} {phi : F64} (hco : (c.cosFn phi).isFinite = true)
    (hsi : (c.sinFn phi).isFinite = true) {z : Cplx} (h : isZeroPair z = true) :
    ∃ y, mix c z phi = .ok y ∧ isZeroPair y = true := by
  obtain ⟨hre, him⟩ := isZeroPair_iff.mp h
  have hmul : ∀ {a b : F64}, a.absBits = 0 → b.isFinite = true → (mul a b).absBits = 0 := fun ha hb =>
    absBits_mul_eq_zero (isFinite_of_absBits_eq_zero ha) hb (.inl ha)
  have hyre : (mixRe z (c.cosFn phi) (c.sinFn phi)).absBits = 0 := absBits_add_eq_zero (hmul hre hco) (hmul him hsi)
  have hyim : (mixIm z (c.cosFn phi) (c.sinFn phi)).absBits = 0 :=
    absBits_add_eq_zero (hmul him hco) (by rw [absBits_neg]; exact hmul hre hsi)
  refine ⟨⟨_, _⟩, ?_, isZeroPair_iff.mpr ⟨hyre, hyim⟩⟩
  simp only [mix, bind_eq_ok_iff]
  exact ⟨_, chk_finite hco, _, chk_finite hsi, _, chk_finite (isFinite_of_absBits_eq_zero hyre), _,
    chk_finite (isFinite_of_absBits_eq_zero hyim), rfl⟩

/-- A mixed pair of zeros is one, whatever their signs, unless the cosine or the sine is not finite. -/
theorem mix_zeroPairs (c : Config) (phi : F64) {z z' : Cplx} (h : isZeroPair z = true) (h' : isZeroPair z' = true) :
    Agree SamePair (mix c z phi) (mix c z' phi) := by
  cases hco : (c.cosFn phi).isFinite with
  | false =>
    simp only [mix, chk_not_finite hco]
    exact .error _
  | true =>
    cases hsi : (c.sinFn phi).isFinite with
    | false =>
      simp only [mix, chk_finite hco, chk_not_finite hsi]
      exact .error _
    | true =>
      obtain ⟨y, hy, hy0⟩ := mix_zeroPair hco hsi h
      obtain ⟨y', hy', hy0'⟩ := mix_zeroPair hco hsi h'
      rw [hy, hy']
      exact .ok (samePair_of_isZeroPair hy0 hy0')

/-- One sample, or two zeros. -/
def SameSample (x x' : F64) : Prop := x' = x ∨ x.absBits = 0 ∧ x'.absBits = 0

variable {x x' : F64}

theorem sampleChecks_twin (hx : SameSample x x') (h : ZeroTwin s s') : sampleChecks x' s' = sampleChecks x s := by
  obtain ⟨fm, fs, rfl, -, -⟩ := zeroTwin_iff.mp h
  obtain rfl | ⟨h0, h0'⟩ := hx
  · rfl
  · have hlegal : ∀ {y : F64}, y.absBits = 0 → legalSample y = true := by
      intro y hy
      obtain rfl | rfl := eq_zero_or_neg_zero hy <;> decide
    simp only [sampleChecks, hlegal h0, hlegal h0']
    rfl

theorem mixBoth_twin (c : Config) (hx : SameSample x x') (h : ZeroTwin s s') :
    Agree (fun p p' => SamePair p.1 p'.1 ∧ SamePair p.2 p'.2) (mixBoth c s x) (mixBoth c s' x') := by
  obtain ⟨fm, fs, rfl, -, -⟩ := zeroTwin_iff.mp h
  obtain rfl | ⟨h0, h0'⟩ := hx
  · exact (Agree.of_eq (mixBoth c s x')).imp fun _ _ hp => hp ▸ ⟨rfl, rfl⟩
  · obtain ⟨z, hz, hz0⟩ := scale_zero h0
    obtain ⟨z', hz', hz0'⟩ := scale_zero h0'
    rw [mixBoth, mixBoth, hz, hz']
    exact (mix_zeroPairs c s.nco.phaseM hz0 hz0').bind fun _ _ hm =>
      (mix_zeroPairs c s.nco.phaseS hz0 hz0').bind fun _ _ hs => .ok ⟨hm, hs⟩

/-! ## Whole operations -/

/-- A command that answers twins on twins does so at its end too. -/
theorem next_twin {r r' : Except FaultRec State} (h : ZeroTwin s s') (hr : Agree ZeroTwin r r')
    (hnext : (.next (s.finish r) : Answer) = .next t) :
    ∃ t', (.next (s'.finish r') : Answer) = .next t' ∧ ZeroTwin t t' := by
  obtain rfl := next_inj hnext
  exact ⟨_, rfl, zeroTwin_finish h hr⟩

/-- An operation that computes its next state without a filter. -/
theorem next_blind {f : State → Except FaultRec State}
    (hf : ∀ {s : State} (fm fs : Filter), f (withFilters fm fs s) = withFilters fm fs <$> f s) (h : ZeroTwin s s')
    (hnext : (.next (s.finish (f s)) : Answer) = .next t) :
    ∃ t', (.next (s'.finish (f s')) : Answer) = .next t' ∧ ZeroTwin t t' :=
  next_twin h (zeroTwin_agree hf h) hnext

/-- NCO_ADV on twins (R106); where its loop never ends on the one, it does not on the other. -/
theorem execNcoAdv_twin (h : ZeroTwin s s') (hnext : execNcoAdv s = .next t) :
    ∃ t', execNcoAdv s' = .next t' ∧ ZeroTwin t t' := by
  have hnco : Agree ZeroTwin (ncoAdv s) (ncoAdv s') := zeroTwin_agree ncoAdv_withFilters h
  unfold execNcoAdv at hnext ⊢
  rw [zeroTwin_fault h]
  split at hnext
  next hfault =>
    obtain rfl := next_inj hnext
    exact ⟨s', if_pos hfault, h⟩
  next hlive =>
    rw [if_neg hlive]
    generalize ncoAdv s = r at hnco hnext
    generalize ncoAdv s' = r' at hnco
    cases hnco with
    | ok ht =>
      obtain rfl := next_inj hnext
      exact ⟨_, rfl, ht⟩
    | error e =>
      cases e with
      | diverges => cases hnext
      | raised e =>
        obtain rfl := next_inj hnext
        exact ⟨_, rfl, zeroTwin_raise h e⟩

theorem sampleWith_twin (hx : SameSample x x') (h : ZeroTwin s s') (hnext : sampleWith machine x s = .next t) :
    ∃ t', sampleWith machine x' s' = .next t' ∧ ZeroTwin t t' := by
  have hraise : ∀ {e : FaultRec}, (.next (s.raise e) : Answer) = .next t →
      ∃ t', (.next (s'.raise e) : Answer) = .next t' ∧ ZeroTwin t t' := by
    intro e he
    obtain rfl := next_inj he
    exact ⟨_, rfl, zeroTwin_raise h e⟩
  have hmix := mixBoth_twin machine hx h
  have hnco : Agree ZeroTwin (ncoAdv s) (ncoAdv s') := zeroTwin_agree ncoAdv_withFilters h
  unfold sampleWith at hnext ⊢
  rw [sampleChecks_twin hx h]
  generalize sampleChecks x s = c at hnext
  generalize mixBoth machine s x = r at hmix hnext
  generalize mixBoth machine s' x' = r' at hmix
  generalize ncoAdv s = n at hnco hnext
  generalize ncoAdv s' = n' at hnco
  cases c with
  | error e => exact hraise hnext
  | ok _ =>
    cases hmix with
    | error e => exact hraise hnext
    | ok hz =>
      cases hnco with
      | ok hu => exact next_twin h (pushBoth_twin hu hz.1 hz.2) hnext
      | error e =>
        cases e with
        | diverges => cases hnext
        | raised e => exact hraise hnext

theorem execSample_twin (hx : SameSample x x') (h : ZeroTwin s s') (hnext : execSample x s = .next t) :
    ∃ t', execSample x' s' = .next t' ∧ ZeroTwin t t' := by
  unfold execSample at hnext ⊢
  rw [zeroTwin_fault h]
  split at hnext
  next hfault =>
    obtain rfl := next_inj hnext
    exact ⟨s', if_pos hfault, h⟩
  next hlive =>
    rw [if_neg hlive]
    exact sampleWith_twin hx h hnext

/-- An operation that answers a value of registers that are no filter. -/
theorem setRet_twin {α : Type} (h : ZeroTwin s s') {x x' : Except FaultRec α} (hx : x' = x) (g : α → Ret) :
    Agree ZeroTwin (x.map fun a => s.setRet (g a)) (x'.map fun a => s'.setRet (g a)) := by
  subst hx
  exact (Agree.of_eq x').map fun _ _ ha => ha ▸ zeroTwin_setRet h _

theorem exec_twin {i : Instr} (h : ZeroTwin s s') (hnext : exec i s = .next t) :
    ∃ t', exec i s' = .next t' ∧ ZeroTwin t t' := by
  cases i
  case sample => exact execSample_twin (.inl rfl) h hnext
  case ncoAdv => exact execNcoAdv_twin h hnext
  case reset fs rv so res =>
    obtain ⟨fm, fs, rfl, -, -⟩ := zeroTwin_iff.mp h
    exact next_twin h ((Agree.of_eq _).imp fun _ _ ht => ht ▸ zeroTwin_refl _) hnext
  case lpfPush br u =>
    exact next_twin h ((lpfPush_twin (zeroTwin_filter h br) rfl).map fun r r' hr => by
      rw [hr.2]
      exact zeroTwin_setRet (zeroTwin_setFilter h br hr.1) _) hnext
  case lpfBlock br => exact next_twin h (setRet_twin h (lpfBlock_twin (zeroTwin_filter h br)) _) hnext
  case scale | mag | softbit | flipSmallest => exact next_twin h (setRet_twin h rfl _) hnext
  case mix | nfloor | clip | atc | findAlpha =>
    obtain ⟨fm, fs, rfl, -, -⟩ := zeroTwin_iff.mp h
    exact next_twin h (setRet_twin h rfl _) hnext
  case bitsToCode | validChar => exact next_twin h (.ok (zeroTwin_setRet h _)) hnext
  case processChar code path => exact next_blind (f := fun s => .ok (processChar s code path)) (fun _ _ => rfl) h hnext
  case smSyncSetup => exact next_blind (f := fun s => .ok (smSyncSetup s)) (fun _ _ => rfl) h hnext
  case processBytes c =>
    refine next_blind (f := fun s => (processBytes s c.toNat).map fun r : State × Int => r.1.setRet (.int r.2))
      (fun {s} fm fs => ?_) h hnext
    rw [processBytes_withFilters]
    cases processBytes s c.toNat <;> rfl
  case envUpd m sp => exact next_blind (f := (envUpd · m sp)) (envUpd_withFilters m sp) h hnext
  case noiseUpd m sp => exact next_blind (f := (noiseUpd · m sp)) (noiseUpd_withFilters m sp) h hnext
  case accum b => exact next_blind (f := (accum · b)) (accum_withFilters b) h hnext
  case cntInc => exact next_blind cntInc_withFilters h hnext
  case evtEarly x => exact next_blind (f := (evtEarly · x)) (evtEarly_withFilters x) h hnext
  case evtLate x => exact next_blind (f := (evtLate · x)) (evtLate_withFilters x) h hnext
  case evtPrompt x => exact next_blind (f := (evtPrompt · x)) (evtPrompt_withFilters x) h hnext
  case realign x => exact next_blind (f := (realign · x)) (realign_withFilters x) h hnext
  case bitIn v => exact next_blind (f := (bitIn · v)) (bitIn_withFilters v) h hnext
  case smSync => exact next_blind smSync_withFilters h hnext
  case smReadData => exact next_blind smReadData_withFilters h hnext

/-- Settles O60: a history is read through the filters alone, with one zero, and two zero samples push the same. -/
theorem zeroSignHasNoEffect : Obligations.ZeroSignHasNoEffect := by
  unfold Obligations.ZeroSignHasNoEffect
  intro i i' s s' t hi h hnext
  obtain rfl | ⟨x, x', rfl, rfl, h0, h0'⟩ := hi
  · exact exec_twin h hnext
  · exact execSample_twin (.inr ⟨h0, h0'⟩) h hnext

end Machine
end Sys2Proof
end

section
/-! SUPPORT. Magnitudes (spec R12, R13): what `abs` and a comparison with it say of the value, and that rounding keeps a
bound on the magnitude. -/

open Sys2Proof.Claims

namespace Sys2Proof
namespace F64

@[simp] theorem sign_abs (x : F64) : x.abs.sign = false := by
  have hmask : (0x7FFFFFFFFFFFFFFF#64).msb = false := by decide
  simp [abs, sign, hmask]

@[simp] theorem absBits_abs (x : F64) : x.abs.absBits = x.absBits := by
  unfold absBits abs
  rw [BitVec.extractLsb'_and, show (0x7FFFFFFFFFFFFFFF#64).extractLsb' 0 63 = BitVec.allOnes 63 by decide,
    BitVec.and_allOnes]

@[simp] theorem isFinite_abs (x : F64) : x.abs.isFinite = x.isFinite := by
  rw [Bool.eq_iff_iff, isFinite_iff, isFinite_iff, absBits_abs]

@[simp] theorem toRat_abs (x : F64) : x.abs.toRat = |x.toRat| := by
  rw [toRat_eq_signed_grid, sign_abs, absBits_abs, signed_false, toRat_eq_signed_grid x, abs_signed,
    abs_of_nonneg (mul_nonneg (Nat.cast_nonneg _) ulp_pos.le)]

/-- A finite number of magnitude at most `b`. -/
structure Within (b : ℚ) (x : F64) : Prop where
  finite : x.isFinite = true
  le : |x.toRat| ≤ b

/-- A bound on the magnitude, as the rules test it. -/
theorem abs_le_iff_within {x z : F64} (hx : x.isFinite = true) (hz : z.isFinite = true) :
    le x.abs z = true ↔ Within z.toRat x := by
  rw [le_iff (isNaN_of_isFinite (by rwa [isFinite_abs])) (isNaN_of_isFinite hz), ← toRat_le_toRat_iff, toRat_abs]
  exact ⟨fun h => ⟨hx, h⟩, fun h => h.le⟩

theorem Within.neg {b : ℚ} {x : F64} (h : Within b x) : Within b x.neg :=
  ⟨by rw [isFinite_neg, h.finite], by rw [toRat_neg, abs_neg]; exact h.le⟩

/-- Numbers of one value are equal as numbers. -/
theorem key_eq_of_toRat_eq {x y : F64} (h : x.toRat = y.toRat) : x.key = y.key :=
  le_antisymm (toRat_le_toRat_iff.mp h.le) (toRat_le_toRat_iff.mp h.ge)

/-- A finite result is at most the number that its exact magnitude is at most. -/
theorem within_of_nearestEven {q : ℚ} {x z : F64} (h : NearestEven q x) (hx : x.isFinite = true)
    (hz : z.isFinite = true) (hle : |q| ≤ z.toRat) : Within z.toRat x := by
  obtain ⟨hlow, hhigh⟩ := abs_le.mp hle
  refine ⟨hx, abs_le.mpr ⟨?_, toRat_le_of_nearestEven h hz hhigh⟩⟩
  rw [← toRat_neg] at hlow ⊢
  exact le_toRat_of_nearestEven h (by rwa [isFinite_neg]) hlow

theorem mul_within {a b : ℚ} {x y z : F64} (hx : Within a x) (hy : Within b y) (hz : z.isFinite = true)
    (hle : a * b ≤ z.toRat) : Within z.toRat (mul x y) := by
  have hexact : |x.toRat * y.toRat| ≤ z.toRat := by
    rw [abs_mul]
    exact (mul_le_mul hx.le hy.le (abs_nonneg _) ((abs_nonneg _).trans hx.le)).trans hle
  have hfin := isFinite_mul_of_abs_le hx.finite hy.finite hz (hexact.trans (le_abs_self _))
  exact within_of_nearestEven (nearestEven_mul hx.finite hy.finite hfin) hfin hz hexact

theorem add_within {a b : ℚ} {x y z : F64} (hx : Within a x) (hy : Within b y) (hz : z.isFinite = true)
    (hle : a + b ≤ z.toRat) : Within z.toRat (add x y) := by
  have hexact : |x.toRat + y.toRat| ≤ z.toRat := (abs_add_le _ _).trans ((add_le_add hx.le hy.le).trans hle)
  have hfin := isFinite_add_of_abs_le hx.finite hy.finite hz (hexact.trans (le_abs_self _))
  exact within_of_nearestEven (nearestEven_add hx.finite hy.finite hfin) hfin hz hexact

/-! A result that is a number is not rounded. -/

theorem toRat_eq_of_nearestEven {q : ℚ} {x y : F64} (h : NearestEven q x) (hy : y.isFinite = true)
    (hq : y.toRat = q) : x.toRat = q := by
  exact_mod_cast eq_of_nearestEvenReal ((nearestEven_iff q x).mp h) hy (by exact_mod_cast hq)

theorem mul_exact {x y z : F64} (hx : x.isFinite = true) (hy : y.isFinite = true) (hz : z.isFinite = true)
    (hval : z.toRat = x.toRat * y.toRat) : (mul x y).isFinite = true ∧ (mul x y).toRat = x.toRat * y.toRat :=
  have hfin := isFinite_mul_of_abs_le hx hy hz (by rw [hval])
  ⟨hfin, toRat_eq_of_nearestEven (nearestEven_mul hx hy hfin) hz hval⟩

theorem add_exact {x y z : F64} (hx : x.isFinite = true) (hy : y.isFinite = true) (hz : z.isFinite = true)
    (hval : z.toRat = x.toRat + y.toRat) : (add x y).isFinite = true ∧ (add x y).toRat = x.toRat + y.toRat :=
  have hfin := isFinite_add_of_abs_le hx hy hz (by rw [hval])
  ⟨hfin, toRat_eq_of_nearestEven (nearestEven_add hx hy hfin) hz hval⟩

theorem toRat_pcmScale : pcmScale.toRat = 32767 := by
  rw [toRat_of_fields (show pcmScale.sval = 32767 * 2 ^ 38 by decide) (show pcmScale.expo = -38 by decide)]; norm_num

theorem toRat_zero : zero.toRat = 0 := (toRat_eq_zero_iff zero).mpr rfl

theorem ofInt_exact {n : ℤ} (hn : n.natAbs ≤ 2 ^ 53) : (ofInt n).isFinite = true ∧ (ofInt n).toRat = n :=
  have h := integersConvertExactly n hn
  ⟨h.1, h.2.1⟩

theorem ofInt_two_pow {n : ℕ} (hn : n ≤ 53) : (ofInt (2 ^ n)).isFinite = true ∧ (ofInt (2 ^ n)).toRat = 2 ^ n := by
  obtain ⟨hfin, hval⟩ := ofInt_exact (n := 2 ^ n) (by
    rw [Int.natAbs_pow]
    exact Nat.pow_le_pow_right (by norm_num) hn)
  exact ⟨hfin, by exact_mod_cast hval⟩

end F64
end Sys2Proof
end

section
/-! SUPPORT. SCALE and MIX (spec R103, R105). -/

open Sys2Proof.Claims

namespace Sys2Proof
namespace Machine

open F64 Config

variable {s : State}

/-! ## The end of an operation that computes a value (R236) -/

theorem finish_map_ok {α : Type} {r : Except FaultRec α} {a : α} (hs : s.fault = none) (hr : r = .ok a)
    (g : α → State) : s.finish (r.map g) = g a := by
  rw [hr]
  exact finish_ok hs

theorem finish_map_error {α : Type} {r : Except FaultRec α} {e : FaultRec} (hs : s.fault = none) (hr : r = .error e)
    (g : α → State) : s.finish (r.map g) = s.raise e := by
  rw [hr]
  exact finish_error hs

/-! ## SCALE (R103) -/

theorem scale_finite {x : F64} (h : (mul pcmScale x).isFinite = true) :
    scale x = .ok { re := mul pcmScale x, im := mul pcmScale x } := by
  rw [scale, chk_finite h]
  rfl

theorem scale_not_finite {x : F64} (h : (mul pcmScale x).isFinite = false) : scale x = .error (.numeric .scale) := by
  rw [scale, chk_not_finite h]
  rfl

/-- R103: |dv| ≤ 32767.0 for a legal sample. -/
theorem scale_within {x : F64} (hx : x.isFinite = true) (hle : le x.abs one = true) :
    Within pcmScale.toRat (mul pcmScale x) := by
  refine mul_within ⟨by decide, abs_of_nonneg (toRat_nonneg_iff.mpr (by decide)) |>.le⟩
    ((abs_le_iff_within hx (by decide)).mp hle) (by decide) ?_
  rw [toRat_one, mul_one]

/-- Settles O13: the product with a magnitude of at most 1.0 is at most the other factor. -/
theorem scaleResult : Obligations.ScaleResult := by
  unfold Obligations.ScaleResult
  intro x s hs
  have hfinite : (mul pcmScale x).isFinite = true →
      exec (.scale x) s = .next { s with ret := .pair (mul pcmScale x) (mul pcmScale x) } := fun h =>
    congrArg _ (finish_map_ok hs (scale_finite h) _)
  refine ⟨hfinite, fun h => congrArg _ (finish_map_error hs (scale_not_finite h) _), fun hx hle => ?_⟩
  have hbound := scale_within hx hle
  exact ⟨hbound.finite, (abs_le_iff_within hbound.finite (by decide)).mpr hbound, hfinite hbound.finite⟩

/-! ## MIX (R105) -/

/-- R105: MIX computes both components, where the cosine, the sine and the components are finite. -/
theorem mix_eq (c : Config) (z : Cplx) (phi : F64) :
    mix c z phi =
      if (c.cosFn phi).isFinite && (c.sinFn phi).isFinite && (mixRe z (c.cosFn phi) (c.sinFn phi)).isFinite &&
          (mixIm z (c.cosFn phi) (c.sinFn phi)).isFinite then
        .ok { re := mixRe z (c.cosFn phi) (c.sinFn phi), im := mixIm z (c.cosFn phi) (c.sinFn phi) }
      else .error (.numeric .mix) := by
  have hcheck : ∀ {α : Type} (x : F64) (f : F64 → Except FaultRec α),
      chk .mix x >>= f = if x.isFinite then f x else .error (.numeric .mix) := by
    intro α x f
    cases hx : x.isFinite
    · rw [chk_not_finite hx]; rfl
    · rw [chk_finite hx]; rfl
  simp only [mix, hcheck, Bool.and_eq_true, ite_and, mixRe, mixIm]
  rfl

theorem within_two {x : F64} (hx : x.isFinite = true) (h : negTwo.key ≤ x.key ∧ x.key ≤ two.key) :
    Within two.toRat x := by
  obtain ⟨hlow, hhigh⟩ := h
  refine ⟨hx, ?_⟩
  rw [abs_le, ← toRat_neg]
  exact ⟨toRat_le_toRat_iff.mpr hlow, toRat_le_toRat_iff.mpr hhigh⟩

/-- A component of the mixed sample is made of two products of at most 2 · 32767.0 each. -/
theorem mixComponents_isFinite {a b co si : F64} (ha : Within pcmScale.toRat a) (hb : Within pcmScale.toRat b)
    (hco : Within two.toRat co) (hsi : Within two.toRat si) :
    (add (mul a co) (mul b si)).isFinite = true ∧ (sub (mul a co) (mul b si)).isFinite = true := by
  obtain ⟨hfin16, h16⟩ := ofInt_two_pow (n := 16) (by norm_num)
  obtain ⟨hfin17, h17⟩ := ofInt_two_pow (n := 17) (by norm_num)
  have hproduct : pcmScale.toRat * two.toRat ≤ (ofInt (2 ^ 16)).toRat := by
    rw [toRat_pcmScale, toRat_two, h16]
    norm_num
  have hsum : (ofInt (2 ^ 16)).toRat + (ofInt (2 ^ 16)).toRat ≤ (ofInt (2 ^ 17)).toRat := by
    rw [h16, h17]
    norm_num
  have hp := mul_within ha hco hfin16 hproduct
  have hq := mul_within hb hsi hfin16 hproduct
  exact ⟨(add_within hp hq hfin17 hsum).finite, (add_within hp hq.neg hfin17 hsum).finite⟩

/-- R105 "Faults: none for legal inputs", where the cosine and the sine are finite. -/
theorem mix_isFinite {z : Cplx} {phi : F64} (hre : Within pcmScale.toRat z.re) (him : Within pcmScale.toRat z.im)
    (hphi : MixerFinite phi) :
    (mixRe z (machine.cosFn phi) (machine.sinFn phi)).isFinite = true ∧
      (mixIm z (machine.cosFn phi) (machine.sinFn phi)).isFinite = true := by
  obtain ⟨hco, hsi⟩ := hphi
  have hco' := within_two hco (machine_cos_spec hco)
  have hsi' := within_two hsi (machine_sin_spec hsi)
  exact ⟨(mixComponents_isFinite hre him hco' hsi').1, (mixComponents_isFinite him hre hco' hsi').2⟩

theorem mix_ok {c : Config} {z : Cplx} {phi : F64} (hco : (c.cosFn phi).isFinite = true)
    (hsi : (c.sinFn phi).isFinite = true) (hre : (mixRe z (c.cosFn phi) (c.sinFn phi)).isFinite = true)
    (him : (mixIm z (c.cosFn phi) (c.sinFn phi)).isFinite = true) :
    mix c z phi =
      .ok { re := mixRe z (c.cosFn phi) (c.sinFn phi), im := mixIm z (c.cosFn phi) (c.sinFn phi) } := by
  simp only [mix_eq, hco, hsi, hre, him, Bool.and_self, if_true]

/-- A number times 1.0, plus or minus a number times 0.0. -/
theorem mul_one_add_mul_zero {a b : F64} (ha : a.isFinite = true) (hb : b.isFinite = true) :
    ((add (mul a one) (mul b zero)).isFinite = true ∧ (add (mul a one) (mul b zero)).toRat = a.toRat) ∧
      (sub (mul a one) (mul b zero)).isFinite = true ∧ (sub (mul a one) (mul b zero)).toRat = a.toRat := by
  obtain ⟨hp, hpval⟩ := mul_exact (z := a) ha (y := one) (by decide) ha (by rw [toRat_one, mul_one])
  obtain ⟨hq, hqval⟩ := mul_exact (z := zero) hb (y := zero) (by decide) (by decide) (by rw [toRat_zero, mul_zero])
  rw [toRat_one, mul_one] at hpval
  rw [toRat_zero, mul_zero] at hqval
  have hsum : ∀ {y : F64}, y.isFinite = true → y.toRat = 0 →
      (add (mul a one) y).isFinite = true ∧ (add (mul a one) y).toRat = a.toRat := by
    intro y hy hy0
    have hsum : (mul a one).toRat + y.toRat = a.toRat := by rw [hpval, hy0, add_zero]
    rw [← hsum]
    exact add_exact (z := a) hp hy ha hsum.symm
  exact ⟨hsum hq hqval, hsum (by rwa [isFinite_neg]) (by rw [toRat_neg, hqval, neg_zero])⟩

theorem machine_at_zero {phi : F64} (h : phi.absBits = 0) : machine.cosFn phi = one ∧ machine.sinFn phi = zero :=
  ⟨if_pos h, if_pos h⟩

/-- Settles O14: a cosine and a sine of at most 2.0 keep the sum of two products small, and at phase 0.0 both products
are exact. -/
theorem mixResult : Obligations.MixResult := by
  unfold Obligations.MixResult
  intro br z s hs phi co si re im ok
  have hphase : s.phase br = phi := by cases br <;> rfl
  have hexec : exec (.mix br z) s =
      .next (s.finish ((mix machine z phi).map fun y => s.setRet (.pair y.re y.im))) := by
    rw [← hphase]
    rfl
  have hok : co.isFinite = true → si.isFinite = true → re.isFinite = true → im.isFinite = true →
      exec (.mix br z) s = .next { s with ret := .pair re im } := fun hco hsi hre him => by
    rw [hexec]
    exact congrArg _ (finish_map_ok hs (mix_ok hco hsi hre him) _)
  refine ⟨?_, fun hphi hz hre him => ?_, fun hzero hz => ?_⟩
  · cases hall : ok with
    | true =>
      simp only [ok, Bool.and_eq_true] at hall
      obtain ⟨⟨⟨hco, hsi⟩, hre⟩, him⟩ := hall
      exact hok hco hsi hre him
    | false =>
      rw [hexec]
      exact congrArg _ (finish_map_error hs ((mix_eq ..).trans (if_neg (by simpa [ok] using hall))) _)
  · obtain ⟨hzre, hzim⟩ := Bool.and_eq_true_iff.mp hz
    rw [abs_le_iff_within hzre (by decide)] at hre
    rw [abs_le_iff_within hzim (by decide)] at him
    obtain ⟨hrefin, himfin⟩ := mix_isFinite hre him hphi
    exact hok hphi.1 hphi.2 hrefin himfin
  · obtain ⟨hzre, hzim⟩ := Bool.and_eq_true_iff.mp hz
    obtain ⟨hco, hsi⟩ : co = one ∧ si = zero := machine_at_zero hzero
    obtain ⟨hre, hreval⟩ : re.isFinite = true ∧ re.toRat = z.re.toRat := by
      simp only [re, hco, hsi]
      exact (mul_one_add_mul_zero hzre hzim).1
    obtain ⟨him, himval⟩ : im.isFinite = true ∧ im.toRat = z.im.toRat := by
      simp only [im, hco, hsi]
      exact (mul_one_add_mul_zero hzim hzre).2
    exact ⟨re, im, hok (by rw [hco]; decide) (by rw [hsi]; decide) hre him, key_eq_of_toRat_eq hreval,
      key_eq_of_toRat_eq himval⟩

end Machine
end Sys2Proof
end

section
/-! SUPPORT. NCO_ADV (spec R106). -/

open Sys2Proof.Claims

namespace Sys2Proof
namespace Machine

open F64

variable {s : State}

/-- TWO_PI, as far as the wrap needs it. -/
theorem twoPi_between : 6 < twoPi.toRat ∧ twoPi.toRat < 7 := by
  rw [toRat_of_fields (x := twoPi) (m := 0x1921FB54442D18) (e := -50) (by decide) (by decide)]
  norm_num

/-- An addition of the wrap is not below an integer that the exact sum is not below, and it changes the phase: the exact
sum is nearer to −4.0 than to the phase. -/
theorem add_twoPi_spec {q : F64} {n : ℤ} (hq : q.isFinite = true) (hle : q.toRat ≤ negTwoPi.toRat)
    (hge : -14 ≤ q.toRat) (hn : n.natAbs ≤ 2 ^ 53) (hsum : n ≤ q.toRat + twoPi.toRat) :
    (add q twoPi).isFinite = true ∧ n ≤ (add q twoPi).toRat ∧ add q twoPi ≠ q := by
  obtain ⟨hfin, -⟩ := add_twoPi_nonpos hq (toRat_le_toRat_iff.mp hle)
  have hnearest := nearestEven_add hq (by decide) hfin
  obtain ⟨hnfin, hnval⟩ := ofInt_exact hn
  refine ⟨hfin, hnval ▸ le_toRat_of_nearestEven hnearest hnfin (hnval ▸ hsum), fun heq => ?_⟩
  obtain ⟨hlow, hhigh⟩ := twoPi_between
  obtain ⟨hfour, hfourval⟩ := ofInt_exact (n := -4) (by norm_num)
  rw [toRat_negTwoPi] at hle
  have hnearer : |(ofInt (-4)).toRat - (q.toRat + twoPi.toRat)| < |q.toRat - (q.toRat + twoPi.toRat)| := by
    rw [hfourval, sub_add_cancel_left, abs_neg, abs_of_pos (by linarith : 0 < twoPi.toRat), abs_lt]
    push_cast
    constructor <;> linarith
  have hdist := (hnearest _ hfour).1
  rw [heq] at hdist
  exact absurd hdist (not_le.mpr hnearer)

/-- One turn of the loop. -/
theorem wrapPhase_succ (fuel : ℕ) {q : F64} (hq : q.isFinite = true) :
    (negTwoPi.toRat < q.toRat → wrapPhase (fuel + 1) q = .ok q) ∧
    (q.toRat ≤ negTwoPi.toRat → add q twoPi ≠ q → wrapPhase (fuel + 1) q = wrapPhase fuel (add q twoPi)) := by
  have hle : le q negTwoPi = true ↔ q.toRat ≤ negTwoPi.toRat := by
    rw [le_iff (isNaN_of_isFinite hq) (by decide), toRat_le_toRat_iff]
  refine ⟨fun h => ?_, fun h hne => ?_⟩
  · rw [wrapPhase, if_neg (by rw [hle]; exact not_le.mpr h)]
  · rw [wrapPhase, if_pos (hle.mpr h)]
    exact if_neg hne

theorem trunc_natAbs_pos {x : F64} (h : 1 ≤ |x.toRat|) : 0 < x.trunc.natAbs := by
  have htrunc : x.trunc.natAbs = if 0 ≤ x.expo then x.mag * 2 ^ x.expo.toNat else x.mag / 2 ^ (-x.expo).toNat := by
    have hsigned : x.trunc =
        signed x.sign ((if 0 ≤ x.expo then x.mag * 2 ^ x.expo.toNat else x.mag / 2 ^ (-x.expo).toNat : ℕ) : ℤ) := rfl
    rw [hsigned]
    cases x.sign
    · exact Int.natAbs_natCast _
    · exact (Int.natAbs_neg _).trans (Int.natAbs_natCast _)
  rw [abs_toRat] at h
  rw [htrunc]
  split
  next hpos =>
    have hmag : x.mag ≠ 0 := by
      rintro h0
      rw [h0, Nat.cast_zero, zero_mul] at h
      linarith
    positivity
  next hneg =>
    have hexp : x.expo = -((-x.expo).toNat : ℤ) := by omega
    rw [hexp, zpow_neg, zpow_natCast, ← div_eq_mul_inv, one_le_div (by positivity)] at h
    exact Nat.div_pos (by exact_mod_cast h) (by positivity)

/-- R106: from a phase not below −14.0 the loop makes at most two additions. -/
theorem wrapPhase_wrapped {q : F64} (hq : q.isFinite = true) (hge : -14 ≤ q.toRat) :
    wrapPhase (wrapFuel q) q = .ok (wrapped q) := by
  have hlt : ∀ {x : F64}, x.isFinite = true → (lt negTwoPi x = true ↔ negTwoPi.toRat < x.toRat) := fun hx => by
    rw [lt_iff (by decide) (isNaN_of_isFinite hx), ← not_le, ← not_le, toRat_le_toRat_iff]
  obtain ⟨hlow, hhigh⟩ := twoPi_between
  have hneg := toRat_negTwoPi
  unfold wrapped wrapFuel
  rcases lt_or_ge negTwoPi.toRat q.toRat with hdone | hwrap
  · rw [if_pos ((hlt hq).mpr hdone)]
    exact (wrapPhase_succ _ hq).1 hdone
  rw [if_neg (by rw [hlt hq]; exact not_lt.mpr hwrap)]
  obtain ⟨fuel, hfuel⟩ : ∃ fuel, q.trunc.natAbs = fuel + 1 :=
    Nat.exists_eq_add_one.mpr (trunc_natAbs_pos (le_abs.mpr (.inr (by linarith))))
  obtain ⟨hfin, hge', hne⟩ := add_twoPi_spec (n := -8) hq hwrap hge (by norm_num) (by push_cast; linarith)
  push_cast at hge'
  rw [hfuel, (wrapPhase_succ _ hq).2 hwrap hne]
  rcases lt_or_ge negTwoPi.toRat (add q twoPi).toRat with hdone | hwrap
  · rw [if_pos ((hlt hfin).mpr hdone)]
    exact (wrapPhase_succ _ hfin).1 hdone
  rw [if_neg (by rw [hlt hfin]; exact not_lt.mpr hwrap)]
  obtain ⟨hfin', hge'', hne'⟩ := add_twoPi_spec (n := -2) hfin hwrap (by linarith) (by norm_num) (by push_cast; linarith)
  push_cast at hge''
  rw [(wrapPhase_succ _ hfin).2 hwrap hne']
  exact (wrapPhase_succ _ hfin').1 (by linarith)

/-- R106: a legal phase less a legal increment is finite and not below −14.0. -/
theorem sub_step_spec {p d : F64} (hp : PhaseLegal p) (hd : StepLegal d) :
    (sub p d).isFinite = true ∧ -14 ≤ (sub p d).toRat := by
  have hpfin := hp.isFinite
  obtain ⟨-, hplow, hphigh⟩ := hp
  obtain ⟨hdfin, hdsign, hdle⟩ := hd
  have hp0 := toRat_nonpos_iff.mpr hphigh
  have hp1 := toRat_le_toRat_iff.mpr hplow.le
  have hd0 := toRat_nonneg_iff.mpr (key_nonneg_of_sign hdsign)
  rw [le_iff (isNaN_of_isFinite hdfin) (by decide), ← toRat_le_toRat_iff, toRat_seven] at hdle
  rw [toRat_negTwoPi] at hp1
  obtain ⟨-, hhigh⟩ := twoPi_between
  obtain ⟨hfin, hval⟩ := ofInt_exact (n := -14) (by norm_num)
  push_cast at hval
  have hexact : -14 ≤ p.toRat - d.toRat := by linarith
  have hdneg : d.neg.isFinite = true := by rwa [isFinite_neg]
  have hsub : (sub p d).isFinite = true := by
    refine isFinite_add_of_abs_le hpfin hdneg hfin ?_
    rw [toRat_neg, hval, abs_of_nonpos (by linarith), abs_of_nonpos (by norm_num)]
    linarith
  exact ⟨hsub, hval ▸ le_toRat_of_nearestEven (nearestEven_sub hpfin hdfin hsub) hfin (hval ▸ hexact)⟩

/-- R106: one phase advanced, and the interval it stays in. -/
theorem advancePhase_wrapped {p d : F64} (hp : PhaseLegal p) (hd : StepLegal d) :
    advancePhase p d = .ok (wrapped (sub p d)) ∧ PhaseLegal (wrapped (sub p d)) := by
  obtain ⟨hfin, hge⟩ := sub_step_spec hp hd
  have hadvance : advancePhase p d = .ok (wrapped (sub p d)) := by
    rw [advancePhase, chk_finite hfin]
    exact wrapPhase_wrapped hfin hge
  obtain ⟨hdfin, hdsign, -⟩ := hd
  exact ⟨hadvance, advancePhase_legal hp hdfin (key_nonneg_of_sign hdsign) hadvance⟩

theorem ncoAdv_wrapped (hm : PhaseLegal s.nco.phaseM) (hs : PhaseLegal s.nco.phaseS) (hdm : StepLegal s.cfg.dphiM)
    (hds : StepLegal s.cfg.dphiS) :
    ncoAdv s = .ok (s.setNco
      { phaseM := wrapped (sub s.nco.phaseM s.cfg.dphiM), phaseS := wrapped (sub s.nco.phaseS s.cfg.dphiS) }) := by
  rw [ncoAdv, (advancePhase_wrapped hm hdm).1, (advancePhase_wrapped hs hds).1]
  rfl

theorem execNcoAdv_ok {t : State} (hs : s.fault = none) (h : ncoAdv s = .ok t) : execNcoAdv s = .next t := by
  simp [execNcoAdv, hs, h]

/-- Settles O15: the loop of each phase ends after at most two additions. -/
theorem ncoAdvWraps : Obligations.NcoAdvWraps := by
  unfold Obligations.NcoAdvWraps
  intro s hlive hm hs hdm hds
  refine ⟨?_, (advancePhase_wrapped hm hdm).2, (advancePhase_wrapped hs hds).2⟩
  exact execNcoAdv_ok hlive (ncoAdv_wrapped hm hs hdm hds)

end Machine
end Sys2Proof
end

section
/-! SUPPORT. LPF_PUSH and LPF_BLOCK (spec R108, R110, R142). -/

open Sys2Proof.Claims

namespace Sys2Proof
namespace Machine

open F64 Config

variable {s : State}

/-! ## The window and the burst (R110) -/

theorem inputAt_of_neg (hist : List Cplx) {i : ℤ} (h : i < 0) :
    inputAt hist i = { re := F64.zero, im := F64.zero } := if_pos h

theorem inputAt_natCast {hist : List Cplx} {i : ℕ} (h : i < hist.length) : inputAt hist i = hist[i] := by
  rw [inputAt, if_neg (by omega), Int.toNat_natCast, List.getElem?_eq_getElem h, Option.getD_some]

theorem windowOf_eq_map (hist : List Cplx) :
    windowOf hist = (List.range (machine.block + 511)).map fun k : ℕ =>
      inputAt hist ((hist.length : ℤ) - machine.block - 511 + k) := by
  have hcast : ∀ l : List ℕ, (do let k ← l; pure (k : ℤ)) = l.map fun k : ℕ => (k : ℤ) := fun l =>
    List.flatMap_pure_eq_map _ l
  rw [windowOf, hcast, List.map_map]
  rfl

@[simp] theorem length_windowOf (hist : List Cplx) : (windowOf hist).length = machine.block + 511 := by
  rw [windowOf_eq_map, List.length_map, List.length_range]

theorem getElem_windowOf (hist : List Cplx) {k : ℕ} (h : k < (windowOf hist).length) :
    (windowOf hist)[k] = inputAt hist ((hist.length : ℤ) - machine.block - 511 + k) := by
  simp only [windowOf_eq_map, List.getElem_map, List.getElem_range]

/-- The window that the model cuts from the history is that of the rule. -/
theorem lpfWindow_eq_windowOf (hist : List Cplx) : lpfWindow machine hist = windowOf hist := by
  have hlen : (lpfWindow machine hist).length = machine.block + 511 := by
    rw [lpfWindow, List.length_append, List.length_replicate, List.length_drop]
    omega
  refine List.ext_getElem (hlen.trans (length_windowOf hist).symm) fun k hk hk' => ?_
  rw [getElem_windowOf]
  simp only [lpfWindow, List.getElem_append, List.length_replicate, List.length_drop, List.getElem_replicate,
    List.getElem_drop]
  split
  next hbefore => exact (inputAt_of_neg hist (by omega)).symm
  next hafter =>
    exact (inputAt_natCast _).symm.trans (congrArg (inputAt hist) (by omega))

theorem lpfBlock_eq (f : Filter) :
    lpfBlock machine f =
      if (burstOf f.hist).all Cplx.isFinite then .ok (burstOf f.hist) else .error (.numeric .lpfBlock) := by
  rw [lpfBlock, lpfWindow_eq_windowOf]
  rfl

/-- An input of the window is one of the history or the zero pair. -/
theorem forall_mem_windowOf {P : Cplx → Prop} {hist : List Cplx} (hzero : P { re := F64.zero, im := F64.zero })
    (h : ∀ u ∈ hist, P u) : ∀ u ∈ windowOf hist, P u := by
  intro u hu
  rw [windowOf_eq_map, List.mem_map] at hu
  obtain ⟨k, -, rfl⟩ := hu
  unfold inputAt
  split
  · exact hzero
  · cases hget : hist[((hist.length : ℤ) - machine.block - 511 + k).toNat]? with
    | none => exact hzero
    | some u => exact h u (List.mem_of_getElem? hget)

/-- R142: silence gives silence. -/
theorem burstOf_zeros {hist : List Cplx} (h : ∀ u ∈ hist, isZeroPair u = true) :
    burstOf hist = List.replicate machine.block { re := F64.zero, im := F64.zero } := by
  have hwindow : (windowOf hist).all isZeroPair = true :=
    List.all_eq_true.mpr (forall_mem_windowOf (P := (isZeroPair · = true)) (by decide) h)
  refine List.eq_replicate_iff.mpr ⟨by simp [burstOf], fun y hy => ?_⟩
  obtain ⟨j, -, rfl⟩ := List.mem_map.mp hy
  exact machine_lpf_zero hwindow j

theorem isFinite_burstOf_zeros {hist : List Cplx} (h : ∀ u ∈ hist, isZeroPair u = true) :
    (burstOf hist).all Cplx.isFinite = true := by
  rw [burstOf_zeros h, List.all_eq_true]
  intro y hy
  rw [List.eq_of_mem_replicate hy]
  decide

/-! ## LPF_PUSH (R108) -/

theorem lpfPush_append {f : Filter} {u : Cplx} (hu : u.isFinite = true) (hf : f.fill + 1 ≠ machine.block) :
    lpfPush machine f u = .ok ({ hist := f.hist ++ [u], fill := f.fill + 1 }, []) := by
  simp [lpfPush, hu, hf]

theorem lpfPush_block {f : Filter} {u : Cplx} (hu : u.isFinite = true) (hf : f.fill + 1 = machine.block) :
    lpfPush machine f u =
      if (burstOf (f.hist ++ [u])).all Cplx.isFinite then
        .ok ({ hist := f.hist ++ [u], fill := 0 }, burstOf (f.hist ++ [u]))
      else .error (.numeric .lpfBlock) := by
  simp only [lpfPush, hu, hf, Bool.not_true, Bool.false_eq_true, if_false, if_true, lpfBlock_eq]
  split <;> rfl

/-- Settles O17: the push appends, and one that completes a block runs LPF_BLOCK on what it appended to. -/
theorem lpfPushResult : Obligations.LpfPushResult := by
  unfold Obligations.LpfPushResult
  intro br u s hs hu f hist
  have hblock : f.fill + 1 = machine.block →
      exec (.lpfPush br u) s = .next (if (burstOf hist).all Cplx.isFinite then
        (s.setFilter br { hist := hist, fill := 0 }).setRet (.burst (burstOf hist))
      else s.raise (.numeric .lpfBlock)) := fun hfull => by
    have hpush := lpfPush_block hu hfull
    split at hpush
    next hfin => rw [if_pos hfin]; exact congrArg _ (finish_map_ok hs hpush _)
    next hinf => rw [if_neg hinf]; exact congrArg _ (finish_map_error hs hpush _)
  refine ⟨fun hmore => congrArg _ (finish_map_ok hs (lpfPush_append hu hmore) _), hblock, fun hfull hzero => ?_⟩
  rw [hblock hfull, if_pos (isFinite_burstOf_zeros hzero), burstOf_zeros hzero]

end Machine
end Sys2Proof
end

section
/-! SUPPORT. The filter is the convolution of its history, up to rounding (spec R110; log entry 5). -/

open Sys2Proof.Claims

namespace Sys2Proof
namespace Machine

open F64 Config

variable {s : State}

/-! ## The filter's integers, in units of 2^(-2148) -/

theorem exactProd_mul_unit (a b : F64) : (exactProd a b : ℚ) * 2 ^ (-2148 : ℤ) = a.toRat * b.toRat := by
  have hexp : -2148 ≤ a.expo + b.expo := by linarith [expo_ge a, expo_ge b]
  have hshift := shift_mul_two_zpow (a.sval * b.sval : ℚ) hexp
  rw [sub_neg_eq_add] at hshift
  rw [exactProd, toRat, toRat, Int.cast_mul, Int.cast_mul, Int.cast_pow, Int.cast_ofNat, hshift, zpow_add₀ two_ne_zero]
  ring

theorem exactVal_mul_unit (x : F64) : (exactVal x : ℚ) * 2 ^ (-2148 : ℤ) = x.toRat := by
  have hshift := shift_mul_two_zpow (x.sval : ℚ) (by linarith [expo_ge x] : -2148 ≤ x.expo)
  rw [sub_neg_eq_add] at hshift
  rwa [exactVal, toRat, Int.cast_mul, Int.cast_pow, Int.cast_ofNat]

theorem nearestEven_roundSum {n : ℤ} (h : (roundSum n).isFinite = true) :
    NearestEven ((n : ℚ) * 2 ^ (-2148 : ℤ)) (roundSum n) :=
  nearestEven_roundPack (by rw [← signed_mul, signed_natAbs]) h

theorem sum_mul_unit {ι : Type} (l : List ι) (f : ι → ℤ) :
    ((l.map f).sum : ℚ) * 2 ^ (-2148 : ℤ) = (l.map fun i => (f i : ℚ) * 2 ^ (-2148 : ℤ)).sum := by
  rw [Int.cast_list_sum, List.map_map, ← List.sum_map_mul_right]
  rfl

/-! ## The sum of R110 -/

theorem toRat_plainZero (x : F64) : (plainZero x).toRat = x.toRat := by
  unfold plainZero
  split
  next h => rw [toRat_zero, (toRat_eq_zero_iff x).mpr h]
  next => rfl

/-- The index of R110 for tap `k` of output `j`, and its place in the window. -/
theorem inputAt_eq_getElem (hist : List Cplx) {j k : ℕ} (hj : j < machine.block) (hk : k < 512) :
    ∃ h : j + (511 - k) < (windowOf hist).length,
      inputAt hist ((hist.length : ℤ) - machine.block + j - k) = (windowOf hist)[j + (511 - k)] := by
  have hlen := length_windowOf hist
  refine ⟨by omega, ?_⟩
  rw [getElem_windowOf]
  exact congrArg (inputAt hist) (by omega)

theorem taps_eq_map (h : Vector F64 512) : h.toList = (List.range 512).map fun k => h[k]?.getD F64.zero := by
  refine List.ext_getElem (by simp) fun k hk hk' => ?_
  have hk512 : k < 512 := by simpa using hk'
  simp [hk512]

/-- The inputs of output `j`, newest first, by the taps they meet. -/
theorem inputs_eq_map (part : Cplx → F64) (hist : List Cplx) {j : ℕ} (hj : j < machine.block) :
    ((((windowOf hist).map plainPair).drop j).take 512 |>.map part).reverse =
      (List.range 512).map fun k : ℕ => part (plainPair (inputAt hist ((hist.length : ℤ) - machine.block + j - k))) := by
  have hlen := length_windowOf hist
  refine List.ext_getElem ?_ fun k hk hk' => ?_
  · simp only [List.length_reverse, List.length_map, List.length_take, List.length_drop, List.length_range]
    omega
  · have hk512 : k < 512 := by simpa using hk'
    obtain ⟨hindex, heq⟩ := inputAt_eq_getElem hist hj hk512
    simp only [List.getElem_reverse, List.length_map, List.length_take, List.length_drop, List.getElem_map,
      List.getElem_take, List.getElem_drop, List.getElem_range, heq]
    exact congrArg (fun u => part (plainPair u)) (getElem_congr_idx (by omega))

/-- R110: the machine's exact sum is the convolution. A sum over `Finset.range` is by definition one over `List.range`. -/
theorem convSum_mul_unit {part : Cplx → F64} (hpart : ∀ z, (part (plainPair z)).toRat = (part z).toRat)
    (hist : List Cplx) {j : ℕ} (hj : j < machine.block) :
    (convSum machine.taps.toList ((((windowOf hist).map plainPair).drop j).take 512 |>.map part) : ℚ) *
      2 ^ (-2148 : ℤ) = convolution part hist j := by
  rw [convSum, inputs_eq_map part hist hj, taps_eq_map, List.zip_map', List.map_map, sum_mul_unit]
  simp only [Function.comp_apply, exactProd_mul_unit, hpart]
  rfl

theorem convScale_mul_unit (w : List Cplx) :
    (convScale machine.taps.toList w : ℚ) * 2 ^ (-2148 : ℤ) =
      ∑ k ∈ Finset.range 512, |(machine.taps[k]?.getD F64.zero).toRat| * (peak w).toRat := by
  rw [convScale, taps_eq_map, List.map_map, sum_mul_unit]
  simp only [Function.comp_apply, exactProd_mul_unit, toRat_abs]
  rfl

/-! ## The largest input of the window -/

theorem toRat_peak_le {w : List Cplx} {b : ℚ} (hb : 0 ≤ b) (h : ∀ z ∈ w, |z.re.toRat| ≤ b ∧ |z.im.toRat| ≤ b) :
    (peak w).toRat ≤ b := by
  have hlarger : ∀ {x y : F64}, x.toRat ≤ b → y.toRat ≤ b → (larger x y).toRat ≤ b := fun hx hy => by
    unfold larger
    split <;> assumption
  have hfold : ∀ {p : F64}, p.toRat ≤ b →
      (w.foldl (fun p z => larger (larger p z.re.abs) z.im.abs) p).toRat ≤ b := by
    induction w with
    | nil => exact id
    | cons z w ih =>
      intro p hp
      obtain ⟨⟨hre, him⟩, hw⟩ := List.forall_mem_cons.mp h
      rw [← toRat_abs] at hre him
      exact ih hw (hlarger (hlarger hp hre) him)
  exact hfold (toRat_zero.le.trans hb)

/-! ## LPF_BLOCK -/

theorem machine_lpfFn_of_isFinite {h : Vector F64 512} {w : List Cplx} (hh : h.toList.all F64.isFinite = true)
    (hw : w.all Cplx.isFinite = true) (hzero : w.all isZeroPair = false) (j : ℕ) {part : Cplx → F64}
    (hpart : part = Cplx.re ∨ part = Cplx.im) :
    part (machine.lpfFn h w j) =
      upToRounding machine.lpfTol (convScale h.toList (w.map plainPair))
        (convSum h.toList (((w.map plainPair).drop j).take 512 |>.map part)) (part (raw.lpfFn h (w.map plainPair) j)) := by
  have hplain : (w.map plainPair).all Cplx.isFinite = true := by
    simpa [List.all_map, Function.comp_def, isFinite_plainPair] using hw
  have hfn : machine.lpfFn h w j =
      if w.all isZeroPair then { re := F64.zero, im := F64.zero } else heldLpf raw h (w.map plainPair) j := rfl
  rw [hfn, hzero, if_neg Bool.false_ne_true, heldLpf, hh, hplain]
  obtain rfl | rfl := hpart <;> rfl

/-- R110: a finite component of the machine's filter is the exact sum rounded, or within the filter's rounding. -/
theorem upToRounding_near {scale exact : ℤ} {y : F64} (h : (upToRounding machine.lpfTol scale exact y).isFinite = true) :
    NearestEven (exact * 2 ^ (-2148 : ℤ)) (upToRounding machine.lpfTol scale exact y) ∨
      |(upToRounding machine.lpfTol scale exact y).toRat - exact * 2 ^ (-2148 : ℤ)| ≤
        machine.lpfTol / 2 ^ 52 * (scale * 2 ^ (-2148 : ℤ)) := by
  obtain ⟨hinf, heq⟩ | heq | ⟨heq, hle⟩ := upToRounding_cases machine.lpfTol scale exact y
  · rw [heq, hinf] at h
    cases h
  · rw [heq] at h ⊢
    exact .inl (nearestEven_roundSum h)
  · have hle : |(exactVal y : ℚ) - exact| * 2 ^ 52 ≤ machine.lpfTol * scale := by
      rw [Int.natCast_natAbs] at hle
      exact_mod_cast hle
    rw [heq, ← exactVal_mul_unit, ← sub_mul, abs_mul, abs_of_pos (by positivity : (0 : ℚ) < 2 ^ (-2148 : ℤ)),
      ← mul_assoc]
    refine .inr (mul_le_mul_of_nonneg_right ?_ (by positivity))
    rw [div_mul_eq_mul_div, le_div_iff₀ (by norm_num)]
    exact hle

theorem convolution_of_zeros {part : Cplx → F64} (hpart : part = Cplx.re ∨ part = Cplx.im) {hist : List Cplx} {j : ℕ}
    (hj : j < machine.block) (hzero : (windowOf hist).all isZeroPair = true) : convolution part hist j = 0 := by
  refine Finset.sum_eq_zero fun k hk => ?_
  obtain ⟨hindex, heq⟩ := inputAt_eq_getElem hist hj (Finset.mem_range.mp hk)
  obtain ⟨hre, him⟩ := isZeroPair_iff.mp (List.all_eq_true.mp hzero _ (List.getElem_mem hindex))
  rw [heq]
  refine mul_eq_zero_of_right _ ((toRat_eq_zero_iff _).mpr ?_)
  obtain rfl | rfl := hpart
  · exact hre
  · exact him

/-- R110: an output of the filter is the convolution of the history up to rounding. -/
theorem lpfFn_near_convolution {hist : List Cplx} {j : ℕ} {y : Cplx} {part : Cplx → F64} {bound : ℚ}
    (htaps : machine.taps.toList.all F64.isFinite = true) (hfin : ∀ u ∈ hist, u.isFinite = true)
    (hbound : 0 ≤ bound) (hle : ∀ u ∈ hist, |u.re.toRat| ≤ bound ∧ |u.im.toRat| ≤ bound) (hj : j < machine.block)
    (hy : machine.lpfFn machine.taps (windowOf hist) j = y) (hpart : part = Cplx.re ∨ part = Cplx.im)
    (hyfin : (part y).isFinite = true) :
    NearestEven (convolution part hist j) (part y) ∨
      |(part y).toRat - convolution part hist j| ≤ roundingBound bound := by
  cases hzero : (windowOf hist).all isZeroPair with
  | true =>
    have hval : (part y).toRat = 0 := by
      rw [← hy, machine_lpf_zero hzero]
      obtain rfl | rfl := hpart <;> exact toRat_zero
    rw [convolution_of_zeros hpart hj hzero, nearestEven_iff]
    exact .inl (nearestEvenReal_of_eq (by rw [hval]))
  | false =>
    have hwindow : (windowOf hist).all Cplx.isFinite = true :=
      List.all_eq_true.mpr (forall_mem_windowOf (P := (Cplx.isFinite · = true)) (by decide) hfin)
    have hplain : ∀ z, (part (plainPair z)).toRat = (part z).toRat := by
      obtain rfl | rfl := hpart <;> exact fun z => toRat_plainZero _
    have hpeak : (peak ((windowOf hist).map plainPair)).toRat ≤ bound := by
      refine toRat_peak_le hbound (List.forall_mem_map.mpr fun u hu => ?_)
      simp only [plainPair, toRat_plainZero]
      exact forall_mem_windowOf (P := fun u => |u.re.toRat| ≤ bound ∧ |u.im.toRat| ≤ bound)
        (by simpa only [toRat_zero, abs_zero, and_self] using hbound) hle u hu
    rw [← hy, machine_lpfFn_of_isFinite htaps hwindow hzero j hpart] at hyfin ⊢
    have hnear := upToRounding_near hyfin
    rw [convSum_mul_unit hplain hist hj, convScale_mul_unit] at hnear
    refine hnear.imp_right fun h => h.trans ?_
    unfold roundingBound
    gcongr

/-- Settles O18: the filter function is held to the exact sum of the window, which is the convolution at that index. -/
theorem lpfBlockResult : Obligations.LpfBlockResult := by
  unfold Obligations.LpfBlockResult
  intro br s hs hist
  have hblock := lpfBlock_eq (s.filter br)
  have hexec : exec (.lpfBlock br) s =
      .next (if (burstOf hist).all Cplx.isFinite then { s with ret := .burst (burstOf hist) }
        else s.raise (.numeric .lpfBlock)) := by
    split at hblock
    next hfin => rw [if_pos hfin]; exact congrArg _ (finish_map_ok hs hblock _)
    next hinf => rw [if_neg hinf]; exact congrArg _ (finish_map_error hs hblock _)
  refine ⟨hexec, fun hzero => ?_, fun hfin bound hbound hle => ?_⟩
  · rw [hexec, if_pos (isFinite_burstOf_zeros hzero), burstOf_zeros hzero]
    rfl
  · cases htaps : machine.taps.toList.all F64.isFinite with
    | false => exact .inl (by simpa only [List.all_eq_false, Bool.not_eq_true] using htaps)
    | true =>
      exact .inr fun j hj y hy part hpart hyfin =>
        lpfFn_near_convolution htaps hfin hbound hle hj (by simpa [burstOf, hj] using hy) hpart hyfin

end Machine
end Sys2Proof
end

section
/-! SUPPORT. A legal SAMPLE (spec R101, R102), and one that completes no block (R108). -/

open Sys2Proof.Claims

namespace Sys2Proof
namespace Machine

open F64 Config

variable {s : State} {x : F64}

/-! ## A computation of a command, and what follows it -/

/-- What a computation of the command that began in `s0` leaves for `k`; its fault is the command's (R236). -/
def thenRun {α : Type} (s0 : State) (x : Except FaultRec α) (k : α → Answer) : Answer :=
  match x with
  | .ok a => k a
  | .error e => .next (s0.raise e)

theorem next_finish (hs : s.fault = none) (x : Except FaultRec State) : .next (s.finish x) = thenRun s x .next := by
  cases x with
  | ok t => exact congrArg _ (finish_ok hs)
  | error e => exact congrArg _ (finish_error hs)

/-- NCO_ADV in a command, and what follows it. -/
def thenAdvance (s0 s : State) (k : State → Answer) : Answer :=
  match ncoAdv s with
  | .error .diverges => .fault .phaseWrapDiverges
  | .error (.raised e) => .next (s0.raise e)
  | .ok t => k t

/-! ## The parts of a legal SAMPLE -/

theorem sampleChecks_legal (hconf : s.cfg.configured = true) (hx : x.isFinite = true) (hle : le x.abs one = true) :
    sampleChecks x s = .ok () := by
  simp [sampleChecks, legalSample, hconf, hx, hle]

/-- R103, R105: one branch of a legal sample. -/
theorem mix_legal {phi : F64} (hx : x.isFinite = true) (hle : le x.abs one = true) (hphi : MixerFinite phi) :
    mix machine { re := mul pcmScale x, im := mul pcmScale x } phi = .ok (mixed x phi) ∧
      (mixed x phi).isFinite = true := by
  have hdv := scale_within hx hle
  obtain ⟨hre, him⟩ := mix_isFinite (z := { re := mul pcmScale x, im := mul pcmScale x }) hdv hdv hphi
  exact ⟨mix_ok hphi.1 hphi.2 hre him, Bool.and_eq_true_iff.mpr ⟨hre, him⟩⟩

theorem mixBoth_legal (hx : x.isFinite = true) (hle : le x.abs one = true) (hm : MixerFinite s.nco.phaseM)
    (hs : MixerFinite s.nco.phaseS) :
    mixBoth machine s x = .ok (mixed x s.nco.phaseM, mixed x s.nco.phaseS) := by
  rw [mixBoth, scale_finite (scale_within hx hle).finite]
  simp only [bind_eq_ok_iff]
  exact ⟨_, rfl, _, (mix_legal hx hle hm).1, _, (mix_legal hx hle hs).1, rfl⟩

/-- R108: two pushes that complete no block. -/
theorem pushBoth_append {zm zs : Cplx} (hzm : zm.isFinite = true) (hzs : zs.isFinite = true)
    (hm : s.lpfM.fill + 1 ≠ machine.block) (hs : s.lpfS.fill + 1 ≠ machine.block) :
    pushBoth machine s zm zs = .ok { s with
      lpfM := { hist := s.lpfM.hist ++ [zm], fill := s.lpfM.fill + 1 }
      lpfS := { hist := s.lpfS.hist ++ [zs], fill := s.lpfS.fill + 1 } } := by
  rw [pushBoth, lpfPush_append hzm hm, lpfPush_append hzs hs]
  rfl

/-- R101, R102: a legal SAMPLE after its checks. -/
theorem execSample_legal (hlive : s.fault = none) (hconf : s.cfg.configured = true) (hx : x.isFinite = true)
    (hle : le x.abs one = true) :
    exec (.sample x) s = thenRun s (mixBoth machine s x) fun z =>
      thenAdvance s s fun t => thenRun s (pushBoth machine t z.1 z.2) .next := by
  rw [exec, execSample, hlive, sampleWith, sampleChecks_legal hconf hx hle]
  cases mixBoth machine s x with
  | error e => rfl
  | ok z =>
    cases h : ncoAdv s with
    | ok t => simp only [thenRun, thenAdvance, h, next_finish hlive]; rfl
    | error e => cases e <;> simp only [thenRun, thenAdvance, h] <;> rfl

/-- Settles O45: SCALE and both MIX are finite, the wrap ends, and both pushes append. -/
theorem sampleWithoutBurst : Obligations.SampleWithoutBurst := by
  unfold Obligations.SampleWithoutBurst
  intro x s hlive hconf hx hle hm hs hdm hds hmix hmixs hfillM hfillS
  have hpush := pushBoth_append (s := s.setNco
      { phaseM := wrapped (sub s.nco.phaseM s.cfg.dphiM), phaseS := wrapped (sub s.nco.phaseS s.cfg.dphiS) })
    (mix_legal hx hle hmix).2 (mix_legal hx hle hmixs).2 hfillM hfillS
  rw [execSample_legal hlive hconf hx hle, mixBoth_legal hx hle hmix hmixs]
  simp only [thenRun, thenAdvance, ncoAdv_wrapped hm hs hdm hds, hpush]
  rfl

end Machine
end Sys2Proof
end

section
/-! SUPPORT. The operations of FSAMPLE see neither `ret` nor `FAULT` (log entries 2 and 7), and leave both as they are. -/

open Sys2Proof.Claims

namespace Sys2Proof
namespace Machine

/-- A change of the state that is none of the configuration, the trackers, the synchroniser and the bit-level machine, and
that commutes with the writes to them and with `emit`. -/
structure Unseen (φ : State → State) : Prop where
  cfg : ∀ s, (φ s).cfg = s.cfg
  trk : ∀ s, (φ s).trk = s.trk
  sync : ∀ s, (φ s).sync = s.sync
  rx : ∀ s, (φ s).rx = s.rx
  setTrk : ∀ s r, (φ s).setTrk r = φ (s.setTrk r)
  setSync : ∀ s r, (φ s).setSync r = φ (s.setSync r)
  setRx : ∀ s r, (φ s).setRx r = φ (s.setRx r)
  emit : ∀ s r, (φ s).emit r = φ (s.emit r)

section
variable {φ : State → State} (h : Unseen φ) {s : State}
include h

theorem Unseen.envUpd (m sp : F64) : envUpd (φ s) m sp = φ <$> envUpd s m sp := by
  simp only [Machine.envUpd, h.cfg, h.trk, h.setTrk, map_bind, map_pure]

theorem Unseen.noiseUpd (m sp : F64) : noiseUpd (φ s) m sp = φ <$> noiseUpd s m sp := by
  simp only [Machine.noiseUpd, h.cfg, h.trk, h.setTrk, map_bind, map_pure]

theorem Unseen.accum (b : Int) : accum (φ s) b = φ <$> accum s b := by
  simp only [Machine.accum, h.sync, h.setSync, map_bind, map_pure]

theorem Unseen.cntInc : cntInc (φ s) = φ <$> cntInc s := by
  simp only [Machine.cntInc, h.sync, h.setSync, map_bind, map_pure, Except.map_error, apply_ite (φ <$> ·)]

theorem Unseen.evtEarly (x : F64) : evtEarly (φ s) x = φ <$> evtEarly s x := by
  simp only [Machine.evtEarly, h.cfg, h.sync, h.setSync, map_bind, map_pure, apply_ite (φ <$> ·)]

theorem Unseen.evtLate (x : F64) : evtLate (φ s) x = φ <$> evtLate s x := by
  simp only [Machine.evtLate, h.cfg, h.sync, h.setSync, map_bind, map_pure, apply_ite (φ <$> ·)]

theorem Unseen.promptSample : promptSample (φ s) = φ <$> promptSample s := by
  simp only [Machine.promptSample, h.cfg, h.sync, h.setSync, map_bind, map_pure]

theorem Unseen.realign (x : F64) : realign (φ s) x = φ <$> realign s x := by
  simp only [Machine.realign, Machine.alignment, h.cfg, h.sync, h.setSync, map_bind, map_pure, apply_ite (φ <$> ·)]

theorem Unseen.processChar (code : Code7) (path : BitVec 3) :
    processChar (φ s) code path = φ (processChar s code path) := by
  simp only [Machine.processChar, h.rx, h.setRx, h.emit]

theorem Unseen.processBytes (c : Int) : processBytes (φ s) c = Prod.map φ id <$> processBytes s c := by
  simp only [Machine.processBytes, processRep, processFlips, h.rx, h.processChar, map_bind, map_pure, Except.map_ok,
    Prod.map, id, apply_ite (Prod.map φ id <$> ·)]

theorem Unseen.smSync : smSync (φ s) = φ <$> smSync s := by
  simp only [Machine.smSync, State.setRxState, h.rx, h.setRx, map_bind, map_pure, apply_ite (φ <$> ·)]

theorem Unseen.alphaSlot : alphaSlot (φ s) = φ <$> alphaSlot s := by
  simp only [Machine.alphaSlot, h.rx, h.processBytes, h.setRx, bind_map_left, map_bind, map_pure, Prod.map, id]

theorem Unseen.smReadData : smReadData (φ s) = φ <$> smReadData s := by
  simp only [Machine.smReadData, State.toggleAlphaPhase, State.setAlphaPhase, h.rx, h.alphaSlot, h.setRx, bind_map_left,
    map_bind, map_pure, pure_bind, Except.map_ok, apply_ite (φ <$> ·)]

theorem Unseen.bitIn (v : Int) : bitIn (φ s) v = φ <$> bitIn s v := by
  have hshift : shiftBit (φ s) v = φ <$> shiftBit s v := by
    simp only [shiftBit, h.rx, h.setRx, map_bind, map_pure]
  simp only [Machine.bitIn, hshift, smSyncSetup, h.rx, h.setRx, h.smSync, h.smReadData, bind_map_left, map_bind, map_pure,
    Except.map_error, apply_ite (φ <$> ·)]

theorem Unseen.evtPrompt (x : F64) : evtPrompt (φ s) x = φ <$> evtPrompt s x := by
  simp only [Machine.evtPrompt, h.sync, h.promptSample, h.bitIn, bind_map_left, map_bind, map_pure, apply_ite (φ <$> ·)]

theorem Unseen.fsample (c : Config) (ym ys : Cplx) : fsample c (φ s) ym ys = φ <$> fsample c s ym ys := by
  simp only [Machine.fsample, nfloor, clip, atc, h.trk, h.sync, h.envUpd, h.noiseUpd, h.accum, h.evtEarly, h.evtLate,
    h.evtPrompt, h.realign, h.cntInc, bind_map_left, map_bind]

end

end Machine
end Sys2Proof
end

section
/-! SUPPORT. FSAMPLE (spec R130) and SAMPLE (R102) as sequences of operations that are each run alone: in a sequence, an
operation run alone does as its computation. -/

open Sys2Proof.Claims

namespace Sys2Proof
namespace Machine

open Config

variable {s0 s t u : State} {i : Instr} {K : State → Answer}

/-! ## Operations that see neither `ret` nor `FAULT` -/

/-- `s` with `ret` and `FAULT` given. -/
def marked (r : Ret) (e : Option FaultRec) (s : State) : State := { s with ret := r, fault := e }

theorem unseen_marked (r : Ret) (e : Option FaultRec) : Unseen (marked r e) := by
  constructor <;> intros <;> rfl

/-- A computation that sees neither `ret` nor `FAULT`. -/
def Blind {ε : Type} (f : State → Except ε State) : Prop := ∀ r e s, f (marked r e s) = marked r e <$> f s

theorem blind_of_unseen {ε : Type} {f : State → Except ε State} (h : ∀ φ, Unseen φ → ∀ s, f (φ s) = φ <$> f s) :
    Blind f :=
  fun r e s => h _ (unseen_marked r e) s

theorem blind_ncoAdv : Blind ncoAdv := fun r e s => by
  simp only [ncoAdv, map_bind, map_pure]
  rfl

theorem Blind.setRet {ε : Type} {f : State → Except ε State} (hf : Blind f) (r : Ret) (s : State) :
    f (s.setRet r) = marked r s.fault <$> f s := hf r s.fault s

/-- A state of the command that began in `s0`: no fault yet, and its `ret`. -/
structure Running (s0 s : State) : Prop where
  live : s.fault = none
  ret : s.ret = s0.ret

theorem Running.start (h : s.fault = none) : Running s s := ⟨h, rfl⟩

theorem Blind.running {ε : Type} {f : State → Except ε State} (hf : Blind f) (hs : Running s0 s) (h : f s = .ok t) :
    Running s0 t := by
  have hsame : f s = marked s.ret s.fault <$> f s := hf s.ret s.fault s
  rw [h, Except.map_ok, Except.ok.injEq] at hsame
  exact ⟨(congrArg State.fault hsame).trans hs.live, (congrArg State.ret hsame).trans hs.ret⟩

theorem Running.setRet_eq (h : Running s0 s) (r : Ret) : { s.setRet r with ret := s0.ret } = s := by
  rw [← h.ret]
  rfl

theorem Running.setFilter (h : Running s0 s) (br : Branch) (f : Filter) : Running s0 (s.setFilter br f) := by
  obtain ⟨-, -, -, -, -, -, hfault, -, hret, -⟩ := State.setFilter_frame s br f
  exact ⟨hfault.trans h.live, hret.trans h.ret⟩

/-! ## An operation run alone as a computation -/

/-- An operation run alone that computes `x` does as `x` in a computation, if what follows does. -/
theorem andThen_eq_thenRun {α β : Type} {x : Except FaultRec α} {g : α → State} {f : α → Except FaultRec β}
    {k : β → Answer} (hexec : exec i s = .next (s.finish (x.map g))) (hs : s.fault = none)
    (hg : ∀ a, x = .ok a → (g a).fault = none) (hk : ∀ a, x = .ok a → K (g a) = thenRun s0 (f a) k) :
    andThen s0 s i K = thenRun s0 (x >>= f) k := by
  unfold andThen
  rw [hexec]
  cases x with
  | error e => rw [finish_map_error hs rfl]; simp only [raise_fault]; rfl
  | ok a => rw [finish_map_ok hs rfl]; simp only [hg a rfl]; exact hk a rfl

/-- An operation that answers a value, on a state in which another has left its own. -/
theorem andThen_value {α β : Type} {x : Except FaultRec α} {g : α → Ret} {r : Ret} {f : α → Except FaultRec β}
    {k : β → Answer} (hu : Running s0 u)
    (hexec : exec i (u.setRet r) = .next ((u.setRet r).finish (x.map fun a => u.setRet (g a))))
    (hk : ∀ a, K (u.setRet (g a)) = thenRun s0 (f a) k) :
    andThen s0 (u.setRet r) i K = thenRun s0 (x >>= f) k :=
  andThen_eq_thenRun hexec hu.live (fun _ _ => hu.live) fun a _ => hk a

/-- An operation that computes the next state. -/
theorem andThen_state {β : Type} {F : State → Except FaultRec State} {r : Ret} {f : State → Except FaultRec β}
    {k : β → Answer} (hF : ∀ φ, Unseen φ → ∀ s, F (φ s) = φ <$> F s) (hu : Running s0 u)
    (hexec : exec i (u.setRet r) = .next ((u.setRet r).finish (F (u.setRet r))))
    (hk : ∀ t, Running s0 t → K (t.setRet r) = thenRun s0 (f t) k) :
    andThen s0 (u.setRet r) i K = thenRun s0 (F u >>= f) k := by
  have hblind := blind_of_unseen hF
  rw [hblind.setRet] at hexec
  refine andThen_eq_thenRun hexec hu.live (fun _ _ => hu.live) fun t ht => ?_
  have hrun := hblind.running hu ht
  rw [hu.live, ← hrun.live]
  exact hk t hrun

/-! ## FSAMPLE (R130) -/

/-- R130, R235 item 4: FSAMPLE is its operations, each run alone. -/
theorem fsampleThrough_eq (ym ys : Cplx) (k : State → Answer) (hs : Running s0 s) :
    fsampleThrough s0 ym ys k s = thenRun s0 (fsample machine s ym ys) k := by
  refine andThen_value (r := s.ret) hs rfl fun m => ?_
  refine andThen_value hs rfl fun sp => ?_
  refine andThen_state (F := (envUpd · m sp)) (fun _ h _ => h.envUpd m sp) hs rfl fun s3 h3 => ?_
  refine andThen_state (F := (noiseUpd · m sp)) (fun _ h _ => h.noiseUpd m sp) h3 rfl fun s4 h4 => ?_
  refine andThen_value h4 rfl fun nf => ?_
  refine andThen_value h4 rfl fun c => ?_
  refine andThen_value h4 rfl fun l => ?_
  refine andThen_value h4 rfl fun b => ?_
  refine andThen_state (F := (accum · b)) (fun _ h _ => h.accum b) h4 rfl fun s9 h9 => ?_
  let x := f64OfCount s9.sync.sampleCount
  refine andThen_state (F := (evtEarly · x)) (fun _ h _ => h.evtEarly x) h9 rfl fun s10 h10 => ?_
  refine andThen_state (F := (evtLate · x)) (fun _ h _ => h.evtLate x) h10 rfl fun s11 h11 => ?_
  refine andThen_state (F := (evtPrompt · x)) (fun _ h _ => h.evtPrompt x) h11 rfl fun s12 h12 => ?_
  refine andThen_state (F := (realign · x)) (fun _ h _ => h.realign x) h12 rfl fun s13 h13 => ?_
  rw [← bind_pure (cntInc s13)]
  refine andThen_state (F := cntInc) (fun _ h _ => h.cntInc) h13 rfl fun s14 h14 => ?_
  exact congrArg k (h14.setRet_eq _)

theorem fsample_running {ym ys : Cplx} (hs : Running s0 s) (h : fsample machine s ym ys = .ok t) : Running s0 t :=
  Blind.running (f := fun s => fsample machine s ym ys)
    (blind_of_unseen fun _ h _ => h.fsample machine ym ys) hs h

/-- R102: the pairs of a burst, in order. -/
theorem burstThrough_eq (l : List (Cplx × Cplx)) (hs : Running s0 s) :
    burstThrough s0 l s = thenRun s0 (l.foldlM (fun s p => fsample machine s p.1 p.2) s) .next := by
  induction l generalizing s with
  | nil => rfl
  | cons p l ih =>
    rw [List.foldlM_cons, burstThrough, fsampleThrough_eq _ _ _ hs]
    cases hp : fsample machine s p.1 p.2 with
    | error e => rfl
    | ok t => exact ih (fsample_running hs hp)

/-! ## SAMPLE (R102) -/

theorem andThen_ncoAdv {r : Ret} {k : State → Answer} (hu : Running s0 u)
    (hk : ∀ t, Running s0 t → t.lpfM = u.lpfM → t.lpfS = u.lpfS → K (t.setRet r) = k t) :
    andThen s0 (u.setRet r) .ncoAdv K = thenAdvance s0 u k := by
  have hlive : (u.setRet r).fault = none := hu.live
  have hnco := blind_ncoAdv.setRet r u
  unfold andThen thenAdvance
  cases h : ncoAdv u with
  | ok t =>
    obtain ⟨pm, ps, -, -, rfl⟩ := ncoAdv_ok h
    rw [h, Except.map_ok] at hnco
    rw [exec, execNcoAdv_ok hlive hnco]
    simp only [marked, hu.live]
    have hrun := blind_ncoAdv.running hu h
    rw [← hk _ hrun rfl rfl, State.setRet, hrun.live]
  | error e =>
    rw [h, Except.map_error] at hnco
    simp only [exec, execNcoAdv, hlive, hnco]
    cases e with
    | diverges => rfl
    | raised e => simp only [Option.isSome_none, Bool.false_eq_true, if_false, raise_fault]

theorem andThen_lpfPush {β : Type} {br : Branch} {z : Cplx} {r : Ret} {f : Filter × List Cplx → Except FaultRec β}
    {k : β → Answer} (hu : Running s0 u)
    (hk : ∀ g y, lpfPush machine (u.filter br) z = .ok (g, y) → Running s0 (u.setFilter br g) →
      K ((u.setFilter br g).setRet (.burst y)) = thenRun s0 (f (g, y)) k) :
    andThen s0 (u.setRet r) (.lpfPush br z) K = thenRun s0 (lpfPush machine (u.filter br) z >>= f) k := by
  have hexec : exec (.lpfPush br z) (u.setRet r) = .next ((u.setRet r).finish
      ((lpfPush machine (u.filter br) z).map fun q => (u.setFilter br q.1).setRet (.burst q.2))) := by
    cases br <;> rfl
  exact andThen_eq_thenRun hexec hu.live (fun q _ => (hu.setFilter br q.1).live) fun q hq =>
    hk q.1 q.2 hq (hu.setFilter br q.1)

/-- R109: two pushes on the same `FILL` answer bursts of one length. -/
theorem lpfPush_length {c : Config} {f f' g g' : Filter} {z z' : Cplx} {y y' : List Cplx} (hfill : f.fill = f'.fill)
    (h : lpfPush c f z = .ok (g, y)) (h' : lpfPush c f' z' = .ok (g', y')) : y.length = y'.length := by
  obtain ⟨-, -, h⟩ := lpfPush_ok h
  obtain ⟨-, -, h'⟩ := lpfPush_ok h'
  obtain ⟨hfull, -, hy⟩ | ⟨hmore, -, rfl⟩ := h <;> obtain ⟨hfull', -, hy'⟩ | ⟨hmore', -, rfl⟩ := h'
  · rw [hy, hy']
  · exact absurd (hfill ▸ hfull) hmore'
  · exact absurd (hfill ▸ hfull') hmore
  · rfl

/-- Settles O46: each operation run alone does as its computation in SAMPLE, and hands on the same state and values. -/
theorem sampleIsItsSequence : Obligations.SampleIsItsSequence := by
  unfold Obligations.SampleIsItsSequence
  intro x s hlive hconf hx hle hfill
  have hs := Running.start hlive
  rw [execSample_legal hlive hconf hx hle]
  symm
  refine andThen_value (r := s.ret) hs rfl fun z => ?_
  refine andThen_value hs rfl fun zm => ?_
  refine andThen_value hs rfl fun zs => ?_
  refine andThen_ncoAdv hs fun t ht hm hsp => ?_
  refine andThen_lpfPush ht fun fm ym hym ht' => ?_
  refine andThen_lpfPush ht' fun fs ys hys ht'' => ?_
  have hlen : ym.length = ys.length := lpfPush_length (by rw [State.filter_mark, hm, hfill, ← hsp]; rfl) hym hys
  have hloop : burstLoop machine ((t.setFilter .mark fm).setFilter .space fs) ym ys =
      (ym.zip ys).foldlM (fun s p => fsample machine s p.1 p.2) ((t.setFilter .mark fm).setFilter .space fs) :=
    if_neg (by omega)
  refine .trans ?_ ((burstThrough_eq _ ht'').trans (congrArg (thenRun s · .next) hloop.symm))
  exact congrArg (burstThrough s _) (ht''.setRet_eq _)

end Machine
end Sys2Proof
end

section
/-! SUPPORT. RESET (spec R100, R142, R251). -/

open Sys2Proof.Claims

namespace Sys2Proof
namespace Machine

open F64

variable {fs : BitVec 32} {s : State}

theorem execReset_legal (rv so : Bool) (hs : s.fault = none) (h : 1000 ≤ fs.toNat) :
    exec (.reset fs rv so 0#30) s = .next (resetState fs rv so s) := by
  rw [exec, execReset, resetCommand_legal rv so s h, finish_ok hs]

/-- The fields of a payload make it up (R82). -/
theorem resetPayload_of_payload (p : BitVec 64) :
    resetPayload (p.extractLsb' 0 32) (p.getLsbD 32) (p.getLsbD 33) (p.extractLsb' 34 30) = p := by
  rw [resetPayload_fields, BitVec.extractLsb'_eq_self]

/-- Settles O1: the two checks in their order, and the constructed state. -/
theorem resetConstructsOrRejects : Obligations.ResetConstructsOrRejects := by
  unfold Obligations.ResetConstructsOrRejects
  intro p s hs fs i b
  have hfault : ∀ {e : FaultRec}, e.precise = true →
      resetCommand fs (p.getLsbD 32) (p.getLsbD 33) (p.extractLsb' 34 30) s = .error e →
      exec i s = .next { s with fault := some e } := fun he hr => by
    rw [exec, execReset, hr, finish_error hs, raise_precise he]
    rfl
  refine ⟨fun hres => hfault rfl ?_, fun hres hrate => hfault rfl ?_, fun hres hrate => ?_⟩
  · rw [resetCommand, if_pos hres, resetPayload_of_payload]
  · rw [resetCommand, if_neg (by simpa using hres), if_pos hrate]
  · simp only [i, hres]
    exact execReset_legal _ _ hs hrate

theorem indexLegal_fifth {y : F64} (hy : y.isFinite = true) (hge : 10 ≤ y.toRat) (hle : y.toRat ≤ 2 ^ 27) :
    IndexLegal (F64.div y F64.five) := by
  obtain ⟨hone, honeval⟩ := ofInt_exact (n := 1) (by norm_num)
  obtain ⟨htop, htopval⟩ := ofInt_two_pow (n := 27) (by norm_num)
  push_cast at honeval
  obtain ⟨hfin, hlow, hhigh⟩ := div_between hy (y := F64.five) (by decide) (by decide) hone htop
    (by rw [honeval]; norm_num) (by rw [honeval, toRat_five]; linarith) (by rw [htopval, toRat_five]; linarith)
  exact ⟨hfin, sign_eq_false_of_key_pos (lt_of_lt_of_le (by decide) hlow), hhigh.trans (by decide)⟩

/-- R100: the first prompt and late indices of a legal rate. -/
theorem firstIndices_legal (h : 1000 ≤ fs.toNat) :
    IndexLegal (F64.div (samplesPerBit fs) F64.five) ∧
      IndexLegal (F64.div (F64.mul F64.two (samplesPerBit fs)) F64.five) := by
  obtain ⟨hb, hge, hle⟩ := samplesPerBit_between h
  obtain ⟨hten, htenval⟩ := ofInt_exact (n := 10) (by norm_num)
  obtain ⟨hmid, hmidval⟩ := ofInt_two_pow (n := 26) (by norm_num)
  obtain ⟨htop, htopval⟩ := ofInt_two_pow (n := 27) (by norm_num)
  push_cast at htenval
  rw [← toRat_le_toRat_iff, htenval] at hge
  rw [← toRat_le_toRat_iff, hmidval] at hle
  have hproduct : |F64.two.toRat * (samplesPerBit fs).toRat| ≤ |(F64.ofInt (2 ^ 27)).toRat| := by
    rw [toRat_two, htopval]
    exact abs_le_abs_of_nonneg (by linarith) (by linarith)
  have hfin := isFinite_mul_of_abs_le (by decide) hb htop hproduct
  have hnearest := nearestEven_mul (by decide) hb hfin
  refine ⟨indexLegal_fifth hb hge (by linarith), indexLegal_fifth hfin ?_ ?_⟩
  · rw [← htenval]
    exact le_toRat_of_nearestEven hnearest hten (by rw [htenval, toRat_two]; linarith)
  · rw [← htopval]
    exact toRat_le_of_nearestEven hnearest htop (by rw [htopval, toRat_two]; linarith)

/-- Settles O49: the registers of R100 are those of a block that has heard nothing. -/
theorem resetLeavesAQuietBlock : Obligations.ResetLeavesAQuietBlock := by
  unfold Obligations.ResetLeavesAQuietBlock
  intro fs rv so s hs h
  obtain ⟨hprompt, hlate⟩ := firstIndices_legal h
  have hearly : IndexLegal F64.zero := ⟨by decide, by decide, by decide⟩
  have hlegal := resetState_legal h rv so s
  exact ⟨_, execReset_legal rv so hs h,
    { live := hs
      configured := rfl
      config := hlegal.config
      phaseM := hlegal.phaseM
      phaseS := hlegal.phaseS
      fillM := hlegal.fillM
      twin := rfl
      histM := List.forall_mem_nil _
      histS := List.forall_mem_nil _
      trackers := rfl
      accumulators := ⟨rfl, rfl, rfl⟩
      averages := ⟨rfl, rfl, rfl⟩
      schedule := ⟨hearly, hprompt, hlate⟩
      markState := rfl
      buffer := rfl
      searching := .inl rfl }, rfl⟩

end Machine
end Sys2Proof
end

section
/-! SUPPORT. Finite results (spec R12, R13): a value nearer to the largest number than to the next power of two is not
rounded out of range, a finite result has finite operands, and what the sign, `trunc` and `sqrt` say of a number. -/

namespace Sys2Proof
namespace F64

/-! ## Sums that are not out of range -/

/-- The largest finite number. -/
def largest : F64 := pack false (2047 * 2 ^ 52 - 1)

/-- A value less than half the way from one pattern to the next is not rounded to that one. -/
theorem le_of_gridNearest_of_le_add {w d : ℝ} {p p₀ : ℕ} (h : GridNearest w p) (hle : w ≤ grid p₀ + d)
    (hd : grid p₀ + 2 * d < grid (p₀ + 1)) : p ≤ p₀ := by
  by_contra hgt
  have hgrid : (grid (p₀ + 1) : ℝ) ≤ grid p := by exact_mod_cast grid_strictMono.monotone (by omega : p₀ + 1 ≤ p)
  have hstep : (grid p₀ : ℝ) < grid (p₀ + 1) := by exact_mod_cast grid_strictMono (Nat.lt_succ_self p₀)
  have hdist := (h p₀).1
  rw [abs_of_nonneg (by linarith : 0 ≤ (grid p : ℝ) - w)] at hdist
  rcases abs_cases ((grid p₀ : ℝ) - w) with ⟨heq, -⟩ | ⟨heq, -⟩ <;> linarith

/-- The value 1 is less than half the way from the largest number to infinity's pattern. -/
theorem grid_largest_add_lt :
    grid (2047 * 2 ^ 52 - 1) + 2 * 2 ^ 1074 < grid (2047 * 2 ^ 52 - 1 + 1) := by
  have hgap : 2 ^ 1075 < 2 ^ 2045 := by gcongr <;> norm_num
  rw [show 2047 * 2 ^ 52 - 1 + 1 = 2046 * 2 ^ 52 + 2 ^ 52 by norm_num,
    show 2047 * 2 ^ 52 - 1 = 2045 * 2 ^ 52 + (2 ^ 53 - 1) by norm_num, grid_add (by norm_num) (.inr le_rfl),
    grid_add (by norm_num) (.inr (by norm_num)), pow_succ 2 2045, ← pow_succ']
  omega

/-- An exact magnitude of at most 1 above the largest number is rounded to a finite number. -/
theorem isFinite_roundPack_of_le_largest_add_one {neg : Bool} {m : ℕ} {e : ℤ}
    (hle : (m : ℚ) * 2 ^ e ≤ largest.toRat + 1) : (roundPack neg m e false).isFinite = true := by
  rcases eq_or_ne m 0 with rfl | hm
  · exact isFinite_signedZero neg
  have hone : (2 ^ 1074 : ℕ) * ulp = 1 := by
    rw [ulp, Nat.cast_pow, Nat.cast_ofNat, ← zpow_natCast, ← zpow_add₀ two_ne_zero]
    rfl
  have hunits : ((m : ℝ) + 0) * 2 ^ (e + 1074) ≤ grid (2047 * 2 ^ 52 - 1) + (2 ^ 1074 : ℕ) := by
    rw [largest, toRat_pack false (by norm_num), signed_false, ← hone, ← add_mul, ← Nat.cast_add] at hle
    have hreal := Rat.cast_le (K := ℝ).mpr hle
    rw [cast_mul_two_zpow, mul_zpow_eq_mul_ulp, Rat.cast_mul, Rat.cast_natCast, Nat.cast_add] at hreal
    rw [add_zero]
    exact le_of_mul_le_mul_right hreal cast_ulp_pos
  have hgap : (grid (2047 * 2 ^ 52 - 1) : ℝ) + 2 * (2 ^ 1074 : ℕ) < grid (2047 * 2 ^ 52 - 1 + 1) := by
    exact_mod_cast grid_largest_add_lt
  have hbits := le_of_gridNearest_of_le_add (gridNearest_roundBits hm (Tail.zero m)) hunits hgap
  rw [isFinite_roundPack_iff hm]
  omega

theorem toRat_le_largest {x : F64} (hx : x.isFinite = true) : |x.toRat| ≤ largest.toRat := by
  rw [← toRat_abs, toRat_le_toRat_iff, key, sign_abs, absBits_abs, largest, pack_key _ (by norm_num)]
  have := (isFinite_iff x).mp hx
  simp only [Bool.false_eq_true, if_false]
  omega

/-- R137: 1.0 + |L| is finite for every finite L. -/
theorem isFinite_one_add_abs {x : F64} (hx : x.isFinite = true) : (add one x.abs).isFinite = true := by
  rw [add_of_isFinite (by decide) (by rwa [isFinite_abs])]
  split
  · exact isFinite_signedZero _
  · refine isFinite_roundPack_of_le_largest_add_one ?_
    have hexact : ((addExact one x.abs).natAbs : ℚ) * 2 ^ min one.expo x.abs.expo = |1 + (|x.toRat|)| := by
      rw [← toRat_one, ← toRat_abs, toRat_add_toRat, abs_mul,
        abs_of_pos (by positivity : (0 : ℚ) < 2 ^ min one.expo x.abs.expo), Nat.cast_natAbs, Int.cast_abs]
    rw [hexact, abs_of_nonneg (by positivity)]
    linarith [toRat_le_largest hx]

/-! ## A finite result has finite operands -/

theorem not_isFinite_iff {x : F64} : x.isFinite = false ↔ x.isNaN = true ∨ x.isInf = true := by
  simp only [isFinite, isNaN, isInf, bne_eq_false_iff_eq, Bool.and_eq_true, beq_iff_eq, bne_iff_ne, ne_eq]
  tauto

theorem isFinite_infinity (neg : Bool) : (infinity neg).isFinite = false := by cases neg <;> decide

theorem isFinite_nan : nan.isFinite = false := by decide

theorem isFinite_of_isFinite_add {x y : F64} (h : (add x y).isFinite = true) :
    x.isFinite = true ∧ y.isFinite = true := by
  by_contra hxy
  rw [not_and_or, Bool.not_eq_true, Bool.not_eq_true] at hxy
  rw [← Bool.not_eq_false] at h
  refine h ?_
  unfold add
  split
  · exact isFinite_nan
  next hnan =>
    rw [Bool.or_eq_true, not_or] at hnan
    split
    next hx =>
      split
      · exact isFinite_nan
      · exact not_isFinite_iff.mpr (.inr hx)
    next hx =>
      have hy : y.isInf = true := by simpa [not_isFinite_iff, hnan, hx] using hxy
      rw [if_pos hy]
      exact not_isFinite_iff.mpr (.inr hy)

theorem isFinite_of_isFinite_mul {x y : F64} (h : (mul x y).isFinite = true) :
    x.isFinite = true ∧ y.isFinite = true := by
  by_contra hxy
  rw [not_and_or, Bool.not_eq_true, Bool.not_eq_true] at hxy
  rw [← Bool.not_eq_false] at h
  refine h ?_
  unfold mul
  dsimp only
  split
  · exact isFinite_nan
  next hnan =>
    rw [Bool.or_eq_true, not_or] at hnan
    have hinf : (x.isInf || y.isInf) = true := by simpa [not_isFinite_iff, hnan] using hxy
    rw [if_pos hinf]
    split
    · exact isFinite_nan
    · exact isFinite_infinity _

/-- A difference of equal numbers is +0.0. -/
theorem sub_same {x : F64} (hx : x.isFinite = true) : sub x x = zero := by
  have hexact : addExact x x.neg = 0 := by
    have hsum := toRat_add_toRat x x.neg
    rw [toRat_neg, add_neg_cancel, eq_comm, mul_eq_zero] at hsum
    exact_mod_cast hsum.resolve_right (by positivity)
  rw [sub, add_of_isFinite hx (by rwa [isFinite_neg]), if_pos hexact, sign_neg, Bool.and_not_self]
  rfl

theorem isFinite_of_isFinite_sub {x y : F64} (h : (sub x y).isFinite = true) :
    x.isFinite = true ∧ y.isFinite = true := by
  have := isFinite_of_isFinite_add h
  rwa [isFinite_neg] at this

/-! ## Signs, magnitudes, `trunc` and `sqrt` (R13) -/

theorem fmin_self (pick : F64 → F64 → Bool) (x : F64) : fmin pick x x = x := by
  simp only [fmin, ite_self]

theorem fmax_self (pick : F64 → F64 → Bool) (x : F64) : fmax pick x x = x := by
  simp only [fmax, ite_self]

/-- R13: the smaller of two finite numbers is one of them, and so is the larger. -/
theorem isFinite_fmin {pick : F64 → F64 → Bool} {x y : F64} (hx : x.isFinite = true) (hy : y.isFinite = true) :
    (fmin pick x y).isFinite = true := by
  unfold fmin
  split_ifs <;> assumption

theorem isFinite_fmax {pick : F64 → F64 → Bool} {x y : F64} (hx : x.isFinite = true) (hy : y.isFinite = true) :
    (fmax pick x y).isFinite = true := by
  unfold fmax
  split_ifs <;> assumption

theorem eq_of_sign_absBits {x y : F64} (hsign : x.sign = y.sign) (habs : x.absBits = y.absBits) : x = y := by
  obtain ⟨b⟩ := x
  obtain ⟨c⟩ := y
  simp only [sign, absBits, BitVec.msb_eq_decide, BitVec.extractLsb'_toNat, Nat.shiftRight_zero, decide_eq_decide]
    at hsign habs
  have hb := b.isLt
  have hc := c.isLt
  exact congrArg F64.mk (BitVec.eq_of_toNat_eq (by omega))

/-- A sum of numbers whose sign is + has that sign. -/
theorem sign_add_eq_false {x y : F64} (hx : x.isFinite = true) (hy : y.isFinite = true) (hxs : x.sign = false)
    (hys : y.sign = false) : (add x y).sign = false := by
  have hexact : 0 ≤ addExact x y := by
    simp only [addExact, sval, hxs, hys, Bool.false_eq_true, if_false]
    positivity
  rw [add_of_isFinite hx hy]
  split
  · rw [hxs, Bool.false_and, signedZero, pack_sign _ (by norm_num)]
  · rw [roundPack_sign, decide_eq_false (not_lt.mpr hexact)]

theorem abs_of_sign_eq_false {x : F64} (h : x.sign = false) : x.abs = x :=
  eq_of_sign_absBits (by rw [sign_abs, h]) (absBits_abs x)

theorem neg_of_sign_eq_true {x : F64} (h : x.sign = true) : x.neg = x.abs :=
  eq_of_sign_absBits (by rw [sign_abs, sign_neg, h]; rfl) (by rw [absBits_abs, absBits_neg])

theorem sign_eq_true_of_key_neg {x : F64} (h : x.key < 0) : x.sign = true := by
  by_contra hpos
  exact absurd (key_nonneg_of_sign (by simpa using hpos)) (not_le.mpr h)

theorem natAbs_trunc (x : F64) :
    x.trunc.natAbs = if 0 ≤ x.expo then x.mag * 2 ^ x.expo.toNat else x.mag / 2 ^ (-x.expo).toNat := by
  cases hs : x.sign <;> simp only [trunc, hs, Bool.false_eq_true, if_false, if_true, Int.natAbs_neg, Int.natAbs_natCast]

/-- `trunc` does not raise the magnitude. -/
theorem natAbs_trunc_le (x : F64) : (x.trunc.natAbs : ℚ) ≤ |x.toRat| := by
  rw [natAbs_trunc, abs_toRat]
  split
  next hpos =>
    rw [← Int.toNat_of_nonneg hpos, zpow_natCast, Int.toNat_natCast]
    push_cast
    exact le_rfl
  next hneg =>
    have hexp : x.expo = -((-x.expo).toNat : ℤ) := by omega
    rw [hexp, zpow_neg, zpow_natCast, ← div_eq_mul_inv, ← hexp]
    exact_mod_cast Nat.cast_div_le (α := ℚ) (m := x.mag) (n := 2 ^ (-x.expo).toNat)

/-- A square root that is finite is not negative. -/
theorem sqrt_key_nonneg {x : F64} (h : (sqrt x).isFinite = true) : 0 ≤ (sqrt x).key := by
  unfold sqrt at h ⊢
  split_ifs at h ⊢ with hnan hzero hsign hinf
  · exact absurd h (by decide)
  · simp [key, hzero]
  · exact absurd h (by decide)
  · exact key_nonneg_of_sign (by simpa using hsign)
  · exact key_nonneg_of_sign (roundPack_sign ..)

end F64
end Sys2Proof
end

section
/-! SUPPORT. Magnitude, trackers, discriminator, soft bit, accumulators and time base, each run alone (spec R131 to R139). -/

open Sys2Proof.Claims

namespace Sys2Proof
namespace Machine

open F64 Config

variable {s : State} {k : StepId}

/-! ## Checked values (R234) -/

theorem chk_bind {α : Type} (x : F64) (f : F64 → Except FaultRec α) :
    chk k x >>= f = if x.isFinite then f x else .error (.numeric k) := by
  cases hx : x.isFinite with
  | false => rw [chk_not_finite hx]; rfl
  | true => rw [chk_finite hx]; rfl

/-- An operation whose whole result is one checked value. -/
theorem next_finish_chk (hs : s.fault = none) (x : F64) (g : F64 → State) :
    (x.isFinite = true → (.next (s.finish ((chk k x).map g)) : Answer) = .next (g x)) ∧
      (x.isFinite = false → (.next (s.finish ((chk k x).map g)) : Answer) = .next (s.raise (.numeric k))) :=
  ⟨fun hx => congrArg _ (finish_map_ok hs (chk_finite hx) g),
    fun hx => congrArg _ (finish_map_error hs (chk_not_finite hx) g)⟩

/-- An operation that checks several values and then answers one state. -/
theorem next_finish_ite (hs : s.fault = none) {r : Except FaultRec State} {ok : Bool} {t : State} {e : FaultRec}
    (hr : r = if ok then .ok t else .error e) :
    (ok = true → (.next (s.finish r) : Answer) = .next t) ∧
      (ok = false → (.next (s.finish r) : Answer) = .next (s.raise e)) := by
  subst hr
  exact ⟨fun h => by rw [h, if_pos rfl, finish_ok hs], fun h => by rw [h, if_neg Bool.false_ne_true, finish_error hs]⟩

/-! ## MAG (R131) -/

/-- The magnitude of a pair of zeros is +0.0. -/
theorem magnitude_zeroPair {y : Cplx} (hre : y.re.absBits = 0) (him : y.im.absBits = 0) :
    sqrt (add (mul y.re y.re) (mul y.im y.im)) = F64.zero := by
  have hsquare : ∀ {x : F64}, x.absBits = 0 → mul x x = F64.zero := by
    intro x hx
    obtain rfl | rfl := eq_zero_or_neg_zero hx <;> decide
  rw [hsquare hre, hsquare him]
  decide

/-- Settles O19: the checked square root, whose sign is known. -/
theorem magResult : Obligations.MagResult := by
  unfold Obligations.MagResult
  intro y s hs v
  obtain ⟨hfinite, hfault⟩ := next_finish_chk (k := .mag) hs v fun v => s.setRet (.real v)
  refine ⟨fun hv => ⟨hfinite hv, sqrt_key_nonneg hv⟩, hfault, fun hre him => ?_⟩
  have hzero : v = F64.zero := magnitude_zeroPair hre him
  rw [hzero] at hfinite
  rw [exec, execMag, mag, magnitude_zeroPair hre him]
  exact hfinite (by decide)

/-! ## ENV_UPD and NOISE_UPD (R132, R133) -/

theorem envUpd_eq (s : State) (m sp : F64) :
    envUpd s m sp =
      if (div s.cfg.b four).isFinite && (mul s.cfg.b sixteen).isFinite &&
          (decayed s.trk.envM m (div s.cfg.b four) (mul s.cfg.b sixteen)).isFinite &&
          (decayed s.trk.envS sp (div s.cfg.b four) (mul s.cfg.b sixteen)).isFinite then
        .ok (s.setTrk { s.trk with
          envM := decayed s.trk.envM m (div s.cfg.b four) (mul s.cfg.b sixteen)
          envS := decayed s.trk.envS sp (div s.cfg.b four) (mul s.cfg.b sixteen) })
      else .error (.numeric .envUpd) := by
  simp only [envUpd, decay, chk_bind, Bool.and_eq_true, ite_and]
  rfl

theorem noiseUpd_eq (s : State) (m sp : F64) :
    noiseUpd s m sp =
      if (div s.cfg.b four).isFinite && (mul s.cfg.b fortyEight).isFinite &&
          (decayed s.trk.noiseM m (mul s.cfg.b fortyEight) (div s.cfg.b four)).isFinite &&
          (decayed s.trk.noiseS sp (mul s.cfg.b fortyEight) (div s.cfg.b four)).isFinite then
        .ok (s.setTrk { s.trk with
          noiseM := decayed s.trk.noiseM m (mul s.cfg.b fortyEight) (div s.cfg.b four)
          noiseS := decayed s.trk.noiseS sp (mul s.cfg.b fortyEight) (div s.cfg.b four) })
      else .error (.numeric .noiseUpd) := by
  rw [Bool.and_comm (div s.cfg.b four).isFinite]
  simp only [noiseUpd, decay, chk_bind, Bool.and_eq_true, ite_and]
  rfl

/-- Settles O20: both checked divisors, then both checked results. -/
theorem trackerUpdates : Obligations.TrackerUpdates := by
  unfold Obligations.TrackerUpdates
  intro m sp s hs quarter slowEnv slowNoise em es nm ns envOk noiseOk
  obtain ⟨henv, henvFault⟩ := next_finish_ite hs (envUpd_eq s m sp)
  obtain ⟨hnoise, hnoiseFault⟩ := next_finish_ite hs (noiseUpd_eq s m sp)
  exact ⟨henv, henvFault, hnoise, hnoiseFault⟩

/-! ## NFLOOR and CLIP (R134, R135) -/

/-- Settles O21: one checked value. -/
theorem nfloorResult : Obligations.NfloorResult := by
  unfold Obligations.NfloorResult
  intro s hs nf
  exact next_finish_chk hs nf _

/-- R135, one branch. -/
theorem clipOne_ok (c : Config) {v env nf : F64} (hv : v.isFinite = true) (henv : env.isFinite = true)
    (hnf : nf.isFinite = true) :
    ∃ x, clipOne c v env nf = .ok x ∧ x.isFinite = true ∧ x.key = max (min v.key env.key) nf.key := by
  have hmin := isFinite_fmin (pick := c.zeroPick) hv henv
  have hmax := isFinite_fmax (pick := c.zeroPick) hmin hnf
  refine ⟨fmax c.zeroPick (fmin c.zeroPick v env) nf, ?_, hmax, ?_⟩
  · simp only [clipOne, chk_bind, hv, hnf, if_true, chk_finite hmax]
  · rw [fmax_key _ (isNaN_of_isFinite hmin) (isNaN_of_isFinite hnf),
      fmin_key _ (isNaN_of_isFinite hv) (isNaN_of_isFinite henv)]

/-- Settles O22: the order of `max` and `min`. -/
theorem clipResult : Obligations.ClipResult := by
  unfold Obligations.ClipResult
  intro m sp nf s hs hm hsp hnf hem hes
  obtain ⟨mc, hmc, hmcfin, hmckey⟩ := clipOne_ok machine hm hem hnf
  obtain ⟨sc, hsc, hscfin, hsckey⟩ := clipOne_ok machine hsp hes hnf
  have hclip : clip machine s m sp nf = .ok (mc, sc) := by
    simp only [clip, hmc, hsc]
    rfl
  have nmc := isNaN_of_isFinite hmcfin
  have nnf := isNaN_of_isFinite hnf
  have nem := isNaN_of_isFinite hem
  refine ⟨mc, sc, congrArg _ (finish_map_ok hs hclip _), hmcfin, hscfin, hmckey, hsckey, ?_, ?_, ?_⟩
  · rw [le_iff nnf nmc]
    omega
  · rw [le_iff nnf nem, le_iff nmc nem]
    omega
  · rw [lt_iff nem nnf, feq, nmc, nnf]
    simp only [Bool.not_false, Bool.true_and, decide_eq_true_eq]
    omega

/-! ## ATC (R136) -/

/-- Two equal branches cancel in both differences. -/
theorem atcValue_equal_branches {mc nf e : F64} (h : (atcValue mc mc nf e e).isFinite = true) :
    atcValue mc mc nf e e = F64.zero := by
  obtain ⟨hdiff, hcorr⟩ := isFinite_of_isFinite_sub h
  obtain ⟨-, hsquares⟩ := isFinite_of_isFinite_mul hcorr
  obtain ⟨hprod, -⟩ := isFinite_of_isFinite_sub hdiff
  obtain ⟨hsquare, -⟩ := isFinite_of_isFinite_sub hsquares
  rw [atcValue, sub_same hprod, sub_same hsquare]
  decide

/-- Settles O23: one checked value; where it is finite, so are the differences that cancel. -/
theorem atcResult : Obligations.AtcResult := by
  unfold Obligations.AtcResult
  intro mc sc nf s hs mn en sn es l
  obtain ⟨hfinite, hfault⟩ := next_finish_chk (k := .atc) hs l fun l => s.setRet (.real l)
  refine ⟨hfinite, hfault, fun hl heq henv => ?_⟩
  have hval : l = atcValue mc mc nf s.trk.envM s.trk.envM := by
    rw [show l = atcValue mc sc nf s.trk.envM s.trk.envS from rfl, heq, henv]
  rw [hval] at hl ⊢
  rw [atcValue_equal_branches hl]
  decide

/-! ## SOFTBIT (R137) -/

theorem toRat_logMax_lt : logMax.toRat < 710 := by
  rw [toRat_of_fields (x := logMax) (m := 0x162E42FEFA39EF) (e := -43) (by decide) (by decide)]
  norm_num

/-- R137: a finite logarithm truncates to at most 709. -/
theorem natAbs_trunc_log_le {x : F64} (h : (machine.logFn x).isFinite = true) :
    (machine.logFn x).trunc.natAbs ≤ 709 := by
  obtain ⟨hlow, hhigh⟩ := machine_log_spec h
  have hle := natAbs_trunc_le (machine.logFn x)
  rw [abs_of_nonneg (toRat_nonneg_iff.mpr hlow)] at hle
  have hlt : ((machine.logFn x).trunc.natAbs : ℚ) < (710 : ℕ) :=
    hle.trans_lt ((toRat_le_toRat_iff.mpr hhigh).trans_lt (by exact_mod_cast toRat_logMax_lt))
  exact Nat.lt_succ_iff.mp (by exact_mod_cast hlt)

theorem logTrunc_eq (c : Config) {l : F64} (hl : l.isFinite = true) :
    logTrunc c l.abs = if (c.logFn (add one l.abs)).isFinite then .ok (c.logFn (add one l.abs)).trunc
      else .error (.numeric .softbit) := by
  simp only [logTrunc, chk_bind, isFinite_one_add_abs hl, if_true]
  rfl

/-- R137: the soft bit of a finite likelihood. -/
theorem softbit_eq (c : Config) {l : F64} (hl : l.isFinite = true) :
    softbit c l =
      if l.key = 0 then .ok 0
      else if (c.logFn (add one l.abs)).isFinite then
        .ok (if l.key < 0 then -(c.logFn (add one l.abs)).trunc else (c.logFn (add one l.abs)).trunc)
      else .error (.numeric .softbit) := by
  have hn := isNaN_of_isFinite hl
  have hzero : F64.zero.isNaN = false := by decide
  have hkey : F64.zero.key = 0 := by decide
  have hlog := logTrunc_eq c hl
  simp only [softbit, hl, lt_iff hzero hn, lt_iff hn hzero, hkey, Bool.not_true, Bool.false_eq_true, if_false]
  rcases lt_trichotomy l.key 0 with hneg | heq | hpos
  · rw [if_neg hneg.not_gt, if_pos hneg, neg_of_sign_eq_true (sign_eq_true_of_key_neg hneg), hlog, if_neg hneg.ne,
      if_pos hneg]
    split <;> rfl
  · simp only [heq, lt_self_iff_false, if_false, if_true]
  · rw [if_pos hpos, if_neg hpos.ne', if_neg hpos.not_gt, ← hlog,
      abs_of_sign_eq_false (sign_eq_false_of_key_pos hpos)]

/-- Settles O24: 1.0 + |L| is finite, and a finite logarithm is at most that of the largest number. -/
theorem softbitResult : Obligations.SoftbitResult := by
  unfold Obligations.SoftbitResult
  intro l s hs hl lg b
  have hsoft := softbit_eq machine hl
  refine ⟨fun hzero => ?_, fun hne => ⟨?_, fun hlg => ?_⟩⟩
  · rw [if_pos hzero] at hsoft
    exact congrArg _ (finish_map_ok hs hsoft _)
  · rw [if_neg hne] at hsoft
    split
    next hlg => exact congrArg _ (finish_map_ok hs (hsoft.trans (if_pos hlg)) _)
    next hlg => exact congrArg _ (finish_map_error hs (hsoft.trans (if_neg hlg)) _)
  · have hle := natAbs_trunc_log_le hlg
    dsimp only [b]
    split
    · rwa [Int.natAbs_neg]
    · exact hle

/-! ## ACCUM and CNT_INC (R138, R139) -/

theorem toI64_bind {α : Type} (n : Int) (f : I64 → Except FaultRec α) :
    toI64 k n >>= f = if fitsI64 n then f (BitVec.ofInt 64 n) else .error (.intRange k) := by
  unfold toI64
  split <;> rfl

theorem accum_eq (s : State) (b : Int) :
    accum s b =
      if fitsI64 (s.sync.accE.toInt + b) && fitsI64 (s.sync.accP.toInt + b) && fitsI64 (s.sync.accL.toInt + b) then
        .ok (s.setSync { s.sync with
          accE := BitVec.ofInt 64 (s.sync.accE.toInt + b)
          accP := BitVec.ofInt 64 (s.sync.accP.toInt + b)
          accL := BitVec.ofInt 64 (s.sync.accL.toInt + b) })
      else .error (.intRange .accum) := by
  simp only [accum, toI64_bind, Bool.and_eq_true, ite_and]
  rfl

/-- Settles O25: three sums, each checked. -/
theorem accumResult : Obligations.AccumResult := by
  unfold Obligations.AccumResult
  intro b s hs e p l fits
  obtain ⟨hok, hfault⟩ := next_finish_ite hs (accum_eq s b)
  have hfits : (fitsI64 e && fitsI64 p && fitsI64 l) = true ↔ fits e ∧ fits p ∧ fits l := by
    simp only [Bool.and_eq_true, fitsI64_iff, and_assoc, fits]
  refine ⟨fun h => ⟨_, hok (hfits.mpr h), ?_⟩, fun h => hfault (by rwa [← Bool.not_eq_true, hfits])⟩
  rw [← hfits, Bool.and_eq_true, Bool.and_eq_true] at h
  obtain ⟨⟨he, hp⟩, hl⟩ := h
  exact ⟨toInt_ofInt_fits he, toInt_ofInt_fits hp, toInt_ofInt_fits hl, rfl⟩

/-- R139: the count goes up by one, where no check refuses it. -/
theorem cntInc_next (hlimit : s.sync.sampleCount.toNat + 1 ≠ 2 ^ 53) (hfits : s.sync.sampleCount.toNat + 1 < 2 ^ 64) :
    ∃ n : BitVec 64, n.toNat = s.sync.sampleCount.toNat + 1 ∧
      cntInc s = .ok (s.setSync { s.sync with sampleCount := n }) := by
  have hwrite : toUnsigned .cntInc 64 ((s.sync.sampleCount.toNat : Int) + 1) =
      .ok (BitVec.ofInt 64 ((s.sync.sampleCount.toNat : Int) + 1)) :=
    toUnsigned_eq_ok_iff.mpr ⟨⟨by omega, by exact_mod_cast hfits⟩, rfl⟩
  refine ⟨_, by exact_mod_cast toUnsigned_toNat hwrite, ?_⟩
  rw [cntInc, if_neg hlimit, hwrite]
  rfl

/-- Settles O26: the two limits, and the count between and above them. -/
theorem cntIncResult : Obligations.CntIncResult := by
  unfold Obligations.CntIncResult
  intro s hs n
  refine ⟨fun h => ?_, fun hlimit hfits => ?_, fun h => ?_⟩
  · rw [exec, execCntInc, cntInc, if_pos h, finish_error hs]
  · obtain ⟨c, hc, hcnt⟩ := cntInc_next hlimit hfits
    exact ⟨_, by rw [exec, execCntInc, hcnt, finish_ok hs], hc, rfl⟩
  · have hwrite : toUnsigned .cntInc 64 ((n : Int) + 1) = .error (.intRange .cntInc) := if_neg (by omega)
    rw [exec, execCntInc, cntInc, if_neg (by omega), hwrite]
    exact congrArg _ (finish_error hs)

end Machine
end Sys2Proof
end

section
/-! SUPPORT. FSAMPLE (spec R130). -/

namespace Sys2Proof
namespace Machine

/-- Settles O47: each operation run alone does as its computation in FSAMPLE. -/
theorem fsampleIsItsSequence : Obligations.FsampleIsItsSequence := by
  unfold Obligations.FsampleIsItsSequence
  intro ym ys s0 s k hs hret
  rw [fsampleThrough_eq ym ys k ⟨hs, hret⟩]
  cases fsample Config.machine s ym ys <;> rfl

end Machine
end Sys2Proof
end

section
/-! SUPPORT. Moderate and positive numbers, and schedule indices (spec R23, R132, R133, R155). -/

open Sys2Proof.Claims

namespace Sys2Proof
namespace Machine

open F64

/-- A number from 1 to 2^26, as `B` and the constants of its divisors are. -/
structure Moderate (x : F64) : Prop where
  finite : x.isFinite = true
  ge : 1 ≤ x.toRat
  le : x.toRat ≤ 2 ^ 26

/-- A finite number above 0. -/
structure Positive (x : F64) : Prop where
  finite : x.isFinite = true
  pos : 0 < x.key

theorem Positive.absBits_ne_zero {x : F64} (h : Positive x) : x.absBits ≠ 0 := by
  intro h0
  have hpos := h.pos
  simp [key, h0] at hpos

theorem moderate_samplesPerBit {fs : BitVec 32} (h : 1000 ≤ fs.toNat) : Moderate (samplesPerBit fs) := by
  obtain ⟨hfin, hge, hle⟩ := samplesPerBit_between h
  obtain ⟨-, hten⟩ := ofInt_exact (n := 10) (by norm_num)
  obtain ⟨-, htop⟩ := ofInt_two_pow (n := 26) (by norm_num)
  rw [← toRat_le_toRat_iff] at hge hle
  rw [hten] at hge
  rw [htop] at hle
  push_cast at hge
  exact ⟨hfin, by linarith, hle⟩

theorem moderate_ofInt {n : ℤ} (hge : 1 ≤ n) (hle : n ≤ 2 ^ 26) : Moderate (ofInt n) := by
  obtain ⟨hfin, hval⟩ := ofInt_exact (n := n) (by omega)
  refine ⟨hfin, ?_, ?_⟩ <;> rw [hval] <;> exact_mod_cast ‹_›

theorem moderate_eight : Moderate eight := moderate_ofInt (n := 8) (by norm_num) (by norm_num)

theorem moderate_sixteen : Moderate sixteen := moderate_ofInt (n := 16) (by norm_num) (by norm_num)

theorem moderate_fortyEight : Moderate fortyEight := moderate_ofInt (n := 48) (by norm_num) (by norm_num)

theorem Moderate.mul {x y : F64} (hx : Moderate x) (hy : Moderate y) : Positive (mul x y) := by
  obtain ⟨hone, honeval⟩ := ofInt_exact (n := 1) (by norm_num)
  obtain ⟨htop, htopval⟩ := ofInt_two_pow (n := 52) (by norm_num)
  push_cast at honeval
  have hge : 1 ≤ x.toRat * y.toRat := one_le_mul_of_one_le_of_one_le hx.ge hy.ge
  have hle : x.toRat * y.toRat ≤ 2 ^ 52 :=
    calc x.toRat * y.toRat ≤ 2 ^ 26 * 2 ^ 26 := mul_le_mul hx.le hy.le (by linarith [hy.ge]) (by norm_num)
      _ = 2 ^ 52 := by norm_num
  have hfin : (F64.mul x y).isFinite = true := by
    refine isFinite_mul_of_abs_le hx.finite hy.finite htop ?_
    rw [htopval]
    exact abs_le_abs_of_nonneg (by linarith) hle
  obtain ⟨hlow, -⟩ := key_between_of_nearestEven (nearestEven_mul hx.finite hy.finite hfin) hone htop
    (by rwa [honeval]) (by rwa [htopval])
  exact ⟨hfin, lt_of_lt_of_le (by decide) hlow⟩

theorem Moderate.quarter {x : F64} (h : Moderate x) : Positive (div x four) := by
  have hfour : four.toRat = 4 := by exact_mod_cast (ofInt_exact (n := 4) (by norm_num)).2
  obtain ⟨htop, htopval⟩ := ofInt_two_pow (n := 26) (by norm_num)
  have hge := h.ge
  have hle := h.le
  obtain ⟨hfin, hlow, -⟩ := div_between h.finite (y := four) (lo := leastStep) (by decide) (by decide) (by decide) htop
    (by rw [toRat_leastStep]; positivity) (by rw [toRat_leastStep, hfour]; norm_num; linarith)
    (by rw [htopval, hfour]; linarith)
  exact ⟨hfin, lt_of_lt_of_le (by decide) hlow⟩

/-- +0.0 divided by a positive number. -/
theorem zero_div_positive {d : F64} (h : Positive d) : div F64.zero d = F64.zero := by
  rw [div_of_isFinite (by decide) h.finite h.absBits_ne_zero, sign_eq_false_of_key_pos h.pos,
    show F64.zero.mag = 0 by decide, Nat.zero_mul, Nat.zero_div, roundPack_zero]
  rfl

theorem IndexLegal.nonneg {x : F64} (h : IndexLegal x) : 0 ≤ x.toRat :=
  toRat_nonneg_iff.mpr (key_nonneg_of_sign h.2.1)

/-- A time that a count below 2^53 gives (R36, R233). -/
structure TimeLegal (t : F64) : Prop where
  finite : t.isFinite = true
  le : t.toRat ≤ 2 ^ 53

theorem timeLegal_count {n : BitVec 64} (h : n.toNat ≤ 2 ^ 53) : TimeLegal (f64OfCount n) := by
  obtain ⟨hfin, hval⟩ := ofInt_exact (n := n.toNat) (by rwa [Int.natAbs_natCast])
  refine ⟨hfin, ?_⟩
  rw [f64OfCount, hval]
  exact_mod_cast h

/-- R151 to R153: the next index of an event that is due. -/
theorem IndexLegal.next {x t b : F64} (hx : IndexLegal x) (ht : TimeLegal t) (hdue : le x t = true) (hb : Moderate b) :
    IndexLegal (add x b) := by
  have hx0 := hx.nonneg
  obtain ⟨hfin, hsign, -⟩ := hx
  have hbsign : b.sign = false := by
    refine sign_eq_false_of_key_pos (not_le.mp fun hle => ?_)
    linarith [hb.ge, toRat_nonpos_iff.mpr hle]
  rw [le_iff (isNaN_of_isFinite hfin) (isNaN_of_isFinite ht.finite), ← toRat_le_toRat_iff] at hdue
  have htop : (ofInt (2 ^ 55)).toRat = 2 ^ 55 := by
    rw [toRat_of_fields (x := ofInt (2 ^ 55)) (m := 2 ^ 52) (e := 3) (by decide) (by decide)]
    norm_num
  have hsum := add_within (z := ofInt (2 ^ 55)) ⟨hfin, (abs_of_nonneg hx0).trans_le (hdue.trans ht.le)⟩
    ⟨hb.finite, (abs_of_nonneg (by linarith [hb.ge])).trans_le hb.le⟩ (by decide) (by rw [htop]; norm_num)
  exact ⟨hsum.finite, sign_add_eq_false hfin hb.finite hsign hbsign,
    toRat_le_toRat_iff.mp ((le_abs_self _).trans hsum.le)⟩

/-- R155: a slope of +0.0 moves no index. -/
theorem IndexLegal.add_zero_slope {x : F64} (h : IndexLegal x) : IndexLegal (add x F64.zero) := by
  obtain ⟨hfin, hsign, hle⟩ := h
  have hzero : F64.zero.isFinite = true := by decide
  have hval : x.toRat = x.toRat + F64.zero.toRat := by rw [toRat_zero, add_zero]
  obtain ⟨hsum, hsumval⟩ := add_exact hfin hzero hfin hval
  exact ⟨hsum, sign_add_eq_false hfin hzero hsign rfl, (key_eq_of_toRat_eq (hsumval.trans hval.symm)).trans_le hle⟩

end Machine
end Sys2Proof
end

section
/-! SUPPORT. Silence (spec R142): every operation of FSAMPLE keeps a quiet block quiet and emits nothing. -/

open Sys2Proof.Claims

namespace Sys2Proof
namespace Machine

open F64 Config

variable {s t : State} {k : StepId}

/-! ## What a quiet block keeps -/

/-- `t` is a quiet block that `s` has become without a record, its count `n` higher. -/
structure Silent (n : ℕ) (s t : State) : Prop where
  quiet : Quiet t
  out : t.out = s.out
  count : t.sync.sampleCount.toNat = s.sync.sampleCount.toNat + n

/-- A computation on `s` that completes in silence. -/
def EndsSilent (n : ℕ) (s : State) (x : Except FaultRec State) : Prop := ∃ t, x = .ok t ∧ Silent n s t

theorem EndsSilent.refl (h : Quiet s) : EndsSilent 0 s (.ok s) := ⟨s, rfl, h, rfl, rfl⟩

/-- A step that has completed in silence, and what follows it. -/
theorem Silent.endsSilent {m n : ℕ} {x : Except FaultRec State} (h : Silent m s t) (hx : EndsSilent n t x) :
    EndsSilent (m + n) s x := by
  obtain ⟨u, hu, hquiet, hout, hcount⟩ := hx
  exact ⟨u, hu, hquiet, hout.trans h.out, by rw [hcount, h.count, Nat.add_assoc]⟩

theorem EndsSilent.bind {n : ℕ} {x : Except FaultRec State} {f : State → Except FaultRec State}
    (hx : EndsSilent 0 s x) (hf : ∀ t, Silent 0 s t → EndsSilent n t (f t)) : EndsSilent n s (x >>= f) := by
  obtain ⟨t, rfl, ht⟩ := hx
  rw [← Nat.zero_add n]
  exact ht.endsSilent (hf t ht)

theorem ok_bind {ε α β : Type} (a : α) (f : α → Except ε β) : (.ok a : Except ε α) >>= f = f a := rfl

/-- The synchroniser of a quiet block. -/
structure QuietSync (r : SyncRegs) : Prop where
  accumulators : r.accE = 0#64 ∧ r.accP = 0#64 ∧ r.accL = 0#64
  averages : r.avgE = F64.zero ∧ r.avgP = F64.zero ∧ r.avgL = F64.zero
  schedule : IndexLegal r.nextE ∧ IndexLegal r.nextP ∧ IndexLegal r.nextL
  markState : r.markState = 0#64

theorem Quiet.quietSync (h : Quiet s) : QuietSync s.sync := ⟨h.accumulators, h.averages, h.schedule, h.markState⟩

theorem Quiet.setSync {r : SyncRegs} (h : Quiet s) (hr : QuietSync r) : Quiet (s.setSync r) :=
  { h with accumulators := hr.accumulators, averages := hr.averages, schedule := hr.schedule, markState := hr.markState }

theorem Quiet.silent_setSync {r : SyncRegs} (h : Quiet s) (hr : QuietSync r)
    (hcount : r.sampleCount = s.sync.sampleCount) : Silent 0 s (s.setSync r) :=
  ⟨h.setSync hr, rfl, congrArg BitVec.toNat hcount⟩

theorem Quiet.silent_setRx {r : RxRegs} (h : Quiet s) (hbuffer : r.bitbuf = BitBuf.zeros)
    (hstate : r.rxState = rxSyncSetup ∨ r.rxState = rxSync) : Silent 0 s (s.setRx r) :=
  ⟨{ h with buffer := hbuffer, searching := hstate }, rfl, rfl⟩

theorem Quiet.configLegal (h : Quiet s) : 1000 ≤ s.cfg.sampleRate.toNat ∧ s.cfg.b = samplesPerBit s.cfg.sampleRate ∧
    s.cfg.dphiM = phaseStep F64.fMark s.cfg.sampleRate ∧ s.cfg.dphiS = phaseStep F64.fSpace s.cfg.sampleRate := by
  have hconfig := h.config
  rwa [ConfigLegal, if_pos h.configured] at hconfig

theorem Quiet.moderate_b (h : Quiet s) : Moderate s.cfg.b := by
  obtain ⟨hrate, hb, -⟩ := h.configLegal
  rw [hb]
  exact moderate_samplesPerBit hrate

/-! ## The datapath on zeros (R131 to R138) -/

theorem mag_zeroPair {y : Cplx} (h : isZeroPair y = true) : mag y = .ok F64.zero := by
  obtain ⟨hre, him⟩ := isZeroPair_iff.mp h
  rw [mag, magnitude_zeroPair hre him]
  rfl

/-- DECAY of a zero average toward a zero magnitude. -/
theorem decayed_zero {up down : F64} (h : Positive down) : decayed F64.zero F64.zero up down = F64.zero := by
  rw [decayed, if_neg (by decide), show sub F64.zero F64.zero = F64.zero by decide, zero_div_positive h]
  decide

theorem Quiet.envUpd_zero (h : Quiet s) : envUpd s F64.zero F64.zero = .ok s := by
  have hup := h.moderate_b.quarter
  have hdown := h.moderate_b.mul moderate_sixteen
  have hzero : F64.zero.isFinite = true := by decide
  rw [envUpd_eq, h.trackers]
  simp only [decayed_zero hdown, hup.finite, hdown.finite, hzero, Bool.and_self, if_true, ← h.trackers]
  rfl

theorem Quiet.noiseUpd_zero (h : Quiet s) : noiseUpd s F64.zero F64.zero = .ok s := by
  have hup := h.moderate_b.mul moderate_fortyEight
  have hdown := h.moderate_b.quarter
  have hzero : F64.zero.isFinite = true := by decide
  rw [noiseUpd_eq, h.trackers]
  simp only [decayed_zero hdown, hup.finite, hdown.finite, hzero, Bool.and_self, if_true, ← h.trackers]
  rfl

theorem Quiet.nfloor_zero (h : Quiet s) : nfloor s = .ok F64.zero := by
  rw [nfloor, h.trackers]
  decide

theorem clipOne_zero (c : Config) : clipOne c F64.zero F64.zero F64.zero = .ok F64.zero := by
  have hzero : F64.zero.isFinite = true := by decide
  simp only [clipOne, chk_finite hzero, ok_bind, fmin_self, fmax_self]

theorem Quiet.clip_zero (h : Quiet s) (c : Config) :
    clip c s F64.zero F64.zero F64.zero = .ok (F64.zero, F64.zero) := by
  rw [clip, h.trackers, clipOne_zero]
  rfl

theorem Quiet.atc_zero (h : Quiet s) : atc s F64.zero F64.zero F64.zero = .ok F64.zero := by
  rw [atc, h.trackers]
  decide

theorem softbit_zero (c : Config) : softbit c F64.zero = .ok 0 := rfl

theorem Quiet.accum_silent (h : Quiet s) : EndsSilent 0 s (accum s 0) := by
  obtain ⟨hE, hP, hL⟩ := h.accumulators
  refine ⟨_, ?_, h.silent_setSync (r := { s.sync with accE := 0#64, accP := 0#64, accL := 0#64 })
    { h.quietSync with accumulators := ⟨rfl, rfl, rfl⟩ } rfl⟩
  rw [accum_eq, hE, hP, hL]
  rfl

/-! ## The events (R151 to R153) -/

theorem corrAverage_zero (k : StepId) : corrAverage k F64.zero 0#64 = .ok F64.zero := by
  have hval : add F64.zero (div (sub (f64OfAbs 0#64) F64.zero) corrAvgDiv) = F64.zero := by decide
  rw [corrAverage, hval]
  exact chk_finite (by decide)

/-- An event averages a zero accumulator into a zero average. -/
theorem event_silent {next avg x : F64} {acc : I64} {fired : F64 → F64 → State} (h : Quiet s) (hx : TimeLegal x)
    (hnext : IndexLegal next) (havg : avg = F64.zero) (hacc : acc = 0#64)
    (hfired : ∀ next, IndexLegal next → Silent 0 s (fired F64.zero next)) :
    EndsSilent 0 s (do
      if (← fires k next x) then
        let avg ← corrAverage k avg acc
        let next ← chk k (F64.add next s.cfg.b)
        pure (fired avg next)
      else pure s) := by
  subst havg hacc
  rw [fires_finite hx.finite]
  cases hdue : le next x with
  | false => exact .refl h
  | true =>
    have hlegal := hnext.next hx hdue h.moderate_b
    refine ⟨_, ?_, hfired _ hlegal⟩
    rw [corrAverage_zero, chk_finite hlegal.1]
    rfl

theorem Quiet.evtEarly_silent {x : F64} (h : Quiet s) (hx : TimeLegal x) : EndsSilent 0 s (evtEarly s x) := by
  obtain ⟨hE, hP, hL⟩ := h.schedule
  obtain ⟨havg, havgs⟩ := h.averages
  obtain ⟨hacc, haccs⟩ := h.accumulators
  exact event_silent h hx hE havg hacc fun next hnext => h.silent_setSync
    { h.quietSync with accumulators := ⟨rfl, haccs⟩, averages := ⟨rfl, havgs⟩, schedule := ⟨hnext, hP, hL⟩ } rfl

theorem Quiet.evtLate_silent {x : F64} (h : Quiet s) (hx : TimeLegal x) : EndsSilent 0 s (evtLate s x) := by
  obtain ⟨hE, hP, hL⟩ := h.schedule
  obtain ⟨havgE, havgP, havg⟩ := h.averages
  obtain ⟨haccE, haccP, hacc⟩ := h.accumulators
  exact event_silent h hx hL havg hacc fun next hnext => h.silent_setSync
    { h.quietSync with
      accumulators := ⟨haccE, haccP, rfl⟩, averages := ⟨havgE, havgP, rfl⟩, schedule := ⟨hE, hP, hnext⟩ } rfl

/-- R153, R154: a decision of zero, negated or not. -/
theorem Quiet.promptSample_silent {x : F64} (h : Quiet s) (hx : TimeLegal x) (hdue : le s.sync.nextP x = true) :
    EndsSilent 0 s (promptSample s) := by
  obtain ⟨hE, hP, hL⟩ := h.schedule
  obtain ⟨havgE, havgP, havgL⟩ := h.averages
  obtain ⟨haccE, haccP, haccL⟩ := h.accumulators
  have hnext := hP.next hx hdue h.moderate_b
  have hmark : (if s.cfg.reverse then -(0#64).toInt else (0#64).toInt) = 0 := by split <;> rfl
  refine ⟨_, ?_, h.silent_setSync
    (r := { s.sync with
      markState := 0#64, avgP := F64.zero, nextP := add s.sync.nextP s.cfg.b, accP := 0#64 })
    ⟨⟨haccE, rfl, haccL⟩, ⟨havgE, rfl, havgL⟩, ⟨hE, hnext, hL⟩, rfl⟩ rfl⟩
  rw [promptSample, haccP, havgP, corrAverage_zero, chk_finite hnext.1]
  simp only [hmark]
  rfl

/-! ## The bit handler (R176 to R180) -/

/-- A fold of which no step changes the accumulator. -/
theorem foldlM_fixed {ε α σ : Type} {f : σ → α → Except ε σ} {x : σ} {l : List α} (h : ∀ a ∈ l, f x a = .ok x) :
    l.foldlM f x = .ok x := by
  induction l with
  | nil => rfl
  | cons a l ih =>
    rw [List.foldlM_cons, h a List.mem_cons_self]
    exact ih fun b hb => h b (List.mem_cons_of_mem a hb)

theorem mem_walkWindows_lt {off i : ℕ} (h : i ∈ walkWindows off) : i < 93 :=
  of_decide_eq_true (List.mem_filter.mp h).2

/-- R180, R171: a window of zeros is no valid codeword. -/
theorem scoreWindow_zeros {a : Score} {i : ℕ} (hi : i < 93) : scoreWindow BitBuf.zeros a i = .ok a := by
  have hread : memRead7 .findAlpha BitBuf.zeros i = .ok (soft7 fun _ => 0) :=
    memRead7_eq_ok_iff.mpr ⟨by omega, by simp only [zeros_entry]⟩
  rw [scoreWindow, hread]
  rfl

/-- R180: silence has no character phase. -/
theorem findAlpha_zeros : findAlpha BitBuf.zeros = .ok (-1) := by
  have hscore : ∀ off, scoreOffset BitBuf.zeros off = .ok { score := 0, reps := 0 } := fun off =>
    foldlM_fixed fun i hi => scoreWindow_zeros (mem_walkWindows_lt hi)
  have hbest : syncOffsets.foldlM (tryOffset BitBuf.zeros) { off := -1, total := 0 } = .ok { off := -1, total := 0 } :=
    foldlM_fixed fun off _ => by rw [tryOffset, hscore]; rfl
  rw [findAlpha, hbest]
  rfl

theorem shiftIn_zeros : BitBuf.zeros.shiftIn 0#64 = BitBuf.zeros := rfl

theorem Quiet.shiftBit_silent (h : Quiet s) : EndsSilent 0 s (shiftBit s 0) := by
  have hcursor : toUnsigned .bitIn 7 (max ((s.rx.bitCursor.toNat : Int) - 1) 0) =
      .ok (BitVec.ofInt 7 (max ((s.rx.bitCursor.toNat : Int) - 1) 0)) :=
    toUnsigned_eq_ok_iff.mpr ⟨by have := s.rx.bitCursor.isLt; omega, rfl⟩
  refine ⟨_, ?_, h.silent_setRx
    (r := { s.rx with
      bitbuf := BitBuf.zeros, bitCursor := BitVec.ofInt 7 (max ((s.rx.bitCursor.toNat : Int) - 1) 0) })
    rfl h.searching⟩
  rw [shiftBit, h.buffer, hcursor]
  rfl

theorem Quiet.smSync_silent (h : Quiet s) : EndsSilent 0 s (smSync s) := by
  refine ⟨s.setRxState rxSyncSetup, ?_, h.silent_setRx h.buffer (.inl rfl)⟩
  rw [smSync, h.buffer, findAlpha_zeros]
  rfl

/-- R176: a zero bit into a buffer of zeros goes from one searching state to the other. -/
theorem Quiet.bitIn_silent (h : Quiet s) : EndsSilent 0 s (bitIn s 0) := by
  refine h.shiftBit_silent.bind fun t ht => ?_
  rcases h.searching with hstate | hstate
  · rw [if_pos hstate]
    exact ⟨_, rfl, ht.quiet.silent_setRx ht.quiet.buffer (.inr rfl)⟩
  · rw [if_neg (by rw [hstate]; decide), if_pos hstate]
    exact ht.quiet.smSync_silent

theorem Quiet.evtPrompt_silent {x : F64} (h : Quiet s) (hx : TimeLegal x) : EndsSilent 0 s (evtPrompt s x) := by
  rw [evtPrompt, fires_finite hx.finite]
  cases hdue : le s.sync.nextP x with
  | false => exact .refl h
  | true =>
    refine (h.promptSample_silent hx hdue).bind fun t ht => ?_
    rw [ht.quiet.markState]
    exact ht.quiet.bitIn_silent

/-! ## Re-alignment and the count (R155, R139) -/

/-- R155, R156: zero averages give a zero slope and are not rotated. -/
theorem Quiet.alignment_zero (h : Quiet s) :
    alignment s = .ok { slope := F64.zero, avgE := F64.zero, avgP := F64.zero, avgL := F64.zero } := by
  obtain ⟨hE, hP, hL⟩ := h.averages
  have hslope : div (sub F64.zero F64.zero) slopeDiv = F64.zero := by decide
  have hbar : mul F64.zero minHyst = F64.zero := by decide
  have hkeep : lt F64.zero F64.zero = false := by decide
  have hzero : F64.zero.isFinite = true := by decide
  simp only [alignment, hE, hP, hL, hslope, hbar, chk_bind, hzero, hkeep, if_true, Bool.and_self, Bool.false_eq_true,
    if_false]
  rfl

theorem Quiet.realign_silent {x : F64} (h : Quiet s) (hx : TimeLegal x) : EndsSilent 0 s (realign s x) := by
  have hperiod := moderate_eight.mul h.moderate_b
  obtain ⟨hmod, -⟩ := fmodIsExact x _ hx.finite hperiod.finite hperiod.absBits_ne_zero
  simp only [realign, chk_bind, hperiod.finite, hmod, if_true]
  split
  next hdue =>
    obtain ⟨hE, hP, hL⟩ := h.schedule
    have hE' := hE.add_zero_slope
    have hP' := hP.add_zero_slope
    have hL' := hL.add_zero_slope
    rw [h.alignment_zero]
    simp only [ok_bind, hE'.1, hP'.1, hL'.1, if_true]
    exact ⟨_, rfl, h.silent_setSync ⟨h.accumulators, ⟨rfl, rfl, rfl⟩, ⟨hE', hP', hL'⟩, h.markState⟩ rfl⟩
  next => exact .refl h

theorem Quiet.cntInc_silent (h : Quiet s) (hcount : s.sync.sampleCount.toNat + 1 < 2 ^ 53) :
    EndsSilent 1 s (cntInc s) := by
  obtain ⟨n, hn, hcnt⟩ := cntInc_next (s := s) (by omega) (by omega)
  exact ⟨_, hcnt, h.setSync { h.quietSync with }, rfl, hn⟩

/-! ## FSAMPLE and the burst (R130, R102) -/

theorem Quiet.fsample_silent (h : Quiet s) (hcount : s.sync.sampleCount.toNat + 1 < 2 ^ 53) {ym ys : Cplx}
    (hm : isZeroPair ym = true) (hs : isZeroPair ys = true) : EndsSilent 1 s (fsample machine s ym ys) := by
  simp only [fsample, mag_zeroPair hm, mag_zeroPair hs, h.envUpd_zero, h.noiseUpd_zero, h.nfloor_zero, h.clip_zero,
    h.atc_zero, softbit_zero, ok_bind]
  refine h.accum_silent.bind fun s3 h3 => ?_
  have hx : TimeLegal (f64OfCount s3.sync.sampleCount) := timeLegal_count (by rw [h3.count]; omega)
  refine (h3.quiet.evtEarly_silent hx).bind fun s4 h4 => ?_
  refine (h4.quiet.evtLate_silent hx).bind fun s5 h5 => ?_
  refine (h5.quiet.evtPrompt_silent hx).bind fun s6 h6 => ?_
  refine (h6.quiet.realign_silent hx).bind fun s7 h7 => ?_
  exact h7.quiet.cntInc_silent (by rw [h7.count, h6.count, h5.count, h4.count, h3.count]; exact hcount)

/-- R102: the pairs of a burst of zeros, whose samples the count has room for (R233). -/
theorem Quiet.burst_silent {n : ℕ} (h : Quiet s) (hcount : n = 0 ∨ s.sync.sampleCount.toNat + n < 2 ^ 53) {y : Cplx}
    (hy : isZeroPair y = true) :
    EndsSilent n s ((List.replicate n (y, y)).foldlM (fun s p => fsample machine s p.1 p.2) s) := by
  induction n generalizing s with
  | zero => exact .refl h
  | succ n ih =>
    obtain ⟨t, ht, hsilent⟩ := h.fsample_silent (by omega) hy hy
    have hrest := hsilent.endsSilent (ih hsilent.quiet (by rw [hsilent.count]; omega))
    rwa [Nat.add_comm, ← ok_bind t (List.foldlM _ · _), ← ht] at hrest

/-! ## SAMPLE (R101, R102, R108) -/

/-- How many pairs the next push on a filter answers (R108). -/
def burstSize (f : Filter) : ℕ := if f.fill + 1 = machine.block then machine.block else 0

/-- The filter after the push of `u` (R108). -/
def pushed (f : Filter) (u : Cplx) : Filter :=
  { hist := f.hist ++ [u], fill := if f.fill + 1 = machine.block then 0 else f.fill + 1 }

theorem pushed_hist_zeros {f : Filter} {u : Cplx} (hf : ∀ u ∈ f.hist, isZeroPair u = true) (hu : isZeroPair u = true) :
    ∀ z ∈ (pushed f u).hist, isZeroPair z = true :=
  List.forall_mem_append.mpr ⟨hf, List.forall_mem_singleton.mpr hu⟩

/-- R108, R142: a filter that has heard silence answers silence. -/
theorem lpfPush_zeros {f : Filter} {u : Cplx} (hf : ∀ u ∈ f.hist, isZeroPair u = true) (hu : isZeroPair u = true) :
    lpfPush machine f u =
      .ok (pushed f u, List.replicate (burstSize f) { re := F64.zero, im := F64.zero }) := by
  obtain ⟨hre, him⟩ := isZeroPair_iff.mp hu
  have hfin : u.isFinite = true := Bool.and_eq_true_iff.mpr
    ⟨isFinite_of_absBits_eq_zero hre, isFinite_of_absBits_eq_zero him⟩
  have hhist : ∀ z ∈ f.hist ++ [u], isZeroPair z = true := pushed_hist_zeros hf hu
  unfold pushed burstSize
  split
  next hfull => rw [lpfPush_block hfin hfull, if_pos (isFinite_burstOf_zeros hhist), burstOf_zeros hhist]
  next hmore => exact lpfPush_append hfin hmore

theorem Quiet.setFilters_silent {fm fs : Filter} (h : Quiet s) (hfill : fm.fill < machine.block)
    (htwin : fm.fill = fs.fill) (hm : ∀ u ∈ fm.hist, isZeroPair u = true) (hs : ∀ u ∈ fs.hist, isZeroPair u = true) :
    Silent 0 s ((s.setFilter .mark fm).setFilter .space fs) :=
  ⟨{ h with fillM := hfill, twin := htwin, histM := hm, histS := hs }, rfl, rfl⟩

theorem Quiet.pushBoth_silent (h : Quiet s) {zm zs : Cplx} (hm : isZeroPair zm = true) (hs : isZeroPair zs = true)
    (hcount : s.lpfS.fill + 1 = machine.block → s.sync.sampleCount.toNat + machine.block < 2 ^ 53) :
    EndsSilent (burstSize s.lpfS) s (pushBoth machine s zm zs) := by
  have hfilters : Silent 0 s ((s.setFilter .mark (pushed s.lpfM zm)).setFilter .space (pushed s.lpfS zs)) := by
    refine h.setFilters_silent ?_ ?_ (pushed_hist_zeros h.histM hm) (pushed_hist_zeros h.histS hs)
    · have := h.fillM
      dsimp only [pushed]
      split <;> omega
    · unfold pushed
      rw [h.twin]
  have hroom : burstSize s.lpfS = 0 ∨ s.sync.sampleCount.toNat + burstSize s.lpfS < 2 ^ 53 := by
    unfold burstSize
    split
    next hfull => exact .inr (hcount hfull)
    next => exact .inl rfl
  have hburst := hfilters.endsSilent (hfilters.quiet.burst_silent hroom (y := { re := F64.zero, im := F64.zero }) rfl)
  have hsize : burstSize s.lpfM = burstSize s.lpfS := by rw [burstSize, h.twin, burstSize]
  rw [pushBoth, lpfPush_zeros h.histM hm, lpfPush_zeros h.histS hs, hsize]
  simp only [ok_bind, burstLoop, lt_self_iff_false, if_false, List.zip_replicate, Nat.min_self]
  rwa [Nat.zero_add] at hburst

/-- A zero sample is legal (R101). -/
theorem zero_sample_legal {x : F64} (h : x.absBits = 0) : x.isFinite = true ∧ le x.abs one = true := by
  obtain rfl | rfl := eq_zero_or_neg_zero h <;> decide

/-- R103, R105: a zero sample mixes to a pair of zeros. -/
theorem isZeroPair_mixed {x phi : F64} (h : x.absBits = 0) (hphi : MixerFinite phi) :
    isZeroPair (mixed x phi) = true := by
  obtain ⟨hx, hle⟩ := zero_sample_legal h
  have hscaled : (mul pcmScale x).absBits = 0 := absBits_mul_eq_zero (by decide) hx (.inr h)
  obtain ⟨y, hy, hzero⟩ := mix_zeroPair hphi.1 hphi.2
    (isZeroPair_iff (z := { re := mul pcmScale x, im := mul pcmScale x }).mpr ⟨hscaled, hscaled⟩)
  rw [(mix_legal hx hle hphi).1, Except.ok.injEq] at hy
  rwa [hy]

/-- R106: the phases advance and stay legal. -/
theorem Quiet.ncoAdv_silent (h : Quiet s) : ∃ t, ncoAdv s = .ok t ∧ Silent 0 s t ∧ t.lpfS = s.lpfS := by
  obtain ⟨hrate, -, hm, hs⟩ := h.configLegal
  have hdm : StepLegal s.cfg.dphiM := hm ▸ (phaseStep_legal toneLegal_mark hrate).1
  have hds : StepLegal s.cfg.dphiS := hs ▸ (phaseStep_legal toneLegal_space hrate).1
  exact ⟨_, ncoAdv_wrapped h.phaseM h.phaseS hdm hds,
    ⟨{ h with
        phaseM := (advancePhase_wrapped h.phaseM hdm).2
        phaseS := (advancePhase_wrapped h.phaseS hds).2 }, rfl, rfl⟩, rfl⟩

/-- Settles O48: a zero sample mixes to zeros, the filters answer zeros, and each FSAMPLE of zeros is silent. -/
theorem silenceStaysQuiet : Obligations.SilenceStaysQuiet := by
  unfold Obligations.SilenceStaysQuiet
  intro x s h hzero hphiM hphiS hcount
  obtain ⟨hx, hle⟩ := zero_sample_legal hzero
  obtain ⟨u, hnco, hadvanced, hlpf⟩ := h.ncoAdv_silent
  have hpush := hadvanced.endsSilent (hadvanced.quiet.pushBoth_silent (isZeroPair_mixed hzero hphiM)
    (isZeroPair_mixed hzero hphiS) (by rw [hlpf, hadvanced.count]; exact hcount))
  obtain ⟨t, ht, hquiet, hout, htotal⟩ := hpush
  refine ⟨t, ?_, hquiet, hout, ?_⟩
  · rw [execSample_legal h.live h.configured hx hle, mixBoth_legal hx hle hphiM hphiS]
    simp only [thenRun, thenAdvance, hnco, ht]
  · rw [htotal, hlpf, Nat.zero_add]
    rfl

end Machine
end Sys2Proof
end

section
/-! SUPPORT. The early and the late event and REALIGN, each run alone (spec R151, R152, R155, R156). -/

open Sys2Proof.Claims

namespace Sys2Proof
namespace Machine

open F64

variable {s : State} {k : StepId}

/-! ## EVT_EARLY and EVT_LATE (R151, R152) -/

theorem corrAverage_eq (k : StepId) (avg : F64) (acc : I64) : corrAverage k avg acc = chk k (averaged avg acc) := rfl

/-- R151, R152: an event at a finite time, as an operation run alone: not due, due with both values finite, due with one
that is not. -/
theorem next_finish_event (hs : s.fault = none) {next u avg b : F64} (hu : u.isFinite = true) {acc : I64}
    {fired : F64 → F64 → State} {r : Except FaultRec State}
    (hr : r = do
      if (← fires k next u) then
        let avg ← corrAverage k avg acc
        let next ← chk k (F64.add next b)
        pure (fired avg next)
      else pure s) :
    (le next u = false → (.next (s.finish r) : Answer) = .next s) ∧
      (le next u = true → (averaged avg acc).isFinite = true → (add next b).isFinite = true →
        (.next (s.finish r) : Answer) = .next (fired (averaged avg acc) (add next b))) ∧
      (le next u = true → ¬((averaged avg acc).isFinite = true ∧ (add next b).isFinite = true) →
        (.next (s.finish r) : Answer) = .next (s.raise (.numeric k))) := by
  rw [fires_finite hu] at hr
  refine ⟨fun hidle => ?_, fun hdue havg hnext => ?_, fun hdue hbad => ?_⟩
  · rw [hr, hidle]
    exact congrArg _ (finish_ok hs)
  · rw [hr, hdue, corrAverage_eq, chk_finite havg, chk_finite hnext]
    exact congrArg _ (finish_ok hs)
  · have herror : r = .error (.numeric k) := by
      rw [hr, hdue, ok_bind, if_pos rfl, corrAverage_eq, chk_bind, chk_bind, ← ite_and, if_neg hbad]
    rw [herror, finish_error hs]

/-- Settles O27: both events are the one event, each on its own registers. -/
theorem earlyAndLateEvents : Obligations.EarlyAndLateEvents := by
  unfold Obligations.EarlyAndLateEvents
  intro t s hs ht avgE nextE avgL nextL
  obtain ⟨hidleE, hdueE, hfaultE⟩ := next_finish_event (r := evtEarly s t) hs ht rfl
  obtain ⟨hidleL, hdueL, hfaultL⟩ := next_finish_event (r := evtLate s t) hs ht rfl
  exact ⟨hidleE, hdueE, hfaultE, hidleL, hdueL, hfaultL⟩

/-! ## REALIGN (R155, R156) -/

/-- The picker condition (R156). -/
def picks (s : State) : Bool :=
  lt (mul s.sync.avgP minHyst) s.sync.avgE && lt (mul s.sync.avgP minHyst) s.sync.avgL

/-- The picker's early branch; a tie is late (R155). -/
def picksEarly (s : State) : Bool := lt s.sync.avgL s.sync.avgE

/-- The slope and the averages of R155 and R156, whether finite or not. -/
def alignmentOf (s : State) : Alignment :=
  if picks s then
    if picksEarly s then
      { slope := slopeEarly s, avgE := s.sync.avgE, avgP := s.sync.avgE, avgL := s.sync.avgP }
    else { slope := slopeLate s, avgE := s.sync.avgP, avgP := s.sync.avgL, avgL := s.sync.avgL }
  else { slope := slopeDefault s, avgE := s.sync.avgE, avgP := s.sync.avgP, avgL := s.sync.avgL }

/-- The state after a re-alignment that acts. -/
def realignment (s : State) : State :=
  realigned s (alignmentOf s).slope (alignmentOf s).avgE (alignmentOf s).avgP (alignmentOf s).avgL

/-- Every value that an acting re-alignment computes is finite (R234). -/
def realignFinite (s : State) : Bool :=
  (slopeDefault s).isFinite && (mul s.sync.avgP minHyst).isFinite && (alignmentOf s).slope.isFinite &&
    (realignment s).sync.nextE.isFinite && (realignment s).sync.nextP.isFinite && (realignment s).sync.nextL.isFinite

theorem alignmentOf_slope (s : State) :
    (alignmentOf s).slope =
      if picks s then (if picksEarly s then slopeEarly s else slopeLate s) else slopeDefault s := by
  unfold alignmentOf
  split
  · split <;> rfl
  · rfl

theorem realignment_eq (s : State) :
    realignment s =
      if picks s then
        (if picksEarly s then realigned s (alignmentOf s).slope s.sync.avgE s.sync.avgE s.sync.avgP
          else realigned s (alignmentOf s).slope s.sync.avgP s.sync.avgL s.sync.avgL)
      else realigned s (alignmentOf s).slope s.sync.avgE s.sync.avgP s.sync.avgL := by
  unfold realignment alignmentOf
  split
  · split <;> rfl
  · rfl

theorem alignment_eq (s : State) :
    alignment s =
      if (slopeDefault s).isFinite && (mul s.sync.avgP minHyst).isFinite && (alignmentOf s).slope.isFinite then
        .ok (alignmentOf s)
      else .error (.numeric .realign) := by
  cases hpicker : picks s with
  | false =>
    have hkept : alignmentOf s =
        { slope := slopeDefault s, avgE := s.sync.avgE, avgP := s.sync.avgP, avgL := s.sync.avgL } := by
      rw [alignmentOf, hpicker, if_neg Bool.false_ne_true]
    rw [hkept, Bool.and_right_comm, Bool.and_self]
    rw [picks] at hpicker
    simp only [alignment, chk_bind, hpicker, Bool.false_eq_true, if_false]
    simp only [Bool.and_eq_true, ite_and]
    rfl
  | true =>
    cases hearly : picksEarly s
    all_goals
      simp only [alignmentOf, hpicker, hearly, if_true, Bool.false_eq_true, if_false, Bool.and_eq_true, ite_and]
      rw [picks] at hpicker
      rw [picksEarly] at hearly
      simp only [alignment, chk_bind, hpicker, hearly, if_true, Bool.false_eq_true, if_false]
      rfl

section
variable {t : F64}

theorem realign_not_timed (h : ((mul eight s.cfg.b).isFinite && (fmod t (mul eight s.cfg.b)).isFinite) = false) :
    realign s t = .error (.numeric .realign) := by
  rw [realign, chk_bind, chk_bind, ← ite_and, if_neg (by rw [← Bool.and_eq_true, h]; decide)]

theorem realign_timed (h : ((mul eight s.cfg.b).isFinite && (fmod t (mul eight s.cfg.b)).isFinite) = true) :
    realign s t =
      if feq (fmod t (mul eight s.cfg.b)) F64.zero then
        if realignFinite s then .ok (realignment s) else .error (.numeric .realign)
      else .ok s := by
  obtain ⟨hperiod, hphase⟩ := Bool.and_eq_true_iff.mp h
  rw [realign, chk_finite hperiod, ok_bind, chk_finite hphase, ok_bind, alignment_eq, realignFinite]
  cases (slopeDefault s).isFinite && (mul s.sync.avgP minHyst).isFinite && (alignmentOf s).slope.isFinite with
  | false => rfl
  | true =>
    simp only [if_true, ok_bind, chk_bind, Bool.true_and, Bool.and_eq_true, ite_and]
    rfl

end

/-- Settles O30: the two checks of the time, the branches of the picker, and the checks of what they compute. -/
theorem realignResult : Obligations.RealignResult := by
  unfold Obligations.RealignResult
  intro t s hs period phase bar picker early y slope r timed finite
  have hslope : slope = (alignmentOf s).slope := (alignmentOf_slope s).symm
  have hr : r = realignment s := by
    rw [realignment_eq, ← hslope]
    rfl
  have hfinite : finite = realignFinite s := by
    dsimp only [finite]
    rw [hr, hslope]
    rfl
  rw [hfinite, hr]
  refine ⟨fun h => ?_, fun h hidle => ?_, fun h hdue hok => ?_, fun h hdue hbad => ?_⟩
  · rw [exec, execRealign, realign_not_timed h, finish_error hs]
  · rw [exec, execRealign, realign_timed h, hidle, if_neg Bool.false_ne_true, finish_ok hs]
  · rw [exec, execRealign, realign_timed h, hdue, if_pos rfl, hok, if_pos rfl, finish_ok hs]
  · rw [exec, execRealign, realign_timed h, hdue, if_pos rfl, hbad, if_neg Bool.false_ne_true, finish_error hs]

end Machine
end Sys2Proof
end

section
/-! SUPPORT. The bit handler raises INT_RANGE alone (spec R232), none at all on soft bits far inside 64 bits, and writes nothing
but the bit-level registers and `OUT` (R175 to R180, R200, R205). -/

namespace Sys2Proof
namespace Machine

variable {s t u : State} {k : StepId}

/-! ## Computations that raise INT_RANGE alone (R232) -/

/-- `x` raises no fault but INT_RANGE, and none where `safe` holds. -/
def RangeChecked {α : Type} (safe : Prop) (x : Except FaultRec α) : Prop :=
  ∀ e, x = .error e → (∃ k, e = .intRange k) ∧ ¬safe

section
variable {α β : Type} {P Q : Prop} {x : Except FaultRec α}

theorem RangeChecked.ok (a : α) : RangeChecked P (.ok a : Except FaultRec α) := nofun

theorem RangeChecked.intRange (h : ¬P) : RangeChecked P (.error (.intRange k) : Except FaultRec α) := by
  rintro _ ⟨⟩
  exact ⟨⟨k, rfl⟩, h⟩

theorem RangeChecked.mono (h : RangeChecked Q x) (hPQ : P → Q) : RangeChecked P x :=
  fun e he => (h e he).imp_right (mt hPQ)

theorem RangeChecked.bind {f : α → Except FaultRec β} (h : RangeChecked P x)
    (hf : ∀ a, x = .ok a → RangeChecked P (f a)) : RangeChecked P (x >>= f) := by
  cases x with
  | error e => rintro _ ⟨⟩; exact h e rfl
  | ok a => exact hf a rfl

theorem RangeChecked.foldlM {σ : Type} {f : σ → α → Except FaultRec σ} {l : List α}
    (h : ∀ a ∈ l, ∀ y, RangeChecked P (f y a)) (y : σ) : RangeChecked P (l.foldlM f y) := by
  induction l generalizing y with
  | nil => exact .ok y
  | cons a l ih =>
    rw [List.foldlM_cons]
    exact (h a List.mem_cons_self y).bind fun z _ => ih (fun b hb => h b (List.mem_cons_of_mem a hb)) z

theorem RangeChecked.completes (h : RangeChecked P x) (hP : P) : ∃ a, x = .ok a := by
  cases x with
  | error e => exact absurd hP (h e rfl).2
  | ok a => exact ⟨a, rfl⟩

theorem RangeChecked.imprecise {e : FaultRec} (h : RangeChecked P x) (he : x = .error e) : e.precise = false := by
  obtain ⟨⟨k, rfl⟩, -⟩ := h e he
  rfl

end

theorem toI64_rangeChecked (n : Int) : RangeChecked (fitsI64 n = true) (toI64 k n) := by
  unfold toI64
  split
  · exact .ok _
  next h => exact .intRange h

theorem toUnsigned_rangeChecked (w : ℕ) (n : Int) : RangeChecked (0 ≤ n ∧ n < 2 ^ w) (toUnsigned k w n) := by
  unfold toUnsigned
  split
  · exact .ok _
  next h => exact .intRange h

theorem memRead7_rangeChecked (b : BitBuf) (c : Int) : RangeChecked (0 ≤ c ∧ c + 7 ≤ 100) (memRead7 k b c) := by
  unfold memRead7
  split
  · exact .ok _
  next h => exact .intRange h

/-! ## Soft bits far inside 64 bits -/

/-- Every soft bit is below `n` in magnitude. -/
def SoftBelow (n : ℕ) (v : Soft7) : Prop := ∀ x ∈ v.toList, x.natAbs < n

theorem softBelow_soft7 {n : ℕ} {f : ℕ → Int} (h : ∀ i < 7, (f i).natAbs < n) : SoftBelow n (soft7 f) := by
  intro x hx
  obtain ⟨i, hi, rfl⟩ := List.mem_map.mp (show x ∈ (List.range 7).map f from hx)
  exact h i (List.mem_range.mp hi)

theorem SoftBelow.getD {n : ℕ} {v : Soft7} (h : SoftBelow n v) (hn : 0 < n) (i : ℕ) :
    (v.toList[i]?.getD 0).natAbs < n := by
  cases hi : v.toList[i]? with
  | none => exact hn
  | some x => exact h x (List.mem_of_getElem? hi)

theorem SoftBelow.mono {m n : ℕ} {v : Soft7} (h : SoftBelow m v) (hmn : m ≤ n) : SoftBelow n v :=
  fun x hx => (h x hx).trans_le hmn

theorem memRead7_softBelow {b : BitBuf} {c : Int} {v : Soft7} (h : memRead7 k b c = .ok v) (hb : SoftSmall b) :
    SoftBelow (2 ^ 62) v := by
  obtain ⟨⟨hlow, hhigh⟩, rfl⟩ := memRead7_eq_ok_iff.mp h
  exact softBelow_soft7 fun i hi => hb _ (by omega)

theorem softSmall_shiftIn {b : BitBuf} {v : I64} (hb : SoftSmall b) (hv : v.toInt.natAbs < 2 ^ 62) :
    SoftSmall (b.shiftIn v) := by
  intro i hi
  rw [shiftIn_entry b v i hi]
  split
  · exact hv
  · exact hb _ (by omega)

/-! ## Decoder (R200, R205) -/

theorem negateAt_rangeChecked (v : Soft7) (j : Option ℕ) : RangeChecked (SoftBelow (2 ^ 63) v) (negateAt v j) := by
  unfold negateAt
  split
  · exact .ok _
  next j =>
    dsimp only
    split
    · exact .ok _
    next hbad =>
      refine .intRange fun h => hbad (fitsI64_iff.mpr ?_)
      have := h.getD (by norm_num) j
      omega

theorem flipSmallest_rangeChecked (v : Soft7) : RangeChecked (SoftBelow (2 ^ 63) v) (flipSmallest v) := by
  unfold flipSmallest
  dsimp only
  split
  · exact negateAt_rangeChecked v _
  split
  · exact negateAt_rangeChecked v _
  · exact .ok v

theorem processFlips_rangeChecked (s : State) (a r v : Soft7) :
    RangeChecked (SoftBelow (2 ^ 63) a ∧ SoftBelow (2 ^ 63) r ∧ SoftBelow (2 ^ 63) v) (processFlips s a r v) := by
  refine ((flipSmallest_rangeChecked a).mono fun ⟨ha, _, _⟩ => ha).bind fun fa _ => ?_
  split
  · exact .ok _
  refine ((flipSmallest_rangeChecked r).mono fun ⟨_, hr, _⟩ => hr).bind fun fr _ => ?_
  split
  · exact .ok _
  refine ((flipSmallest_rangeChecked v).mono fun ⟨_, _, hv⟩ => hv).bind fun fv _ => ?_
  split <;> exact .ok _

/-- R200, step 4: the sum of two small soft bits. -/
theorem sumSoft_softBelow {a r v : Soft7} (h : sumSoft a r = .ok v) (ha : SoftBelow (2 ^ 62) a)
    (hr : SoftBelow (2 ^ 62) r) : SoftBelow (2 ^ 63) v := by
  unfold sumSoft at h
  dsimp only at h
  split at h <;> cases h
  refine softBelow_soft7 fun i _ => ?_
  have := ha.getD (by norm_num) i
  have := hr.getD (by norm_num) i
  omega

theorem sumSoft_rangeChecked (a r : Soft7) :
    RangeChecked (SoftBelow (2 ^ 62) a ∧ SoftBelow (2 ^ 62) r) (sumSoft a r) := by
  unfold sumSoft
  dsimp only
  split
  · exact .ok _
  next hbad =>
    refine .intRange fun ⟨ha, hr⟩ => hbad (List.all_eq_true.mpr fun x hx => fitsI64_iff.mpr ?_)
    have : x.natAbs < 2 ^ 63 := by
      refine softBelow_soft7 (fun i _ => ?_) x hx
      have := ha.getD (by norm_num) i
      have := hr.getD (by norm_num) i
      omega
    omega

theorem processRep_rangeChecked (s : State) (a r : Soft7) :
    RangeChecked (SoftBelow (2 ^ 62) a ∧ SoftBelow (2 ^ 62) r) (processRep s a r) := by
  unfold processRep
  split
  · split <;> exact .ok _
  refine (sumSoft_rangeChecked a r).bind fun v hv => ?_
  split
  · exact .ok _
  exact (processFlips_rangeChecked s a r v).mono fun ⟨ha, hr⟩ =>
    ⟨ha.mono (by norm_num), hr.mono (by norm_num), sumSoft_softBelow hv ha hr⟩

theorem processBytes_rangeChecked (s : State) (c : Int) :
    RangeChecked (0 ≤ c ∧ c ≤ 93 ∧ SoftSmall s.rx.bitbuf) (processBytes s c) := by
  refine ((memRead7_rangeChecked _ c).mono (by omega)).bind fun a ha => ?_
  split
  · exact .ok _
  split
  · exact .ok _
  next hrep =>
    have hdist : (repDist : Int) = 35 := rfl
    refine ((memRead7_rangeChecked _ _).mono (by omega)).bind fun r hr => ?_
    exact (processRep_rangeChecked s a r).mono fun ⟨_, _, hb⟩ => ⟨memRead7_softBelow ha hb, memRead7_softBelow hr hb⟩

/-! ## State machine and bit handler (R176 to R180) -/

theorem scoreWindow_rangeChecked (b : BitBuf) (a : Score) {i : ℕ} (hlow : 35 ≤ i) (hhigh : i < 93) :
    RangeChecked True (scoreWindow b a i) := by
  have hread : ∀ c : Int, 0 ≤ c → c ≤ 93 → RangeChecked True (memRead7 .findAlpha b c) := fun c h0 h1 =>
    (memRead7_rangeChecked b c).mono fun _ => ⟨h0, by omega⟩
  have hdist : (repDist : Int) = 35 := rfl
  have hchar : (charBits : Int) = 7 := rfl
  refine (hread i (by omega) (by omega)).bind fun w _ => ?_
  split
  · refine (hread _ (by omega) (by omega)).bind fun earlier _ => ?_
    split
    · split <;> exact .ok _
    split
    · refine (hread _ (by omega) (by omega)).bind fun before _ => ?_
      split <;> exact .ok _
    · exact .ok _
  · exact .ok _

theorem le_of_mem_walkWindows {off i : ℕ} (h : i ∈ walkWindows off) : off ≤ i := by
  obtain ⟨j, -, rfl⟩ := List.mem_map.mp (List.mem_filter.mp h).1
  exact Nat.le_add_right off _

theorem le_of_mem_syncOffsets {off : ℕ} (h : off ∈ syncOffsets) : 35 ≤ off := by
  obtain ⟨j, -, rfl⟩ := List.mem_map.mp h
  exact Nat.le_add_right 35 j

/-- R180: the search reads inside the buffer alone. -/
theorem findAlpha_rangeChecked (b : BitBuf) : RangeChecked True (findAlpha b) := by
  refine (RangeChecked.foldlM (fun off hoff best => ?_) _).bind fun best _ => .ok _
  refine (RangeChecked.foldlM (fun i hi a => ?_) _).bind fun a _ => by split <;> exact .ok _
  exact scoreWindow_rangeChecked b a ((le_of_mem_syncOffsets hoff).trans (le_of_mem_walkWindows hi))
    (mem_walkWindows_lt hi)

theorem smSync_rangeChecked (s : State) : RangeChecked True (smSync s) := by
  refine (findAlpha_rangeChecked _).bind fun off hoff => ?_
  have := findAlpha_le hoff
  split
  · exact ((toUnsigned_rangeChecked 7 off).mono fun _ => ⟨‹_›, by omega⟩).bind fun cursor _ => .ok _
  · exact .ok _

/-- Where a slot cannot leave its registers: the error count can take a charge of 2, and the soft bits can be summed. -/
structure SlotSafe (rx : RxRegs) : Prop where
  errors : rx.errorCount.toNat ≤ 253
  soft : SoftSmall rx.bitbuf

theorem alphaSlot_rangeChecked (h : s.rx.bitCursor.toNat < 93) : RangeChecked (SlotSafe s.rx) (alphaSlot s) := by
  refine ((processBytes_rangeChecked s _).mono fun hsafe => ⟨by omega, by omega, hsafe.soft⟩).bind fun ⟨u, r⟩ hu => ?_
  obtain ⟨hdec, hr⟩ := processBytes_ok hu
  refine ((toUnsigned_rangeChecked 8 _).mono fun hsafe => ?_).bind fun e _ => .ok _
  have := hsafe.errors
  rw [hdec.errorCount]
  omega

/-- R179: the cursor's advance at a slot. -/
theorem advance_rangeChecked {P : Prop} (h : s.rx.bitCursor.toNat < 93) (f : BitVec 7 → State) :
    RangeChecked P (toUnsigned .smReadData 7 ((s.rx.bitCursor.toNat : Int) + charBits) >>= fun c => pure (f c)) := by
  have hchar : (charBits : Int) = 7 := rfl
  exact ((toUnsigned_rangeChecked 7 _).mono fun _ => by omega).bind fun cursor _ => .ok _

theorem smReadData_rangeChecked (s : State) : RangeChecked (SlotSafe s.rx) (smReadData s) := by
  unfold smReadData
  split
  next hlt =>
    have hslot : s.rx.bitCursor.toNat < 93 := hlt
    dsimp only
    split
    · exact (alphaSlot_rangeChecked hslot).bind fun u hu =>
        advance_rangeChecked (by rwa [alphaSlot_cursor hu]) _
    · rw [pure_bind]
      exact advance_rangeChecked hslot _
  · exact .ok s

theorem shiftBit_rangeChecked (s : State) (v : Int) : RangeChecked (fitsI64 v = true) (shiftBit s v) := by
  have := s.rx.bitCursor.isLt
  exact (toI64_rangeChecked v).bind fun b _ =>
    ((toUnsigned_rangeChecked 7 _).mono fun _ => by omega).bind fun cursor _ => .ok _

/-- R176: the soft bit is the new tail of the buffer. -/
theorem shiftBit_bitbuf {v : Int} (h : shiftBit s v = .ok t) : t.rx.bitbuf = s.rx.bitbuf.shiftIn (BitVec.ofInt 64 v) := by
  simp only [shiftBit, bind_eq_ok_iff, pure_eq_ok_iff] at h
  obtain ⟨b, hb, cursor, -, rfl⟩ := h
  rw [(toI64_eq_ok_iff.mp hb).2]
  rfl

/-- Where BIT_IN completes. -/
structure BitSafe (v : Int) (rx : RxRegs) : Prop extends SlotSafe rx where
  rxState : rx.rxState ≠ 3#2
  bit : v.natAbs < 2 ^ 62

theorem bitIn_rangeChecked (s : State) (v : Int) : RangeChecked (BitSafe v s.rx) (bitIn s v) := by
  have hfits : BitSafe v s.rx → fitsI64 v = true := fun hsafe => fitsI64_iff.mpr (by have := hsafe.bit; omega)
  refine ((shiftBit_rangeChecked s v).mono hfits).bind fun u hu => ?_
  split
  · exact .ok _
  split
  · exact (smSync_rangeChecked u).mono fun _ => trivial
  split
  · refine (smReadData_rangeChecked u).mono fun hsafe => ⟨?_, ?_⟩
    · rw [(shiftBit_errors hu).1]
      exact hsafe.errors
    · rw [shiftBit_bitbuf hu]
      exact softSmall_shiftIn hsafe.soft (by rw [toInt_ofInt_fits (hfits hsafe)]; exact hsafe.bit)
  next hsetup hsync hread =>
    have hreserved : ∀ x : BitVec 2, x ≠ 0#2 → x ≠ 1#2 → x ≠ 2#2 → x = 3#2 := by decide
    exact .intRange fun hsafe => hsafe.rxState (hreserved _ hsetup hsync hread)

/-! ## What the bit handler leaves unchanged -/

/-- Nothing but the bit-level registers and `OUT` differs. -/
def BitLevel (s t : State) : Prop := t = { s with rx := t.rx, out := t.out }

theorem BitLevel.refl (s : State) : BitLevel s s := rfl

theorem BitLevel.trans (h : BitLevel s t) (h' : BitLevel t u) : BitLevel s u := by
  rw [BitLevel] at h h'
  rw [h] at h'
  exact h'

theorem bitLevel_setRx (s : State) (r : RxRegs) : BitLevel s (s.setRx r) := rfl

theorem Decoded.bitLevel (h : Decoded s t) : BitLevel s t := by
  cases h <;> rfl

theorem smSync_bitLevel (h : smSync s = .ok t) : BitLevel s t := by
  obtain ⟨cursor, -, rfl⟩ | rfl := smSync_ok h <;> rfl

theorem alphaSlot_bitLevel (h : alphaSlot s = .ok t) : BitLevel s t := by
  obtain ⟨u, hu, e, -, rfl⟩ := alphaSlot_ok h
  exact hu.bitLevel.trans (bitLevel_setRx u _)

theorem smReadData_bitLevel (h : smReadData s = .ok t) : BitLevel s t := by
  obtain rfl | ⟨-, u, hu | rfl, cursor, -, rfl⟩ := smReadData_ok h
  · exact .refl _
  · exact (alphaSlot_bitLevel hu).trans (bitLevel_setRx u _)
  · exact bitLevel_setRx _ _

theorem bitIn_bitLevel {v : Int} (h : bitIn s v = .ok t) : BitLevel s t := by
  obtain ⟨u, hu, haction⟩ := bitIn_ok h
  obtain ⟨b, cursor, -, rfl⟩ := shiftBit_ok hu
  obtain ⟨-, rfl⟩ | ⟨-, h⟩ | ⟨-, h⟩ := haction
  · rfl
  · exact (bitLevel_setRx s _).trans (smSync_bitLevel h)
  · exact (bitLevel_setRx s _).trans (smReadData_bitLevel h)

/-- R176: BIT_IN moves the buffer by one soft bit, whatever the state action does. -/
theorem bitIn_bitbuf {v : Int} (h : bitIn s v = .ok t) : t.rx.bitbuf = s.rx.bitbuf.shiftIn (BitVec.ofInt 64 v) := by
  obtain ⟨u, hu, haction⟩ := bitIn_ok h
  rw [← shiftBit_bitbuf hu]
  obtain ⟨-, rfl⟩ | ⟨-, h⟩ | ⟨-, h⟩ := haction
  · rfl
  · exact (smSync_keeps h).bitbuf
  · exact (smReadData_keeps h).bitbuf

end Machine
end Sys2Proof
end

section
/-! SUPPORT. The prompt event, and what `CFG_REVERSE` changes of it (spec R153, R154). -/

open Sys2Proof.Claims

namespace Sys2Proof
namespace Machine

open F64

variable {s t : State} {x : F64}

/-! ## EVT_PROMPT (R153) -/

/-- The soft bit of a prompt event: the accumulator, negated under `CFG_REVERSE` (R153, R154). -/
def decision (s : State) : Int := if s.cfg.reverse then -s.sync.accP.toInt else s.sync.accP.toInt

/-- The average and the index that a prompt event computes are finite (R234). -/
def promptFinite (s : State) : Bool :=
  (prompted s (decision s)).sync.avgP.isFinite && (prompted s (decision s)).sync.nextP.isFinite

/-- R232: the only accumulator whose negation does not fit is -2^63. -/
theorem fitsI64_decision (s : State) : fitsI64 (decision s) = true ↔ decision s ≠ 2 ^ 63 := by
  have hlow := BitVec.le_toInt s.sync.accP
  have hhigh := BitVec.toInt_lt (x := s.sync.accP)
  rw [fitsI64_iff, decision]
  split <;> omega

theorem promptSample_eq (s : State) :
    promptSample s =
      if fitsI64 (decision s) then
        if promptFinite s then
          .ok (prompted s (decision s))
        else .error (.numeric .evtPrompt)
      else .error (.intRange .evtPrompt) := by
  simp only [promptSample, promptFinite, corrAverage, toI64_bind, chk_bind, Bool.and_eq_true, ite_and]
  rfl

theorem evtPrompt_not_due (hx : x.isFinite = true) (h : le s.sync.nextP x = false) : evtPrompt s x = .ok s := by
  rw [evtPrompt, fires_finite hx, h]
  rfl

theorem evtPrompt_due (hx : x.isFinite = true) (h : le s.sync.nextP x = true) :
    evtPrompt s x =
      if fitsI64 (decision s) then
        if promptFinite s then
          bitIn (prompted s (decision s)) (decision s)
        else .error (.numeric .evtPrompt)
      else .error (.intRange .evtPrompt) := by
  rw [evtPrompt, fires_finite hx, h, ok_bind, if_pos rfl, promptSample_eq]
  split
  next hfits =>
    split
    · have hmark : (prompted s (decision s)).sync.markState.toInt = decision s := toInt_ofInt_fits hfits
      rw [ok_bind, hmark]
    · rfl
  · rfl

/-- A prompt event that is due and ends without a fault. -/
theorem evtPrompt_due_ok (hdue : le s.sync.nextP x = true) (h : evtPrompt s x = .ok t) :
    fitsI64 (decision s) = true ∧ bitIn (prompted s (decision s)) (decision s) = .ok t := by
  have hx : x.isFinite = true := by
    by_contra hx
    rw [evtPrompt, fires_not_finite (by simpa using hx)] at h
    cases h
  rw [evtPrompt_due hx hdue] at h
  split at h
  next hfits =>
    split at h
    · exact ⟨hfits, h⟩
    · cases h
  · cases h

/-- R236: the synchroniser is none of what an imprecise fault leaves. -/
theorem finish_setSync {r : SyncRegs} {y : Except FaultRec State} (hs : s.fault = none)
    (hy : ∀ e, y = .error e → e.precise = false) : (s.setSync r).finish y = s.finish y := by
  cases y with
  | ok t => rw [finish_ok hs, finish_ok (s := s.setSync r) hs]
  | error e =>
    rw [finish_error hs, finish_error (s := s.setSync r) hs, State.raise, State.raise, hy e rfl]
    rfl

/-- Settles O28: the event's own checks, and then the bit handler, which raises no precise fault. -/
theorem evtPromptResult : Obligations.EvtPromptResult := by
  unfold Obligations.EvtPromptResult
  intro t s hs ht v u finite
  refine ⟨fun hidle => ?_, fun hdue (hmin : decision s = 2 ^ 63) => ?_,
    fun hdue (hne : decision s ≠ 2 ^ 63) (hbad : promptFinite s = false) => ?_,
    fun hdue (hne : decision s ≠ 2 ^ 63) (hok : promptFinite s = true) => ?_⟩
  · rw [exec, execEvtPrompt, evtPrompt_not_due ht hidle, finish_ok hs]
  · rw [exec, execEvtPrompt, evtPrompt_due ht hdue, if_neg (by rw [fitsI64_decision]; exact not_not.mpr hmin),
      finish_error hs]
  · rw [exec, execEvtPrompt, evtPrompt_due ht hdue, if_pos ((fitsI64_decision s).mpr hne), hbad,
      if_neg Bool.false_ne_true, finish_error hs]
  · have hrun : exec (.evtPrompt t) s = .next (s.finish (bitIn u v)) := by
      rw [exec, execEvtPrompt, evtPrompt_due ht hdue, if_pos ((fitsI64_decision s).mpr hne), if_pos hok]
      rfl
    have hchecked := bitIn_rangeChecked u v
    rw [hrun]
    refine ⟨congrArg _ (finish_setSync hs fun e => hchecked.imprecise).symm, fun hstate herrors hsoft hsmall => ?_⟩
    obtain ⟨r, hr⟩ := hchecked.completes ⟨⟨herrors, hsoft⟩, hstate, hsmall⟩
    have hframe : r = { u with rx := r.rx, out := r.out } := bitIn_bitLevel hr
    exact ⟨r, by rw [hr, finish_ok hs], by rw [hframe]; exact hs, hframe⟩

/-! ## `CFG_REVERSE` (R154) -/

/-- What a prompt event that is due leaves, whatever the state machine makes of its soft bit. -/
theorem evtPrompt_due_next (hdue : le s.sync.nextP x = true) (h : exec (.evtPrompt x) s = .next t)
    (ht : t.fault = none) :
    fitsI64 (decision s) = true ∧ BitLevel (prompted s (decision s)) t ∧
      t.rx.bitbuf = s.rx.bitbuf.shiftIn (BitVec.ofInt 64 (decision s)) := by
  obtain ⟨hfits, hbit⟩ := evtPrompt_due_ok hdue (live_of_next h ht).2
  exact ⟨hfits, bitIn_bitLevel hbit, (bitIn_bitbuf hbit :)⟩

/-- Settles O29: both runs leave what the event writes, on decisions of opposite sign. -/
theorem reverseOnlyNegatesTheDecision : Obligations.ReverseOnlyNegatesTheDecision := by
  unfold Obligations.ReverseOnlyNegatesTheDecision
  intro t s a b _ hreverse hdue ha hafault hb hbfault
  obtain ⟨hfa, hframea, hbufa⟩ := evtPrompt_due_next hdue ha hafault
  obtain ⟨hfb, hframeb, hbufb⟩ :=
    evtPrompt_due_next (s := { s with cfg := { s.cfg with reverse := true } }) hdue hb hbfault
  have hneg : decision { s with cfg := { s.cfg with reverse := true } } = -decision s := by
    rw [decision, decision, hreverse]
    rfl
  rw [hneg] at hfb hframeb hbufb
  have hmark : (BitVec.ofInt 64 (-decision s)).toInt = -(BitVec.ofInt 64 (decision s)).toInt := by
    rw [toInt_ofInt_fits hfa, toInt_ofInt_fits hfb]
  refine ⟨?_, ?_, fun i hi => ?_, ?_⟩
  · rw [hframea, hframeb]
    exact hmark
  · rw [hbufa, hbufb, shiftIn_entry_tail, shiftIn_entry_tail, hmark]
  · rw [hbufa, hbufb, shiftIn_entry _ _ _ (by omega), shiftIn_entry _ _ _ (by omega), if_neg hi.ne, if_neg hi.ne]
  · rw [hframea, hframeb]
    exact ⟨rfl, rfl, rfl, rfl, rfl, rfl⟩

end Machine
end Sys2Proof
end

section
/-! SUPPORT. Codewords, the search for the character phase and the two searching states, each run alone (spec R170, R171,
R177, R178, R180). -/

open Sys2Proof.Claims

namespace Sys2Proof
namespace Machine

variable {s : State}

/-! ## Codeword primitives (R170, R171) -/

/-- R170: the codeword depends on the signs alone. -/
theorem getLsbD_bitsToCode (v : Soft7) (k : Fin 7) : (bitsToCode v).getLsbD k = decide (0 < v[k]) := by
  rw [bitsToCode, BitVec.getLsbD_ofNat, decide_eq_true k.isLt, Bool.true_and, codeOfList_testBit]
  simp

theorem popcount_bitsToCode (v : Soft7) : Codeword.popcount (bitsToCode v) = positives v := by
  unfold Codeword.popcount positives
  rw [← countP_testBit_codeOfList, Vector.length_toList]
  refine List.countP_congr fun k hk => ?_
  rw [bitsToCode, BitVec.getLsbD_ofNat, decide_eq_true (List.mem_range.mp hk), Bool.true_and]

/-- Settles O37: the bits are the signs, and the ones are the positive soft bits. -/
theorem codewordPrimitives : Obligations.CodewordPrimitives := by
  unfold Obligations.CodewordPrimitives
  intro v s hs
  refine ⟨bitsToCode v, ?_, getLsbD_bitsToCode v, ?_, ?_⟩
  · rw [exec, execBitsToCode, finish_ok hs]
    rfl
  · rw [exec, execValidChar, finish_ok hs]
    rfl
  · rw [popcount_bitsToCode]
    rfl

/-! ## FIND_ALPHA (R180) -/

/-- A read inside the buffer is the seven soft bits from its index on. -/
theorem memRead7_eq_slot {k : StepId} (b : BitBuf) {i : ℕ} (hi : i ≤ 93) : memRead7 k b i = .ok (slot b i) :=
  memRead7_eq_ok_iff.mpr ⟨by omega, rfl⟩

/-- The score and the reps of a walk. -/
def scoreOf (r : ℕ × ℕ) : Score := ⟨r.1, r.2⟩

theorem walk_of_ge (b : BitBuf) {i : ℕ} (hi : 93 ≤ i) (fuel score reps : ℕ) :
    walk b fuel i score reps = (score, reps) := by
  cases fuel with
  | zero => rfl
  | succ fuel => exact if_neg (by omega)

/-- R180: one window of the plain loop is one window of the search. -/
theorem walk_step (b : BitBuf) {i : ℕ} (hlow : 35 ≤ i) (hhigh : i < 93) (score reps : ℕ) :
    ∃ score' reps', scoreWindow b ⟨score, reps⟩ i = .ok ⟨score', reps'⟩ ∧
      ∀ fuel, walk b (fuel + 1) i score reps = walk b fuel (i + 7) score' reps' := by
  refine ⟨_, _, ?_, fun fuel => if_pos hhigh⟩
  have hdist : (i : Int) - repDist = (i - 35 : ℕ) := by rw [Nat.cast_sub hlow]
  have hchar : (i : Int) - charBits = (i - 7 : ℕ) := by rw [Nat.cast_sub (by omega)]
  rw [scoreWindow, hdist, hchar, memRead7_eq_slot b hhigh.le, memRead7_eq_slot b (by omega),
    memRead7_eq_slot b (by omega)]
  simp only [ok_bind, pure, Except.pure]
  generalize bitsToCode (slot b i) = code, bitsToCode (slot b (i - 35)) = earlier, bitsToCode (slot b (i - 7)) = before
  cases validChar (slot b i) with
  | false => rfl
  | true =>
    by_cases hsame : code = earlier
    · subst hsame
      by_cases hcontrol : code = 0x0F#7 ∨ code = 0x66#7 <;>
        simp [hcontrol, Codeword.alpha, Codeword.rep, -not_or]
    · by_cases halpha : code = 0x0F#7
      · by_cases hbefore : before = 0x66#7 <;> simp [hsame, ← halpha, hbefore, Codeword.alpha, Codeword.rep]
      · simp [hsame, halpha, Codeword.alpha]

/-- The windows of a walk from `i` on: `n` of them, those below 93. -/
def windowsFrom (i n : ℕ) : List ℕ := ((List.range n).map fun k => i + 7 * k).filter fun j => j < 93

theorem windowsFrom_of_ge {i : ℕ} (hi : 93 ≤ i) (n : ℕ) : windowsFrom i n = [] := by
  simp only [windowsFrom, List.filter_eq_nil_iff, List.mem_map, decide_eq_true_eq]
  rintro _ ⟨k, -, rfl⟩
  omega

theorem windowsFrom_succ {i : ℕ} (hi : i < 93) (n : ℕ) : windowsFrom i (n + 1) = i :: windowsFrom (i + 7) n := by
  have hshift : (fun k => i + 7 * k) ∘ Nat.succ = fun k => i + 7 + 7 * k := by
    funext k
    simp only [Function.comp]
    omega
  rw [windowsFrom, List.range_succ_eq_map, List.map_cons, List.map_map, hshift]
  exact List.filter_cons_of_pos (by simpa using hi)

/-- R180, the inner loop: the walk over `n` windows that reach the end of the buffer. -/
theorem scoreWindows_eq_walk (b : BitBuf) {i n : ℕ} (hlow : 35 ≤ i) (hend : 93 ≤ i + 7 * n) (fuel score reps : ℕ) :
    (windowsFrom i n).foldlM (scoreWindow b) ⟨score, reps⟩ = .ok (scoreOf (walk b (n + fuel) i score reps)) := by
  induction n generalizing i score reps with
  | zero =>
    rw [walk_of_ge b (by omega)]
    rfl
  | succ n ih =>
    by_cases hi : i < 93
    · obtain ⟨score', reps', hscore, hwalk⟩ := walk_step b hlow hi score reps
      rw [windowsFrom_succ hi, List.foldlM_cons, hscore, Nat.add_right_comm, hwalk]
      exact ih (by omega) (by omega) score' reps'
    · rw [windowsFrom_of_ge (not_lt.mp hi), walk_of_ge b (not_lt.mp hi)]
      rfl

theorem scoreOffset_eq_walk (b : BitBuf) {off : ℕ} (hlow : 35 ≤ off) :
    scoreOffset b off = .ok (scoreOf (walk b 100 off 0 0)) :=
  scoreWindows_eq_walk b hlow (n := 14) (by omega) 86 0 0

/-- R180, the outer loop's body, as `Claims.search` writes it: the best offset and its total after offset 35 + k. -/
def tried (b : BitBuf) (best : Int × ℕ) (k : ℕ) : Int × ℕ :=
  let r := walk b 100 (35 + k) 0 0
  if 3 ≤ r.2 ∧ best.2 < r.1 + r.2 then (((35 + k : ℕ) : Int), r.1 + r.2) else best

theorem search_eq (b : BitBuf) :
    search b =
      if 8 < ((List.range 14).foldl (tried b) (-1, 0)).2 then ((List.range 14).foldl (tried b) (-1, 0)).1 else -1 := rfl

/-- The best offset and its total. -/
def bestOf (best : Int × ℕ) : Best := ⟨best.1, best.2⟩

theorem tryOffset_eq_tried (b : BitBuf) (best : Int × ℕ) (k : ℕ) :
    tryOffset b (bestOf best) (35 + k) = .ok (bestOf (tried b best k)) := by
  rw [tryOffset, scoreOffset_eq_walk b (Nat.le_add_right 35 k), ok_bind, tried, apply_ite bestOf, apply_ite Except.ok]
  rfl

/-- The offsets' fold, offset by offset. -/
theorem tryOffsets_eq_tried (b : BitBuf) (l : List ℕ) (best : Int × ℕ) :
    (l.map fun k => 35 + k).foldlM (tryOffset b) (bestOf best) = .ok (bestOf (l.foldl (tried b) best)) := by
  induction l generalizing best with
  | nil => rfl
  | cons k l ih =>
    rw [List.map_cons, List.foldlM_cons, tryOffset_eq_tried, ok_bind]
    exact ih _

theorem findAlpha_eq_search (b : BitBuf) : findAlpha b = .ok (search b) := by
  have hfold := tryOffsets_eq_tried b (List.range 14) (-1, 0)
  rw [findAlpha, show syncOffsets.foldlM (tryOffset b) ⟨-1, 0⟩ = _ from hfold, search_eq]
  rfl

/-- R180: an offset that the search finds is at least 35. -/
theorem findAlpha_eq_neg_one_or_ge {b : BitBuf} {off : Int} (h : findAlpha b = .ok off) : off = -1 ∨ 35 ≤ off := by
  rw [findAlpha, bind_eq_ok_iff] at h
  obtain ⟨best, hbest, h⟩ := h
  have hfound : best.total = 0 ∨ 35 ≤ best.off := foldlM_keeps (fun _ best => best.total = 0 ∨ 35 ≤ best.off)
    (fun off hoff _ best best' hkept h => by
      have := le_of_mem_syncOffsets hoff
      rcases tryOffset_ok h with hnew | rfl
      · omega
      · exact hkept) (n := 0) (.inl rfl) hbest
  rw [pure_eq_ok_iff] at h
  split at h
  · omega
  · exact .inl h

theorem search_between (b : BitBuf) : search b = -1 ∨ (35 ≤ search b ∧ search b ≤ 48) :=
  (findAlpha_eq_neg_one_or_ge (findAlpha_eq_search b)).imp_right (⟨·, findAlpha_le (findAlpha_eq_search b)⟩)

theorem findAlpha_next (hs : s.fault = none) : exec .findAlpha s = .next { s with ret := .int (search s.rx.bitbuf) } := by
  rw [exec, execFindAlpha, findAlpha_eq_search]
  exact congrArg _ (finish_ok hs)

/-- Settles O36: the two folds of the model are the two plain loops. -/
theorem findAlphaIsTheSearch : Obligations.FindAlphaIsTheSearch := by
  unfold Obligations.FindAlphaIsTheSearch
  exact fun s hs => ⟨findAlpha_next hs, search_between s.rx.bitbuf⟩

/-! ## SM_SYNC_SETUP and SM_SYNC (R177, R178) -/

/-- Settles O33: the three writes of the rule. -/
theorem smSyncSetupResult : Obligations.SmSyncSetupResult := by
  unfold Obligations.SmSyncSetupResult
  intro s hs
  rw [exec, execSmSyncSetup, finish_ok hs]
  rfl

/-- Settles O34, with the offset of the search. -/
theorem smSyncResult : Obligations.SmSyncResult := by
  unfold Obligations.SmSyncResult
  intro s hs
  have hrange := search_between s.rx.bitbuf
  refine ⟨search s.rx.bitbuf, findAlpha_next hs, fun hfound => ?_, fun hfailed => ?_⟩
  · have hcursor : toUnsigned .smSync 7 (search s.rx.bitbuf) = .ok (BitVec.ofInt 7 (search s.rx.bitbuf)) :=
      toUnsigned_eq_ok_iff.mpr ⟨by omega, rfl⟩
    refine ⟨?_, by omega⟩
    rw [exec, execSmSync, smSync, findAlpha_eq_search, ok_bind, if_pos hfound, hcursor]
    exact congrArg _ (finish_ok hs)
  · rw [exec, execSmSync, smSync, findAlpha_eq_search, ok_bind, if_neg (not_le.mpr hfailed)]
    exact congrArg _ (finish_ok hs)

end Machine
end Sys2Proof
end

section
/-! SUPPORT. SM_READ_DATA run alone (spec R179, R232): what a slot is, as one equation per branch. -/

namespace Sys2Proof
namespace Machine

variable {s t u : State}

/-! ## PROCESS_BYTES seen from a slot (R200) -/

/-- What PROCESS_BYTES leaves of the slot's own registers (R201). -/
theorem Decoded.slotRegs (h : Decoded s u) :
    u.ret = s.ret ∧ u.fault = s.fault ∧ u.rx.rxState = s.rx.rxState ∧ u.rx.bitCursor = s.rx.bitCursor := by
  cases h <;> exact ⟨rfl, rfl, rfl, rfl⟩

/-- PROCESS_BYTES run alone that ends without a fault computed its state and its charge. -/
theorem processBytes_of_next {c : BitVec 7} {r : Int} (h : exec (.processBytes c) s = .next t) (ht : t.fault = none)
    (hr : t.ret = .int r) : ∃ u, processBytes s c.toNat = .ok (u, r) ∧ t = u.setRet (.int r) := by
  obtain ⟨⟨u, r'⟩, hu, rfl⟩ := map_eq_ok_iff.mp (live_of_next h ht).2
  obtain rfl : r' = r := by simpa using hr
  exact ⟨u, hu, rfl⟩

/-- PROCESS_BYTES run alone that ends with a fault raised it. -/
theorem processBytes_error_of_next {c : BitVec 7} (hs : s.fault = none) (h : exec (.processBytes c) s = .next t)
    (ht : t.fault ≠ none) : ∃ e, processBytes s c.toNat = .error e ∧ t = s.raise e := by
  rw [exec, execProcessBytes] at h
  cases hrun : processBytes s c.toNat with
  | error e => exact ⟨e, rfl, by rw [← next_inj h, finish_map_error hs hrun]⟩
  | ok p =>
    obtain ⟨-, hfault, -⟩ := (processBytes_ok (n := p.2) hrun).1.slotRegs
    rw [← next_inj h, finish_map_ok hs hrun, State.setRet_fault, hfault] at ht
    exact absurd hs ht

/-! ## The slot (R179) -/

/-- A slot passed: the phase toggled and the cursor a character on. -/
def passed (t : State) : State :=
  t.setRx { t.rx with alphaPhase := !t.rx.alphaPhase, bitCursor := t.rx.bitCursor + 7#7 }

/-- The error count `e` charged, and the state it chooses. -/
def charged (u : State) (e : BitVec 8) : State :=
  u.setRx { u.rx with
    errorCount := e
    rxState := if errLimit < e.toNat then rxSyncSetup else u.rx.rxState }

/-- The error count after a charge of `r`, with a floor at 0. -/
def chargedCount (s : State) (r : Int) : Int := max ((s.rx.errorCount.toNat : Int) - r) 0

theorem smReadData_waiting (h : 93 ≤ s.rx.bitCursor.toNat) : smReadData s = .ok s := if_neg (not_lt.mpr h)

/-- The advance of the cursor fits its register. -/
theorem toUnsigned_advance {c : BitVec 7} (h : c.toNat < 93) :
    toUnsigned .smReadData 7 ((c.toNat : Int) + charBits) = .ok (c + 7#7) := by
  have hchar : (charBits : Int) = 7 := rfl
  exact toUnsigned_eq_ok_iff.mpr ⟨by omega, by simp [BitVec.ofInt_add]⟩

theorem smReadData_slot (h : s.rx.bitCursor.toNat < 93) :
    smReadData s = (if s.rx.alphaPhase then alphaSlot s else .ok s).map passed := by
  have hadvance {t : State} (ht : t.rx.bitCursor = s.rx.bitCursor) :
      toUnsigned .smReadData 7 ((t.rx.bitCursor.toNat : Int) + charBits) = .ok (t.rx.bitCursor + 7#7) :=
    toUnsigned_advance (by rwa [ht])
  refine (if_pos h).trans ?_
  cases s.rx.alphaPhase with
  | false =>
    dsimp only
    rw [if_neg Bool.false_ne_true, pure_bind, hadvance rfl]
    rfl
  | true =>
    dsimp only
    rw [if_pos rfl, if_pos rfl]
    cases hslot : alphaSlot s with
    | error e => rfl
    | ok t =>
      rw [ok_bind, hadvance (alphaSlot_cursor hslot)]
      rfl

/-- R179, R232: an alpha slot charges what PROCESS_BYTES answers, where the count fits. -/
theorem alphaSlot_of_decoded {r : Int} (h : processBytes s s.rx.bitCursor.toNat = .ok (u, r)) :
    alphaSlot s =
      if chargedCount s r ≤ 255 then .ok (charged u (BitVec.ofInt 8 (chargedCount s r)))
      else .error (.intRange .smReadData) := by
  have hfits : (0 ≤ chargedCount s r ∧ chargedCount s r < 2 ^ 8) ↔ chargedCount s r ≤ 255 := by
    rw [chargedCount]
    omega
  rw [alphaSlot, h, ok_bind]
  dsimp only
  rw [(processBytes_ok h).1.errorCount, ← chargedCount, toUnsigned, if_congr hfits rfl rfl]
  split <;> rfl

theorem alphaSlot_of_error {e : FaultRec} (h : processBytes s s.rx.bitCursor.toNat = .error e) :
    alphaSlot s = .error e := by
  rw [alphaSlot, h]
  rfl

/-- R179: the state an alpha slot leaves, where the count fits. -/
theorem passed_charged (h : Decoded s u) {r : Int} (hfits : chargedCount s r ≤ 255) :
    passed (charged u (BitVec.ofInt 8 (chargedCount s r))) =
      { u.setRet (.int r) with
        ret := s.ret
        rx := { u.rx with
          errorCount := BitVec.ofInt 8 (chargedCount s r)
          rxState := if 5 < chargedCount s r then 0#2 else s.rx.rxState
          alphaPhase := !u.rx.alphaPhase
          bitCursor := s.rx.bitCursor + 7#7 } } := by
  obtain ⟨hret, -, hstate, hcursor⟩ := h.slotRegs
  have hcount : ((BitVec.ofInt 8 (chargedCount s r)).toNat : Int) = chargedCount s r :=
    toUnsigned_toNat (k := .smReadData)
      (toUnsigned_eq_ok_iff.mpr ⟨⟨le_max_right _ _, Int.lt_add_one_of_le hfits⟩, rfl⟩)
  have hlimit : errLimit < (BitVec.ofInt 8 (chargedCount s r)).toNat ↔ 5 < chargedCount s r := by
    rw [← Int.ofNat_lt, hcount]
    rfl
  rw [← hret, ← hstate, ← hcursor, charged, if_congr hlimit rfl rfl]
  rfl

/-- Settles O35: the slot is passed after the charge, and the charge is that of PROCESS_BYTES run alone. -/
theorem smReadDataResult : Obligations.SmReadDataResult := by
  unfold Obligations.SmReadDataResult
  intro s hs
  refine ⟨fun hwait => ?_, fun hslot hphase => ?_, fun hslot hphase t r hrun ht hr => ?_,
    fun hslot hphase t hrun ht => ?_, fun herrors hsoft => ?_⟩
  · rw [exec, execSmReadData, smReadData_waiting hwait, finish_ok hs]
  · rw [exec, execSmReadData, smReadData_slot hslot, hphase, if_neg Bool.false_ne_true, finish_map_ok hs rfl,
      passed, hphase]
    rfl
  · obtain ⟨u, hu, rfl⟩ := processBytes_of_next hrun ht hr
    rw [exec, execSmReadData, smReadData_slot hslot, hphase, if_pos rfl, alphaSlot_of_decoded hu]
    refine ⟨fun (hbig : 255 < chargedCount s r) => ?_, fun (hfits : chargedCount s r ≤ 255) => ?_⟩
    · rw [if_neg (not_le.mpr hbig)]
      exact congrArg _ (finish_error hs)
    · rw [if_pos hfits]
      exact congrArg _ ((finish_ok hs).trans (passed_charged (processBytes_ok hu).1 hfits))
  · obtain ⟨e, he, rfl⟩ := processBytes_error_of_next hs hrun ht
    rw [exec, execSmReadData, smReadData_slot hslot, hphase, if_pos rfl, alphaSlot_of_error he]
    exact congrArg _ (finish_error hs)
  · obtain ⟨t, ht⟩ := (smReadData_rangeChecked s).completes ⟨herrors, hsoft⟩
    have hframe : t = { s with rx := t.rx, out := t.out } := smReadData_bitLevel ht
    exact ⟨t, by rw [exec, execSmReadData, ht, finish_ok hs], by rw [hframe]; exact hs, hframe,
      (smReadData_keeps ht).bitbuf⟩

end Machine
end Sys2Proof
end

section
/-! SUPPORT. BIT_IN run alone (spec R175, R176): the shift-in, and then the state action run alone. -/

open Sys2Proof.Claims

namespace Sys2Proof
namespace Machine

variable {s : State} {v : Int}

/-- R236: the bit-level registers are none of what an imprecise fault leaves. -/
theorem finish_setRx {r : RxRegs} {y : Except FaultRec State} (hs : s.fault = none)
    (hy : ∀ e, y = .error e → e.precise = false) : (s.setRx r).finish y = s.finish y := by
  cases y with
  | ok t => rw [finish_ok hs, finish_ok (s := s.setRx r) hs]
  | error e =>
    rw [finish_error hs, finish_error (s := s.setRx r) hs, State.raise, State.raise, hy e rfl]
    rfl

/-- R176: the shift-in, and the cursor's decrement with its floor, where the soft bit fits. -/
theorem shiftBit_eq_shifted (s : State) (h : fitsI64 v = true) : shiftBit s v = .ok (shifted s v) := by
  have hlt := s.rx.bitCursor.isLt
  have hfloor : max ((s.rx.bitCursor.toNat : Int) - 1) 0 = ((s.rx.bitCursor.toNat - 1 : ℕ) : Int) := by omega
  have hcursor : toUnsigned .bitIn 7 ((s.rx.bitCursor.toNat - 1 : ℕ) : Int) =
      .ok (BitVec.ofNat 7 (s.rx.bitCursor.toNat - 1)) :=
    toUnsigned_eq_ok_iff.mpr ⟨by omega, (BitVec.ofInt_natCast 7 _).symm⟩
  rw [shiftBit, toI64_bind, if_pos h, hfloor, hcursor]
  rfl

theorem bitIn_not_fits (s : State) (h : fitsI64 v = false) : bitIn s v = .error (.intRange .bitIn) := by
  rw [bitIn, shiftBit, toI64_error h]
  rfl

/-- R175: the state action, chosen by the state on entry. -/
theorem bitIn_fits (s : State) (h : fitsI64 v = true) :
    bitIn s v =
      if s.rx.rxState = rxSyncSetup then .ok (smSyncSetup (shifted s v))
      else if s.rx.rxState = rxSync then smSync (shifted s v)
      else if s.rx.rxState = rxReadData then smReadData (shifted s v)
      else .error (.intRange .bitIn) := by
  rw [bitIn, shiftBit_eq_shifted s h]
  rfl

/-- BIT_IN run alone is the action `y` run alone after the shift-in, whose only faults are imprecise. -/
theorem bitIn_next_action {P : Prop} {y : Except FaultRec State} (hs : s.fault = none) (hrun : bitIn s v = y)
    (hy : RangeChecked P y) : exec (.bitIn v) s = .next ((shifted s v).finish y) := by
  rw [exec, execBitIn, hrun]
  exact congrArg _ (finish_setRx hs fun e => hy.imprecise).symm

/-- R175, R232: the reserved state has no action. -/
theorem bitIn_reserved (v : Int) (h : s.rx.rxState = 3#2) : bitIn s v = .error (.intRange .bitIn) := by
  cases hfits : fitsI64 v with
  | false => exact bitIn_not_fits s hfits
  | true =>
    rw [bitIn_fits s hfits, h]
    rfl

/-- Settles O31: each action run alone after the shift-in, the two faults, and what the handler's own frame says. -/
theorem bitInResult : Obligations.BitInResult := by
  unfold Obligations.BitInResult
  intro v s hs fits
  have hfault : bitIn s v = .error (.intRange .bitIn) →
      exec (.bitIn v) s = .next (s.raise (.intRange .bitIn)) := fun h => by
    rw [exec, execBitIn, h, finish_error hs]
  refine ⟨fun hfits hstate => ?_, fun hfits hstate => ?_, fun hfits hstate => ?_,
    fun hstate => hfault (bitIn_reserved v hstate), fun hfits => hfault (bitIn_not_fits s ?_),
    fun hstate herrors hsoft hsmall => ?_⟩
  · refine bitIn_next_action (P := True) hs ?_ (.ok _)
    rw [bitIn_fits s (fitsI64_iff.mpr hfits), hstate]
    rfl
  · refine bitIn_next_action hs ?_ (smSync_rangeChecked _)
    rw [bitIn_fits s (fitsI64_iff.mpr hfits), hstate]
    rfl
  · refine bitIn_next_action hs ?_ (smReadData_rangeChecked _)
    rw [bitIn_fits s (fitsI64_iff.mpr hfits), hstate]
    rfl
  · rwa [← Bool.not_eq_true, fitsI64_iff]
  · obtain ⟨t, ht⟩ := (bitIn_rangeChecked s v).completes ⟨⟨herrors, hsoft⟩, hstate, hsmall⟩
    have hframe : t = { s with rx := t.rx, out := t.out } := bitIn_bitLevel ht
    have htail : (BitVec.ofInt 64 v).toInt = v := toInt_ofInt_fits (fitsI64_iff.mpr (by omega))
    refine ⟨t, by rw [exec, execBitIn, ht, finish_ok hs], by rw [hframe]; exact hs, hframe, fun i hi => ?_, ?_⟩
    · rw [bitIn_bitbuf ht, shiftIn_entry _ _ _ (by omega), if_neg hi.ne]
    · rw [bitIn_bitbuf ht, shiftIn_entry_tail, htail]

end Machine
end Sys2Proof
end

section
/-! SUPPORT. FLIP_SMALLEST (spec R205, R206): which soft bit each branch picks, and what its negation makes of the
count of positive soft bits. -/

namespace Sys2Proof
namespace Machine

variable {s : State} {v w : Soft7}

/-! ## The bit that is picked (R205, D27) -/

/-- The index of a soft bit of the vector is that of its first occurrence. -/
theorem exists_first_index {m : Int} (hm : m ∈ v.toList) :
    ∃ j : Fin 7, v.toList.idxOf m = j ∧ v[j] = m ∧ ∀ k : Fin 7, v[k] = m → j ≤ k := by
  have hlt : v.toList.idxOf m < v.toList.length := List.idxOf_lt_length_of_mem hm
  refine ⟨⟨v.toList.idxOf m, by simpa using hlt⟩, rfl, ?_, fun k hk => ?_⟩
  · exact (Vector.getElem_toList hlt).symm.trans (List.getElem_idxOf hlt)
  · refine Fin.le_def.mpr (not_lt.mp fun hbefore => ?_)
    have hne := List.not_of_lt_findIdx (p := (· == m)) hbefore
    rw [Vector.getElem_toList] at hne
    exact absurd hk (by simpa using hne)

/-- The first index of the soft bit `m` that is extremal, in the order `r`, among those that satisfy `p`. -/
theorem exists_picked {p : Int → Bool} {r : Int → Int → Prop} {m : Int} (hm : m ∈ v.toList.filter p)
    (hr : ∀ x ∈ v.toList.filter p, r x m) :
    ∃ j : Fin 7, v.toList.idxOf m = j ∧ p v[j] = true ∧
      ∀ k : Fin 7, p v[k] = true → r v[k] v[j] ∧ (v[k] = v[j] → j ≤ k) := by
  obtain ⟨hmem, hp⟩ := List.mem_filter.mp hm
  obtain ⟨j, hj, rfl, hfirst⟩ := exists_first_index hmem
  have hfilter {k : Fin 7} (hk : p v[k] = true) : v[k] ∈ v.toList.filter p :=
    List.mem_filter.mpr ⟨Vector.mem_toList_iff.mpr (Vector.getElem_mem k.isLt), hk⟩
  exact ⟨j, hj, hp, fun k hk => ⟨hr _ (hfilter hk), hfirst k⟩⟩

theorem exists_closestNegative (h : 0 < negatives v) :
    ∃ j : Fin 7, closestNegative v = some j.val ∧ v[j] < 0 ∧
      ∀ k : Fin 7, v[k] < 0 → v[k] ≤ v[j] ∧ (v[k] = v[j] → j ≤ k) := by
  obtain ⟨x, hx⟩ := List.exists_mem_of_length_pos (h.trans_eq List.countP_eq_length_filter)
  obtain ⟨m, hmax⟩ := Option.isSome_iff_exists.mp (List.isSome_max?_of_mem hx)
  obtain ⟨hm, hle⟩ := List.max?_eq_some_iff.mp hmax
  obtain ⟨j, hj, hneg, hpicked⟩ := exists_picked (r := (· ≤ ·)) hm hle
  exact ⟨j, by rw [closestNegative, hmax, Option.map_some, hj], of_decide_eq_true hneg,
    fun k hk => hpicked k (decide_eq_true hk)⟩

theorem exists_smallestPositive (h : 0 < positives v) :
    ∃ j : Fin 7, smallestPositive v = some j.val ∧ 0 < v[j] ∧
      ∀ k : Fin 7, 0 < v[k] → v[j] ≤ v[k] ∧ (v[k] = v[j] → j ≤ k) := by
  obtain ⟨x, hx⟩ := List.exists_mem_of_length_pos (h.trans_eq List.countP_eq_length_filter)
  obtain ⟨m, hmin⟩ := Option.isSome_iff_exists.mp (List.isSome_min?_of_mem hx)
  obtain ⟨hm, hle⟩ := List.min?_eq_some_iff.mp hmin
  obtain ⟨j, hj, hpos, hpicked⟩ := exists_picked (r := (· ≥ ·)) hm hle
  exact ⟨j, by rw [smallestPositive, hmin, Option.map_some, hj], of_decide_eq_true hpos,
    fun k hk => hpicked k (decide_eq_true hk)⟩

/-! ## The negation -/

theorem negateAt_some (v : Soft7) (j : Fin 7) :
    negateAt v (some j.val) =
      if fitsI64 (-v[j]) then .ok (v.set j (-v[j])) else .error (.intRange .flipSmallest) := by
  have hget : v.toList[j.val]?.getD 0 = v[j] := by simp
  have hset (n : Int) : v.setIfInBounds j n = v.set j n := by
    rw [← Vector.toList_inj, Vector.toList_setIfInBounds, Vector.toList_set]
  rw [negateAt, hget, hset]

theorem negateAt_ok {j : Fin 7} (h : negateAt v (some j.val) = .ok w) : w = v.set j (-v[j]) := by
  rw [negateAt_some] at h
  split at h <;> cases h
  rfl

theorem flipSmallest_negative (h : negatives v = 4) : flipSmallest v = negateAt v (closestNegative v) := if_pos h

theorem flipSmallest_positive (hneg : negatives v ≠ 4) (hpos : positives v = 4) :
    flipSmallest v = negateAt v (smallestPositive v) :=
  (if_neg hneg).trans (if_pos (congrArg (· + 1) hpos))

theorem flipSmallest_unchanged (hneg : negatives v ≠ 4) (hpos : positives v ≠ 4) : flipSmallest v = .ok v :=
  (if_neg hneg).trans (if_neg (hpos ∘ Nat.succ.inj))

/-! ## FLIP_SMALLEST run alone (R205) -/

/-- A flip of soft bit `j` run alone: the copy with that bit negated, where the negation fits 64 bits. -/
theorem flipSmallest_next {j : Fin 7} (hs : s.fault = none) (h : flipSmallest v = negateAt v (some j.val)) :
    (fitsI64 (-v[j]) = true → exec (.flipSmallest v) s = .next { s with ret := .soft (v.set j (-v[j])) }) ∧
    (fitsI64 (-v[j]) = false → exec (.flipSmallest v) s = .next (s.raise (.intRange .flipSmallest))) := by
  rw [negateAt_some] at h
  refine ⟨fun hfits => ?_, fun hfits => ?_⟩
  · rw [if_pos hfits] at h
    exact congrArg _ (finish_map_ok hs h _)
  · rw [if_neg (Bool.eq_false_iff.mp hfits)] at h
    exact congrArg _ (finish_map_error hs h _)

/-- Settles O40: one branch picks the negative bit closest to zero, the other the smallest positive one. -/
theorem flipSmallestResult : Obligations.FlipSmallestResult := by
  unfold Obligations.FlipSmallestResult
  intro v s hs c0 c1 flips
  refine ⟨fun (hneg : negatives v = 4) => ?_, fun (hneg : negatives v ≠ 4) (hpos : positives v + 1 = 5) => ?_,
    fun (hneg : negatives v ≠ 4) (hpos : positives v + 1 ≠ 5) => ?_⟩
  · obtain ⟨j, hj, hlt, hclosest⟩ := exists_closestNegative (v := v) (by omega)
    exact ⟨j, hlt, hclosest, flipSmallest_next hs (by rw [flipSmallest_negative hneg, hj])⟩
  · obtain ⟨j, hj, hlt, hsmallest⟩ := exists_smallestPositive (v := v) (by omega)
    exact ⟨j, hlt, hsmallest, flipSmallest_next hs (by rw [flipSmallest_positive hneg (by omega), hj])⟩
  · exact congrArg _ (finish_map_ok hs (flipSmallest_unchanged hneg (by omega)) _)

/-! ## What a flip repairs (R206) -/

theorem negatives_add_positives_le (v : Soft7) : negatives v + positives v ≤ 7 := by
  have hsplit := List.length_eq_countP_add_countP (fun x : Int => decide (0 < x)) (l := v.toList)
  have hle : negatives v ≤ v.toList.countP (fun x => decide ¬decide (0 < x) = true) :=
    List.countP_mono_left fun x _ hx => by
      have hneg : x < 0 := of_decide_eq_true hx
      simpa using hneg.le
  rw [Vector.length_toList] at hsplit
  rw [positives]
  omega

/-- Negating a negative soft bit makes one more positive. -/
theorem positives_set_neg {j : Fin 7} (h : v[j] < 0) : positives (v.set j (-v[j])) = positives v + 1 := by
  have hlen : j.val < v.toList.length := by simp
  have hold : v.toList[j.val] = v[j] := Vector.getElem_toList hlen
  rw [positives, Vector.toList_set, List.countP_set hlen, hold, if_neg (by simpa using h.le),
    if_pos (by simpa using h)]
  rfl

/-- R206: FLIP_SMALLEST of an invalid vector adds a positive soft bit to one with four negative ones, and changes no
other. -/
theorem flipSmallest_of_invalid (hv : positives v ≠ 4) (h : flipSmallest v = .ok w) :
    (negatives v = 4 ∧ positives w = positives v + 1) ∨ (negatives v ≠ 4 ∧ w = v) := by
  by_cases hneg : negatives v = 4
  · obtain ⟨j, hj, hlt, -⟩ := exists_closestNegative (v := v) (by omega)
    rw [flipSmallest_negative hneg, hj] at h
    exact .inl ⟨hneg, by rw [negateAt_ok h, positives_set_neg hlt]⟩
  · rw [flipSmallest_unchanged hneg hv] at h
    cases h
    exact .inr ⟨hneg, rfl⟩

/-- Settles O41: a flip of an invalid vector that changes it has four negative soft bits and adds one positive. -/
theorem flipRepairsOnlyPopcountThree : Obligations.FlipRepairsOnlyPopcountThree := by
  unfold Obligations.FlipRepairsOnlyPopcountThree
  intro v w h
  refine ⟨fun hv hw => ?_, fun (hfive : positives v = 5) => ?_⟩
  · have hinvalid : positives v ≠ 4 := by simpa [validChar] using hv
    have hvalid : positives w = 4 := by simpa [validChar] using hw
    obtain ⟨hneg, hpos⟩ | ⟨-, rfl⟩ := flipSmallest_of_invalid hinvalid h
    · exact ⟨hneg, Nat.succ.inj (hpos.symm.trans hvalid)⟩
    · exact absurd hvalid hinvalid
  · have hseven := negatives_add_positives_le v
    obtain ⟨hneg, -⟩ | ⟨-, rfl⟩ := flipSmallest_of_invalid (by omega) h
    · omega
    · rfl

end Machine
end Sys2Proof
end

section
/-! SUPPORT. PROCESS_CHAR and PROCESS_BYTES run alone (spec R86, R200, R201, R210), and REP after REP in a
slot (R211). -/

open Sys2Proof.Claims

namespace Sys2Proof
namespace Machine

variable {s t u : State} {a r v fa fr fv : Soft7}

/-! ## PROCESS_CHAR (R86, R210) -/

/-- The fields of a record (R86). -/
theorem recordOf_fields (path : BitVec 3) (shift : Bool) (code : Code7) :
    (recordOf path shift code).extractLsb' 0 7 = code ∧ (recordOf path shift code).getLsbD 7 = shift ∧
      (recordOf path shift code).extractLsb' 8 3 = path ∧ (recordOf path shift code).extractLsb' 11 5 = 0#5 := by
  have hrec := toNat_recordOf path shift code
  have hbit : shift.toNat ≤ 1 := Bool.toNat_le shift
  refine ⟨BitVec.eq_of_toNat_eq ?_, ?_, BitVec.eq_of_toNat_eq ?_, BitVec.eq_of_toNat_eq ?_⟩
  · rw [BitVec.extractLsb'_toNat, hrec]
    omega
  · have hdiv : (path.toNat * 2 ^ 8 + (shift.toNat * 2 ^ 7 + code.toNat)) / 2 ^ 7 % 2 = shift.toNat := by omega
    rw [BitVec.getLsbD, hrec, Nat.testBit_eq_decide_div_mod_eq, hdiv]
    cases shift <;> rfl
  · rw [BitVec.extractLsb'_toNat, hrec]
    omega
  · rw [BitVec.extractLsb'_toNat, hrec, BitVec.toNat_ofNat]
    omega

/-- Settles O42: the record's fields are read back. -/
theorem processCharResult : Obligations.ProcessCharResult := by
  unfold Obligations.ProcessCharResult
  intro code path s hs sh
  refine ⟨recordOf path sh code, ?_, recordOf_fields path sh code⟩
  rw [exec, execProcessChar, finish_ok hs]
  rfl

/-! ## The steps of PROCESS_BYTES (R200) -/

theorem processBytes_past {c : ℕ} (h : 93 < c) : processBytes s c = .error (.intRange .processBytes) := by
  rw [processBytes, memRead7_error (by omega)]
  rfl

theorem processBytes_valid {c : ℕ} (hc : c ≤ 93) (ha : validChar (slot s.rx.bitbuf c) = true) :
    processBytes s c = .ok (processChar s (bitsToCode (slot s.rx.bitbuf c)) pathAlpha, 1) := by
  rw [processBytes, memRead7_eq_slot _ hc, ok_bind, if_pos ha]
  rfl

theorem processBytes_noRep {c : ℕ} (hc : c < 35) (ha : validChar (slot s.rx.bitbuf c) = false) :
    processBytes s c = .ok (s, -1) := by
  have hdist : (c : Int) - repDist < 0 := by
    rw [show (repDist : Int) = 35 from rfl]
    omega
  rw [processBytes, memRead7_eq_slot _ (by omega), ok_bind, if_neg (Bool.eq_false_iff.mp ha), if_pos hdist]
  rfl

theorem processBytes_rep {c : ℕ} (hlow : 35 ≤ c) (hc : c ≤ 93) (ha : validChar (slot s.rx.bitbuf c) = false) :
    processBytes s c = processRep s (slot s.rx.bitbuf c) (slot s.rx.bitbuf (c - 35)) := by
  have hdist : (c : Int) - repDist = (c - 35 : ℕ) := (Int.ofNat_sub hlow).symm
  rw [processBytes, memRead7_eq_slot _ hc, ok_bind, if_neg (Bool.eq_false_iff.mp ha), hdist,
    if_neg (Int.natCast_nonneg _).not_gt, memRead7_eq_slot _ (by omega), ok_bind]

theorem processRep_valid (s : State) (a : Soft7) (hr : validChar r = true) :
    processRep s a r =
      .ok (if bitsToCode r = Codeword.rep then s else processChar s (bitsToCode r) pathRepCopy, 0) := by
  rw [processRep, if_pos hr]
  split <;> rfl

/-- R200, step 4, on two slots of the buffer. -/
theorem sumSoft_slots (b : BitBuf) (c : ℕ) :
    sumSoft (slot b c) (slot b (c - 35)) =
      if Soft7.fits (slotSum b c) then .ok (slotSum b c) else .error (.intRange .processBytes) := rfl

theorem processRep_sum_error {e : FaultRec} (s : State) (hr : validChar r = false) (hsum : sumSoft a r = .error e) :
    processRep s a r = .error e := by
  rw [processRep, if_neg (Bool.eq_false_iff.mp hr), hsum]
  rfl

theorem processRep_sum (s : State) (hr : validChar r = false) (hsum : sumSoft a r = .ok v) :
    processRep s a r =
      if validChar v then .ok (processChar s (bitsToCode v) pathAvg, -1) else processFlips s a r v := by
  rw [processRep, if_neg (Bool.eq_false_iff.mp hr), hsum]
  rfl

/-- R200, step 4 and what follows it, where the sums fit. -/
theorem processBytes_sum {c : ℕ} (hlow : 35 ≤ c) (hc : c ≤ 93) (ha : validChar (slot s.rx.bitbuf c) = false)
    (hr : validChar (slot s.rx.bitbuf (c - 35)) = false) (hfits : Soft7.fits (slotSum s.rx.bitbuf c) = true) :
    processBytes s c =
      if validChar (slotSum s.rx.bitbuf c) then .ok (processChar s (bitsToCode (slotSum s.rx.bitbuf c)) pathAvg, -1)
      else processFlips s (slot s.rx.bitbuf c) (slot s.rx.bitbuf (c - 35)) (slotSum s.rx.bitbuf c) :=
  (processBytes_rep hlow hc ha).trans (processRep_sum s hr ((sumSoft_slots _ c).trans (if_pos hfits)))

theorem processFlips_alpha (s : State) (r v : Soft7) (hfa : flipSmallest a = .ok fa) (hva : validChar fa = true) :
    processFlips s a r v = .ok (processChar s (bitsToCode fa) pathFlipAlpha, -1) := by
  rw [processFlips, hfa, ok_bind, if_pos hva]
  rfl

theorem processFlips_rep (s : State) (v : Soft7) (hfa : flipSmallest a = .ok fa) (hva : validChar fa = false)
    (hfr : flipSmallest r = .ok fr) (hvr : validChar fr = true) :
    processFlips s a r v = .ok (processChar s (bitsToCode fr) pathFlipRep, -1) := by
  rw [processFlips, hfa, ok_bind, if_neg (Bool.eq_false_iff.mp hva), hfr, ok_bind, if_pos hvr]
  rfl

theorem processFlips_sum (s : State) (hfa : flipSmallest a = .ok fa) (hva : validChar fa = false)
    (hfr : flipSmallest r = .ok fr) (hvr : validChar fr = false) (hfv : flipSmallest v = .ok fv) :
    processFlips s a r v =
      .ok (if validChar fv then (processChar s (bitsToCode fv) pathFlipAvg, -1) else (s, -2)) := by
  rw [processFlips, hfa, ok_bind, if_neg (Bool.eq_false_iff.mp hva), hfr, ok_bind, if_neg (Bool.eq_false_iff.mp hvr),
    hfv, ok_bind]
  split <;> rfl

/-! ## PROCESS_BYTES run alone (R200, R201) -/

theorem processBytes_next {c : BitVec 7} {n : Int} (hs : s.fault = none) (h : processBytes s c.toNat = .ok (t, n)) :
    exec (.processBytes c) s = .next (t.setRet (.int n)) :=
  congrArg _ (finish_map_ok hs h _)

theorem processBytes_next_error {c : BitVec 7} {e : FaultRec} (hs : s.fault = none)
    (h : processBytes s c.toNat = .error e) : exec (.processBytes c) s = .next (s.raise e) :=
  congrArg _ (finish_map_error hs h _)

/-- Settles O38: each step of the rule is one equation of `processBytes`. -/
theorem processBytesResult : Obligations.ProcessBytesResult := by
  unfold Obligations.ProcessBytesResult
  intro i s hs c a r v answer bothFail
  refine ⟨fun hpast => processBytes_next_error hs (processBytes_past hpast), fun hc => ?_⟩
  refine ⟨fun ha => processBytes_next hs (processBytes_valid hc ha),
    fun ha hlow => processBytes_next hs (processBytes_noRep hlow ha), fun ha hlow hr => ?_,
    fun ⟨ha, hlow, hr⟩ hwide => ?_, fun ⟨ha, hlow, hr⟩ hfits hv => ?_, fun ⟨ha, hlow, hr⟩ hfits hv fa hfa => ?_,
    fun hsmall => ?_⟩
  · refine (processBytes_next hs ((processBytes_rep hlow hc ha).trans (processRep_valid s a hr))).trans ?_
    rw [apply_ite (State.setRet · (.int 0))]
    rfl
  · have hsum : sumSoft a r = .error (.intRange .processBytes) :=
      (sumSoft_slots _ c).trans (if_neg (Bool.eq_false_iff.mp hwide))
    exact processBytes_next_error hs ((processBytes_rep hlow hc ha).trans (processRep_sum_error s hr hsum))
  · exact processBytes_next hs ((processBytes_sum hlow hc ha hr hfits).trans (if_pos hv))
  · have hflips : processBytes s c = processFlips s a r v :=
      (processBytes_sum hlow hc ha hr hfits).trans (if_neg (Bool.eq_false_iff.mp hv))
    refine ⟨fun hva => processBytes_next hs (hflips.trans (processFlips_alpha s r v hfa hva)), fun hva fr hfr => ?_⟩
    refine ⟨fun hvr => processBytes_next hs (hflips.trans (processFlips_rep s v hfa hva hfr hvr)), fun hvr fv hfv => ?_⟩
    have hlast := hflips.trans (processFlips_sum s hfa hva hfr hvr hfv)
    exact ⟨fun hvv => processBytes_next hs (hlast.trans (congrArg _ (if_pos hvv))),
      fun hvv => processBytes_next hs (hlast.trans (congrArg _ (if_neg (Bool.eq_false_iff.mp hvv))))⟩
  · obtain ⟨⟨t, n⟩, ht⟩ := (processBytes_rangeChecked s c).completes ⟨by omega, by omega, hsmall⟩
    obtain ⟨-, hfault, -⟩ := (processBytes_ok ht).1.slotRegs
    exact ⟨_, processBytes_next hs ht, hfault.trans hs⟩

/-- A return value of PROCESS_BYTES (R201). -/
abbrev IsCharge (n : Int) : Prop := n = 1 ∨ n = 0 ∨ n = -1 ∨ n = -2

/-- Whatever the computation answers carries a return value of R201. -/
def Charges (x : Except FaultRec (State × Int)) : Prop := ∀ p, x = .ok p → IsCharge p.2

theorem Charges.ok (t : State) {n : Int} (h : IsCharge n) : Charges (.ok (t, n)) := by
  rintro _ ⟨⟩
  exact h

theorem Charges.bind {α : Type} {f : α → Except FaultRec (State × Int)} (x : Except FaultRec α)
    (h : ∀ y, Charges (f y)) : Charges (x >>= f) := fun p hp => by
  obtain ⟨y, -, hy⟩ := bind_eq_ok_iff.mp hp
  exact h y p hy

theorem charges_processFlips (s : State) (a r v : Soft7) : Charges (processFlips s a r v) := by
  refine .bind _ fun fa => ?_
  split
  · exact .ok _ (by decide)
  refine .bind _ fun fr => ?_
  split
  · exact .ok _ (by decide)
  refine .bind _ fun fv => ?_
  split <;> exact .ok _ (by decide)

theorem charges_processRep (s : State) (a r : Soft7) : Charges (processRep s a r) := by
  unfold processRep
  split
  · split <;> exact .ok _ (by decide)
  refine .bind _ fun v => ?_
  split
  · exact .ok _ (by decide)
  · exact charges_processFlips s a r v

theorem charges_processBytes (s : State) (c : Int) : Charges (processBytes s c) := by
  refine .bind _ fun a => ?_
  split
  · exact .ok _ (by decide)
  split
  · exact .ok _ (by decide)
  · exact .bind _ fun r => charges_processRep s a r

/-- PROCESS_BYTES emits at most one record, a legal one (R86, R87). -/
theorem Decoded.out (h : Decoded s u) : u.out = s.out ∨ ∃ rec, u.out = s.out ++ [rec] ∧ RecordLegal rec := by
  cases h with
  | kept => exact .inl rfl
  | emitted v path hv hlow hhigh =>
    exact .inr ⟨_, processChar_out s _ path, recordLegal_recordOf _ (valid_bitsToCode hv) hlow hhigh⟩

/-- PROCESS_BYTES writes the two flags, `LAST_CODE` and `OUT` alone. -/
theorem Decoded.frame (h : Decoded s u) :
    u = { s with
      out := u.out
      rx := { s.rx with alphaPhase := u.rx.alphaPhase, shift := u.rx.shift, lastCode := u.rx.lastCode } } := by
  cases h <;> rfl

/-- Settles O39: what PROCESS_BYTES may decode, and the values it may return. -/
theorem processBytesFrame : Obligations.ProcessBytesFrame := by
  unfold Obligations.ProcessBytesFrame
  intro c s t hs h ht
  obtain ⟨⟨u, n⟩, hu, rfl⟩ := map_eq_ok_iff.mp (live_of_next h ht).2
  have hdecoded : Decoded s u := (processBytes_ok hu).1
  exact ⟨⟨n, rfl, charges_processBytes s _ _ hu⟩, hdecoded.out, congrArg (State.setRet · (.int n)) hdecoded.frame⟩

/-! ## REP after REP (R211) -/

/-- R211: a REP decoded in an alpha slot right after a REP clears the phase, which the slot then toggles back. -/
theorem smReadData_repRep (hcursor : s.rx.bitCursor.toNat < 93) (hphase : s.rx.alphaPhase = true)
    (hvalid : validChar (slot s.rx.bitbuf s.rx.bitCursor.toNat) = true)
    (hrep : bitsToCode (slot s.rx.bitbuf s.rx.bitCursor.toNat) = Codeword.rep) :
    smReadData s =
      .ok (passed (charged (processChar s Codeword.rep pathAlpha) (BitVec.ofInt 8 (chargedCount s 1)))) := by
  have hfits : chargedCount s 1 ≤ 255 := by
    have := s.rx.errorCount.isLt
    rw [chargedCount]
    omega
  have hdecode := processBytes_valid (by omega) hvalid
  rw [hrep] at hdecode
  rw [smReadData_slot hcursor, if_pos hphase, alphaSlot_of_decoded hdecode, if_pos hfits]
  rfl

theorem smReadData_next (hs : s.fault = none) (h : smReadData s = .ok t) : exec .smReadData s = .next t := by
  rw [exec, execSmReadData, h, finish_ok hs]

/-- Settles O43: the slot's state, field by field. -/
theorem repAfterRepSlipsOneSlot : Obligations.RepAfterRepSlipsOneSlot := by
  unfold Obligations.RepAfterRepSlipsOneSlot
  intro s hs hcursor hphase hvalid hrep hlast
  have hcleared : (processChar s Codeword.rep pathAlpha).rx.alphaPhase = false := if_pos ⟨rfl, hlast⟩
  have hadvance : (s.rx.bitCursor + 7#7).toNat = s.rx.bitCursor.toNat + 7 :=
    BitVec.toNat_add_of_lt (show s.rx.bitCursor.toNat + 7 < 128 by omega)
  exact ⟨_, smReadData_next hs (smReadData_repRep hcursor hphase hvalid hrep), hs, congrArg (!·) hcleared, rfl,
    hadvance, (congrArg List.length (processChar_out s _ _)).trans List.length_append, rfl⟩

end Machine
end Sys2Proof
end

section
/-! SUPPORT. A quotient, a remainder or a square root that is finite has a finite operand (spec R13, R234). -/

namespace Sys2Proof
namespace F64

/-- A check fails when another that it implies fails. -/
theorem eq_false_of_imp {a b : Bool} (h : a = true → b = true) (hb : b = false) : a = false :=
  eq_false_of_ne_true (mt h (ne_true_of_eq_false hb))

theorem isFinite_of_isFinite_div {x y : F64} (h : (div x y).isFinite = true) : x.isFinite = true := by
  by_contra hx
  rw [Bool.not_eq_true, not_isFinite_iff] at hx
  rw [← Bool.not_eq_false] at h
  refine h ?_
  unfold div
  dsimp only
  split
  · exact isFinite_nan
  next hnan =>
    rw [Bool.or_eq_true, not_or] at hnan
    rw [if_pos (hx.resolve_left hnan.1)]
    split
    · exact isFinite_nan
    · exact isFinite_infinity _

theorem isFinite_of_isFinite_fmod {x y : F64} (h : (fmod x y).isFinite = true) : x.isFinite = true := by
  by_contra hx
  rw [Bool.not_eq_true, not_isFinite_iff] at hx
  have hfmod : fmod x y = nan := by
    rw [fmod, if_pos]
    obtain hx | hx := hx <;> simp [hx]
  rw [hfmod] at h
  exact absurd h (by decide)

theorem isFinite_of_isFinite_sqrt {x : F64} (h : (sqrt x).isFinite = true) : x.isFinite = true := by
  unfold sqrt at h
  split_ifs at h with hnan hzero hsign hinf
  · exact absurd h (by decide)
  · exact h
  · exact absurd h (by decide)
  · exact h
  · by_contra hx
    rw [Bool.not_eq_true, not_isFinite_iff] at hx
    exact hx.elim hnan hinf

end F64
end Sys2Proof
end

section
/-! SUPPORT. Operands that are a NaN or an infinity (spec R234; log entry 13): a value computed from one is not finite, and
an operation run alone on one raises NUMERIC. -/

open Sys2Proof.Claims

namespace Sys2Proof
namespace Machine

open F64 Config

variable {s : State} {k : StepId}

/-! ## A finite result has finite operands -/

theorem isFinite_of_isFinite_mixRe {z : Cplx} {co si : F64} (h : (mixRe z co si).isFinite = true) :
    z.isFinite = true := by
  obtain ⟨hre, him⟩ := isFinite_of_isFinite_add h
  exact Bool.and_eq_true_iff.mpr ⟨(isFinite_of_isFinite_mul hre).1, (isFinite_of_isFinite_mul him).1⟩

theorem isFinite_of_isFinite_magnitude {y : Cplx}
    (h : (sqrt (add (mul y.re y.re) (mul y.im y.im))).isFinite = true) : y.isFinite = true := by
  obtain ⟨hre, him⟩ := isFinite_of_isFinite_add (isFinite_of_isFinite_sqrt h)
  exact Bool.and_eq_true_iff.mpr ⟨(isFinite_of_isFinite_mul hre).1, (isFinite_of_isFinite_mul him).1⟩

theorem isFinite_of_isFinite_decayed {avg v up down : F64} (h : (decayed avg v up down).isFinite = true) :
    v.isFinite = true :=
  (isFinite_of_isFinite_sub (isFinite_of_isFinite_div (isFinite_of_isFinite_add h).2)).1

theorem decayedPair_not_finite {avg avg' m sp up down : F64} (h : (m.isFinite && sp.isFinite) = false) :
    ((decayed avg m up down).isFinite && (decayed avg' sp up down).isFinite) = false := by
  refine eq_false_of_imp (fun hpair => ?_) h
  obtain ⟨hm, hsp⟩ := Bool.and_eq_true_iff.mp hpair
  exact Bool.and_eq_true_iff.mpr ⟨isFinite_of_isFinite_decayed hm, isFinite_of_isFinite_decayed hsp⟩

theorem isFinite_of_isFinite_atcValue {mc sc nf em es : F64} (h : (atcValue mc sc nf em es).isFinite = true) :
    (mc.isFinite && sc.isFinite && nf.isFinite) = true := by
  obtain ⟨hmark, hspace⟩ := isFinite_of_isFinite_sub (isFinite_of_isFinite_sub h).1
  obtain ⟨hmc, hnf⟩ := isFinite_of_isFinite_sub (isFinite_of_isFinite_mul hmark).1
  obtain ⟨hsc, -⟩ := isFinite_of_isFinite_sub (isFinite_of_isFinite_mul hspace).1
  rw [hmc, hsc, hnf]
  rfl

/-! ## Each computation raises NUMERIC on an operand that is not finite -/

theorem scale_raises {x : F64} (h : x.isFinite = false) : scale x = .error (.numeric .scale) :=
  scale_not_finite (eq_false_of_imp (fun hdv => (isFinite_of_isFinite_mul hdv).2) h)

theorem mix_raises (c : Config) {z : Cplx} (phi : F64) (h : z.isFinite = false) :
    mix c z phi = .error (.numeric .mix) := by
  rw [mix_eq, eq_false_of_imp isFinite_of_isFinite_mixRe h]
  simp

theorem mag_raises {y : Cplx} (h : y.isFinite = false) : mag y = .error (.numeric .mag) :=
  chk_not_finite (eq_false_of_imp isFinite_of_isFinite_magnitude h)

theorem envUpd_raises {m sp : F64} (h : (m.isFinite && sp.isFinite) = false) :
    envUpd s m sp = .error (.numeric .envUpd) := by
  rw [envUpd_eq, Bool.and_assoc, decayedPair_not_finite h, Bool.and_false]
  rfl

theorem noiseUpd_raises {m sp : F64} (h : (m.isFinite && sp.isFinite) = false) :
    noiseUpd s m sp = .error (.numeric .noiseUpd) := by
  rw [noiseUpd_eq, Bool.and_assoc, decayedPair_not_finite h, Bool.and_false]
  rfl

theorem clipOne_eq (c : Config) (v env nf : F64) :
    clipOne c v env nf =
      if v.isFinite && nf.isFinite && (fmax c.zeroPick (fmin c.zeroPick v env) nf).isFinite then
        .ok (fmax c.zeroPick (fmin c.zeroPick v env) nf)
      else .error (.numeric .clip) := by
  simp only [clipOne, chk_bind, Bool.and_eq_true, ite_and]
  rfl

/-- R135: a mark branch that is not clipped raises its own NUMERIC before the space branch is. -/
theorem clip_raises (c : Config) {m sp nf : F64} (h : (m.isFinite && sp.isFinite && nf.isFinite) = false) :
    clip c s m sp nf = .error (.numeric .clip) := by
  rw [clip, clipOne_eq, clipOne_eq]
  split
  next hm =>
    simp only [Bool.and_eq_true] at hm
    obtain ⟨⟨hm, hnf⟩, -⟩ := hm
    have hsp : sp.isFinite = false := by simpa [hm, hnf] using h
    rw [hsp]
    rfl
  · rfl

theorem atc_raises {mc sc nf : F64} (h : (mc.isFinite && sc.isFinite && nf.isFinite) = false) :
    atc s mc sc nf = .error (.numeric .atc) :=
  chk_not_finite (eq_false_of_imp isFinite_of_isFinite_atcValue h)

theorem softbit_raises (c : Config) {l : F64} (h : l.isFinite = false) :
    softbit c l = .error (.numeric .softbit) := by
  rw [softbit, h]
  rfl

theorem evtEarly_raises {t : F64} (h : t.isFinite = false) : evtEarly s t = .error (.numeric .evtEarly) := by
  rw [evtEarly, fires_not_finite h]
  rfl

theorem evtLate_raises {t : F64} (h : t.isFinite = false) : evtLate s t = .error (.numeric .evtLate) := by
  rw [evtLate, fires_not_finite h]
  rfl

theorem evtPrompt_raises {t : F64} (h : t.isFinite = false) : evtPrompt s t = .error (.numeric .evtPrompt) := by
  rw [evtPrompt, fires_not_finite h]
  rfl

theorem realign_raises {t : F64} (h : t.isFinite = false) : realign s t = .error (.numeric .realign) := by
  refine realign_not_timed (eq_false_of_imp (fun htimed => ?_) h)
  exact isFinite_of_isFinite_fmod (Bool.and_eq_true_iff.mp htimed).2

/-! ## The operations run alone -/

theorem next_finish_error {r : Except FaultRec State} {e : FaultRec} (hs : s.fault = none) (hr : r = .error e) :
    (.next (s.finish r) : Answer) = .next (s.raise e) := by
  rw [hr, finish_error hs]

theorem next_finish_map_error {α : Type} {r : Except FaultRec α} {e : FaultRec} (hs : s.fault = none)
    (hr : r = .error e) (g : α → State) : (.next (s.finish (r.map g)) : Answer) = .next (s.raise e) :=
  congrArg _ (finish_map_error hs hr g)

/-- Settles O59: operation by operation, the fault its computation raises. -/
theorem nonFiniteOperandsRaiseNumeric : Obligations.NonFiniteOperandsRaiseNumeric := by
  unfold Obligations.NonFiniteOperandsRaiseNumeric
  intro i k s hs hop
  cases i
  case scale =>
    obtain ⟨rfl, h⟩ := hop
    exact next_finish_map_error hs (scale_raises h) _
  case mix =>
    obtain ⟨rfl, h⟩ := hop
    exact next_finish_map_error hs (mix_raises machine _ h) _
  case lpfPush =>
    obtain ⟨rfl, h⟩ := hop
    exact next_finish_map_error hs (lpfPush_not_finite h) _
  case mag =>
    obtain ⟨rfl, h⟩ := hop
    exact next_finish_map_error hs (mag_raises h) _
  case envUpd =>
    obtain ⟨rfl, h⟩ := hop
    exact next_finish_error hs (envUpd_raises h)
  case noiseUpd =>
    obtain ⟨rfl, h⟩ := hop
    exact next_finish_error hs (noiseUpd_raises h)
  case clip =>
    obtain ⟨rfl, h⟩ := hop
    exact next_finish_map_error hs (clip_raises machine h) _
  case atc =>
    obtain ⟨rfl, h⟩ := hop
    exact next_finish_map_error hs (atc_raises h) _
  case softbit =>
    obtain ⟨rfl, h⟩ := hop
    exact next_finish_map_error hs (softbit_raises machine h) _
  case evtEarly =>
    obtain ⟨rfl, h⟩ := hop
    exact next_finish_error hs (evtEarly_raises h)
  case evtLate =>
    obtain ⟨rfl, h⟩ := hop
    exact next_finish_error hs (evtLate_raises h)
  case evtPrompt =>
    obtain ⟨rfl, h⟩ := hop
    exact next_finish_error hs (evtPrompt_raises h)
  case realign =>
    obtain ⟨rfl, h⟩ := hop
    exact next_finish_error hs (realign_raises h)
  all_goals exact False.elim hop

end Machine
end Sys2Proof
end

section
/-! SUPPORT. Precise faults, a block that holds a fault, and what a step does between commands (spec R46, R231, R236, R243,
R245). -/

namespace Sys2Proof
namespace Machine

open F64

variable {s : State} {e : FaultRec}

/-! ## Precise faults (R230, R231) -/

theorem precise_iff_code_le : e.precise = true ↔ e.code ≤ 5 := by
  cases e <;> simp [FaultRec.precise, FaultRec.code]

theorem execSample_rejected {x : F64} (hs : s.fault = none) (h : sampleChecks x s = .error e) :
    exec (.sample x) s = .next (s.raise e) := by
  rw [exec, execSample, hs, sampleWith, h]
  rfl

/-- R101: a NaN, an infinity and a magnitude above 1.0 are no legal sample. -/
theorem legalSample_eq_false {x : F64} (h : x.isNaN = true ∨ x.isInf = true ∨ lt one x.abs = true) :
    legalSample x = false := by
  rw [legalSample, Bool.and_eq_false_iff]
  by_cases hx : x.isFinite = true
  · have hlt : lt one x.abs = true := by simpa [isNaN_of_isFinite hx, isInf_of_isFinite hx] using h
    have habs : x.abs.isNaN = false := isNaN_of_isFinite (by rwa [isFinite_abs])
    rw [lt_iff (by decide) habs] at hlt
    right
    rw [← Bool.not_eq_true, le_iff habs (by decide)]
    exact not_le.mpr hlt
  · exact .inl (by simpa using hx)

/-- R84: CMD is neither that of RESET nor that of SAMPLE. -/
theorem decode_illegal {w : BitVec 66} (h : w.extractLsb' 64 2 = 0#2 ∨ w.extractLsb' 64 2 = 3#2) :
    decode (.command w) = .error (.illegalCommand (w.extractLsb' 64 2)) := by
  rw [decode, decodeCommand]
  obtain h | h := h <;> rw [h] <;> rfl

theorem runEvent_issue_of_decode_error {tx : Tx} {d : DecodeError} (h : decode tx = .error d) (s : State) :
    runEvent (.issue tx) s = refuseTx d s := by
  rw [runEvent, runTx, h]

/-- Settles O3: each check's fault is a precise one. -/
theorem commandFaultsArePrecise : Obligations.CommandFaultsArePrecise := by
  unfold Obligations.CommandFaultsArePrecise
  intro s hs
  refine ⟨fun x hconf => ?_, fun x hconf hx => ?_, fun w rest hinput hcmd => ?_⟩
  · have hchecks : sampleChecks x s = .error .notConfigured := by simp [sampleChecks, hconf]
    exact execSample_rejected hs hchecks
  · have hchecks : sampleChecks x s = .error (.inputDomain x.bits) := by
      simp [sampleChecks, hconf, legalSample_eq_false hx]
    exact execSample_rejected hs hchecks
  · have hlive : (s.setInput rest).fault = none := hs
    rw [step_of_input_cons hinput, runEvent_issue_of_decode_error (decode_illegal hcmd), refuseTx, finish_error hlive]
    rfl

/-! ## A block that holds a fault (R236, R237) -/

theorem exec_faulted (hs : s.fault = some e) (i : Instr) : exec i s = .next s := by
  have hfault : s.fault.isSome = true := by rw [hs]; rfl
  cases i
  case sample => exact if_pos hfault
  case ncoAdv => exact if_pos hfault
  all_goals exact congrArg _ (finish_faulted hs)

theorem refuseTx_of_faulted (hs : s.fault = some e) (d : DecodeError) : refuseTx d s = .next s := by
  have hfault : s.fault.isSome = true := by rw [hs]; rfl
  cases d with
  | illegalCommand cmd => exact congrArg _ (finish_faulted hs)
  | unknownStep id => exact if_pos hfault
  | operandBytes k => exact if_pos hfault

theorem runEvent_issue_faulted (hs : s.fault = some e) (tx : Tx) : runEvent (.issue tx) s = .next s := by
  cases h : decode tx with
  | ok i => rw [runEvent_issue_of_decode h, exec_faulted hs]
  | error d => rw [runEvent_issue_of_decode_error h, refuseTx_of_faulted hs]

/-- Settles O4: every operation and every refusal looks at `FAULT` first. -/
theorem faultEndsTheRun : Obligations.FaultEndsTheRun := by
  unfold Obligations.FaultEndsTheRun
  refine ⟨fun e s hs => ⟨exec_faulted hs, fun tx rest hinput => ?_, fun ⟨_, hlive⟩ => ?_⟩,
    fun e s => ⟨raise_fault s e, fun hcode => raise_precise (precise_iff_code_le.mpr hcode)⟩⟩
  · rw [step_of_input_cons hinput, runEvent_issue_faulted (s := s.setInput rest) hs]
    rfl
  · rw [hs] at hlive
    cases hlive

/-! ## Between commands (R46, R243, R245) -/

theorem step_idle (h : s.input = []) : step s = .next s := by
  rw [step, runNext, h]

theorem step_drain {rest : List HostEvent} (h : s.input = .drain :: rest) :
    step s = .next { s with input := rest, out := s.out.tail } :=
  step_of_input_cons h

/-- Settles O6: the tail of `OUT`, of one that is empty too. -/
theorem betweenCommands : Obligations.BetweenCommands := by
  unfold Obligations.BetweenCommands
  refine fun s => ⟨step_idle, fun rest hinput => ⟨fun r out hout => ?_, fun hout => ?_⟩⟩
  · rw [step_drain hinput, hout, List.tail_cons]
  · rw [step_drain hinput, hout, List.tail_nil, ← hout]

end Machine
end Sys2Proof
end

section
/-! SUPPORT. What RESET forgets, and the block at power-on (spec R250, R251, R252). -/

namespace Sys2Proof
namespace Machine

/-! ## RESET during a run (R252) -/

/-- R100: of the state before it, RESET reads `OUT`, `FAULT` and the host's fields and nothing else. -/
theorem resetState_congr (fs : BitVec 32) (rv so : Bool) {s s' : State} (hout : s.out = s'.out)
    (hfault : s.fault = s'.fault) (hinput : s.input = s'.input) (hret : s.ret = s'.ret) (hdraw : s.draw = s'.draw) :
    resetState fs rv so s = resetState fs rv so s' := by
  simp only [resetState, hout, hfault, hinput, hret, hdraw]

/-- Settles O2: both blocks hold no fault, and RESET reads nothing in which they differ. -/
theorem resetForgetsTheRun : Obligations.ResetForgetsTheRun := by
  unfold Obligations.ResetForgetsTheRun
  intro fs rv so s hs h
  refine ⟨resetState fs rv so s, execReset_legal rv so hs h, hs, ?_⟩
  rw [execReset_legal rv so rfl h]
  exact congrArg _ (resetState_congr fs rv so rfl hs.symm rfl rfl rfl)

/-! ## Power-on (R250) -/

/-- Settles O7: the three values R250 sets. -/
theorem powerOnState : Obligations.PowerOnState := by
  unfold Obligations.PowerOnState
  exact ⟨rfl, rfl, rfl⟩

/-- Log entry 3: power-on leaves the registers RESET leaves, but for the configuration and the first prompt and late
indices, which are zeros. -/
theorem powerOn_regsLegal : RegsLegal State.reset :=
  have hzero : F64.zero.isFinite = true := by decide
  { resetState_legal (fs := 1000#32) (by decide) false false State.reset with
    config := rfl
    reals := ⟨⟨hzero, hzero, hzero, hzero⟩, ⟨hzero, hzero, hzero⟩, hzero, hzero, hzero⟩ }

theorem powerOn_streamLegal : StreamLegal State.reset where
  errors := (by decide : (0#8).toNat ≤ 7)
  errorsRunning := fun h => absurd rfl h
  records := List.forall_mem_nil _
  last := .inl rfl
  twinHist := rfl
  fillM := (Nat.zero_mod _).symm
  fillS := (Nat.zero_mod _).symm
  count := by rw [show State.reset.lpfM.hist = [] from rfl, List.length_nil, Nat.zero_div]; rfl

/-- Settles O52: the registers and the stream of power-on are legal, and it holds no fault. -/
theorem invariantsHoldAtPowerOn : Obligations.InvariantsHoldAtPowerOn := by
  unfold Obligations.InvariantsHoldAtPowerOn
  exact ⟨fun _ => powerOn_regsLegal, fun _ => powerOn_streamLegal⟩

end Machine
end Sys2Proof
end
